-- ==== Sys2Proof/Word.lean ====
section
/-! DEFINITION. The plain word types of the RXPD block: bytes, 16-bit addresses, 32-bit words, the four
bytes of a transaction, and the four peripheral memory spaces. -/

namespace Sys2Proof

/-- One byte: the only access width of the block (20_memory.md R62, R68). -/
abbrev Byte := BitVec 8

/-- A byte address inside a space, as it stands in a transaction header (30_encoding.md R95). -/
abbrev Addr := BitVec 16

/-- A command word, or the four bytes of a transaction as one number (30_encoding.md R91, R96). -/
abbrev Word := BitVec 32

/-- The number of entries of the frequency plan (00_scope.md R6, `N_CHANNELS` = 25, fixed by the source). -/
abbrev nChannels : Nat := 25

/-- A channel index of the frequency plan (10_state.md R23: integer 0..24). -/
abbrev Channel := Fin nChannels

/-- One TX offset: 4 bits unsigned (10_state.md R43, 44_toc_calibrator.md R210). -/
abbrev Offset := BitVec 4

/-- The four peripheral memory spaces a transaction can address (10_state.md R33). -/
inductive Space where
  | wv   -- waveform RAM
  | rx   -- radio RX RAM
  | tx   -- radio TX RAM
  | us   -- user / control registers
deriving DecidableEq, Repr

/-- The four bytes of one direction of a transaction, in the order sent (20_memory.md R61 (a)):
`b0` is `T0` or `I0`, `b3` is the payload `T3` or the returned `I3`. -/
structure Quad where
  b0 : Byte
  b1 : Byte
  b2 : Byte
  b3 : Byte
deriving DecidableEq, Repr

end Sys2Proof
end

