-- ==== Sys2Proof/Config.lean ====
section
/-! DEFINITION. What an implementation fixes: the configuration record `Cfg` of 00_scope.md R6 with its
defaults and legal ranges, and the free values the spec leaves open (opaque constants without a body). -/

namespace Sys2Proof

/-- `READ_RETURN` (20_memory.md R65): which register the 4th inbound byte reports. -/
inductive ReadReturn where
  | same
  | previous
deriving DecidableEq, Repr

/-- `SKIP_WRAP` (43_fac_frequency.md R195): what a skip does at the band edge. -/
inductive SkipWrap where
  | reflect
  | modulo
deriving DecidableEq, Repr

/-- `CAL_STRATEGY` (44_toc_calibrator.md R217): which search the pseudo-instruction `CAL` means. -/
inductive CalStrategy where
  | brute
  | gradient
deriving DecidableEq, Repr

/-- `UserMap` (00_scope.md R6; 10_state.md R36 to R43): the bit positions inside user bytes 0..7.
Single-bit fields give the bit, wider fields the position of their least significant bit. -/
structure UserMap where
  go          : Nat   -- CTRL.GO
  irqAck      : Nat   -- CTRL.IRQ_ACK
  newQuery    : Nat   -- CTRL.NEW_QUERY
  endLoop     : Nat   -- CTRL.END_LOOP
  useI        : Nat   -- CTRL.USE_I
  useQ        : Nat   -- CTRL.USE_Q
  mode        : Nat   -- CTRL.MODE, 2 bits
  exitCode    : Nat   -- STATUS.EXIT_CODE, 4 bits
  progress    : Nat   -- STATUS.WRITE_PROGRESS, 4 bits
  brWnr       : Nat   -- BR_ADDR.BR_WNR
  brA         : Nat   -- BR_ADDR.BR_A, 7 bits
  brStart     : Nat   -- BR_CTRL.BR_START
  brDone      : Nat   -- BR_CTRL.BR_DONE
  testMode    : Nat   -- TEST.TEST_MODE
  useKillPkt  : Nat   -- TEST.USE_KILL_PKT
  ofsA        : Nat   -- TXOFS.OFS_A, 4 bits
  ofsB        : Nat   -- TXOFS.OFS_B, 4 bits
deriving DecidableEq, Repr

/-- The map of 10_state.md R36 to R43 as given there (92_eei_decisions.md D8 to D12). -/
def UserMap.default : UserMap where
  go := 0
  irqAck := 1
  newQuery := 2
  endLoop := 3
  useI := 4
  useQ := 5
  mode := 6
  exitCode := 0
  progress := 4
  brWnr := 7
  brA := 0
  brStart := 0
  brDone := 1
  testMode := 0
  useKillPkt := 1
  ofsA := 0
  ofsB := 4

/-- Every field lies inside its byte and the fields of one byte do not overlap. -/
def UserMap.wf (m : UserMap) : Bool :=
  let fits (bits : List Nat) : Bool := bits.all (· < 8) && decide bits.Nodup
  fits ([m.go, m.irqAck, m.newQuery, m.endLoop, m.useI, m.useQ] ++ (List.range 2).map (m.mode + ·))
  && fits ((List.range 4).map (m.exitCode + ·) ++ (List.range 4).map (m.progress + ·))
  && fits (m.brWnr :: (List.range 7).map (m.brA + ·))
  && fits [m.brStart, m.brDone]
  && fits [m.testMode, m.useKillPkt]
  && fits ((List.range 4).map (m.ofsA + ·) ++ (List.range 4).map (m.ofsB + ·))

/-- A field descriptor `(g, n)` (42_rxd_decoder.md R161): the global bit index of the first bit, and the length
in bits. -/
structure BitField where
  g : Nat
  n : Nat
deriving DecidableEq, Repr

/-- A field descriptor of the layout (42_rxd_decoder.md R163), where the table gives position or length in terms
of a byte count: position `g + gStep * k` and length `n + nStep * k` for `k` bytes. -/
structure FieldDesc where
  g     : Nat
  n     : Nat
  gStep : Nat := 0
  nStep : Nat := 0
deriving DecidableEq, Repr

/-- The descriptor `(g, n)` for a byte count. -/
def FieldDesc.at (d : FieldDesc) (k : Nat) : BitField := ⟨d.g + d.gStep * k, d.n + d.nStep * k⟩

/-- `RxLayout` (42_rxd_decoder.md R161, R163): the descriptor of every reply field, by name. -/
structure RxLayout where
  rn16Rn    : FieldDesc
  handleRn  : FieldDesc
  handleCrc : FieldDesc
  wrackHdr  : FieldDesc
  wrackRn   : FieldDesc
  wrackCrc  : FieldDesc
  readHdr   : FieldDesc
  readData  : FieldDesc
  readRn    : FieldDesc
  readCrc   : FieldDesc
  tagPc     : FieldDesc
  tagEpc    : FieldDesc
  tagCrc    : FieldDesc
  magMain   : FieldDesc
  magAlt    : FieldDesc
  lna       : FieldDesc
deriving DecidableEq, Repr

/-- The default layout, the columns `g` and `bits` of the table of 42_rxd_decoder.md R163. -/
def RxLayout.default : RxLayout where
  rn16Rn := ⟨0, 16, 0, 0⟩
  handleRn := ⟨16, 16, 0, 0⟩
  handleCrc := ⟨32, 16, 0, 0⟩
  wrackHdr := ⟨48, 1, 0, 0⟩
  wrackRn := ⟨49, 16, 0, 0⟩
  wrackCrc := ⟨65, 16, 0, 0⟩
  readHdr := ⟨88, 1, 0, 0⟩
  readData := ⟨89, 0, 0, 8⟩
  readRn := ⟨89, 16, 8, 0⟩
  readCrc := ⟨105, 16, 8, 0⟩
  tagPc := ⟨224, 16, 0, 0⟩
  tagEpc := ⟨240, 0, 0, 8⟩
  tagCrc := ⟨240, 16, 8, 0⟩
  magMain := ⟨356, 32, 0, 0⟩
  magAlt := ⟨388, 32, 0, 0⟩
  lna := ⟨424, 8, 0, 0⟩

/-- `MODE_VALUES` (00_scope.md R6, 10_state.md R36): the 2-bit codes of the peripheral's operating modes.
The source names inventory and PLL-check; the block never interprets any of them. -/
structure ModeValues where
  inventory : BitVec 2
  pllCheck  : BitVec 2
  others    : List (BitVec 2)
deriving DecidableEq, Repr

/-- The configuration record `Cfg` (00_scope.md R6), the argument of the step relation; it never changes
during a run (10_state.md R21). `N_CHANNELS` = 25 and `WRITE_VERIFY_ATTEMPTS` = 3 are fixed by the source
and stand as constants. -/
structure Cfg where
  freqCode      : List Nat       -- FREQ_CODE[0..24]
  freqCodeBytes : Nat            -- FREQ_CODE_BYTES
  sdrFrfRxAddr  : Nat            -- SDR_FRF_RX_ADDR
  sdrFrfTxAddr  : Nat            -- SDR_FRF_TX_ADDR
  hopStep       : Nat            -- HOP_STEP
  skipOffset    : Nat            -- SKIP_OFFSET
  skipWrap      : SkipWrap       -- SKIP_WRAP
  dwellMaxRuns  : Nat            -- DWELL_MAX_RUNS
  nonceBits     : Nat            -- NONCE_BITS
  bridgePollMax : Nat            -- BRIDGE_POLL_MAX
  readReturn    : ReadReturn     -- READ_RETURN
  wvramSize     : Nat            -- WVRAM_SIZE
  rxramSize     : Nat            -- RXRAM_SIZE
  txramSize     : Nat            -- TXRAM_SIZE
  userSize      : Nat            -- USER_SIZE
  userMap       : UserMap        -- UserMap
  modeValues    : ModeValues     -- MODE_VALUES
  rxLayout      : RxLayout       -- RxLayout
  epcLen        : Nat            -- EPC_LEN
  calStrategy   : CalStrategy    -- CAL_STRATEGY
  calStart      : Offset × Offset -- CAL_START
  calMaxIter    : Nat            -- CAL_MAX_ITER
  sampleBits    : Nat            -- SAMPLE_BITS
deriving DecidableEq, Repr

/-- `WRITE_VERIFY_ATTEMPTS` = 3, fixed by the source (00_scope.md R6, 90_conflicts.md C2). -/
abbrev Config.writeVerifyAttempts : Nat := 3

/-- The number of SDR registers (20_memory.md R77: 7-bit addresses). -/
abbrev Config.sdrSize : Nat := 128

/-- FREE VALUE (00_scope.md R6, OPEN): the 3-byte transceiver code of a channel. Log 7. -/
opaque Config.freqCode : Nat → BitVec 24

/-- FREE VALUE (00_scope.md R6, OPEN): the code of inventory mode. Log 7. -/
opaque Config.modeInventory : BitVec 2

/-- FREE VALUE (00_scope.md R6, OPEN): how far the code of PLL-check mode lies from inventory mode's, less
one; `Fin 3`, because the two codes are distinct. Log 7. -/
opaque Config.modePllCheckGap : Fin 3

/-- FREE VALUE (00_scope.md R6, OPEN): codes of further operating modes, which the source does not name. Log 7. -/
opaque Config.modeOthers : List (BitVec 2)

/-- FREE VALUE: the byte the environment draws where the spec gives it no law (20_memory.md R64:
`i0`, `i1`, `i2` of every transaction, `i3` of a write; R65: the first answer under `previous`;
93_implementation_defined.md U1, U5), for the draw of this number. Log 4. -/
opaque Config.draw : Nat → Byte

/-- The frequency plan left free: 25 codes of 3 bytes. -/
def Config.openFreqCode : List Nat :=
  (List.range nChannels).map fun c => (Config.freqCode c).toNat

/-- The code of PLL-check mode left free, distinct from inventory mode's. -/
def Config.modePllCheck : BitVec 2 := Config.modeInventory + BitVec.ofNat 2 (Config.modePllCheckGap.val + 1)

/-- The mode codes left free: the two the source names and any others, all distinct. -/
def Config.openModeValues : ModeValues where
  inventory := Config.modeInventory
  pllCheck := Config.modePllCheck
  others := (Config.modeOthers.filter fun x => x != Config.modeInventory && x != Config.modePllCheck).dedup

/-- The default configuration (00_scope.md R6, column "default"); OPEN parameters are free values. -/
def Cfg.default : Cfg where
  freqCode := Config.openFreqCode
  freqCodeBytes := 3
  sdrFrfRxAddr := 0x01
  sdrFrfTxAddr := 0x04
  hopStep := 7
  skipOffset := 1
  skipWrap := .reflect
  dwellMaxRuns := 12
  nonceBits := 8
  bridgePollMax := 5
  readReturn := .same
  wvramSize := 8192
  rxramSize := 512
  txramSize := 512
  userSize := 8
  userMap := UserMap.default
  modeValues := Config.openModeValues
  rxLayout := RxLayout.default
  epcLen := 12
  calStrategy := .brute
  calStart := (8, 8)
  calMaxIter := 32
  sampleBits := 16

/-- A field has a length that its register can hold, and lies inside RX RAM (42_rxd_decoder.md R161). -/
def Cfg.fieldFits (c : Cfg) (width : Nat) (f : BitField) : Bool :=
  1 ≤ f.n && f.n ≤ width && (f.g + f.n - 1) / 8 < c.rxramSize

/-- A well-formed layout (42_rxd_decoder.md R161), for every legal `n` and for `EPC_LEN`: no field is longer than
the register it fills (10_state.md R28, R29), the data of a read reply and the EPC are whole bytes. -/
def Cfg.layoutFits (c : Cfg) : Bool :=
  let l := c.rxLayout
  [l.rn16Rn, l.handleRn, l.handleCrc, l.wrackRn, l.wrackCrc].all (fun d => c.fieldFits 16 (d.at 0))
  && [l.wrackHdr, l.readHdr].all (fun d => c.fieldFits 1 (d.at 0))
  && (List.range 12).all (fun k =>
    c.fieldFits (8 * (k + 1)) (l.readData.at (k + 1)) && (l.readData.at (k + 1)).n == 8 * (k + 1)
    && c.fieldFits 16 (l.readRn.at (k + 1)) && c.fieldFits 16 (l.readCrc.at (k + 1)))
  && c.fieldFits 16 (l.tagPc.at c.epcLen)
  && c.fieldFits (8 * c.epcLen) (l.tagEpc.at c.epcLen) && (l.tagEpc.at c.epcLen).n == 8 * c.epcLen
  && c.fieldFits 16 (l.tagCrc.at c.epcLen)
  && c.fieldFits 32 (l.magMain.at 0) && c.fieldFits 32 (l.magAlt.at 0) && c.fieldFits 8 (l.lna.at 0)

/-- The constraints of 00_scope.md R6 (with 42_rxd_decoder.md R161 for the layout). -/
def Cfg.wf (c : Cfg) : Bool :=
  c.freqCode.length == nChannels && c.freqCode.all (· < 2 ^ (8 * c.freqCodeBytes))
  && 1 ≤ c.freqCodeBytes
  && c.sdrFrfRxAddr ≤ 125 && c.sdrFrfTxAddr ≤ 125
  && 1 ≤ c.hopStep && c.hopStep ≤ 24 && c.hopStep.gcd nChannels == 1
  && 1 ≤ c.skipOffset && c.skipOffset ≤ 12
  && 1 ≤ c.dwellMaxRuns && 1 ≤ c.nonceBits
  && 3 ≤ c.bridgePollMax && c.bridgePollMax ≤ 5
  && 1 ≤ c.wvramSize && c.wvramSize ≤ 65536
  && 0x36 ≤ c.rxramSize && c.rxramSize ≤ 65536
  && 1 ≤ c.txramSize && c.txramSize ≤ 65536
  && 8 ≤ c.userSize
  && c.userMap.wf
  && decide (c.modeValues.inventory :: c.modeValues.pllCheck :: c.modeValues.others).Nodup
  && c.layoutFits
  && 1 ≤ c.epcLen && c.epcLen ≤ 12
  && 1 ≤ c.calMaxIter && 1 ≤ c.sampleBits

end Sys2Proof
end

