-- ==== Sys2Proof/Syntax.lean ====
section
/-! DEFINITION. The instructions: one constructor of `Instr` per row of spec/opcode_table.json (29 command
operations, 8 wire-level transactions), their operand types, and the pseudo-instructions of
30_encoding.md R104. -/

namespace Sys2Proof

/-- The four event flags by name (10_state.md R27); the constructors stand in the order of their indices. -/
inductive Event where
  | radioDone    -- 0
  | hostAckA     -- 1
  | hostAckB     -- 2
  | sampleReady  -- 3
deriving DecidableEq, Repr

/-- The two receive channels (00_scope.md R15: 0 is I, 1 is Q). -/
inductive Chan where
  | I
  | Q
deriving DecidableEq, Repr

/-- The return flags of `DEC.TAG` (30_encoding.md R97 (a)): EPC bytes, magnitudes, LNA gain. -/
structure TagFlags where
  e : Bool
  m : Bool
  l : Bool
deriving DecidableEq, Repr

/-- One constructor per row of the opcode table. Operands are the fields of the command formats of
30_encoding.md R96 at their full width, or the address and data bytes of a transaction (R93). -/
inductive Instr where
  -- RTX, 40_rtx_transactions.md
  | rdWv (addr : Addr)
  | rdRx (addr : Addr)
  | rdTx (addr : Addr)
  | rdUs (addr : Addr)
  | wrWv (addr : Addr) (val : Byte)
  | wrRx (addr : Addr) (val : Byte)
  | wrTx (addr : Addr) (val : Byte)
  | wrUs (addr : Addr) (val : Byte)
  | wrvWv (addr : Addr) (val : Byte)
  | wrvRx (addr : Addr) (val : Byte)
  | wrvTx (addr : Addr) (val : Byte)
  | wrvUs (addr : Addr) (val : Byte)
  | brd (sa : Byte)
  | bwr (sa : Byte) (val : Byte)
  -- EVT, 41_evt_events.md
  | evclr (ev : Event)
  | evwait (ev : Event)
  -- RXD, 42_rxd_decoder.md
  | resNew
  | decRn16
  | decHandle
  | decRead (n : BitVec 4)
  | decWrack
  | decTag (ch : Chan) (flags : TagFlags)
  | resFail (ch : Chan)
  -- FAC, 43_fac_frequency.md
  | hop
  | setCh (ch : BitVec 5)
  | skip
  | alt
  -- TOC, 44_toc_calibrator.md
  | calBrute
  | calGrad
  -- wire-level transactions, 30_encoding.md R93
  | txnRdWv (addr : Addr)
  | txnWrWv (addr : Addr) (data : Byte)
  | txnRdRx (addr : Addr)
  | txnWrRx (addr : Addr) (data : Byte)
  | txnRdTx (addr : Addr)
  | txnWrTx (addr : Addr) (data : Byte)
  | txnRdUs (addr : Addr)
  | txnWrUs (addr : Addr) (data : Byte)
deriving DecidableEq, Repr

/-- What the outside hands in: a command word on the command port (30_encoding.md R96), or the four bytes of
one transaction on the wire, as one number (R91). The two encodings are separate spaces (R90). -/
inductive Input where
  | command (w : Word)
  | wire (w : Word)
deriving DecidableEq, Repr

/-- The pseudo-instructions of 30_encoding.md R104. `m` is a byte whose mode bits the client wants kept in
`CTRL`; its trigger bits are ignored. -/
inductive Pseudo where
  | cal
  | go (m : Byte)
  | irqack (m : Byte)
  | newq (m : Byte)
  | endloop (m : Byte)
  | setmode (m : Byte)
  | exit
  | setofs (a b : Offset)
  | run (m : Byte)
deriving DecidableEq, Repr

/-- Whether an instruction is a wire-level transaction and not a command of the block. -/
def Instr.isTxn : Instr → Bool
  | .txnRdWv _ | .txnWrWv _ _ | .txnRdRx _ | .txnWrRx _ _
  | .txnRdTx _ | .txnWrTx _ _ | .txnRdUs _ | .txnWrUs _ _ => true
  | .rdWv _ | .rdRx _ | .rdTx _ | .rdUs _ | .wrWv _ _ | .wrRx _ _ | .wrTx _ _ | .wrUs _ _
  | .wrvWv _ _ | .wrvRx _ _ | .wrvTx _ _ | .wrvUs _ _ | .brd _ | .bwr _ _ | .evclr _ | .evwait _
  | .resNew | .decRn16 | .decHandle | .decRead _ | .decWrack | .decTag _ _ | .resFail _
  | .hop | .setCh _ | .skip | .alt | .calBrute | .calGrad => false

end Sys2Proof
end

