-- ==== Sys2Proof/WellFormed.lean ====
section
/-! DEFINITION. Which instructions have operands inside their legal range (30_encoding.md R101 step 3, less
the dwell limit, which depends on the state; R95 for transactions). The operand types already fix the
widths, so every `Instr` can be encoded; an ill-formed one decodes and is rejected by the block. -/

namespace Sys2Proof

/-- The size in bytes of a space (40_rtx_transactions.md R121). -/
def Cfg.size (c : Cfg) : Space → Nat
  | .wv => c.wvramSize
  | .rx => c.rxramSize
  | .tx => c.txramSize
  | .us => c.userSize

/-- An address inside its space (20_memory.md R63). -/
def Cfg.addrOk (c : Cfg) (spc : Space) (addr : Addr) : Bool :=
  addr.toNat < c.size spc

/-- No trigger bit of `CTRL` is set in a byte (10_state.md R36). -/
def UserMap.noTrigger (m : UserMap) (v : Byte) : Bool :=
  !(v.getLsbD m.go || v.getLsbD m.irqAck || v.getLsbD m.newQuery || v.getLsbD m.endLoop)

/-- A user byte that a verified write may address (40_rtx_transactions.md R126: not `STATUS`, `BR_RDATA`,
`BR_CTRL`). -/
def verifiable (addr : Addr) : Bool :=
  addr != 1 && addr != 4 && addr != 5

/-- The operands lie in their legal ranges. -/
def Instr.wellFormed (c : Cfg) : Instr → Bool
  | .rdWv a | .wrWv a _ | .wrvWv a _ | .txnRdWv a | .txnWrWv a _ => c.addrOk .wv a
  | .rdRx a | .wrRx a _ | .wrvRx a _ | .txnRdRx a | .txnWrRx a _ => c.addrOk .rx a
  | .rdTx a | .wrTx a _ | .wrvTx a _ | .txnRdTx a | .txnWrTx a _ => c.addrOk .tx a
  | .rdUs a | .wrUs a _ | .txnRdUs a | .txnWrUs a _ => c.addrOk .us a
  | .wrvUs a v =>
    c.addrOk .us a && verifiable a && (a != 0 || c.userMap.noTrigger v)
  | .brd sa | .bwr sa _ => sa.toNat ≤ 127
  | .decRead n => n != 0 && n.toNat ≤ 12
  | .setCh ch => ch.toNat ≤ 24
  | .evclr _ | .evwait _ | .resNew | .decRn16 | .decHandle | .decWrack | .decTag _ _ | .resFail _
  | .hop | .skip | .alt | .calBrute | .calGrad => true

end Sys2Proof
end

