-- ==== Sys2Proof/Decode.lean ====
section
/-! DEFINITION. The two decoders (command words, 30_encoding.md R96 to R102; transaction headers, R91 to R95),
total and rejecting by name, then the encoders written from the same tables, the host's `decodeTableWord`,
and the expansion of the pseudo-instructions (R104). -/

namespace Sys2Proof

-- ---------------------------------------------------------------- transaction headers

/-- A decoded transaction header: space, direction and address (30_encoding.md R92, R93). -/
structure Header where
  spc   : Space
  write : Bool
  addr  : Addr
deriving DecidableEq, Repr

/-- `T0` of a legal header (30_encoding.md R93, column `T0` hex). -/
def headerByte : Space → Bool → Byte
  | .wv, false => 0x40
  | .wv, true  => 0x60
  | .rx, false => 0x80
  | .rx, true  => 0xA0
  | .tx, false => 0x90
  | .tx, true  => 0xB0
  | .us, false => 0xC0
  | .us, true  => 0xE0

/-- `EncodeHeader(spc, rw, addr)` with the payload byte behind it (30_encoding.md R93, R91, R95). -/
def encodeTxn (h : Header) (payload : Byte) : Quad where
  b0 := headerByte h.spc h.write
  b1 := h.addr.extractLsb' 8 8
  b2 := h.addr.extractLsb' 0 8
  b3 := payload

/-- Space and direction of `T0`; `none` for the reserved values (30_encoding.md R94). -/
def decodeHeaderByte (t0 : Byte) : Option (Space × Bool) :=
  match t0.toNat with
  | 0x40 => some (.wv, false)
  | 0x60 => some (.wv, true)
  | 0x80 => some (.rx, false)
  | 0xA0 => some (.rx, true)
  | 0x90 => some (.tx, false)
  | 0xB0 => some (.tx, true)
  | 0xC0 => some (.us, false)
  | 0xE0 => some (.us, true)
  | _ => none

/-- `DecodeHeader(t0, t1, t2)` (30_encoding.md R93): `none` is the table's `invalid`. The address is
`T1 * 256 + T2` (R95). -/
def decodeHeader (q : Quad) : Option Header :=
  match decodeHeaderByte q.b0 with
  | some (spc, write) => some ⟨spc, write, (q.b1.setWidth 16 <<< 8) ||| q.b2.setWidth 16⟩
  | none => none

/-- The four bytes of a transaction given as one number, `T0` most significant (30_encoding.md R91). -/
def quadOfWord (w : Word) : Quad where
  b0 := w.extractLsb' 24 8
  b1 := w.extractLsb' 16 8
  b2 := w.extractLsb' 8 8
  b3 := w.extractLsb' 0 8

/-- `T0 ++ T1 ++ T2 ++ T3` (30_encoding.md R91). -/
def wordOfQuad (q : Quad) : Word :=
  (q.b0.setWidth 32 <<< 24) ||| (q.b1.setWidth 32 <<< 16) ||| (q.b2.setWidth 32 <<< 8) ||| q.b3.setWidth 32

/-- The transaction a 32-bit pattern spells (30_encoding.md R93): a legal header, and `T3` = 0x00 on a read. -/
def decodeWire (w : Word) : Option Instr :=
  let q := quadOfWord w
  match decodeHeader q with
  | none => none
  | some h =>
    if h.write then
      match h.spc with
      | .wv => some (.txnWrWv h.addr q.b3)
      | .rx => some (.txnWrRx h.addr q.b3)
      | .tx => some (.txnWrTx h.addr q.b3)
      | .us => some (.txnWrUs h.addr q.b3)
    else if q.b3 = 0 then
      match h.spc with
      | .wv => some (.txnRdWv h.addr)
      | .rx => some (.txnRdRx h.addr)
      | .tx => some (.txnRdTx h.addr)
      | .us => some (.txnRdUs h.addr)
    else none

-- ---------------------------------------------------------------- command words

/-- Why a command word spells no operation (30_encoding.md R101, steps 1 and 2). -/
inductive DecodeError where
  | badOpcode   -- bits 31:24 are not one of the 29 opcodes
  | badOperand  -- a reserved bit is set (`w AND mask != match`)
deriving DecidableEq, Repr

/-- `w[15:0]`-style operand fields of the formats of 30_encoding.md R96. -/
def fieldAddr (w : Word) : Addr := w.extractLsb' 8 16
def fieldVal  (w : Word) : Byte := w.extractLsb' 0 8
def fieldSa   (w : Word) : Byte := w.extractLsb' 16 8
def fieldBval (w : Word) : Byte := w.extractLsb' 8 8

/-- An event index as its flag (10_state.md R27). -/
def eventOfIndex (i : BitVec 2) : Event :=
  match i.toNat with
  | 0 => .radioDone
  | 1 => .hostAckA
  | 2 => .hostAckB
  | _ => .sampleReady

/-- The index of a flag (10_state.md R27). -/
def Event.index : Event → BitVec 2
  | .radioDone => 0
  | .hostAckA => 1
  | .hostAckB => 2
  | .sampleReady => 3

/-- Channel bit `w[8]` of format D (30_encoding.md R96). -/
def fieldChan (w : Word) : Chan := if w.getLsbD 8 then .Q else .I

/-- The channel bit of a channel: 0 = I, 1 = Q. -/
def Chan.bit : Chan → BitVec 1
  | .I => 0
  | .Q => 1

/-- The flag bits `k[2:0]` of `DEC.TAG` (30_encoding.md R97 (a)). -/
def fieldFlags (w : Word) : TagFlags := ⟨w.getLsbD 0, w.getLsbD 1, w.getLsbD 2⟩

/-- `k[3:0]` of a flag set, `k[3]` = 0. -/
def TagFlags.bits (f : TagFlags) : BitVec 4 :=
  (if f.l then 4#4 else 0) ||| (if f.m then 2#4 else 0) ||| (if f.e then 1#4 else 0)

/-- The operation of a word whose reserved bits (the bits of `mask` below the opcode) are all 0. -/
def fitted (w mask : Word) (i : Instr) : Except DecodeError Instr :=
  if w &&& mask = 0 then .ok i else .error .badOperand

/-- The command decoder (30_encoding.md R100, R101 steps 1 and 2): the opcode first, then the reserved bits;
the second argument of `fitted` is the row's mask less the opcode byte. -/
def decodeCommand (w : Word) : Except DecodeError Instr :=
  match (w.extractLsb' 24 8).toNat with
  | 0x10 => fitted w 0x000000FF (.rdWv (fieldAddr w))
  | 0x11 => fitted w 0x000000FF (.rdRx (fieldAddr w))
  | 0x12 => fitted w 0x000000FF (.rdTx (fieldAddr w))
  | 0x13 => fitted w 0x000000FF (.rdUs (fieldAddr w))
  | 0x14 => fitted w 0x00000000 (.wrWv (fieldAddr w) (fieldVal w))
  | 0x15 => fitted w 0x00000000 (.wrRx (fieldAddr w) (fieldVal w))
  | 0x16 => fitted w 0x00000000 (.wrTx (fieldAddr w) (fieldVal w))
  | 0x17 => fitted w 0x00000000 (.wrUs (fieldAddr w) (fieldVal w))
  | 0x18 => fitted w 0x00000000 (.wrvWv (fieldAddr w) (fieldVal w))
  | 0x19 => fitted w 0x00000000 (.wrvRx (fieldAddr w) (fieldVal w))
  | 0x1A => fitted w 0x00000000 (.wrvTx (fieldAddr w) (fieldVal w))
  | 0x1B => fitted w 0x00000000 (.wrvUs (fieldAddr w) (fieldVal w))
  | 0x1C => fitted w 0x0000FFFF (.brd (fieldSa w))
  | 0x1D => fitted w 0x000000FF (.bwr (fieldSa w) (fieldBval w))
  | 0x20 => fitted w 0x00FFFFFC (.evclr (eventOfIndex (w.extractLsb' 0 2)))
  | 0x21 => fitted w 0x00FFFFFC (.evwait (eventOfIndex (w.extractLsb' 0 2)))
  | 0x30 => fitted w 0x00FFFFFF .resNew
  | 0x31 => fitted w 0x00FFFFFF .decRn16
  | 0x32 => fitted w 0x00FFFFFF .decHandle
  | 0x33 => fitted w 0x00FFFFF0 (.decRead (w.extractLsb' 0 4))
  | 0x34 => fitted w 0x00FFFFFF .decWrack
  | 0x35 => fitted w 0x00FFFEF8 (.decTag (fieldChan w) (fieldFlags w))
  | 0x36 => fitted w 0x00FFFEFF (.resFail (fieldChan w))
  | 0x40 => fitted w 0x00FFFFFF .hop
  | 0x41 => fitted w 0x00FFFFE0 (.setCh (w.extractLsb' 0 5))
  | 0x42 => fitted w 0x00FFFFFF .skip
  | 0x43 => fitted w 0x00FFFFFF .alt
  | 0x51 => fitted w 0x00FFFFFF .calBrute
  | 0x52 => fitted w 0x00FFFFFF .calGrad
  | _ => .error .badOpcode

/-- What an input spells: a command on the command port, a transaction on the wire (30_encoding.md R90). -/
def decode : Input → Option Instr
  | .command w => (decodeCommand w).toOption
  | .wire w => decodeWire w

-- ---------------------------------------------------------------- encoders

/-- A command word from its opcode and its 24 operand bits (30_encoding.md R96). -/
def commandWord (opcode : Byte) (operands : BitVec 24) : Word :=
  (opcode.setWidth 32 <<< 24) ||| operands.setWidth 32

/-- Format A: `addr` in 23:8, `val` in 7:0. -/
def formatA (addr : Addr) (val : Byte) : BitVec 24 := (addr.setWidth 24 <<< 8) ||| val.setWidth 24
/-- Format B: `sa` in 23:16, `val` in 15:8. -/
def formatB (sa val : Byte) : BitVec 24 := (sa.setWidth 24 <<< 16) ||| (val.setWidth 24 <<< 8)
/-- Format E: `ev` in 1:0. -/
def formatE (ev : Event) : BitVec 24 := ev.index.setWidth 24
/-- Format D: `ch` in 8, `k` in 3:0. -/
def formatD (ch : BitVec 1) (k : BitVec 4) : BitVec 24 := (ch.setWidth 24 <<< 8) ||| k.setWidth 24
/-- Format F: `ch` in 4:0. -/
def formatF (ch : BitVec 5) : BitVec 24 := ch.setWidth 24

/-- The 32-bit word of an instruction: a command word (30_encoding.md R96, R100), or the outbound bytes of a
transaction as one number (R91, R93). -/
def encode : Instr → Word
  | .rdWv a => commandWord 0x10 (formatA a 0)
  | .rdRx a => commandWord 0x11 (formatA a 0)
  | .rdTx a => commandWord 0x12 (formatA a 0)
  | .rdUs a => commandWord 0x13 (formatA a 0)
  | .wrWv a v => commandWord 0x14 (formatA a v)
  | .wrRx a v => commandWord 0x15 (formatA a v)
  | .wrTx a v => commandWord 0x16 (formatA a v)
  | .wrUs a v => commandWord 0x17 (formatA a v)
  | .wrvWv a v => commandWord 0x18 (formatA a v)
  | .wrvRx a v => commandWord 0x19 (formatA a v)
  | .wrvTx a v => commandWord 0x1A (formatA a v)
  | .wrvUs a v => commandWord 0x1B (formatA a v)
  | .brd sa => commandWord 0x1C (formatB sa 0)
  | .bwr sa v => commandWord 0x1D (formatB sa v)
  | .evclr e => commandWord 0x20 (formatE e)
  | .evwait e => commandWord 0x21 (formatE e)
  | .resNew => commandWord 0x30 0
  | .decRn16 => commandWord 0x31 0
  | .decHandle => commandWord 0x32 0
  | .decRead n => commandWord 0x33 (formatD 0 n)
  | .decWrack => commandWord 0x34 0
  | .decTag ch f => commandWord 0x35 (formatD ch.bit f.bits)
  | .resFail ch => commandWord 0x36 (formatD ch.bit 0)
  | .hop => commandWord 0x40 0
  | .setCh ch => commandWord 0x41 (formatF ch)
  | .skip => commandWord 0x42 0
  | .alt => commandWord 0x43 0
  | .calBrute => commandWord 0x51 0
  | .calGrad => commandWord 0x52 0
  | .txnRdWv a => wordOfQuad (encodeTxn ⟨.wv, false, a⟩ 0)
  | .txnWrWv a d => wordOfQuad (encodeTxn ⟨.wv, true, a⟩ d)
  | .txnRdRx a => wordOfQuad (encodeTxn ⟨.rx, false, a⟩ 0)
  | .txnWrRx a d => wordOfQuad (encodeTxn ⟨.rx, true, a⟩ d)
  | .txnRdTx a => wordOfQuad (encodeTxn ⟨.tx, false, a⟩ 0)
  | .txnWrTx a d => wordOfQuad (encodeTxn ⟨.tx, true, a⟩ d)
  | .txnRdUs a => wordOfQuad (encodeTxn ⟨.us, false, a⟩ 0)
  | .txnWrUs a d => wordOfQuad (encodeTxn ⟨.us, true, a⟩ d)

/-- An instruction as the input that spells it: commands on the command port, transactions on the wire. -/
def Instr.input (i : Instr) : Input :=
  if i.isTxn then .wire (encode i) else .command (encode i)

/-- The port on which a bare 32-bit word is read (log 12): the command port where the command decoder reads an
operation from it or where the wire decoder reads none, the wire otherwise. -/
def inputOfWord (w : Word) : Input :=
  match decodeCommand w with
  | .ok _ => .command w
  | .error _ =>
    match decodeWire w with
    | some _ => .wire w
    | none => .command w

/-- The instruction the decoder reads from a word of the opcode table, numbered as the table numbers it: every
row is one 32-bit word with bit 0 its least significant bit (30_encoding.md R102). -/
def decodeTableWord (nbits w : Nat) : Option Instr :=
  if nbits ≤ 32 ∧ w < 2 ^ 32 then decode (inputOfWord (BitVec.ofNat 32 w)) else none

-- ---------------------------------------------------------------- pseudo-instructions

/-- The commands a pseudo-instruction stands for (30_encoding.md R104). -/
def Pseudo.expand (c : Cfg) : Pseudo → List Instr
  | .cal => [match c.calStrategy with | .brute => .calBrute | .gradient => .calGrad]
  | .go m => [.wrUs 0 ((m &&& 0xF0) ||| 0x01)]
  | .irqack m => [.wrUs 0 ((m &&& 0xF0) ||| 0x02)]
  | .newq m => [.wrUs 0 ((m &&& 0xF0) ||| 0x04)]
  | .endloop m => [.wrUs 0 ((m &&& 0xF0) ||| 0x08)]
  | .setmode m => [.wrvUs 0 (m &&& 0xF0)]
  | .exit => [.rdUs 1]
  | .setofs a b => [.wrvUs 7 ((b.setWidth 8 <<< 4) ||| a.setWidth 8)]
  | .run m => [.evclr .radioDone, .wrUs 0 ((m &&& 0xF0) ||| 0x01), .evwait .radioDone,
      .wrUs 0 ((m &&& 0xF0) ||| 0x02)]

end Sys2Proof
end

