-- ==== Sys2Proof/Machine/State.lean ====
section
/-! DEFINITION. The state of the machine as plain data: block state and environment state of 10_state.md R20,
the configuration as the step's read-only argument, the outcomes and codes of 60_exceptions.md R230 and
R233, the reasons a step can stop, and the state after reset (10_state.md R44). -/

namespace Sys2Proof.Machine

-- ---------------------------------------------------------------- outcomes of operations

/-- The fault codes (60_exceptions.md R233, class Fault). -/
inductive FaultCode where
  | writeVerifyFail   -- 0x01, R234
  | bridgeTimeout     -- 0x02, R235
deriving DecidableEq, Repr

/-- The reject codes (60_exceptions.md R233, class Reject). -/
inductive RejectCode where
  | badOpcode       -- 0x10
  | badOperand      -- 0x11
  | badAddress      -- 0x12
  | verifyVolatile  -- 0x13
  | verifyTrigger   -- 0x14
  | badChannel      -- 0x15
  | dwellLimit      -- 0x16
  | badSdrAddr      -- 0x17
  | badLength       -- 0x18
deriving DecidableEq, Repr

/-- The kind of an `ALT` step (43_fac_frequency.md R197). -/
inductive AltKind where
  | hop
  | skip
deriving DecidableEq, Repr

/-- How a calibration ended (44_toc_calibrator.md R215). -/
inductive CalExit where
  | swept
  | localMin
  | iterCap
deriving DecidableEq, Repr

/-- The values an operation can return with `Ok` (60_exceptions.md R230: a byte, a record, or nothing). -/
inductive Value where
  | unit
  | byte (b : Byte)
  | word16 (w : BitVec 16)
  | bit (b : Bool)
  | exitCode (x : BitVec 4)
  | channel (ch : Channel)
  | alt (kind : AltKind) (ch : Channel) (nonce : Nat)
  | cal (a b : Offset) (sample : Nat) (exit : CalExit)
deriving DecidableEq, Repr

/-- The outcome of an operation (60_exceptions.md R230), kept in `ret`. -/
inductive OpOutcome where
  | ok (v : Value)
  | fault (c : FaultCode)
  | reject (c : RejectCode)
deriving DecidableEq, Repr

-- ---------------------------------------------------------------- block registers

/-- The FAC registers (10_state.md R23, R25). -/
structure Fac where
  hopChannel    : Channel
  tunedChannel  : Option Channel
  runsOnChannel : Nat
  altPhase      : BitVec 1
  nonce         : Nat
deriving DecidableEq, Repr

/-- The four descent directions of `cal_dir` (10_state.md R23). -/
inductive Dir where
  | aUp    -- (+1, 0)
  | aDown  -- (-1, 0)
  | bUp    -- (0, +1)
  | bDown  -- (0, -1)
deriving DecidableEq, Repr

/-- The TOC registers, the source's CalibrationState (10_state.md R23, R26). -/
structure Toc where
  calA    : Option Offset
  calB    : Option Offset
  calBest : Option Nat
  calDir  : Option Dir
  calIter : Option Nat
deriving DecidableEq, Repr

/-- One channel of the TagReadResult (10_state.md R28). `epc` has twelve entries. -/
structure TagRead where
  pass    : Bool
  pc      : Option (BitVec 16)
  epc     : List (Option Byte)
  crc     : Option (BitVec 16)
  lna     : Option Byte
  magMain : Option Int
  magAlt  : Option Int
deriving DecidableEq, Repr

/-- The decoder output registers `do_*` (10_state.md R29). `data` has twelve entries. -/
structure Decoded where
  rn16   : Option (BitVec 16)
  handle : Option (BitVec 16)
  crc    : Option (BitVec 16)
  hdr    : Option Bool
  len    : Nat
  data   : List (Option Byte)
deriving DecidableEq, Repr

/-- The four event flags (10_state.md R27). -/
structure EventFlags where
  radioDone   : Bool
  hostAckA    : Bool
  hostAckB    : Bool
  sampleReady : Bool
deriving DecidableEq, Repr

/-- The best probed neighbour so far in a probe of `CAL.GRAD` (44_toc_calibrator.md R214, `cand`). -/
structure Cand where
  dir    : Dir
  a      : Offset
  b      : Offset
  sample : Nat
deriving DecidableEq, Repr

/-- Which measurement of `CAL.GRAD` is in progress (44_toc_calibrator.md R214). -/
inductive GradAt where
  | start                                               -- `Measure` of the start point
  | along (d : Dir) (a b : Offset)                      -- the next point the same way
  | probe (d : Dir) (a b : Offset) (rest : List Dir) (cand : Option Cand)
deriving DecidableEq, Repr

/-- The measurement a calibration is at: the sweep position of `CAL.BRUTE`, or the place in `CAL.GRAD`. -/
inductive CalAt where
  | brute (a b : Offset)
  | grad (g : GradAt)
deriving DecidableEq, Repr

/-- A run of bytes read from RX RAM, indexed by absolute address (42_rxd_decoder.md R162). -/
structure Buf where
  first : Nat
  bytes : List Byte
deriving DecidableEq, Repr

/-- The local variables of the pseudocode that outlive a micro-step: the byte a read returned (`s`, `rb`), the
buffer of a decode (`buf`), the sample drawn (`s`). -/
structure Locals where
  got    : Byte
  buf    : Buf
  sample : Nat
deriving DecidableEq, Repr

/-- The reply decodes other than `DEC.TAG`. -/
inductive Reply where
  | rn16
  | handle
  | read (n : BitVec 4)
  | wrack
deriving DecidableEq, Repr

/-- The optional parts of `DEC.TAG` (42_rxd_decoder.md R169). -/
inductive TagPart where
  | epc
  | mag
  | lna
deriving DecidableEq, Repr

/-- One remaining micro-step of an operation (00_scope.md R11, 10_state.md R24), or the head of a loop with its
counter, which stands for the micro-steps the loop still makes. -/
inductive Micro where
  /-- One `Xfer` with a legal header; its 4th inbound byte is kept. -/
  | xfer (spc : Space) (write : Bool) (addr : Addr) (v : Byte)
  /-- Loop head of a verified write: so many attempts left (40_rtx_transactions.md R125). -/
  | attempts (spc : Space) (addr : Addr) (v mask : Byte) (left : Nat)
  /-- The read-back compared; so many attempts left after this one (R125). -/
  | compare (spc : Space) (addr : Addr) (v mask : Byte) (left : Nat)
  /-- Loop head of the polls of the bridge: so many left (R131). -/
  | polls (left : Nat)
  /-- `BR_DONE` of the byte read tested; so many polls left after this one (R131). -/
  | pollTest (left : Nat)
  /-- A `ReadSpan` begins at this address (42_rxd_decoder.md R162). -/
  | span (first : Nat)
  /-- Loop head of a `ReadSpan`: the next address and how many bytes are left (R162). -/
  | bytes (a left : Nat)
  /-- The byte read goes into the buffer (R162). -/
  | keep
  /-- A flag is cleared (41_evt_events.md R151). -/
  | clear (ev : Event)
  /-- `wait ev` of `EVWAIT`, with the consume and the return behind it (41_evt_events.md R153). -/
  | hold (ev : Event)
  /-- The `cal_*` registers set up (R213, R214). -/
  | setToc (t : Toc)
  /-- The pulse of `adc_trigger` (44_toc_calibrator.md R212). -/
  | pulse
  /-- `wait sample_ready` of a measurement, with its consume, its draw and what follows behind it (R212). -/
  | await (k : CalAt)
  /-- `adc_value` is read (R212). -/
  | draw
  /-- The sample is taken into account, and the search goes on or ends (R213, R214). -/
  | take (k : CalAt)
  /-- `Finish` behind its verified write (R215). -/
  | calDone (exit : CalExit)
  /-- `runs_on_channel` counts one run (40_rtx_transactions.md R127). -/
  | countRun
  /-- `hop_channel` advances (43_fac_frequency.md R193). -/
  | advance
  /-- `tuned_channel` becomes `none` (43_fac_frequency.md R191). -/
  | untune
  /-- `tuned_channel` becomes the channel; the dwell count restarts unless `prev` was that channel (R191). -/
  | tuned (prev : Option Channel) (ch : Channel)
  /-- `nonce` steps and `alt_phase` becomes 1 after the hop of `ALT` (R197). -/
  | hopped
  /-- `alt_phase` becomes 0 after the skip of `ALT` (R197). -/
  | skipped
  /-- The registers of a reply decode are written, and it returns (42_rxd_decoder.md R165 to R168). -/
  | reply (r : Reply)
  /-- The exit code of the `STATUS` byte read decides how `DEC.TAG` goes on (R169). -/
  | tagStatus (ch : Chan)
  /-- The registers of one part of `DEC.TAG` are written (R169). -/
  | tagPart (ch : Chan) (part : TagPart)
  /-- Both result records become fresh (R164). -/
  | fresh
  /-- The pass flag of a channel is cleared (R172). -/
  | failed (ch : Chan)
  /-- `return` of the byte read. -/
  | retByte
  /-- `return v`. -/
  | ret (v : Value)
deriving DecidableEq, Repr

/-- The sequencing state (10_state.md R24): `idle`; the remaining micro-steps of the operation in progress with its
local variables (`run`); or the wait it is held in, with its loop counters (`evWait`, `brute`, `grad`). -/
inductive Seq where
  | idle
  | run (code : List Micro) (vars : Locals)
  | evWait (ev : Event)
  | brute (a b : Offset)
  | grad (at_ : GradAt)
deriving DecidableEq, Repr

-- ---------------------------------------------------------------- the world behind the ports

/-- One memory space: (address, byte) pairs, addresses strictly rising, no entry equal to the byte an unlisted
address reads as (log 5). -/
abbrev Memory := List Host.Cell

/-- The byte an unlisted address reads as (10_state.md R44 leaves the contents after reset unspecified; 0x00,
as in the vectors of 95_test_vectors.md). Log 5. -/
abbrev unlistedByte : Byte := 0

/-- The five memories of 10_state.md R33. -/
structure Spaces where
  wv  : Memory
  rx  : Memory
  tx  : Memory
  us  : Memory
  sdr : Memory
deriving DecidableEq, Repr

/-- A location a transaction addresses. -/
structure Loc where
  spc  : Space
  addr : Addr
deriving DecidableEq, Repr

/-- One step of the environment (00_scope.md R11, 10_state.md R20, 41_evt_events.md R152): it may set a flag,
change any byte of its memories, the sampler's value, or the addressed-register latch. -/
inductive EnvStep where
  | evSet (ev : Event)
  | poke (spc : Space) (addr : Nat) (v : Byte)
  | pokeSdr (addr : Nat) (v : Byte)
  | adc (v : Nat)
  | latch (l : Option Loc)
  /-- The bridge takes its time from now on, or finishes a transfer at once (10_state.md R41). -/
  | bridgeSlow (slow : Bool)
  /-- The bridge transfer in flight, if any, finishes (10_state.md R34 (e), R41). -/
  | bridgeDone
deriving DecidableEq, Repr

/-- A bridge transfer in flight (10_state.md R34 (e), R41): direction, SDR address and data as they stood when
`BR_START` was written. -/
structure Transfer where
  wnr  : Bool
  sa   : BitVec 7
  data : Byte
deriving DecidableEq, Repr

/-- What the peripheral holds besides its memories and the latch (10_state.md R34, 20_memory.md R67). -/
structure Periph where
  /-- It answers as the deterministic double of 20_memory.md R67 does, with 0x00 wherever the spec leaves a byte
  open; otherwise those bytes are draws (log 4). -/
  double : Bool
  /-- Its bridge takes its time: a transfer stays in flight until the environment finishes it. -/
  slow   : Bool
  /-- The bridge transfer in flight. -/
  flight : Option Transfer
deriving DecidableEq, Repr

/-- What passes the block's ports, recorded in order (30_encoding.md R91, 10_state.md R32). -/
inductive PortEvent where
  | xfer (out inn : Quad)   -- one transaction: outbound and inbound bytes
  | adcPulse                -- one pulse of `adc_trigger`
  | sample (v : Nat)        -- one read of `adc_value`
deriving DecidableEq, Repr

/-- Everything the environment can change, with the ports: the event flags (block state that event sources
set), the peripheral, the SDR chip, the sampler port, and the model's own script, history and counter. -/
structure World where
  ev         : EventFlags
  spaces     : Spaces
  periph     : Periph
  latch      : Option Loc
  adcTrigger : Bool
  adcValue   : Nat
  /-- What the environment does before each coming micro-step that touches it, first batch first (log 2). -/
  script     : List (List EnvStep)
  /-- The history of the ports, newest first (log 25). -/
  trace      : List PortEvent
  /-- How many free bytes have been drawn (log 4). -/
  draws      : Nat
deriving DecidableEq, Repr

/-- The whole state. -/
structure State where
  /-- The configuration, the read-only argument of the step relation (00_scope.md R6, 10_state.md R21; log 1). -/
  cfg    : Cfg
  /-- The inputs the client has still to hand over, in its program order (10_state.md R24; log 11). -/
  client : List Input
  seq    : Seq
  fac    : Fac
  toc    : Toc
  resI   : TagRead
  resQ   : TagRead
  dec    : Decoded
  ret    : Option OpOutcome
  world  : World
deriving DecidableEq, Repr

-- ---------------------------------------------------------------- why a step can stop

/-- The one stuck state. -/
inductive Fault where
  /-- Raised by `step` when the operation in progress is held in a wait for this flag, the flag is 0 and the
  environment does nothing: the block has no step (41_evt_events.md R153, 93_implementation_defined.md U14).
  Safe: the model stops where the hardware holds. -/
  | held (ev : Event)
deriving DecidableEq, Repr

/-- The refusals. -/
inductive Refusal where
  /-- Raised by an arm of `exec` whose instruction has no meaning yet; no arm raises it now. Safe. -/
  | notModelled (mnemonic : String)
  /-- Raised by every meaning when an operation is already in progress: a second command during an operation
  "cannot happen" and is not defined (70_reset_and_hazards.md R271, 93_implementation_defined.md U9). `step`
  never reaches it. Safe. -/
  | busy
deriving DecidableEq, Repr

-- ---------------------------------------------------------------- reset

/-- The local variables at the start of an operation. -/
def Locals.start : Locals := ⟨0, ⟨0, []⟩, 0⟩

/-- A fresh TagReadResult channel (10_state.md R28, 42_rxd_decoder.md R164). -/
def TagRead.fresh : TagRead where
  pass := false
  pc := none
  epc := List.replicate 12 none
  crc := none
  lna := none
  magMain := none
  magAlt := none

/-- The decoder outputs after reset (10_state.md R44). -/
def Decoded.fresh : Decoded where
  rn16 := none
  handle := none
  crc := none
  hdr := none
  len := 0
  data := List.replicate 12 none

/-- The FAC registers after reset (10_state.md R44). -/
def Fac.reset : Fac where
  hopChannel := 0
  tunedChannel := none
  runsOnChannel := 0
  altPhase := 0
  nonce := 0

/-- The TOC registers holding `none` (10_state.md R44; 44_toc_calibrator.md R215). -/
def Toc.unwritten : Toc where
  calA := .none
  calB := .none
  calBest := .none
  calDir := .none
  calIter := .none

/-- No event pending (10_state.md R44). -/
def EventFlags.clear : EventFlags := ⟨false, false, false, false⟩

/-- Nothing listed in any memory (log 5). -/
def Spaces.empty : Spaces := ⟨[], [], [], [], []⟩

/-- The environment after reset: unspecified by 10_state.md R44, at the values of log 3, log 5 and log 6. -/
def World.reset : World where
  ev := EventFlags.clear
  spaces := Spaces.empty
  periph := ⟨false, false, none⟩
  latch := none
  adcTrigger := false
  adcValue := 0
  script := []
  trace := []
  draws := 0

/-- The machine right after power-on (10_state.md R44, 70_reset_and_hazards.md R260), with the default
configuration (00_scope.md R6) and no client and no environment step placed. -/
def State.reset : State where
  cfg := Cfg.default
  client := []
  seq := .idle
  fac := Fac.reset
  toc := Toc.unwritten
  resI := TagRead.fresh
  resQ := TagRead.fresh
  dec := Decoded.fresh
  ret := none
  world := World.reset

end Sys2Proof.Machine
end

