-- ==== Sys2Proof/Machine/Operands.lean ====
section
/-! DEFINITION. Operand forms and bit fields: `Bits`, `sext_32` (00_scope.md R8, R9), the fields of the user
bytes (10_state.md R36 to R43) under any `UserMap`, the verify mask (40_rtx_transactions.md R126), the splits
of 30_encoding.md R97, the reply fields of 42_rxd_decoder.md R163, and the outcome codes (60_exceptions.md R233). -/

namespace Sys2Proof

/-- The first byte of a field. -/
def BitField.firstByte (f : BitField) : Nat := f.g / 8

/-- The last byte of a field. -/
def BitField.lastByte (f : BitField) : Nat := (f.g + f.n - 1) / 8

end Sys2Proof

namespace Sys2Proof.Machine

-- ---------------------------------------------------------------- codes

/-- The code of a fault (60_exceptions.md R233). -/
def FaultCode.code : FaultCode → Byte
  | .writeVerifyFail => 0x01
  | .bridgeTimeout => 0x02

/-- The code of a reject (60_exceptions.md R233). -/
def RejectCode.code : RejectCode → Byte
  | .badOpcode => 0x10
  | .badOperand => 0x11
  | .badAddress => 0x12
  | .verifyVolatile => 0x13
  | .verifyTrigger => 0x14
  | .badChannel => 0x15
  | .dwellLimit => 0x16
  | .badSdrAddr => 0x17
  | .badLength => 0x18

/-- The reject a decode error becomes (30_encoding.md R101 steps 1 and 2). -/
def rejectOfDecode : DecodeError → RejectCode
  | .badOpcode => .badOpcode
  | .badOperand => .badOperand

-- ---------------------------------------------------------------- user bytes

/-- Addresses of the user bytes (10_state.md R35). -/
abbrev ctrlAddr : Addr := 0
abbrev statusAddr : Addr := 1
abbrev brAddrAddr : Addr := 2
abbrev brWdataAddr : Addr := 3
abbrev brRdataAddr : Addr := 4
abbrev brCtrlAddr : Addr := 5
abbrev testAddr : Addr := 6
abbrev txofsAddr : Addr := 7

/-- One bit of a byte. -/
def bitMask (k : Nat) : Byte := 1#8 <<< k

/-- The trigger bits of `CTRL` as a mask, 0x0F by default (10_state.md R36). -/
def trigMask (m : UserMap) : Byte :=
  bitMask m.go ||| bitMask m.irqAck ||| bitMask m.newQuery ||| bitMask m.endLoop

/-- `CTRL.GO` of a byte (10_state.md R36). -/
def goBit (m : UserMap) (v : Byte) : Bool := v.getLsbD m.go

/-- `STATUS.EXIT_CODE` (10_state.md R37). -/
def exitCodeOf (m : UserMap) (v : Byte) : BitVec 4 := v.extractLsb' m.exitCode 4

/-- `STATUS.WRITE_PROGRESS` (10_state.md R37); the block never reads it. -/
def writeProgressOf (m : UserMap) (v : Byte) : BitVec 4 := v.extractLsb' m.progress 4

/-- `CTRL.MODE` (10_state.md R36); the block never interprets it. -/
def modeOf (m : UserMap) (v : Byte) : BitVec 2 := v.extractLsb' m.mode 2

/-- `CTRL.USE_I` and `CTRL.USE_Q` (10_state.md R36); the block never interprets them. -/
def useChan (m : UserMap) (v : Byte) : Chan → Bool
  | .I => v.getLsbD m.useI
  | .Q => v.getLsbD m.useQ

/-- `TEST.TEST_MODE` (10_state.md R42); the block never interprets it. -/
def testModeOf (m : UserMap) (v : Byte) : Bool := v.getLsbD m.testMode

/-- `TEST.USE_KILL_PKT` (10_state.md R42); the block never interprets it. -/
def useKillPktOf (m : UserMap) (v : Byte) : Bool := v.getLsbD m.useKillPkt

/-- The `BR_ADDR` byte of a transfer, `wnr * 128 + sa` by default (10_state.md R38, 30_encoding.md R97 (d)). -/
def brAddrByte (m : UserMap) (wnr : Bool) (sa : Byte) : Byte :=
  ((sa.setWidth 7).setWidth 8 <<< m.brA) ||| (if wnr then bitMask m.brWnr else 0)

/-- `BR_WNR` of a `BR_ADDR` byte (10_state.md R38). -/
def brWnrOf (m : UserMap) (v : Byte) : Bool := v.getLsbD m.brWnr

/-- `BR_A` of a `BR_ADDR` byte (10_state.md R38). -/
def brAOf (m : UserMap) (v : Byte) : BitVec 7 := v.extractLsb' m.brA 7

/-- The `BR_CTRL` byte that starts a transfer, 0x01 by default (10_state.md R41: other bits written 0). -/
def brStartByte (m : UserMap) : Byte := bitMask m.brStart

/-- `BR_START` of a byte (10_state.md R41). -/
def brStartOf (m : UserMap) (v : Byte) : Bool := v.getLsbD m.brStart

/-- `BR_DONE` of a byte (10_state.md R41). -/
def brDoneOf (m : UserMap) (v : Byte) : Bool := v.getLsbD m.brDone

/-- The `BR_CTRL` byte after a finished transfer, 0x02 by default (20_memory.md R67). -/
def brDoneByte (m : UserMap) : Byte := bitMask m.brDone

/-- The `TXOFS` byte of an offset pair, `b * 16 + a` by default (10_state.md R43, 30_encoding.md R97 (b)). -/
def txofsByte (m : UserMap) (a b : Offset) : Byte :=
  (a.setWidth 8 <<< m.ofsA) ||| (b.setWidth 8 <<< m.ofsB)

/-- The offset pair of a `TXOFS` byte (30_encoding.md R97 (b)). -/
def txofsPair (m : UserMap) (v : Byte) : Offset × Offset :=
  (v.extractLsb' m.ofsA 4, v.extractLsb' m.ofsB 4)

/-- `VMask(spc, addr)` (40_rtx_transactions.md R126); `none` is the table's `refuse`. -/
def vMask (m : UserMap) (spc : Space) (addr : Addr) : Option Byte :=
  match spc with
  | .us =>
    if addr = statusAddr ∨ addr = brRdataAddr ∨ addr = brCtrlAddr then none
    else if addr = ctrlAddr then some (~~~ trigMask m)
    else some 0xFF
  | .wv | .rx | .tx => some 0xFF

-- ---------------------------------------------------------------- bit strings

/-- The byte at an absolute address of a buffer. -/
def Buf.byte (m : Buf) (a : Nat) : Byte := m.bytes.getD (a - m.first) 0

/-- Global bit `g`: bit `7 - (g mod 8)` of byte `g div 8` (00_scope.md R8). -/
def Buf.bit (m : Buf) (g : Nat) : Bool := (m.byte (g / 8)).getLsbD (7 - g % 8)

/-- `Bits(m, g, n)` (00_scope.md R8): bit `g` is the most significant. -/
def Buf.bits (m : Buf) (g : Nat) : Nat → Nat
  | 0 => 0
  | n + 1 => 2 * m.bits g n + (m.bit (g + n)).toNat

/-- `sext_N(v)` (00_scope.md R9): the `N`-bit number read as two's complement. -/
def sextN (n v : Nat) : Int := if v < 2 ^ (n - 1) then (v : Int) else (v : Int) - 2 ^ n

/-- The lowest address a list of fields touches (42_rxd_decoder.md R162: the span covers all the fields). -/
def spanFirst : List BitField → Nat
  | [] => 0
  | [f] => f.firstByte
  | f :: fs => min f.firstByte (spanFirst fs)

/-- The highest address a list of fields touches. -/
def spanLast : List BitField → Nat
  | [] => 0
  | f :: fs => max f.lastByte (spanLast fs)

/-- The value of a field in a buffer. -/
def Buf.field (m : Buf) (f : BitField) : Nat := m.bits f.g f.n

/-- A 16-bit register filled from a field. -/
def Buf.word16 (m : Buf) (f : BitField) : BitVec 16 := BitVec.ofNat 16 (m.field f)

/-- A 1-bit register filled from a field. -/
def Buf.flag (m : Buf) (f : BitField) : Bool := m.field f % 2 = 1

/-- A signed register filled from a field (42_rxd_decoder.md R170; `sext_32` at 32 bits). -/
def Buf.signed (m : Buf) (f : BitField) : Int := sextN f.n (m.field f)

/-- The `k`-th byte of a bit string that starts at `g` (42_rxd_decoder.md R171). -/
def Buf.byteAt (m : Buf) (g k : Nat) : Byte := BitVec.ofNat 8 (m.bits (g + 8 * k) 8)

/-- The first `n` of twelve bytes from `g` on; the rest `none` (42_rxd_decoder.md R167, R169). -/
def Buf.byteList (m : Buf) (g n : Nat) : List (Option Byte) :=
  (List.range 12).map fun k => if k < n then some (m.byteAt g k) else none

/-- The fields of a RN16 reply (42_rxd_decoder.md R163). -/
def rn16Fields (l : RxLayout) : List BitField := [l.rn16Rn.at 0]

/-- The fields of a handle reply. -/
def handleFields (l : RxLayout) : List BitField := [l.handleRn.at 0, l.handleCrc.at 0]

/-- The fields of a write/lock acknowledgement. -/
def wrackFields (l : RxLayout) : List BitField :=
  [l.wrackHdr.at 0, l.wrackRn.at 0, l.wrackCrc.at 0]

/-- The fields of a read reply of `n` data bytes. -/
def readFields (l : RxLayout) (n : Nat) : List BitField :=
  [l.readHdr.at 0, l.readData.at n, l.readRn.at n, l.readCrc.at n]

/-- The fields of a PC+EPC+CRC reply with `el` EPC bytes. -/
def tagFields (l : RxLayout) (el : Nat) : List BitField :=
  [l.tagPc.at el, l.tagEpc.at el, l.tagCrc.at el]

/-- The two magnitudes. -/
def magFields (l : RxLayout) : List BitField := [l.magMain.at 0, l.magAlt.at 0]

/-- The LNA gain byte. -/
def lnaFields (l : RxLayout) : List BitField := [l.lna.at 0]

-- ---------------------------------------------------------------- frequency codes and offsets

/-- The bytes of a frequency code, most significant first (20_memory.md R77, 30_encoding.md R97 (c)). -/
def freqBytes (c : Cfg) (f : Nat) : List Byte :=
  (List.range c.freqCodeBytes).map fun k => BitVec.ofNat 8 (f >>> (8 * (c.freqCodeBytes - 1 - k)))

/-- The code of a channel (10_state.md R30). -/
def freqCodeOf (c : Cfg) (ch : Channel) : Nat := c.freqCode.getD ch.val 0

/-- The SDR writes of a retune, in order: the receive code, then the transmit code (43_fac_frequency.md R191). -/
def tuneWrites (c : Cfg) (ch : Channel) : List (Byte × Byte) :=
  let bytes := freqBytes c (freqCodeOf c ch)
  let place (base : Nat) := bytes.zipIdx.map fun p => (BitVec.ofNat 8 (base + p.2), p.1)
  place c.sdrFrfRxAddr ++ place c.sdrFrfTxAddr

/-- Every SDR address a retune writes exists (40_rtx_transactions.md R131: `sa > 127` is rejected; log 19). -/
def tuneFits (c : Cfg) : Bool :=
  c.sdrFrfRxAddr + c.freqCodeBytes ≤ Config.sdrSize && c.sdrFrfTxAddr + c.freqCodeBytes ≤ Config.sdrSize

/-- The next channel of the hop sequence (43_fac_frequency.md R193). -/
def nextHop (c : Cfg) (ch : Channel) : Channel := Fin.ofNat nChannels (ch.val + c.hopStep)

/-- `SkipCh(c)` (43_fac_frequency.md R195). -/
def skipCh (c : Cfg) (ch : Channel) : Channel :=
  match c.skipWrap with
  | .reflect =>
    if ch.val + c.skipOffset ≤ 24 then Fin.ofNat nChannels (ch.val + c.skipOffset)
    else Fin.ofNat nChannels (ch.val - c.skipOffset)
  | .modulo => Fin.ofNat nChannels (ch.val + c.skipOffset)

/-- The `(da, db)` of a direction (10_state.md R23). -/
def Dir.delta : Dir → Int × Int
  | .aUp => (1, 0)
  | .aDown => (-1, 0)
  | .bUp => (0, 1)
  | .bDown => (0, -1)

/-- The probe order (44_toc_calibrator.md R214). -/
def probeOrder : List Dir := [.aUp, .aDown, .bUp, .bDown]

/-- `InRange(a, b)` (44_toc_calibrator.md R219). -/
def inRange (a b : Int) : Bool := 0 ≤ a ∧ a ≤ 15 ∧ 0 ≤ b ∧ b ≤ 15

/-- The neighbour of a pair in a direction, if it is in range (44_toc_calibrator.md R214, R219). -/
def neighbour (a b : Offset) (d : Dir) : Option (Offset × Offset) :=
  let a' : Int := a.toNat + d.delta.1
  let b' : Int := b.toNat + d.delta.2
  if inRange a' b' then some (BitVec.ofInt 4 a', BitVec.ofInt 4 b') else none

/-- The sweep of `CAL.BRUTE`: `a` outer, `b` inner, both ascending (44_toc_calibrator.md R213). -/
def sweep : List (Offset × Offset) :=
  (List.range 256).map fun k => (BitVec.ofNat 4 (k / 16), BitVec.ofNat 4 (k % 16))

/-- The pairs the sweep visits after `(a, b)`. -/
def sweepAfter (a b : Offset) : List (Offset × Offset) :=
  sweep.drop (16 * a.toNat + b.toNat + 1)

end Sys2Proof.Machine
end

