-- ==== Sys2Proof/Machine/Flags.lean ====
section
/-! DEFINITION. The event flags (10_state.md R27): reading, setting and clearing one by name. There are no
condition codes and no arithmetic flags: no operation sets a flag as a side effect of a computation. -/

namespace Sys2Proof.Machine

/-- The value of a flag. -/
def EventFlags.get (f : EventFlags) : Event → Bool
  | .radioDone => f.radioDone
  | .hostAckA => f.hostAckA
  | .hostAckB => f.hostAckB
  | .sampleReady => f.sampleReady

/-- The flags with one of them at a value; `true` is `EvSet` (41_evt_events.md R152), idempotent and not
counting, `false` is a clear (R151). -/
def EventFlags.put (f : EventFlags) (e : Event) (v : Bool) : EventFlags :=
  match e with
  | .radioDone => { f with radioDone := v }
  | .hostAckA => { f with hostAckA := v }
  | .hostAckB => { f with hostAckB := v }
  | .sampleReady => { f with sampleReady := v }

end Sys2Proof.Machine
end

