-- ==== Sys2Proof/Machine/Ops.lean ====
section
/-! DEFINITION. The named operations shared by the meanings: memory in canonical form, the environment's steps
between micro-steps, the one transaction primitive `Xfer` (20_memory.md R64) with the peripheral behind it,
the access procedures and the bridge of 40_rtx_transactions.md, the waits and the sampler port, and how an
operation ends (60_exceptions.md R230 to R232, R243). -/

namespace Sys2Proof.Machine

-- ---------------------------------------------------------------- memory

/-- The byte at an address. -/
def Memory.read : Memory → Nat → Byte
  | [], _ => unlistedByte
  | (b, x) :: m, a => if a = b then x else Memory.read m a

/-- The memory with a byte stored, in canonical form: storing the unlisted byte removes the entry. -/
def Memory.write : Memory → Nat → Byte → Memory
  | [], a, v => if v = unlistedByte then [] else [(a, v)]
  | (b, x) :: m, a, v =>
    if a < b then
      if v = unlistedByte then (b, x) :: m else (a, v) :: (b, x) :: m
    else if a = b then
      if v = unlistedByte then m else (a, v) :: m
    else (b, x) :: Memory.write m a v

/-- Canonical form: addresses strictly rising, no entry equal to the unlisted byte. -/
def Memory.wf : Memory → Bool
  | [] => true
  | (a, v) :: m => v != unlistedByte && m.all (fun c => a < c.1) && Memory.wf m

/-- Every listed address lies below a size. -/
def Memory.below (m : Memory) (size : Nat) : Bool := m.all fun c => c.1 < size

/-- The memory of a space. -/
def Spaces.get (s : Spaces) : Space → Memory
  | .wv => s.wv
  | .rx => s.rx
  | .tx => s.tx
  | .us => s.us

/-- The spaces with the memory of one replaced. -/
def Spaces.put (s : Spaces) (spc : Space) (m : Memory) : Spaces :=
  match spc with
  | .wv => { s with wv := m }
  | .rx => { s with rx := m }
  | .tx => { s with tx := m }
  | .us => { s with us := m }

/-- The byte the peripheral holds at a location. -/
def World.peek (w : World) (spc : Space) (a : Nat) : Byte := (w.spaces.get spc).read a

/-- A byte stored at a location of a space. -/
def World.poke (w : World) (spc : Space) (a : Nat) (v : Byte) : World :=
  { w with spaces := w.spaces.put spc ((w.spaces.get spc).write a v) }

/-- The byte an SDR register holds. -/
def World.peekSdr (w : World) (a : Nat) : Byte := w.spaces.sdr.read a

/-- A byte stored in an SDR register. -/
def World.pokeSdr (w : World) (a : Nat) (v : Byte) : World :=
  { w with spaces := { w.spaces with sdr := w.spaces.sdr.write a v } }

-- ---------------------------------------------------------------- the bridge of the peripheral

/-- `BR_START` written: one transfer starts with `BR_ADDR` and `BR_WDATA` as they stand, and `BR_DONE` is cleared;
the trigger bit reads back as 0 (10_state.md R41). -/
def bridgeBegin (c : Cfg) (w : World) : World :=
  let ba := w.peek .us 2
  let t : Transfer := ⟨brWnrOf c.userMap ba, brAOf c.userMap ba, w.peek .us 3⟩
  { w.poke .us 5 0 with periph := { w.periph with flight := some t } }

/-- The transfer in flight finishes: its byte is moved and `BR_DONE` is set (10_state.md R40, R41). -/
def bridgeEnd (c : Cfg) (w : World) : World :=
  match w.periph.flight with
  | none => w
  | some t =>
    let moved := if t.wnr then w.pokeSdr t.sa.toNat t.data else w.poke .us 4 (w.peekSdr t.sa.toNat)
    { moved.poke .us 5 (brDoneByte c.userMap) with periph := { w.periph with flight := none } }

-- ---------------------------------------------------------------- the environment

/-- One environment step (00_scope.md R11, 41_evt_events.md R152). It reaches only locations that exist; a
sampler value is `SAMPLE_BITS` wide (10_state.md R32). -/
def EnvStep.act (c : Cfg) (w : World) : EnvStep → World
  | .evSet e => { w with ev := w.ev.put e true }
  | .poke spc a v => if a < c.size spc then w.poke spc a v else w
  | .pokeSdr a v => if a < Config.sdrSize then w.pokeSdr a v else w
  | .adc v => { w with adcValue := v % 2 ^ c.sampleBits }
  | .latch l => { w with latch := l }
  | .bridgeSlow b => { w with periph := { w.periph with slow := b } }
  | .bridgeDone => if 8 ≤ c.userSize then bridgeEnd c w else w

/-- The environment's turn before a micro-step of the block: the next batch of its script, if there is one
(00_scope.md R11: any number of its own steps between two micro-steps; log 2). -/
def World.envTurn (c : Cfg) (w : World) : World :=
  match w.script with
  | [] => w
  | batch :: rest => batch.foldl (EnvStep.act c) { w with script := rest }

-- ---------------------------------------------------------------- the transaction primitive

/-- The peripheral's action on a write transaction (20_memory.md R67): trigger bits are not stored, `STATUS` and
`BR_RDATA` ignore writes, `BR_START` starts one bridge transfer, which is finished at once unless the bridge takes
its time (10_state.md R41). -/
def peripheralWrite (c : Cfg) (h : Header) (v : Byte) (w : World) : World :=
  match h.spc with
  | .us =>
    if h.addr = ctrlAddr then w.poke .us 0 (v &&& ~~~ trigMask c.userMap)
    else if h.addr = statusAddr ∨ h.addr = brRdataAddr then w
    else if h.addr = brCtrlAddr then
      if brStartOf c.userMap v then
        if w.periph.slow then bridgeBegin c w else bridgeEnd c (bridgeBegin c w)
      else w
    else w.poke .us h.addr.toNat v
  | .wv | .rx | .tx => w.poke h.spc h.addr.toNat v

/-- The peripheral's action on a transaction: none on a reserved header, on a read, or outside a space
(20_memory.md R67, 93_implementation_defined.md U1). -/
def peripheralAct (c : Cfg) (q : Quad) (w : World) : World :=
  match decodeHeader q with
  | none => w
  | some h => if h.write ∧ c.addrOk h.spc h.addr then peripheralWrite c h q.b3 w else w

/-- The location a read transaction reports (20_memory.md R65): its own under `same`, the addressed-register
latch under `previous`; `none` where the answer is a draw (a write, a reserved header, an address outside
its space, no transaction before). -/
def answerLoc (c : Cfg) (q : Quad) (w : World) : Option Loc :=
  match decodeHeader q with
  | none => none
  | some h =>
    if h.write then none
    else
      match c.readReturn with
      | .same => if c.addrOk h.spc h.addr then some ⟨h.spc, h.addr⟩ else none
      | .previous =>
        match w.latch with
        | some l => if c.addrOk l.spc l.addr then some l else none
        | none => none

/-- An inbound byte the spec leaves open: 0x00 from the deterministic double (20_memory.md R67, for `READ_RETURN` =
`same`), a draw otherwise (log 4). -/
def openByte (c : Cfg) (w : World) (k : Nat) : Byte :=
  if w.periph.double ∧ c.readReturn = .same then 0 else Config.draw (w.draws + k)

/-- The 4th inbound byte (20_memory.md R64, R65). -/
def answer (c : Cfg) (q : Quad) (w : World) : Byte :=
  match answerLoc c q w with
  | some l => w.peek l.spc l.addr.toNat
  | none => openByte c w 3

/-- The addressed-register latch after a transaction, kept under `previous` only (20_memory.md R65, R69;
70_reset_and_hazards.md R273; log 15). -/
def latchAfter (c : Cfg) (q : Quad) (w : World) : Option Loc :=
  match c.readReturn with
  | .same => w.latch
  | .previous =>
    match decodeHeader q with
    | some h => some ⟨h.spc, h.addr⟩
    | none => w.latch

/-- The inbound bytes: `I0`, `I1`, `I2` are draws, 0x00 from the double (20_memory.md R64, R67; log 4). -/
def inbound (c : Cfg) (q : Quad) (w : World) : Quad :=
  ⟨openByte c w 0, openByte c w 1, openByte c w 2, answer c q w⟩

/-- `Xfer(t0, t1, t2, t3)` once the environment has had its turn: one atomic exchange. -/
def exchange (c : Cfg) (q : Quad) (w : World) : Quad × World :=
  let inn := inbound c q w
  let w' := peripheralAct c q w
  (inn, { w' with latch := latchAfter c q w, trace := .xfer q inn :: w'.trace, draws := w'.draws + 4 })

/-- `Xfer(t0, t1, t2, t3)` (20_memory.md R64), with the environment's turn before it. -/
def xfer (c : Cfg) (q : Quad) (w : World) : Quad × World := exchange c q (w.envTurn c)

-- ---------------------------------------------------------------- access procedures

/-- `Read(spc, addr)` without its range check (40_rtx_transactions.md R123). -/
def readByte (c : Cfg) (spc : Space) (addr : Addr) (w : World) : Byte × World :=
  let q := encodeTxn ⟨spc, false, addr⟩ 0
  let w1 := match c.readReturn with
    | .previous => (xfer c q w).2
    | .same => w
  let r := xfer c q w1
  (r.1.b3, r.2)

/-- The transaction of `Write(spc, addr, v)` (40_rtx_transactions.md R124). -/
def writeByte (c : Cfg) (spc : Space) (addr : Addr) (v : Byte) (w : World) : World :=
  (xfer c (encodeTxn ⟨spc, true, addr⟩ v) w).2

/-- The attempts of `WriteV` (40_rtx_transactions.md R125): each writes, reads back and compares under the
mask. The flag says whether one matched. -/
def verifyLoop (c : Cfg) (spc : Space) (addr : Addr) (v mask : Byte) : Nat → World → Bool × World
  | 0, w => (false, w)
  | n + 1, w =>
    let r := readByte c spc addr (writeByte c spc addr v w)
    if r.1 &&& mask = v &&& mask then (true, r.2) else verifyLoop c spc addr v mask n r.2

/-- `WriteV(spc, addr, v)` without its checks (40_rtx_transactions.md R125): the fault, if any. -/
def writeV (c : Cfg) (spc : Space) (addr : Addr) (v mask : Byte) (w : World) : Option FaultCode × World :=
  let r := verifyLoop c spc addr v mask Config.writeVerifyAttempts w
  (if r.1 then none else some .writeVerifyFail, r.2)

/-- The polls of the bridge (40_rtx_transactions.md R131): whether `BR_DONE` was seen set. -/
def pollLoop (c : Cfg) : Nat → World → Bool × World
  | 0, w => (false, w)
  | n + 1, w =>
    let r := readByte c .us brCtrlAddr w
    if brDoneOf c.userMap r.1 then (true, r.2) else pollLoop c n r.2

/-- `Bridge(wnr, sa, v)` without its range check (40_rtx_transactions.md R131): the fault or the byte of
`BR_RDATA` (0, and not used, for a write). -/
def bridge (c : Cfg) (wnr : Bool) (sa v : Byte) (w : World) : Except FaultCode Byte × World :=
  match writeV c .us brAddrAddr (brAddrByte c.userMap wnr sa) 0xFF w with
  | (some f, w1) => (.error f, w1)
  | (none, w1) =>
    match (if wnr then writeV c .us brWdataAddr v 0xFF w1 else (none, w1)) with
    | (some f, w2) => (.error f, w2)
    | (none, w2) =>
      match pollLoop c c.bridgePollMax (writeByte c .us brCtrlAddr (brStartByte c.userMap) w2) with
      | (false, w3) => (.error .bridgeTimeout, w3)
      | (true, w3) =>
        if wnr then (.ok 0, w3)
        else
          let r := readByte c .us brRdataAddr w3
          (.ok r.1, r.2)

/-- `SdrWrite(sa, v)` (00_scope.md R10, 40_rtx_transactions.md R130): the fault, if any. -/
def sdrWrite (c : Cfg) (sa v : Byte) (w : World) : Option FaultCode × World :=
  match bridge c true sa v w with
  | (.ok _, w1) => (none, w1)
  | (.error f, w1) => (some f, w1)

/-- SDR writes in order, up to the first fault (43_fac_frequency.md R191). -/
def sdrWrites (c : Cfg) : List (Byte × Byte) → World → Option FaultCode × World
  | [], w => (none, w)
  | (sa, v) :: rest, w =>
    match sdrWrite c sa v w with
    | (some f, w1) => (some f, w1)
    | (none, w1) => sdrWrites c rest w1

/-- The bytes of RX RAM from an address on, in ascending order, each read once (42_rxd_decoder.md R162). -/
def readBytes (c : Cfg) : Nat → Nat → World → List Byte × World
  | _, 0, w => ([], w)
  | a, n + 1, w =>
    let r := readByte c .rx (BitVec.ofNat 16 a) w
    let rest := readBytes c (a + 1) n r.2
    (r.1 :: rest.1, rest.2)

/-- `ReadSpan` over the span that covers the fields (42_rxd_decoder.md R162). -/
def readSpan (c : Cfg) (fs : List BitField) (w : World) : Buf × World :=
  let first := spanFirst fs
  let r := readBytes c first (spanLast fs + 1 - first) w
  (⟨first, r.1⟩, r.2)

-- ---------------------------------------------------------------- flags, waits, the sampler port

/-- One write of 0 to a flag, a micro-step (41_evt_events.md R151). -/
def clearFlag (c : Cfg) (e : Event) (w : World) : World :=
  let w1 := w.envTurn c
  { w1 with ev := w1.ev.put e false }

/-- The environment's batches while the block is held in a wait, up to the one that leaves the flag 1. -/
def waitLoop (c : Cfg) (e : Event) : List (List EnvStep) → World → Bool × World
  | [], w => (w.ev.get e, { w with script := [] })
  | batch :: rest, w =>
    if w.ev.get e then (true, { w with script := batch :: rest })
    else waitLoop c e rest (batch.foldl (EnvStep.act c) { w with script := rest })

/-- `wait ev` (00_scope.md R10, 41_evt_events.md R153): hold while the flag is 0; only the environment lifts the
hold. The flag says whether it was lifted; no transaction, no timeout. -/
def waitFlag (c : Cfg) (e : Event) (w : World) : Bool × World := waitLoop c e w.script w

/-- The pulse of `adc_trigger` (10_state.md R32, 44_toc_calibrator.md R212); the signal stays asserted until the
wait that follows begins (log 16). -/
def pulseAdc (c : Cfg) (w : World) : World :=
  let w1 := w.envTurn c
  { w1 with adcTrigger := true, trace := .adcPulse :: w1.trace }

/-- The draw of `adc_value` (44_toc_calibrator.md R212). -/
def drawSample (c : Cfg) (w : World) : Nat × World :=
  let w1 := w.envTurn c
  (w1.adcValue, { w1 with trace := .sample w1.adcValue :: w1.trace })

/-- How a measurement ends: with a sample, with a fault, or held in its wait. -/
inductive Meas where
  | sample (v : Nat)
  | fault (f : FaultCode)
  | held
deriving DecidableEq, Repr

/-- The second half of `Measure` (44_toc_calibrator.md R212), from its wait on. -/
def measureWait (c : Cfg) (w : World) : Meas × World :=
  match waitFlag c .sampleReady { w with adcTrigger := false } with
  | (false, w1) => (.held, w1)
  | (true, w1) =>
    let r := drawSample c (clearFlag c .sampleReady w1)
    (.sample r.1, r.2)

/-- `Measure(a, b)` (44_toc_calibrator.md R212). -/
def measure (c : Cfg) (a b : Offset) (w : World) : Meas × World :=
  match writeV c .us txofsAddr (txofsByte c.userMap a b) 0xFF w with
  | (some f, w1) => (.fault f, w1)
  | (none, w1) => measureWait c (pulseAdc c (clearFlag c .sampleReady w1))

-- ---------------------------------------------------------------- how an operation ends

/-- `return v`: outcome `Ok(v)`, sequencing state idle (60_exceptions.md R230, 10_state.md R24). -/
def State.finish (s : State) (v : Value) : State := { s with seq := .idle, ret := some (.ok v) }

/-- Taking a fault, `raise Fault(code)` (60_exceptions.md R231, R243): the operation stops at once, nothing is
rolled back, the sequencing state becomes idle and `ret` the fault; no pc, no mode and no mask exist to save
or change. There is no return from it (R244). -/
def State.raise (s : State) (f : FaultCode) : State := { s with seq := .idle, ret := some (.fault f) }

/-- `reject(code)` (60_exceptions.md R232): nothing changes but `ret`. -/
def State.reject (s : State) (r : RejectCode) : State := { s with ret := some (.reject r) }

/-- `return v` or `raise`, by the result of a procedure. -/
def State.conclude (s : State) (f : Option FaultCode) (v : Value) : State :=
  match f with
  | none => s.finish v
  | some code => s.raise code

/-- A new operation is taken when none is in progress (70_reset_and_hazards.md R271); during one it is refused
(93_implementation_defined.md U9). -/
def State.command (s : State) (run : State → State) : Host.Outcome State Fault Refusal :=
  match s.seq with
  | .idle => .next (run s)
  | .run _ _ | .evWait _ | .brute _ _ | .grad _ => .refused .busy

end Sys2Proof.Machine
end

