-- ==== Sys2Proof/Machine/Evt.lean ====
section
/-! DEFINITION. EVT, the event flag operations (41_evt_events.md). -/

namespace Sys2Proof.Machine

/-- `EVCLR ev` from the idle block (41_evt_events.md R151). -/
def opEvclr (e : Event) (s : State) : State :=
  { s with world := clearFlag s.cfg e s.world }.finish .unit

/-- `EVWAIT ev` from its wait on (41_evt_events.md R153): held with the wait as its sequencing state, or
consumed and finished. -/
def opEvwait (e : Event) (s : State) : State :=
  match waitFlag s.cfg e s.world with
  | (false, w) => { s with world := w, seq := .evWait e }
  | (true, w) => { s with world := clearFlag s.cfg e w }.finish .unit

/-- `EVCLR ev` (41_evt_events.md R151). -/
def execEvclr (e : Event) (s : State) : Host.Outcome State Fault Refusal := s.command (opEvclr e)

/-- `EVWAIT ev` (41_evt_events.md R153). -/
def execEvwait (e : Event) (s : State) : Host.Outcome State Fault Refusal := s.command (opEvwait e)

end Sys2Proof.Machine
end

