-- ==== Sys2Proof/Machine/Fac.lean ====
section
/-! DEFINITION. FAC, the frequency hop sequencer operations (43_fac_frequency.md). -/

namespace Sys2Proof.Machine

/-- The FAC registers when the six writes of `Tune(c)` are in: the dwell count restarts unless the channel was
tuned already (43_fac_frequency.md R191).

DESIGN CHOICE, unsafe (log 32): for a hop to the channel tuned already (reset, `SET 7`, `GO`, `HOP`) R191 keeps the
count, while R193's corner case says that a hop always restarts it; the model follows R191. -/
def Fac.tuned (f : Fac) (prev : Option Channel) (ch : Channel) : Fac :=
  { f with
    tunedChannel := some ch
    runsOnChannel := if prev = some ch then f.runsOnChannel else 0 }

/-- `Tune(c)` (43_fac_frequency.md R191): the fault, if any, and the state it leaves. -/
def tune (ch : Channel) (s : State) : Option FaultCode × State :=
  let prev := s.fac.tunedChannel
  let r := sdrWrites s.cfg (tuneWrites s.cfg ch) s.world
  let fac' := { s.fac with tunedChannel := none }
  match r.1 with
  | some f => (some f, { s with world := r.2, fac := fac' })
  | none => (none, { s with world := r.2, fac := fac'.tuned prev ch })

/-- The sequence position advanced (43_fac_frequency.md R193: first, before the tuning). -/
def State.advanceHop (s : State) : State :=
  { s with fac := { s.fac with hopChannel := nextHop s.cfg s.fac.hopChannel } }

/-- A retune of a plan whose SDR addresses do not all exist is rejected before anything else is done: with codes
longer than 3 bytes an address can lie above 127, and `SdrWrite` rejects such an address (20_memory.md R63,
40_rtx_transactions.md R131) while a rejection leaves every state but `ret` unchanged (60_exceptions.md R232). With
the codes of 3 bytes of 20_memory.md R77 it never happens. Log 19. -/
def retune (run : State → State) (s : State) : State := if tuneFits s.cfg then run s else s.reject .badSdrAddr

/-- `HOP` (43_fac_frequency.md R193). -/
def opHop (s : State) : State :=
  let s1 := s.advanceHop
  let r := tune s1.fac.hopChannel s1
  r.2.conclude r.1 (.channel s1.fac.hopChannel)

/-- The retune of a given channel: `SET` of a legal channel and `SKIP` (43_fac_frequency.md R194, R196). -/
def opTune (ch : Channel) (s : State) : State :=
  let r := tune ch s
  r.2.conclude r.1 (.channel ch)

/-- `SET ch` (43_fac_frequency.md R194). -/
def opSet (ch : BitVec 5) (s : State) : State :=
  if 24 < ch.toNat then s.reject .badChannel
  else retune (opTune (Fin.ofNat nChannels ch.toNat)) s

/-- `SKIP` (43_fac_frequency.md R196). -/
def opSkip (s : State) : State := opTune (skipCh s.cfg s.fac.hopChannel) s

/-- The FAC registers behind the tuning of the hop of `ALT` (43_fac_frequency.md R197). -/
def Fac.hopped (f : Fac) (c : Cfg) : Fac := { f with nonce := (f.nonce + 1) % 2 ^ c.nonceBits, altPhase := 1 }

/-- `ALT` in its hop phase (43_fac_frequency.md R197): nonce and phase change only after a completed tuning. -/
def opAltHop (s : State) : State :=
  let s1 := s.advanceHop
  let r := tune s1.fac.hopChannel s1
  match r.1 with
  | some f => r.2.raise f
  | none =>
    { r.2 with fac := r.2.fac.hopped s.cfg }.finish
      (.alt .hop s1.fac.hopChannel (r.2.fac.hopped s.cfg).nonce)

/-- `ALT` in its skip phase (43_fac_frequency.md R197). -/
def opAltSkip (s : State) : State :=
  let c := skipCh s.cfg s.fac.hopChannel
  let r := tune c s
  match r.1 with
  | some f => r.2.raise f
  | none =>
    { r.2 with fac := { r.2.fac with altPhase := 0 } }.finish (.alt .skip c r.2.fac.nonce)

/-- `ALT` (43_fac_frequency.md R197). -/
def opAlt (s : State) : State :=
  if s.fac.altPhase = 0 then opAltHop s else opAltSkip s

/-- `HOP` (43_fac_frequency.md R193). -/
def execHop (s : State) : Host.Outcome State Fault Refusal := s.command (retune opHop)

/-- `SET ch` (43_fac_frequency.md R194). -/
def execSetCh (ch : BitVec 5) (s : State) : Host.Outcome State Fault Refusal := s.command (opSet ch)

/-- `SKIP` (43_fac_frequency.md R196). -/
def execSkip (s : State) : Host.Outcome State Fault Refusal := s.command (retune opSkip)

/-- `ALT` (43_fac_frequency.md R197). -/
def execAlt (s : State) : Host.Outcome State Fault Refusal := s.command (retune opAlt)

end Sys2Proof.Machine
end

