-- ==== Sys2Proof/Machine/Rtx.lean ====
section
/-! DEFINITION. RTX, the register transaction operations (40_rtx_transactions.md): reads, plain writes with the
dwell accounting, verified writes, and the two bridge operations. -/

namespace Sys2Proof.Machine

-- ---------------------------------------------------------------- shared by the four spaces

/-- `Read(spc, addr)` as an operation (40_rtx_transactions.md R123). -/
def opRead (spc : Space) (addr : Addr) (s : State) : State :=
  if s.cfg.addrOk spc addr then
    let r := readByte s.cfg spc addr s.world
    { s with world := r.2 }.finish (.byte r.1)
  else s.reject .badAddress

/-- The write starts a radio run: `CTRL` with `GO` = 1 (40_rtx_transactions.md R124, R127). -/
def startsRun (c : Cfg) (spc : Space) (addr : Addr) (v : Byte) : Bool :=
  spc = .us ∧ addr = ctrlAddr ∧ goBit c.userMap v

/-- `Write(spc, addr, v)` as an operation (40_rtx_transactions.md R124), with the dwell accounting of R127. -/
def opWrite (spc : Space) (addr : Addr) (v : Byte) (s : State) : State :=
  if s.cfg.addrOk spc addr then
    if startsRun s.cfg spc addr v then
      if s.cfg.dwellMaxRuns ≤ s.fac.runsOnChannel then s.reject .dwellLimit
      else
        { s with
          world := writeByte s.cfg spc addr v s.world
          fac := { s.fac with runsOnChannel := s.fac.runsOnChannel + 1 } }.finish .unit
    else { s with world := writeByte s.cfg spc addr v s.world }.finish .unit
  else s.reject .badAddress

/-- A verified write to `CTRL` that carries a trigger bit (40_rtx_transactions.md R125, R126). -/
def verifiesTrigger (c : Cfg) (spc : Space) (addr : Addr) (v : Byte) : Bool :=
  spc = .us ∧ addr = ctrlAddr ∧ v &&& trigMask c.userMap ≠ 0

/-- `WriteV(spc, addr, v)` as an operation (40_rtx_transactions.md R125), its rejections in the order of R236. -/
def opWriteV (spc : Space) (addr : Addr) (v : Byte) (s : State) : State :=
  if s.cfg.addrOk spc addr then
    match vMask s.cfg.userMap spc addr with
    | none => s.reject .verifyVolatile
    | some mask =>
      if verifiesTrigger s.cfg spc addr v then s.reject .verifyTrigger
      else
        let r := writeV s.cfg spc addr v mask s.world
        { s with world := r.2 }.conclude r.1 .unit
  else s.reject .badAddress

/-- `Bridge(wnr, sa, v)` as an operation (40_rtx_transactions.md R131). -/
def opBridge (wnr : Bool) (sa v : Byte) (s : State) : State :=
  if 127 < sa.toNat then s.reject .badSdrAddr
  else
    let r := bridge s.cfg wnr sa v s.world
    let s' := { s with world := r.2 }
    match r.1 with
    | .error f => s'.raise f
    | .ok b => s'.finish (if wnr then .unit else .byte b)

-- ---------------------------------------------------------------- the meanings

/-- `RD.WV addr` (40_rtx_transactions.md R132). -/
def execRdWv (addr : Addr) (s : State) : Host.Outcome State Fault Refusal := s.command (opRead .wv addr)

/-- `RD.RX addr` (40_rtx_transactions.md R133). -/
def execRdRx (addr : Addr) (s : State) : Host.Outcome State Fault Refusal := s.command (opRead .rx addr)

/-- `RD.TX addr` (40_rtx_transactions.md R134). -/
def execRdTx (addr : Addr) (s : State) : Host.Outcome State Fault Refusal := s.command (opRead .tx addr)

/-- `RD.US addr` (40_rtx_transactions.md R135). -/
def execRdUs (addr : Addr) (s : State) : Host.Outcome State Fault Refusal := s.command (opRead .us addr)

/-- `WR.WV addr, val` (40_rtx_transactions.md R136). -/
def execWrWv (addr : Addr) (val : Byte) (s : State) : Host.Outcome State Fault Refusal :=
  s.command (opWrite .wv addr val)

/-- `WR.RX addr, val` (40_rtx_transactions.md R137). -/
def execWrRx (addr : Addr) (val : Byte) (s : State) : Host.Outcome State Fault Refusal :=
  s.command (opWrite .rx addr val)

/-- `WR.TX addr, val` (40_rtx_transactions.md R138). -/
def execWrTx (addr : Addr) (val : Byte) (s : State) : Host.Outcome State Fault Refusal :=
  s.command (opWrite .tx addr val)

/-- `WR.US addr, val` (40_rtx_transactions.md R139): the only operation that may carry trigger bits. -/
def execWrUs (addr : Addr) (val : Byte) (s : State) : Host.Outcome State Fault Refusal :=
  s.command (opWrite .us addr val)

/-- `WRV.WV addr, val` (40_rtx_transactions.md R140). -/
def execWrvWv (addr : Addr) (val : Byte) (s : State) : Host.Outcome State Fault Refusal :=
  s.command (opWriteV .wv addr val)

/-- `WRV.RX addr, val` (40_rtx_transactions.md R141). -/
def execWrvRx (addr : Addr) (val : Byte) (s : State) : Host.Outcome State Fault Refusal :=
  s.command (opWriteV .rx addr val)

/-- `WRV.TX addr, val` (40_rtx_transactions.md R142). -/
def execWrvTx (addr : Addr) (val : Byte) (s : State) : Host.Outcome State Fault Refusal :=
  s.command (opWriteV .tx addr val)

/-- `WRV.US addr, val` (40_rtx_transactions.md R143). -/
def execWrvUs (addr : Addr) (val : Byte) (s : State) : Host.Outcome State Fault Refusal :=
  s.command (opWriteV .us addr val)

/-- `BRD sa` (40_rtx_transactions.md R129). -/
def execBrd (sa : Byte) (s : State) : Host.Outcome State Fault Refusal := s.command (opBridge false sa 0)

/-- `BWR sa, val` (40_rtx_transactions.md R130). -/
def execBwr (sa val : Byte) (s : State) : Host.Outcome State Fault Refusal := s.command (opBridge true sa val)

end Sys2Proof.Machine
end

