-- ==== Sys2Proof/Machine/Rxd.lean ====
section
/-! DEFINITION. RXD, the reply decoder operations (42_rxd_decoder.md): result records and reply decodes. The
decoder checks no CRC, interprets no PC word and no header bit, and never faults (R173). -/

namespace Sys2Proof.Machine

-- ---------------------------------------------------------------- result records

/-- `res[ch]`. -/
def State.res (s : State) : Chan → TagRead
  | .I => s.resI
  | .Q => s.resQ

/-- `res[ch]` replaced. -/
def State.putRes (s : State) (ch : Chan) (r : TagRead) : State :=
  match ch with
  | .I => { s with resI := r }
  | .Q => { s with resQ := r }

/-- `RES.NEW` (42_rxd_decoder.md R164). -/
def opResNew (s : State) : State :=
  { s with resI := TagRead.fresh, resQ := TagRead.fresh }.finish .unit

/-- `RES.FAIL ch` (42_rxd_decoder.md R172). -/
def opResFail (ch : Chan) (s : State) : State :=
  (s.putRes ch { s.res ch with pass := false }).finish .unit

-- ---------------------------------------------------------------- reply decodes

/-- The fields of a reply (42_rxd_decoder.md R163). -/
def Reply.fields (l : RxLayout) : Reply → List BitField
  | .rn16 => rn16Fields l
  | .handle => handleFields l
  | .read n => readFields l n.toNat
  | .wrack => wrackFields l

/-- The decoder outputs filled from the bytes of a reply (42_rxd_decoder.md R165 to R168). -/
def Reply.fill (l : RxLayout) (m : Buf) (d : Decoded) : Reply → Decoded
  | .rn16 => { d with rn16 := some (m.word16 (l.rn16Rn.at 0)) }
  | .handle =>
    { d with
      handle := some (m.word16 (l.handleRn.at 0))
      crc := some (m.word16 (l.handleCrc.at 0)) }
  | .read n =>
    { d with
      hdr := some (m.flag (l.readHdr.at 0))
      data := m.byteList (l.readData.at n.toNat).g n.toNat
      len := n.toNat
      handle := some (m.word16 (l.readRn.at n.toNat))
      crc := some (m.word16 (l.readCrc.at n.toNat)) }
  | .wrack =>
    { d with
      hdr := some (m.flag (l.wrackHdr.at 0))
      handle := some (m.word16 (l.wrackRn.at 0))
      crc := some (m.word16 (l.wrackCrc.at 0)) }

/-- The value a reply decode returns (42_rxd_decoder.md R165 to R168). -/
def Reply.value (l : RxLayout) (m : Buf) : Reply → Value
  | .rn16 => .word16 (m.word16 (l.rn16Rn.at 0))
  | .handle => .word16 (m.word16 (l.handleRn.at 0))
  | .read _ => .bit (m.flag (l.readHdr.at 0))
  | .wrack => .bit (m.flag (l.wrackHdr.at 0))

/-- A reply decode: its span read, its registers written, its value returned. -/
def opReply (r : Reply) (s : State) : State :=
  let l := s.cfg.rxLayout
  let b := readSpan s.cfg (r.fields l) s.world
  { s with world := b.2, dec := r.fill l b.1 s.dec }.finish (r.value l b.1)

/-- A read reply has 1 to 12 data bytes (42_rxd_decoder.md R167). -/
def badLength (n : BitVec 4) : Bool := n = 0 ∨ 12 < n.toNat

/-- `DEC.READ n` (42_rxd_decoder.md R167). -/
def opDecRead (n : BitVec 4) (s : State) : State :=
  if badLength n then s.reject .badLength else opReply (.read n) s

-- ---------------------------------------------------------------- DEC.TAG

/-- The fields of a part of `DEC.TAG` (42_rxd_decoder.md R163). -/
def TagPart.fields (c : Cfg) : TagPart → List BitField
  | .epc => tagFields c.rxLayout c.epcLen
  | .mag => magFields c.rxLayout
  | .lna => lnaFields c.rxLayout

/-- The result record with one part filled from its bytes (42_rxd_decoder.md R169, R170). -/
def TagPart.fill (c : Cfg) (m : Buf) (t : TagRead) : TagPart → TagRead
  | .epc =>
    let l := c.rxLayout
    { t with
      pc := some (m.word16 (l.tagPc.at c.epcLen))
      epc := m.byteList (l.tagEpc.at c.epcLen).g c.epcLen
      crc := some (m.word16 (l.tagCrc.at c.epcLen)) }
  | .mag =>
    { t with
      magMain := some (m.signed (c.rxLayout.magMain.at 0))
      magAlt := some (m.signed (c.rxLayout.magAlt.at 0)) }
  | .lna => { t with lna := some (BitVec.ofNat 8 (m.field (c.rxLayout.lna.at 0))) }

/-- The parts the flags name, in the order E, M, L (42_rxd_decoder.md R169). -/
def tagParts (f : TagFlags) : List TagPart :=
  (if f.e then [.epc] else []) ++ (if f.m then [.mag] else []) ++ (if f.l then [.lna] else [])

/-- The parts of `DEC.TAG` read and filled one after the other. -/
def readParts (c : Cfg) : List TagPart → TagRead → World → TagRead × World
  | [], t, w => (t, w)
  | p :: ps, t, w =>
    let b := readSpan c (p.fields c) w
    readParts c ps (p.fill c b.1 t) b.2

/-- `DEC.TAG ch, flags` (42_rxd_decoder.md R169): the exit code first, then the parts. -/
def opDecTag (ch : Chan) (f : TagFlags) (s : State) : State :=
  let c := s.cfg
  let st := readByte c .us statusAddr s.world
  let exit := exitCodeOf c.userMap st.1
  if exit ≠ 0 then
    ({ s with world := st.2 }.putRes ch { s.res ch with pass := false }).finish (.exitCode exit)
  else
    let t := readParts c (tagParts f) { s.res ch with pass := true } st.2
    ({ s with world := t.2 }.putRes ch t.1).finish (.exitCode 0)

-- ---------------------------------------------------------------- the meanings

/-- `RES.NEW` (42_rxd_decoder.md R164). -/
def execResNew (s : State) : Host.Outcome State Fault Refusal := s.command opResNew

/-- `DEC.RN16` (42_rxd_decoder.md R165). -/
def execDecRn16 (s : State) : Host.Outcome State Fault Refusal := s.command (opReply .rn16)

/-- `DEC.HANDLE` (42_rxd_decoder.md R166). -/
def execDecHandle (s : State) : Host.Outcome State Fault Refusal := s.command (opReply .handle)

/-- `DEC.READ n` (42_rxd_decoder.md R167). -/
def execDecRead (n : BitVec 4) (s : State) : Host.Outcome State Fault Refusal := s.command (opDecRead n)

/-- `DEC.WRACK` (42_rxd_decoder.md R168). -/
def execDecWrack (s : State) : Host.Outcome State Fault Refusal := s.command (opReply .wrack)

/-- `DEC.TAG ch, flags` (42_rxd_decoder.md R169). -/
def execDecTag (ch : Chan) (flags : TagFlags) (s : State) : Host.Outcome State Fault Refusal :=
  s.command (opDecTag ch flags)

/-- `RES.FAIL ch` (42_rxd_decoder.md R172). -/
def execResFail (ch : Chan) (s : State) : Host.Outcome State Fault Refusal := s.command (opResFail ch)

end Sys2Proof.Machine
end

