-- ==== Sys2Proof/Machine/Toc.lean ====
section
/-! DEFINITION. TOC, the TX offset calibrator operations (44_toc_calibrator.md). A calibration runs until it ends or is
held in the wait of a measurement; the sequencing state then says where, and a later step goes on from there. -/

namespace Sys2Proof.Machine

-- ---------------------------------------------------------------- common procedures

/-- `Finish(exit)` (44_toc_calibrator.md R215). The registers hold values whenever a calibration gets here; log 27
says what stands for them if they did not. -/
def calFinish (exit : CalExit) (s : State) : State :=
  let a := s.toc.calA.getD 0
  let b := s.toc.calB.getD 0
  let best := s.toc.calBest.getD 0
  let r := writeV s.cfg .us txofsAddr (txofsByte s.cfg.userMap a b) 0xFF s.world
  match r.1 with
  | some f => { s with world := r.2 }.raise f
  | none => { s with world := r.2, toc := Toc.unwritten }.finish (.cal a b best exit)

/-- The running minimum moved to a pair (44_toc_calibrator.md R213, R214). -/
def Toc.moveTo (t : Toc) (a b : Offset) (v : Nat) : Toc :=
  { t with calA := some a, calB := some b, calBest := some v }

/-- `s < cal_best`, where `none` counts as larger than every sample (44_toc_calibrator.md R213, R220). -/
def Toc.improves (t : Toc) (v : Nat) : Bool :=
  match t.calBest with
  | none => true
  | some best => v < best

-- ---------------------------------------------------------------- CAL.BRUTE

/-- The sample of one pair of the sweep taken into account (44_toc_calibrator.md R213). -/
def bruteTake (a b : Offset) (v : Nat) (t : Toc) : Toc :=
  if t.improves v then t.moveTo a b v else t

/-- The rest of the sweep (44_toc_calibrator.md R213). -/
def bruteFrom : List (Offset × Offset) → State → State
  | [], s => calFinish .swept s
  | (a, b) :: rest, s =>
    match measure s.cfg a b s.world with
    | (.fault f, w) => { s with world := w }.raise f
    | (.held, w) => { s with world := w, seq := .brute a b }
    | (.sample v, w) => bruteFrom rest { s with world := w, toc := bruteTake a b v s.toc }

/-- `CAL.BRUTE` from the idle block (44_toc_calibrator.md R213). -/
def opCalBrute (s : State) : State := bruteFrom sweep { s with toc := Toc.unwritten }

/-- `CAL.BRUTE` going on from the wait of the measurement of `(a, b)`. -/
def resumeBrute (a b : Offset) (s : State) : State :=
  match measureWait s.cfg s.world with
  | (.fault f, w) => { s with world := w }.raise f
  | (.held, w) => { s with world := w, seq := .brute a b }
  | (.sample v, w) => bruteFrom (sweepAfter a b) { s with world := w, toc := bruteTake a b v s.toc }

-- ---------------------------------------------------------------- CAL.GRAD

/-- How one pass of the descent loop ends: `again` with the next pass to come, `stop` with the operation over or
held. -/
inductive Pass where
  | again (s : State)
  | stop (s : State)
deriving DecidableEq, Repr

/-- A candidate replaced by a strictly smaller sample that also improves on the best (44_toc_calibrator.md R214). -/
def betterCand (t : Toc) (d : Dir) (a b : Offset) (v : Nat) (cand : Option Cand) : Option Cand :=
  if t.improves v && (match cand with | none => true | some c => decide (v < c.sample)) then some ⟨d, a, b, v⟩
  else cand

/-- The probe of the neighbours still to be looked at, and the move or the end it leads to
(44_toc_calibrator.md R214). -/
def probeFrom : List Dir → Option Cand → State → Pass
  | [], none, s => .stop (calFinish .localMin s)
  | [], some c, s => .again { s with toc := { s.toc.moveTo c.a c.b c.sample with calDir := some c.dir } }
  | d :: rest, cand, s =>
    match neighbour (s.toc.calA.getD 0) (s.toc.calB.getD 0) d with
    | none => probeFrom rest cand s
    | some (a, b) =>
      match measure s.cfg a b s.world with
      | (.fault f, w) => .stop ({ s with world := w }.raise f)
      | (.held, w) => .stop { s with world := w, seq := .grad (.probe d a b rest cand) }
      | (.sample v, w) => probeFrom rest (betterCand s.toc d a b v cand) { s with world := w }

/-- The direction given up and the four neighbours probed, in the same pass (44_toc_calibrator.md R214). -/
def startProbe (s : State) : Pass :=
  probeFrom probeOrder none { s with toc := { s.toc with calDir := none } }

/-- The sample of the next point the same way taken into account (44_toc_calibrator.md R214). -/
def alongTake (a b : Offset) (v : Nat) (s : State) : Pass :=
  if s.toc.improves v then .again { s with toc := s.toc.moveTo a b v } else startProbe s

/-- One pass of the loop after its cap check, `cal_iter` counted up (44_toc_calibrator.md R214). -/
def gradPass (s : State) : Pass :=
  let s1 := { s with toc := { s.toc with calIter := some (s.toc.calIter.getD 0 + 1) } }
  match s1.toc.calDir with
  | none => startProbe s1
  | some d =>
    match neighbour (s1.toc.calA.getD 0) (s1.toc.calB.getD 0) d with
    | none => startProbe s1
    | some (a, b) =>
      match measure s1.cfg a b s1.world with
      | (.fault f, w) => .stop ({ s1 with world := w }.raise f)
      | (.held, w) => .stop { s1 with world := w, seq := .grad (.along d a b) }
      | (.sample v, w) => alongTake a b v { s1 with world := w }

/-- The loop with so many passes left before the cap (44_toc_calibrator.md R214). -/
def gradLoop : Nat → State → State
  | 0, s => calFinish .iterCap s
  | k + 1, s =>
    match gradPass s with
    | .again s' => gradLoop k s'
    | .stop s' => s'

/-- How many passes are left before the cap. -/
def passesLeft (s : State) : Nat := s.cfg.calMaxIter - s.toc.calIter.getD 0

/-- The loop from its cap check on. -/
def gradContinue (s : State) : State := gradLoop (passesLeft s) s

/-- The rest of the operation after a pass. -/
def Pass.go : Pass → State
  | .again s => gradContinue s
  | .stop s => s

/-- The start point measured: the registers set up and the loop entered (44_toc_calibrator.md R214). -/
def startTake (v : Nat) (s : State) : State :=
  gradContinue { s with toc := { s.toc with calBest := some v, calDir := none, calIter := some 0 } }

/-- The registers at the start point (44_toc_calibrator.md R214). -/
def Toc.startAt (t : Toc) (p : Offset × Offset) : Toc := { t with calA := some p.1, calB := some p.2 }

/-- `CAL.GRAD` from the idle block (44_toc_calibrator.md R214). -/
def opCalGrad (s : State) : State :=
  let a := s.cfg.calStart.1
  let b := s.cfg.calStart.2
  let s1 := { s with toc := s.toc.startAt s.cfg.calStart }
  match measure s1.cfg a b s1.world with
  | (.fault f, w) => { s1 with world := w }.raise f
  | (.held, w) => { s1 with world := w, seq := .grad .start }
  | (.sample v, w) => startTake v { s1 with world := w }

/-- `CAL.GRAD` going on with the sample it was held for. -/
def gradTake (g : GradAt) (v : Nat) (s : State) : State :=
  match g with
  | .start => startTake v s
  | .along _ a b => (alongTake a b v s).go
  | .probe d a b rest cand => (probeFrom rest (betterCand s.toc d a b v cand) s).go

/-- `CAL.GRAD` going on from the wait of a measurement. -/
def resumeGrad (g : GradAt) (s : State) : State :=
  match measureWait s.cfg s.world with
  | (.fault f, w) => { s with world := w }.raise f
  | (.held, w) => { s with world := w, seq := .grad g }
  | (.sample v, w) => gradTake g v { s with world := w }

-- ---------------------------------------------------------------- CAL.GRAD, one measurement at a time

/-- What the search asks for next: the measurement of a point, or the end. -/
inductive Ask where
  | point (g : GradAt) (a b : Offset)
  | done (exit : CalExit)
deriving DecidableEq, Repr

/-- The first in-range neighbour still to be probed, if there is one (44_toc_calibrator.md R214, R219). -/
def nextProbe (t : Toc) (cand : Option Cand) : List Dir → Option Ask
  | [] => none
  | d :: rest =>
    match neighbour (t.calA.getD 0) (t.calB.getD 0) d with
    | none => nextProbe t cand rest
    | some (a, b) => some (.point (.probe d a b rest cand) a b)

/-- The direction given up: the registers, and the first neighbour to be probed (44_toc_calibrator.md R214). -/
def probeAsk (t : Toc) : Toc × Ask :=
  let t' := { t with calDir := none }
  (t', (nextProbe t' none probeOrder).getD (.done .localMin))

/-- The loop from its cap check on: the registers, and the first measurement of the pass (44_toc_calibrator.md
R214). -/
def loopAsk (c : Cfg) (t : Toc) : Toc × Ask :=
  if c.calMaxIter ≤ t.calIter.getD 0 then (t, .done .iterCap)
  else
    let t1 := { t with calIter := some (t.calIter.getD 0 + 1) }
    match t1.calDir with
    | none => probeAsk t1
    | some d =>
      match neighbour (t1.calA.getD 0) (t1.calB.getD 0) d with
      | none => probeAsk t1
      | some (a, b) => (t1, .point (.along d a b) a b)

/-- A sample of `CAL.GRAD` taken into account: the registers, and what the search asks for next
(44_toc_calibrator.md R214). -/
def gradNext (c : Cfg) (g : GradAt) (v : Nat) (t : Toc) : Toc × Ask :=
  match g with
  | .start => loopAsk c { t with calBest := some v, calDir := none, calIter := some 0 }
  | .along _ a b => if t.improves v then loopAsk c (t.moveTo a b v) else probeAsk t
  | .probe d a b rest cand =>
    let cand' := betterCand t d a b v cand
    match nextProbe t cand' rest, cand' with
    | some ask, _ => (t, ask)
    | none, none => (t, .done .localMin)
    | none, some x => loopAsk c { t.moveTo x.a x.b x.sample with calDir := some x.dir }

-- ---------------------------------------------------------------- the meanings

/-- `CAL.BRUTE` (44_toc_calibrator.md R213). -/
def execCalBrute (s : State) : Host.Outcome State Fault Refusal := s.command opCalBrute

/-- `CAL.GRAD` (44_toc_calibrator.md R214). -/
def execCalGrad (s : State) : Host.Outcome State Fault Refusal := s.command opCalGrad

end Sys2Proof.Machine
end

