-- ==== Sys2Proof/Machine/Wire.lean ====
section
/-! DEFINITION. The wire-level transactions (30_encoding.md R91 to R95, 20_memory.md R64): one `Xfer` delivered
to the peripheral, with no operation of the block around it. Nothing of the block changes: no outcome, no
register, no dwell count (log 13). -/

namespace Sys2Proof.Machine

/-- One transaction with these outbound bytes, whatever they are. -/
def opXfer (q : Quad) (s : State) : State := { s with world := (xfer s.cfg q s.world).2 }

/-- `TXN.RD.WV` (30_encoding.md R93). -/
def execTxnRdWv (addr : Addr) (s : State) : Host.Outcome State Fault Refusal :=
  s.command (opXfer (encodeTxn ⟨.wv, false, addr⟩ 0))

/-- `TXN.WR.WV` (30_encoding.md R93). -/
def execTxnWrWv (addr : Addr) (data : Byte) (s : State) : Host.Outcome State Fault Refusal :=
  s.command (opXfer (encodeTxn ⟨.wv, true, addr⟩ data))

/-- `TXN.RD.RX` (30_encoding.md R93). -/
def execTxnRdRx (addr : Addr) (s : State) : Host.Outcome State Fault Refusal :=
  s.command (opXfer (encodeTxn ⟨.rx, false, addr⟩ 0))

/-- `TXN.WR.RX` (30_encoding.md R93). -/
def execTxnWrRx (addr : Addr) (data : Byte) (s : State) : Host.Outcome State Fault Refusal :=
  s.command (opXfer (encodeTxn ⟨.rx, true, addr⟩ data))

/-- `TXN.RD.TX` (30_encoding.md R93). -/
def execTxnRdTx (addr : Addr) (s : State) : Host.Outcome State Fault Refusal :=
  s.command (opXfer (encodeTxn ⟨.tx, false, addr⟩ 0))

/-- `TXN.WR.TX` (30_encoding.md R93). -/
def execTxnWrTx (addr : Addr) (data : Byte) (s : State) : Host.Outcome State Fault Refusal :=
  s.command (opXfer (encodeTxn ⟨.tx, true, addr⟩ data))

/-- `TXN.RD.US` (30_encoding.md R93). -/
def execTxnRdUs (addr : Addr) (s : State) : Host.Outcome State Fault Refusal :=
  s.command (opXfer (encodeTxn ⟨.us, false, addr⟩ 0))

/-- `TXN.WR.US` (30_encoding.md R93). -/
def execTxnWrUs (addr : Addr) (data : Byte) (s : State) : Host.Outcome State Fault Refusal :=
  s.command (opXfer (encodeTxn ⟨.us, true, addr⟩ data))

end Sys2Proof.Machine
end

