-- ==== Sys2Proof/Machine/Dispatch.lean ====
section
/-! DEFINITION. The dispatch: one arm per constructor of `Instr`, each one call of its meaning. -/

namespace Sys2Proof.Machine

def exec (i : Instr) (s : State) : Host.Outcome State Fault Refusal :=
  match i with
  | .rdWv a => Sys2Proof.Machine.execRdWv a s
  | .rdRx a => Sys2Proof.Machine.execRdRx a s
  | .rdTx a => Sys2Proof.Machine.execRdTx a s
  | .rdUs a => Sys2Proof.Machine.execRdUs a s
  | .wrWv a v => Sys2Proof.Machine.execWrWv a v s
  | .wrRx a v => Sys2Proof.Machine.execWrRx a v s
  | .wrTx a v => Sys2Proof.Machine.execWrTx a v s
  | .wrUs a v => Sys2Proof.Machine.execWrUs a v s
  | .wrvWv a v => Sys2Proof.Machine.execWrvWv a v s
  | .wrvRx a v => Sys2Proof.Machine.execWrvRx a v s
  | .wrvTx a v => Sys2Proof.Machine.execWrvTx a v s
  | .wrvUs a v => Sys2Proof.Machine.execWrvUs a v s
  | .brd sa => Sys2Proof.Machine.execBrd sa s
  | .bwr sa v => Sys2Proof.Machine.execBwr sa v s
  | .evclr e => Sys2Proof.Machine.execEvclr e s
  | .evwait e => Sys2Proof.Machine.execEvwait e s
  | .resNew => Sys2Proof.Machine.execResNew s
  | .decRn16 => Sys2Proof.Machine.execDecRn16 s
  | .decHandle => Sys2Proof.Machine.execDecHandle s
  | .decRead n => Sys2Proof.Machine.execDecRead n s
  | .decWrack => Sys2Proof.Machine.execDecWrack s
  | .decTag ch f => Sys2Proof.Machine.execDecTag ch f s
  | .resFail ch => Sys2Proof.Machine.execResFail ch s
  | .hop => Sys2Proof.Machine.execHop s
  | .setCh ch => Sys2Proof.Machine.execSetCh ch s
  | .skip => Sys2Proof.Machine.execSkip s
  | .alt => Sys2Proof.Machine.execAlt s
  | .calBrute => Sys2Proof.Machine.execCalBrute s
  | .calGrad => Sys2Proof.Machine.execCalGrad s
  | .txnRdWv a => Sys2Proof.Machine.execTxnRdWv a s
  | .txnWrWv a d => Sys2Proof.Machine.execTxnWrWv a d s
  | .txnRdRx a => Sys2Proof.Machine.execTxnRdRx a s
  | .txnWrRx a d => Sys2Proof.Machine.execTxnWrRx a d s
  | .txnRdTx a => Sys2Proof.Machine.execTxnRdTx a s
  | .txnWrTx a d => Sys2Proof.Machine.execTxnWrTx a d s
  | .txnRdUs a => Sys2Proof.Machine.execTxnRdUs a s
  | .txnWrUs a d => Sys2Proof.Machine.execTxnWrUs a d s

end Sys2Proof.Machine
end

