-- ==== Sys2Proof/Machine/Micro.lean ====
section
/-! DEFINITION. Operations as micro-step lists (00_scope.md R11, 10_state.md R24): the list each command stands for,
what running the rest of a list comes to, and one micro-step of it. -/

namespace Sys2Proof.Machine

-- ---------------------------------------------------------------- the micro-steps of the procedures

/-- `Read(spc, addr)` (40_rtx_transactions.md R123). -/
def readCode (c : Cfg) (spc : Space) (addr : Addr) : List Micro :=
  match c.readReturn with
  | .same => [.xfer spc false addr 0]
  | .previous => [.xfer spc false addr 0, .xfer spc false addr 0]

/-- `WriteV(spc, addr, v)` behind its checks (40_rtx_transactions.md R125). -/
def writeVCode (spc : Space) (addr : Addr) (v mask : Byte) : List Micro :=
  [.attempts spc addr v mask Config.writeVerifyAttempts]

/-- `Bridge(wnr, sa, v)` behind its range check, up to its `done` (40_rtx_transactions.md R131). -/
def bridgeCode (c : Cfg) (wnr : Bool) (sa v : Byte) : List Micro :=
  writeVCode .us brAddrAddr (brAddrByte c.userMap wnr sa) 0xFF
  ++ (if wnr then writeVCode .us brWdataAddr v 0xFF else [])
  ++ [.xfer .us true brCtrlAddr (brStartByte c.userMap), .polls c.bridgePollMax]

/-- `Tune(ch)` with the channel tuned before (43_fac_frequency.md R191). -/
def tuneCode (c : Cfg) (prev : Option Channel) (ch : Channel) : List Micro :=
  [.untune] ++ (tuneWrites c ch).flatMap (fun p => bridgeCode c true p.1 p.2) ++ [.tuned prev ch]

/-- `ReadSpan` over the span that covers the fields (42_rxd_decoder.md R162). -/
def spanCode (fs : List BitField) : List Micro :=
  [.span (spanFirst fs), .bytes (spanFirst fs) (spanLast fs + 1 - spanFirst fs)]

/-- `Measure(a, b)` and what follows its wait (44_toc_calibrator.md R212). -/
def measureCode (c : Cfg) (a b : Offset) (k : CalAt) : List Micro :=
  writeVCode .us txofsAddr (txofsByte c.userMap a b) 0xFF ++ [.clear .sampleReady, .pulse, .await k]

/-- `Finish(exit)` (44_toc_calibrator.md R215). -/
def finishCode (c : Cfg) (t : Toc) (exit : CalExit) : List Micro :=
  writeVCode .us txofsAddr (txofsByte c.userMap (t.calA.getD 0) (t.calB.getD 0)) 0xFF ++ [.calDone exit]

/-- What a measurement has behind its wait once the wait is over (44_toc_calibrator.md R212 to R214). -/
def awaited (k : CalAt) : List Micro := [.clear .sampleReady, .draw, .take k]

/-- A sample taken into account, and the micro-steps the calibration goes on with (44_toc_calibrator.md R213, R214). -/
def takeSample (c : Cfg) (v : Nat) (t : Toc) : CalAt → Toc × List Micro
  | .brute a b =>
    let t' := bruteTake a b v t
    match sweepAfter a b with
    | [] => (t', finishCode c t' .swept)
    | p :: _ => (t', measureCode c p.1 p.2 (.brute p.1 p.2))
  | .grad g =>
    match gradNext c g v t with
    | (t', .point g' a b) => (t', measureCode c a b (.grad g'))
    | (t', .done exit) => (t', finishCode c t' exit)

-- ---------------------------------------------------------------- the micro-steps of the commands

/-- `RD.*` (40_rtx_transactions.md R123). -/
def codeRead (spc : Space) (addr : Addr) (s : State) : Except RejectCode (List Micro) :=
  if s.cfg.addrOk spc addr then .ok (readCode s.cfg spc addr ++ [.retByte]) else .error .badAddress

/-- `WR.*` (40_rtx_transactions.md R124, R127). -/
def codeWrite (spc : Space) (addr : Addr) (v : Byte) (s : State) : Except RejectCode (List Micro) :=
  if s.cfg.addrOk spc addr then
    if startsRun s.cfg spc addr v then
      if s.cfg.dwellMaxRuns ≤ s.fac.runsOnChannel then .error .dwellLimit
      else .ok [.xfer spc true addr v, .countRun, .ret .unit]
    else .ok [.xfer spc true addr v, .ret .unit]
  else .error .badAddress

/-- `WRV.*` (40_rtx_transactions.md R125, R126). -/
def codeWriteV (spc : Space) (addr : Addr) (v : Byte) (s : State) : Except RejectCode (List Micro) :=
  if s.cfg.addrOk spc addr then
    match vMask s.cfg.userMap spc addr with
    | none => .error .verifyVolatile
    | some mask =>
      if verifiesTrigger s.cfg spc addr v then .error .verifyTrigger
      else .ok (writeVCode spc addr v mask ++ [.ret .unit])
  else .error .badAddress

/-- `BRD` and `BWR` (40_rtx_transactions.md R129 to R131). -/
def codeBridge (wnr : Bool) (sa v : Byte) (s : State) : Except RejectCode (List Micro) :=
  if 127 < sa.toNat then .error .badSdrAddr
  else .ok (bridgeCode s.cfg wnr sa v
    ++ if wnr then [.ret .unit] else readCode s.cfg .us brRdataAddr ++ [.retByte])

/-- A reply decode (42_rxd_decoder.md R165 to R168). -/
def codeReply (r : Reply) (s : State) : List Micro := spanCode (r.fields s.cfg.rxLayout) ++ [.reply r]

/-- `DEC.TAG` (42_rxd_decoder.md R169). -/
def codeTag (ch : Chan) (f : TagFlags) (s : State) : List Micro :=
  readCode s.cfg .us statusAddr ++ [.tagStatus ch]
  ++ (tagParts f).flatMap (fun p => spanCode (p.fields s.cfg) ++ [.tagPart ch p]) ++ [.ret (.exitCode 0)]

/-- `HOP` (43_fac_frequency.md R193). -/
def codeHop (s : State) : List Micro :=
  let ch := nextHop s.cfg s.fac.hopChannel
  .advance :: tuneCode s.cfg s.fac.tunedChannel ch ++ [.ret (.channel ch)]

/-- `SET` of a legal channel, and `SKIP` (43_fac_frequency.md R194, R196). -/
def codeTune (ch : Channel) (s : State) : List Micro :=
  tuneCode s.cfg s.fac.tunedChannel ch ++ [.ret (.channel ch)]

/-- `ALT` (43_fac_frequency.md R197). -/
def codeAlt (s : State) : List Micro :=
  let prev := s.fac.tunedChannel
  if s.fac.altPhase = 0 then
    let ch := nextHop s.cfg s.fac.hopChannel
    .advance :: tuneCode s.cfg prev ch ++ [.hopped, .ret (.alt .hop ch ((s.fac.nonce + 1) % 2 ^ s.cfg.nonceBits))]
  else
    let ch := skipCh s.cfg s.fac.hopChannel
    tuneCode s.cfg prev ch ++ [.skipped, .ret (.alt .skip ch s.fac.nonce)]

/-- A retune of a plan whose SDR addresses all exist (log 19). -/
def codeRetune (code : List Micro) (s : State) : Except RejectCode (List Micro) :=
  if tuneFits s.cfg then .ok code else .error .badSdrAddr

/-- `CAL.BRUTE` (44_toc_calibrator.md R213). -/
def codeCalBrute (s : State) : List Micro := .setToc Toc.unwritten :: measureCode s.cfg 0 0 (.brute 0 0)

/-- `CAL.GRAD` (44_toc_calibrator.md R214). -/
def codeCalGrad (s : State) : List Micro :=
  .setToc (s.toc.startAt s.cfg.calStart) :: measureCode s.cfg s.cfg.calStart.1 s.cfg.calStart.2 (.grad .start)

-- ---------------------------------------------------------------- the rest of an operation

/-- The measurement a calibration is at, going on from its wait. -/
def resumeCal (k : CalAt) (s : State) : State :=
  match k with
  | .brute a b => resumeBrute a b s
  | .grad g => resumeGrad g s

/-- A sample taken into account, and the calibration going on. -/
def goOn (k : CalAt) (v : Nat) (s : State) : State :=
  match k with
  | .brute a b => bruteFrom (sweepAfter a b) { s with toc := bruteTake a b v s.toc }
  | .grad g => gradTake g v s

/-- The remaining micro-steps of an operation run to its end or to its wait (10_state.md R24). -/
def runCode : List Micro → Locals → State → State
  | [], _, s => { s with seq := .idle }
  | m :: code, x, s =>
    let c := s.cfg
    match m with
    | .xfer spc write addr v =>
      let r := xfer c (encodeTxn ⟨spc, write, addr⟩ v) s.world
      runCode code { x with got := r.1.b3 } { s with world := r.2 }
    | .attempts spc addr v mask n =>
      let r := verifyLoop c spc addr v mask n s.world
      if r.1 then runCode code { x with got := 0 } { s with world := r.2 }
      else { s with world := r.2 }.raise .writeVerifyFail
    | .compare spc addr v mask n =>
      if x.got &&& mask = v &&& mask then runCode code { x with got := 0 } s
      else
        let r := verifyLoop c spc addr v mask n s.world
        if r.1 then runCode code { x with got := 0 } { s with world := r.2 }
        else { s with world := r.2 }.raise .writeVerifyFail
    | .polls n =>
      let r := pollLoop c n s.world
      if r.1 then runCode code { x with got := 0 } { s with world := r.2 }
      else { s with world := r.2 }.raise .bridgeTimeout
    | .pollTest n =>
      if brDoneOf c.userMap x.got then runCode code { x with got := 0 } s
      else
        let r := pollLoop c n s.world
        if r.1 then runCode code { x with got := 0 } { s with world := r.2 }
        else { s with world := r.2 }.raise .bridgeTimeout
    | .span first => runCode code { x with buf := ⟨first, []⟩ } s
    | .bytes a n =>
      let r := readBytes c a n s.world
      runCode code { x with got := 0, buf := ⟨x.buf.first, x.buf.bytes ++ r.1⟩ } { s with world := r.2 }
    | .keep => runCode code { x with got := 0, buf := ⟨x.buf.first, x.buf.bytes ++ [x.got]⟩ } s
    | .clear e => runCode code x { s with world := clearFlag c e s.world }
    | .hold e => opEvwait e s
    | .setToc t => runCode code x { s with toc := t }
    | .pulse => runCode code x { s with world := pulseAdc c s.world }
    | .await k => resumeCal k s
    | .draw =>
      let r := drawSample c s.world
      runCode code { x with sample := r.1 } { s with world := r.2 }
    | .take k => goOn k x.sample s
    | .calDone exit =>
      { s with toc := Toc.unwritten }.finish
        (.cal (s.toc.calA.getD 0) (s.toc.calB.getD 0) (s.toc.calBest.getD 0) exit)
    | .countRun => runCode code x { s with fac := { s.fac with runsOnChannel := s.fac.runsOnChannel + 1 } }
    | .advance => runCode code x s.advanceHop
    | .untune => runCode code x { s with fac := { s.fac with tunedChannel := none } }
    | .tuned prev ch => runCode code x { s with fac := s.fac.tuned prev ch }
    | .hopped => runCode code x { s with fac := s.fac.hopped c }
    | .skipped => runCode code x { s with fac := { s.fac with altPhase := 0 } }
    | .reply r => { s with dec := r.fill c.rxLayout x.buf s.dec }.finish (r.value c.rxLayout x.buf)
    | .tagStatus ch =>
      let exit := exitCodeOf c.userMap x.got
      if exit ≠ 0 then (s.putRes ch { s.res ch with pass := false }).finish (.exitCode exit)
      else runCode code { x with got := 0 } (s.putRes ch { s.res ch with pass := true })
    | .tagPart ch p => runCode code x (s.putRes ch (p.fill c x.buf (s.res ch)))
    | .fresh => runCode code x { s with resI := TagRead.fresh, resQ := TagRead.fresh }
    | .failed ch => runCode code x (s.putRes ch { s.res ch with pass := false })
    | .retByte => s.finish (.byte x.got)
    | .ret v => s.finish v

-- ---------------------------------------------------------------- one micro-step

/-- The operation in progress with these micro-steps remaining. -/
def State.at (s : State) (code : List Micro) (x : Locals) : State := { s with seq := .run code x }

/-- The measurement a calibration is held in. -/
def CalAt.held : CalAt → Seq
  | .brute a b => .brute a b
  | .grad g => .grad g

/-- One micro-step of the operation in progress (00_scope.md R11, 10_state.md R24): at most one exchange, one flag
access, one trigger pulse or one read of the sampler, with the environment's turn before it; the head of a loop
takes one turn of the loop. -/
def microStep (m : Micro) (code : List Micro) (x : Locals) (s : State) : State :=
  let c := s.cfg
  match m with
  | .xfer spc write addr v =>
    let r := xfer c (encodeTxn ⟨spc, write, addr⟩ v) s.world
    { s with world := r.2 }.at code { x with got := r.1.b3 }
  | .attempts _ _ _ _ 0 => s.raise .writeVerifyFail
  | .attempts spc addr v mask (n + 1) =>
    s.at (.xfer spc true addr v :: readCode c spc addr ++ .compare spc addr v mask n :: code) x
  | .compare spc addr v mask n =>
    if x.got &&& mask = v &&& mask then s.at code { x with got := 0 }
    else s.at (.attempts spc addr v mask n :: code) x
  | .polls 0 => s.raise .bridgeTimeout
  | .polls (n + 1) => s.at (readCode c .us brCtrlAddr ++ .pollTest n :: code) x
  | .pollTest n =>
    if brDoneOf c.userMap x.got then s.at code { x with got := 0 } else s.at (.polls n :: code) x
  | .span first => s.at code { x with buf := ⟨first, []⟩ }
  | .bytes _ 0 => s.at code { x with got := 0 }
  | .bytes a (n + 1) => s.at (readCode c .rx (BitVec.ofNat 16 a) ++ .keep :: .bytes (a + 1) n :: code) x
  | .keep => s.at code { x with got := 0, buf := ⟨x.buf.first, x.buf.bytes ++ [x.got]⟩ }
  | .clear e => { s with world := clearFlag c e s.world }.at code x
  | .hold e => if s.world.ev.get e then s.at [.clear e, .ret .unit] x else { s with seq := .evWait e }
  | .setToc t => { s with toc := t }.at code x
  | .pulse => { s with world := pulseAdc c s.world }.at code x
  | .await k =>
    let s' := { s with world := { s.world with adcTrigger := false } }
    if s.world.ev.get .sampleReady then s'.at (awaited k) x else { s' with seq := k.held }
  | .draw =>
    let r := drawSample c s.world
    { s with world := r.2 }.at code { x with sample := r.1 }
  | .take k =>
    let r := takeSample c x.sample s.toc k
    { s with toc := r.1 }.at r.2 x
  | .calDone exit =>
    { s with toc := Toc.unwritten }.finish
      (.cal (s.toc.calA.getD 0) (s.toc.calB.getD 0) (s.toc.calBest.getD 0) exit)
  | .countRun => { s with fac := { s.fac with runsOnChannel := s.fac.runsOnChannel + 1 } }.at code x
  | .advance => s.advanceHop.at code x
  | .untune => { s with fac := { s.fac with tunedChannel := none } }.at code x
  | .tuned prev ch => { s with fac := s.fac.tuned prev ch }.at code x
  | .hopped => { s with fac := s.fac.hopped c }.at code x
  | .skipped => { s with fac := { s.fac with altPhase := 0 } }.at code x
  | .reply r => { s with dec := r.fill c.rxLayout x.buf s.dec }.finish (r.value c.rxLayout x.buf)
  | .tagStatus ch =>
    let exit := exitCodeOf c.userMap x.got
    if exit ≠ 0 then (s.putRes ch { s.res ch with pass := false }).finish (.exitCode exit)
    else (s.putRes ch { s.res ch with pass := true }).at code { x with got := 0 }
  | .tagPart ch p => (s.putRes ch (p.fill c x.buf (s.res ch))).at code x
  | .fresh => { s with resI := TagRead.fresh, resQ := TagRead.fresh }.at code x
  | .failed ch => (s.putRes ch { s.res ch with pass := false }).at code x
  | .retByte => s.finish (.byte x.got)
  | .ret v => s.finish v

end Sys2Proof.Machine
end

