-- ==== Sys2Proof/Machine/Step.lean ====
section
/-! DEFINITION. One step of the machine. An idle block takes the next input its client hands over and runs the
whole operation, or, with nothing in hand, lets the environment have its turn; a block with an operation in
progress runs what remains of it, when its wait can be lifted (10_state.md R24, 70_reset_and_hazards.md R261, R271). -/

namespace Sys2Proof.Machine

/-- The client hands over a command word (30_encoding.md R101): the operation it spells, or the rejection of a
word that spells none. -/
def runCommand (w : Word) (s : State) : Host.Outcome State Fault Refusal :=
  match decodeCommand w with
  | .ok i => exec i s
  | .error e => .next (s.reject (rejectOfDecode e))

/-- Four bytes on the wire: the transaction they spell; bytes that spell none are exchanged with the peripheral,
which promises no effect (30_encoding.md R94, 93_implementation_defined.md U1; log 14). -/
def runWire (w : Word) (s : State) : Host.Outcome State Fault Refusal :=
  match decodeWire w with
  | some i => exec i s
  | none => .next (opXfer (quadOfWord w) s)

/-- One input run to its end or to its wait. -/
def runInput (inp : Input) (s : State) : Host.Outcome State Fault Refusal :=
  match inp with
  | .command w => runCommand w s
  | .wire w => runWire w s

/-- The flag an operation is held for (10_state.md R24). -/
def Seq.waitsFor : Seq → Option Event
  | .idle => none
  | .run _ _ => none
  | .evWait e => some e
  | .brute _ _ => some .sampleReady
  | .grad _ => some .sampleReady

/-- The operation in progress, going on from its next micro-step or from its wait. -/
def resume (s : State) : State :=
  match s.seq with
  | .idle => s
  | .run code x => runCode code x s
  | .evWait e => opEvwait e s
  | .brute a b => resumeBrute a b s
  | .grad g => resumeGrad g s

/-- The idle block with nothing in hand: the environment's turn. -/
def idleTurn (s : State) : State := { s with world := s.world.envTurn s.cfg }

/-- One step: an operation begun or in progress, run to its end or to its wait. A held operation whose flag is 0 has
no step unless the environment still has one (41_evt_events.md R153). `tick` (Machine/Tick.lean) is one micro-step.
Log 8. -/
def step (s : State) : Host.Outcome State Fault Refusal :=
  match s.seq.waitsFor with
  | some e =>
    if s.world.ev.get e = false ∧ s.world.script = [] then .fault (.held e) else .next (resume s)
  | none =>
    match s.seq with
    | .run _ _ => .next (resume s)
    | .idle | .evWait _ | .brute _ _ | .grad _ =>
      match s.client with
      | [] => .next (idleTurn s)
      | inp :: rest => runInput inp { s with client := rest }

/-- The state with one instruction word first in the client's hand, on the port that reads it, and the block
idle, so that the very next step takes it (log 11, log 12). Every row is one 32-bit word. -/
def State.withFetchWord (s : State) (nbits w : Nat) : State :=
  { s with seq := .idle, client := inputOfWord (BitVec.ofNat 32 (w % 2 ^ nbits)) :: s.client }

end Sys2Proof.Machine
end

