-- ==== Sys2Proof/Machine/Tick.lean ====
section
/-! DEFINITION. The machine one micro-step at a time (00_scope.md R11, 10_state.md R24): how an operation begins, and
`tick`, one micro-step of it. `step` is what the ticks of one operation come to (log 8). -/

namespace Sys2Proof.Machine

/-- The micro-steps a command stands for, or its rejection, made before any of them (60_exceptions.md R232, R236);
`none` for a transaction on the wire, which is no operation of the block (log 13). -/
def opCode (i : Instr) (s : State) : Option (Except RejectCode (List Micro)) :=
  match i with
  | .rdWv a => some (codeRead .wv a s)
  | .rdRx a => some (codeRead .rx a s)
  | .rdTx a => some (codeRead .tx a s)
  | .rdUs a => some (codeRead .us a s)
  | .wrWv a v => some (codeWrite .wv a v s)
  | .wrRx a v => some (codeWrite .rx a v s)
  | .wrTx a v => some (codeWrite .tx a v s)
  | .wrUs a v => some (codeWrite .us a v s)
  | .wrvWv a v => some (codeWriteV .wv a v s)
  | .wrvRx a v => some (codeWriteV .rx a v s)
  | .wrvTx a v => some (codeWriteV .tx a v s)
  | .wrvUs a v => some (codeWriteV .us a v s)
  | .brd sa => some (codeBridge false sa 0 s)
  | .bwr sa v => some (codeBridge true sa v s)
  | .evclr e => some (.ok [.clear e, .ret .unit])
  | .evwait e => some (.ok [.hold e])
  | .resNew => some (.ok [.fresh, .ret .unit])
  | .decRn16 => some (.ok (codeReply .rn16 s))
  | .decHandle => some (.ok (codeReply .handle s))
  | .decRead n => some (if badLength n then .error .badLength else .ok (codeReply (.read n) s))
  | .decWrack => some (.ok (codeReply .wrack s))
  | .decTag ch f => some (.ok (codeTag ch f s))
  | .resFail ch => some (.ok [.failed ch, .ret .unit])
  | .hop => some (codeRetune (codeHop s) s)
  | .setCh ch =>
    some (if 24 < ch.toNat then .error .badChannel
      else codeRetune (codeTune (Fin.ofNat nChannels ch.toNat) s) s)
  | .skip => some (codeRetune (codeTune (skipCh s.cfg s.fac.hopChannel) s) s)
  | .alt => some (codeRetune (codeAlt s) s)
  | .calBrute => some (.ok (codeCalBrute s))
  | .calGrad => some (.ok (codeCalGrad s))
  | .txnRdWv _ | .txnWrWv _ _ | .txnRdRx _ | .txnWrRx _ _ | .txnRdTx _ | .txnWrTx _ _ | .txnRdUs _ | .txnWrUs _ _ =>
    none

/-- An operation taken by the idle block: rejected, or in progress with all its micro-steps to come; a transaction
on the wire is one micro-step by itself. -/
def beginOp (i : Instr) (s : State) : Host.Outcome State Fault Refusal :=
  match opCode i s with
  | none => exec i s
  | some (.error r) => s.command fun s => s.reject r
  | some (.ok code) => s.command fun s => s.at code Locals.start

/-- One input of the client taken (30_encoding.md R91, R101). -/
def beginInput (inp : Input) (s : State) : Host.Outcome State Fault Refusal :=
  match inp with
  | .command w =>
    match decodeCommand w with
    | .ok i => beginOp i s
    | .error e => .next (s.reject (rejectOfDecode e))
  | .wire w => runWire w s

/-- The environment's turn while the block is held for a flag that is 0; with nothing left to do it leaves the block
stuck (41_evt_events.md R153). -/
def heldTurn (e : Event) (s : State) : Host.Outcome State Fault Refusal :=
  if s.world.script = [] then .fault (.held e) else .next { s with world := s.world.envTurn s.cfg }

/-- A calibration held in a measurement: its wait over, or the environment's turn (44_toc_calibrator.md R212). -/
def heldCal (k : CalAt) (s : State) : Host.Outcome State Fault Refusal :=
  let s' := { s with world := { s.world with adcTrigger := false } }
  if s.world.ev.get .sampleReady then .next (s'.at (awaited k) Locals.start) else heldTurn .sampleReady s'

/-- One micro-step of the machine: at most one event at the ports, with at most one turn of the environment before
it (00_scope.md R11). -/
def tick (s : State) : Host.Outcome State Fault Refusal :=
  match s.seq with
  | .idle =>
    match s.client with
    | [] => .next (idleTurn s)
    | inp :: rest => beginInput inp { s with client := rest }
  | .run [] _ => .next { s with seq := .idle }
  | .run (m :: code) x => .next (microStep m code x s)
  | .evWait e =>
    if s.world.ev.get e then .next (s.at [.clear e, .ret .unit] Locals.start) else heldTurn e s
  | .brute a b => heldCal (.brute a b) s
  | .grad g => heldCal (.grad g) s

/-- An operation stands between two of its micro-steps. -/
def Seq.midway : Seq → Bool
  | .run _ _ => true
  | .idle | .evWait _ | .brute _ _ | .grad _ => false

/-- So many micro-steps. -/
def ticks : Nat → State → Host.Outcome State Fault Refusal
  | 0, s => .next s
  | n + 1, s =>
    match tick s with
    | .next t => ticks n t
    | .fault f => .fault f
    | .refused r => .refused r

end Sys2Proof.Machine
end

