-- ==== Sys2Proof/Safety.lean ====
section
/-! DEFINITION. What counts as a sound state and a quiet environment, and the words the statements use: the
invariants, the parts of a state that an operation leaves alone, and what a stretch of the port history says. -/

namespace Sys2Proof.Machine

-- ---------------------------------------------------------------- the memories

/-- Every memory of a world is in canonical form and lists only addresses that exist. -/
def World.memoryOk (c : Cfg) (w : World) : Bool :=
  let m := w.spaces
  m.wv.wf && m.wv.below c.wvramSize
  && m.rx.wf && m.rx.below c.rxramSize
  && m.tx.wf && m.tx.below c.txramSize
  && m.us.wf && m.us.below c.userSize
  && m.sdr.wf && m.sdr.below Config.sdrSize

/-- Every memory is in canonical form and lists only addresses that exist (20_memory.md R63). -/
def memoryOk (s : State) : Bool := s.world.memoryOk s.cfg

-- ---------------------------------------------------------------- premises

/-- The environment does nothing of its own. -/
abbrev Quiet (s : State) : Prop := s.world.script = []

/-- The block is idle, so the client may hand it a command (70_reset_and_hazards.md R271). -/
abbrev Ready (s : State) : Prop := s.seq = .idle

/-- Ready and quiet, with a bridge that finishes at once (20_memory.md R67) and the user map of 10_state.md R36 to
R43, the setting of every worked example of spec/, for both values of `READ_RETURN`. -/
abbrev Bench (s : State) : Prop :=
  Ready s ∧ Quiet s ∧ s.world.periph.slow = false ∧ s.cfg.userMap = UserMap.default ∧ 8 ≤ s.cfg.userSize

/-- `Bench` with the RX RAM layout of 42_rxd_decoder.md R163 inside RX RAM. -/
abbrev RxBench (s : State) : Prop :=
  Bench s ∧ s.cfg.rxLayout = RxLayout.default ∧ 0x36 ≤ s.cfg.rxramSize ∧ s.cfg.rxramSize ≤ 65536

/-- `Bench` with frequency codes of 3 bytes written to SDR registers 0x01..0x03 and 0x04..0x06, and at least one
poll of the bridge (00_scope.md R6). -/
abbrev FacBench (s : State) : Prop :=
  Bench s ∧ s.cfg.freqCodeBytes = 3 ∧ s.cfg.sdrFrfRxAddr = 1 ∧ s.cfg.sdrFrfTxAddr = 4 ∧ 1 ≤ s.cfg.bridgePollMax

/-- The deterministic double of 20_memory.md R67: the bench with `READ_RETURN` = `same` and 0x00 in every byte the
spec leaves open. -/
abbrev Double (s : State) : Prop := Bench s ∧ s.world.periph.double = true ∧ s.cfg.readReturn = .same

/-- `Bench` with a bridge that takes its time (10_state.md R34 (e), R41); the script is left to the statement. -/
abbrev SlowBench (s : State) : Prop :=
  Ready s ∧ s.world.periph.slow = true ∧ s.cfg.userMap = UserMap.default ∧ 8 ≤ s.cfg.userSize ∧ memoryOk s = true

-- ---------------------------------------------------------------- frames

/-- Nothing but `ret` and the world behind the ports differs: every register of the block is unchanged. -/
abbrev OnlyRetWorld (s t : State) : Prop := t = { s with ret := t.ret, world := t.world }

/-- Every byte of every memory reads as before. -/
abbrev SameBytes (s t : State) : Prop :=
  (∀ spc a, t.world.peek spc a = s.world.peek spc a) ∧ ∀ a, t.world.peekSdr a = s.world.peekSdr a

/-- Every byte of the four spaces reads as before, but those at the listed locations. -/
abbrev SameBytesBut (s t : State) (locs : List (Space × Nat)) : Prop :=
  ∀ spc a, (spc, a) ∉ locs → t.world.peek spc a = s.world.peek spc a

/-- Every SDR register reads as before, but those at the listed addresses. -/
abbrev SameSdrBut (s t : State) (addrs : List Nat) : Prop :=
  ∀ a, a ∉ addrs → t.world.peekSdr a = s.world.peekSdr a

/-- A flag that is set was set before, or the environment's script sets it: the block only ever clears flags
(10_state.md R27, 20_memory.md R74). -/
abbrev FlagsOnlyFromOutside (s t : State) : Prop :=
  ∀ e, t.world.ev.get e = true → s.world.ev.get e = true ∨ ∃ batch ∈ s.world.script, EnvStep.evSet e ∈ batch

-- ---------------------------------------------------------------- instructions by kind

/-- `RD.*` of a space. -/
def readInstr : Space → Addr → Instr
  | .wv, a => .rdWv a
  | .rx, a => .rdRx a
  | .tx, a => .rdTx a
  | .us, a => .rdUs a

/-- `WR.*` of a space. -/
def writeInstr : Space → Addr → Byte → Instr
  | .wv, a, v => .wrWv a v
  | .rx, a, v => .wrRx a v
  | .tx, a, v => .wrTx a v
  | .us, a, v => .wrUs a v

/-- `WRV.*` of a space. -/
def verifyInstr : Space → Addr → Byte → Instr
  | .wv, a, v => .wrvWv a v
  | .rx, a, v => .wrvRx a v
  | .tx, a, v => .wrvTx a v
  | .us, a, v => .wrvUs a v

/-- `TXN.RD.*` of a space. -/
def txnReadInstr : Space → Addr → Instr
  | .wv, a => .txnRdWv a
  | .rx, a => .txnRdRx a
  | .tx, a => .txnRdTx a
  | .us, a => .txnRdUs a

/-- `TXN.WR.*` of a space. -/
def txnWriteInstr : Space → Addr → Byte → Instr
  | .wv, a, v => .txnWrWv a v
  | .rx, a, v => .txnWrRx a v
  | .tx, a, v => .txnWrTx a v
  | .us, a, v => .txnWrUs a v

/-- The rows of the opcode map (30_encoding.md R100): opcode and mask. -/
def opcodeRows : List (Byte × Word) :=
  [(0x10, 0xFF0000FF), (0x11, 0xFF0000FF), (0x12, 0xFF0000FF), (0x13, 0xFF0000FF),
   (0x14, 0xFF000000), (0x15, 0xFF000000), (0x16, 0xFF000000), (0x17, 0xFF000000),
   (0x18, 0xFF000000), (0x19, 0xFF000000), (0x1A, 0xFF000000), (0x1B, 0xFF000000),
   (0x1C, 0xFF00FFFF), (0x1D, 0xFF0000FF), (0x20, 0xFFFFFFFC), (0x21, 0xFFFFFFFC),
   (0x30, 0xFFFFFFFF), (0x31, 0xFFFFFFFF), (0x32, 0xFFFFFFFF), (0x33, 0xFFFFFFF0),
   (0x34, 0xFFFFFFFF), (0x35, 0xFFFFFEF8), (0x36, 0xFFFFFEFF), (0x40, 0xFFFFFFFF),
   (0x41, 0xFFFFFFE0), (0x42, 0xFFFFFFFF), (0x43, 0xFFFFFFFF), (0x51, 0xFFFFFFFF),
   (0x52, 0xFFFFFFFF)]

/-- The operations that write `hop_channel` (10_state.md R23). -/
def writesHop (i : Instr) : Bool := i = .hop ∨ i = .alt

/-- The operations that retune, and so write `tuned_channel` and `runs_on_channel` (10_state.md R23). -/
def retunes (i : Instr) : Bool :=
  match i with
  | .hop | .setCh _ | .skip | .alt => true
  | _ => false

/-- The operations that write the `cal_*` registers (10_state.md R23). -/
def calibrates (i : Instr) : Bool := i = .calBrute ∨ i = .calGrad

/-- The operations that write `do_handle` and `do_crc` (10_state.md R29). -/
def writesHandle (i : Instr) : Bool :=
  match i with
  | .decHandle | .decRead _ | .decWrack => true
  | _ => false

/-- The operations that write `do_hdr` (10_state.md R29). -/
def writesHdr (i : Instr) : Bool :=
  match i with
  | .decRead _ | .decWrack => true
  | _ => false

/-- The operations that write `do_len` and `do_data` (10_state.md R29). -/
def writesData (i : Instr) : Bool :=
  match i with
  | .decRead _ => true
  | _ => false

/-- The operations that write `pass` of a channel (10_state.md R28). -/
def writesPass (i : Instr) (ch : Chan) : Bool :=
  match i with
  | .resNew => true
  | .decTag c _ | .resFail c => c = ch
  | _ => false

/-- The operations that write a part of the TagReadResult of a channel: `RES.NEW`, and `DEC.TAG` of the channel with
the part's flag (10_state.md R28). -/
def writesPart (i : Instr) (ch : Chan) (p : TagPart) : Bool :=
  match i with
  | .resNew => true
  | .decTag c f => c = ch ∧ p ∈ tagParts f
  | _ => false

/-- The operations that clear a flag (10_state.md R27). -/
def clearsFlag (i : Instr) (e : Event) : Bool := i = .evclr e ∨ i = .evwait e ∨ (e = .sampleReady ∧ calibrates i)

-- ---------------------------------------------------------------- port history

/-- The transactions of a stretch of the history (newest first), oldest first. -/
def xfersOf : List PortEvent → List (Quad × Quad)
  | [] => []
  | .xfer q i :: l => xfersOf l ++ [(q, i)]
  | .adcPulse :: l => xfersOf l
  | .sample _ :: l => xfersOf l

/-- The outbound bytes of a stretch of the history, oldest first. -/
def sentOf (l : List PortEvent) : List Quad := (xfersOf l).map (·.1)

/-- The samples drawn in a stretch of the history, oldest first. -/
def samplesOf : List PortEvent → List Nat
  | [] => []
  | .sample v :: l => samplesOf l ++ [v]
  | .adcPulse :: l => samplesOf l
  | .xfer _ _ :: l => samplesOf l

/-- How many pulses of `adc_trigger` a stretch of the history holds. -/
def pulsesOf (l : List PortEvent) : Nat := l.countP fun e => e = .adcPulse

/-- What a step added to the history: the new events, newest first. -/
abbrev Added (s t : State) (new : List PortEvent) : Prop := t.world.trace = new ++ s.world.trace

/-- The outbound bytes of a read of a location (30_encoding.md R93). -/
abbrev rdQ (spc : Space) (addr : Addr) : Quad := encodeTxn ⟨spc, false, addr⟩ 0

/-- The outbound bytes of a write to a location (30_encoding.md R93). -/
abbrev wrQ (spc : Space) (addr : Addr) (v : Byte) : Quad := encodeTxn ⟨spc, true, addr⟩ v

/-- The outbound bytes of a read operation, oldest first: one transaction, or two identical ones under `previous`
(40_rtx_transactions.md R123). -/
def rdQs (c : Cfg) (spc : Space) (addr : Addr) : List Quad :=
  match c.readReturn with
  | .same => [rdQ spc addr]
  | .previous => [rdQ spc addr, rdQ spc addr]

/-- The transactions of a read operation (40_rtx_transactions.md R123). -/
def readCost (c : Cfg) : Nat := (rdQs c .us 0).length

/-- The history (newest first) of a read operation whose result came in `inn`; under `previous` the inbound bytes
`pre` of its first transaction are discarded (40_rtx_transactions.md R123). -/
def readOf (c : Cfg) (spc : Space) (addr : Addr) (pre inn : Quad) : List PortEvent :=
  match c.readReturn with
  | .same => [.xfer (rdQ spc addr) inn]
  | .previous => [.xfer (rdQ spc addr) inn, .xfer (rdQ spc addr) pre]

/-- One attempt of a verified write: the inbound bytes of its write, and of its read-back. -/
structure Attempt where
  written : Quad
  pre     : Quad
  back    : Quad
deriving DecidableEq, Repr

/-- The history (newest first) of the attempts of a verified write, first attempt first (40_rtx_transactions.md
R125). -/
def attemptsOf (c : Cfg) (spc : Space) (addr : Addr) (v : Byte) (l : List Attempt) : List PortEvent :=
  l.reverse.flatMap fun p => readOf c spc addr p.pre p.back ++ [.xfer (wrQ spc addr v) p.written]

/-- The history (newest first) of the polls of a bridge transfer, first poll first: the inbound bytes of each
(40_rtx_transactions.md R131). -/
def pollsOf (c : Cfg) (l : List (Quad × Quad)) : List PortEvent :=
  l.reverse.flatMap fun p => readOf c .us 5 p.1 p.2

/-- The outbound bytes of a bridge write whose every step succeeds at once, oldest first (40_rtx_transactions.md
R130, R131). -/
def bwrSent (c : Cfg) (sa v : Byte) : List Quad :=
  wrQ .us 2 (sa ||| 0x80) :: rdQs c .us 2 ++ wrQ .us 3 v :: rdQs c .us 3 ++ wrQ .us 5 0x01 :: rdQs c .us 5

/-- Each sample of a stretch of the history (oldest first) with the `TXOFS` byte last written before it, `x` before
the first such write (44_toc_calibrator.md R212). -/
def pairSamples : Byte → List PortEvent → List (Byte × Nat)
  | _, [] => []
  | x, .sample v :: l => (x, v) :: pairSamples x l
  | x, .adcPulse :: l => pairSamples x l
  | x, .xfer q _ :: l => pairSamples (if q = wrQ .us 7 q.b3 then q.b3 else x) l

/-- The measurements of a stretch of the history (newest first), oldest first: the `TXOFS` byte and the sample. -/
def measuresFrom (x : Byte) (l : List PortEvent) : List (Byte × Nat) := pairSamples x l.reverse

/-- The running registers of `CAL.BRUTE` after samples of these pairs, one a pair (44_toc_calibrator.md R213). -/
def swept (pts : List (Offset × Offset)) (samples : List Nat) (t : Toc) : Toc :=
  (pts.zip samples).foldl (fun u p => bruteTake p.1.1 p.1.2 p.2 u) t

/-- The search of `CAL.GRAD` gone through with given samples, from the measurement `g` of the point `(a, b)` on: the points
measured, the registers then, and what the search asks for next; `none` if it ends before the last sample
(44_toc_calibrator.md R214). -/
def searched (c : Cfg) : GradAt → Offset × Offset → Toc → List Nat → Option (List (Offset × Offset) × Toc × Ask)
  | g, p, t, [] => some ([], t, .point g p.1 p.2)
  | g, p, t, v :: vs =>
    match gradNext c g v t with
    | (t', .done exit) => if vs = [] then some ([p], t', .done exit) else none
    | (t', .point g' a b) => (searched c g' (a, b) t' vs).map fun r => (p :: r.1, r.2)

/-- The point a held measurement of `CAL.GRAD` is for. -/
def GradAt.point (g : GradAt) (t : Toc) : Offset × Offset :=
  match g with
  | .start => (t.calA.getD 0, t.calB.getD 0)
  | .along _ a b => (a, b)
  | .probe _ a b _ _ => (a, b)

/-- The environment's turns of one measurement with no retry: nothing before the write and read-back of `TXOFS`, the
clear and the trigger pulse; then the sampler's value and flag; nothing before the consume and the draw
(44_toc_calibrator.md R212). -/
def measureTurns (c : Cfg) (v : Nat) : List (List EnvStep) :=
  List.replicate (3 + readCost c) [] ++ [[.adc v, .evSet .sampleReady], [], []]

/-- The environment's turns of a verified write to TX RAM that lose its first `k` writes: the old byte is put
back before each read-back (95_test_vectors.md S5). -/
def lossTurns (c : Cfg) (addr : Addr) (old : Byte) (k : Nat) : List (List EnvStep) :=
  (List.replicate k ([] :: [EnvStep.poke .tx addr.toNat old] :: List.replicate (readCost c - 1) [])).flatten

/-- The environment's turns of a bridge operation with so many verified writes: the transfer in flight finishes before
the poll that follows `k` polls (10_state.md R41, 40_rtx_transactions.md R131). -/
def bridgeTurns (c : Cfg) (writes k : Nat) : List (List EnvStep) :=
  List.replicate (writes * (1 + readCost c) + 1 + k * readCost c) [] ++ [[.bridgeDone]]

/-- A transaction the block may emit (20_memory.md R63, R64; 30_encoding.md R93, R94, R95): one of the eight
headers, an address inside its space, payload 0x00 on a read. -/
def legalXfer (c : Cfg) (q : Quad) : Bool :=
  match decodeHeader q with
  | none => false
  | some h => c.addrOk h.spc h.addr && (h.write || q.b3 = 0)

-- ---------------------------------------------------------------- invariants

/-- `runs_on_channel` is never above `DWELL_MAX_RUNS`, `nonce` is `NONCE_BITS` wide (60_exceptions.md R247). -/
def facOk (s : State) : Bool :=
  s.fac.runsOnChannel ≤ s.cfg.dwellMaxRuns && s.fac.nonce < 2 ^ s.cfg.nonceBits

/-- A sample is `SAMPLE_BITS` wide (10_state.md R23, R32). -/
def sampleOk (c : Cfg) (v : Nat) : Bool := v < 2 ^ c.sampleBits

/-- No operation stands between two micro-steps (log 8); the candidate and the registers of a held calibration are
samples and points of the search (10_state.md R23, R24; 44_toc_calibrator.md R214; log 27). -/
def seqOk (s : State) : Bool :=
  match s.seq with
  | .idle => true
  | .run _ _ => false
  | .evWait _ => true
  | .brute _ _ => true
  | .grad g =>
    s.toc.calA.isSome && s.toc.calB.isSome
    && match g with
      | .start => true
      | .along _ _ _ => s.toc.calBest.isSome && s.toc.calIter.isSome
      | .probe _ _ _ _ cand =>
        s.toc.calBest.isSome && s.toc.calIter.isSome
        && match cand with
          | none => true
          | some c => sampleOk s.cfg c.sample

/-- The calibration registers keep their ranges (10_state.md R23), the sampler its width, and no trigger pulse
outlives its micro-step (log 16). -/
def tocOk (s : State) : Bool :=
  (match s.toc.calBest with | none => true | some v => sampleOk s.cfg v)
  && (match s.toc.calIter with | none => true | some k => k ≤ s.cfg.calMaxIter)
  && sampleOk s.cfg s.world.adcValue && !s.world.adcTrigger && seqOk s

/-- The decoder outputs keep their shape (10_state.md R28, R29): twelve bytes, exactly the first `do_len` of
`do_data` holding a value. -/
def decOk (s : State) : Bool :=
  s.dec.len ≤ 12 && s.dec.data.length == 12
  && (List.range 12).all (fun k => (s.dec.data.getD k none).isSome == decide (k < s.dec.len))
  && s.resI.epc.length == 12 && s.resQ.epc.length == 12

end Sys2Proof.Machine
end

