-- ==== Sys2Proof/Certificates/Slice0/Obligations.lean ====
section
/-! DEFINITION. The statements for the provers, one `def Obligations.<Name> : Prop` each. Every docstring says which
rule of spec/ it formalises. "All environments" means: whatever the peripheral, the sampler and the event sources
do between the micro-steps, i.e. for every `script`. -/

open Sys2Proof Sys2Proof.Machine

-- ================================================================ encodings

/-- Every command decodes back from its word, with every operand at every value (30_encoding.md R96, R97, R100). -/
def Obligations.CommandDecodeEncode : Prop :=
  ∀ i : Instr, i.isTxn = false → decodeCommand (encode i) = .ok i

/-- Every transaction decodes back from its four bytes (30_encoding.md R91, R93, R95). -/
def Obligations.TransactionDecodeEncode : Prop :=
  ∀ i : Instr, i.isTxn = true → decodeWire (encode i) = some i

/-- Each word has one meaning: a word that decodes is the encoding of what it decodes to (30_encoding.md R100,
R101, R93). -/
def Obligations.DecodedWordIsItsEncoding : Prop :=
  (∀ (w : Word) (i : Instr), decodeCommand w = .ok i → encode i = w)
  ∧ ∀ (w : Word) (i : Instr), decodeWire w = some i → encode i = w

/-- Which words spell no operation, and why (30_encoding.md R100, R101 steps 1 and 2): a word matches exactly when
`w AND mask = match` for its row. -/
def Obligations.CommandRejectionsByRow : Prop :=
  ∀ w : Word,
    (decodeCommand w = .error .badOpcode ↔ ∀ r ∈ opcodeRows, r.1 ≠ w.extractLsb' 24 8)
    ∧ (decodeCommand w = .error .badOperand ↔
        ∃ r ∈ opcodeRows, r.1 = w.extractLsb' 24 8 ∧ w &&& r.2 ≠ r.1.setWidth 32 <<< 24)

/-- The eight legal headers, and `DecodeHeader` as the inverse of `EncodeHeader` (30_encoding.md R93, R95). -/
def Obligations.TransactionHeaderCodes : Prop :=
  (∀ a v, encodeTxn ⟨.wv, false, a⟩ v = ⟨0x40, a.extractLsb' 8 8, a.extractLsb' 0 8, v⟩)
  ∧ (∀ a v, encodeTxn ⟨.wv, true, a⟩ v = ⟨0x60, a.extractLsb' 8 8, a.extractLsb' 0 8, v⟩)
  ∧ (∀ a v, encodeTxn ⟨.rx, false, a⟩ v = ⟨0x80, a.extractLsb' 8 8, a.extractLsb' 0 8, v⟩)
  ∧ (∀ a v, encodeTxn ⟨.rx, true, a⟩ v = ⟨0xA0, a.extractLsb' 8 8, a.extractLsb' 0 8, v⟩)
  ∧ (∀ a v, encodeTxn ⟨.tx, false, a⟩ v = ⟨0x90, a.extractLsb' 8 8, a.extractLsb' 0 8, v⟩)
  ∧ (∀ a v, encodeTxn ⟨.tx, true, a⟩ v = ⟨0xB0, a.extractLsb' 8 8, a.extractLsb' 0 8, v⟩)
  ∧ (∀ a v, encodeTxn ⟨.us, false, a⟩ v = ⟨0xC0, a.extractLsb' 8 8, a.extractLsb' 0 8, v⟩)
  ∧ (∀ a v, encodeTxn ⟨.us, true, a⟩ v = ⟨0xE0, a.extractLsb' 8 8, a.extractLsb' 0 8, v⟩)
  ∧ (∀ h v, decodeHeader (encodeTxn h v) = some h)
  ∧ (∀ q h, decodeHeader q = some h → q = encodeTxn h q.b3 ∧ h.addr.toNat = q.b1.toNat * 256 + q.b2.toNat)
  ∧ ∀ q, q.b0 ∉ [0x40, 0x60, 0x80, 0xA0, 0x90, 0xB0, 0xC0, 0xE0] → decodeHeader q = none

/-- Words written out from 30_encoding.md R96 to R100, and one transaction from R93, decode to what they stand for, one a
family. -/
def Obligations.SampleWordsDecode : Prop :=
  decodeCommand 0x101FFF00 = .ok (.rdWv 0x1FFF)
  ∧ decodeCommand 0x1B000788 = .ok (.wrvUs 7 0x88)
  ∧ decodeCommand 0x1D04CB00 = .ok (.bwr 0x04 0xCB)
  ∧ decodeCommand 0x20000003 = .ok (.evclr .sampleReady)
  ∧ decodeCommand 0x3300000C = .ok (.decRead 12)
  ∧ decodeCommand 0x35000103 = .ok (.decTag .Q ⟨true, true, false⟩)
  ∧ decodeCommand 0x41000018 = .ok (.setCh 24)
  ∧ decodeCommand 0x52000000 = .ok .calGrad
  ∧ decodeWire 0xB001FF5A = some (.txnWrTx 0x01FF 0x5A)

-- ================================================================ the step

/-- A step runs the decoded command (70_reset_and_hazards.md R261, R271): the idle block takes the next word of the
client and runs the operation it spells. -/
def Obligations.StepRunsDecodedCommand : Prop :=
  ∀ (s : State) (w : Word) (rest : List Input) (i : Instr),
    Ready s → s.client = .command w :: rest → decodeCommand w = .ok i →
    step s = exec i { s with client := rest }

/-- A step runs a decoded transaction on the wire (30_encoding.md R91, R93); four bytes that spell none are exchanged, no
register changes, and in a quiet environment no byte of a memory and no flag changes (R94). Those of them that have a
legal header (a read with a payload) move the addressed-register latch under `READ_RETURN` = `previous` to the location
they address; otherwise, in a quiet environment, the latch stays. All about such four bytes is the model's choice, logs 14
and 15. -/
def Obligations.StepRunsDecodedTransaction : Prop :=
  ∀ (s : State) (w : Word) (rest : List Input), Ready s → s.client = .wire w :: rest →
    (∀ i, decodeWire w = some i → step s = exec i { s with client := rest })
    ∧ (decodeWire w = none →
        ∃ t inn, step s = .next t ∧ t = { s with client := rest, world := t.world }
          ∧ Added s t [.xfer (quadOfWord w) inn] ∧ (Quiet s → SameBytes s t ∧ t.world.ev = s.world.ev)
          ∧ (s.cfg.readReturn = .previous → ∀ h, decodeHeader (quadOfWord w) = some h →
              t.world.latch = some ⟨h.spc, h.addr⟩)
          ∧ (Quiet s → s.cfg.readReturn = .same ∨ decodeHeader (quadOfWord w) = none →
              t.world.latch = s.world.latch))

/-- All environments: an operation is its micro-steps. Whatever `exec` answers for an instruction, the instruction begun
and then taken one micro-step at a time comes to, after some number of them; a `step` of an operation in progress is what
some number of micro-steps comes to, from any sequencing state; one micro-step makes at most one event at the ports and
lets the environment have at most one turn (00_scope.md R11, 10_state.md R24; that `step` takes an operation whole is the
model's choice, log 8). -/
def Obligations.MicroStepsMakeTheOperation : Prop :=
  (∀ (i : Instr) (s t : State), Ready s → exec i s = .next t →
    ∃ u n, beginOp i s = .next u ∧ ticks n u = .next t)
  ∧ (∀ s t : State, s.seq ≠ .idle → step s = .next t → ∃ n, ticks n s = .next t)
  ∧ ∀ s t : State, tick s = .next t →
    (t.world.trace = s.world.trace ∨ ∃ e, t.world.trace = e :: s.world.trace)
    ∧ (t.world.script = s.world.script ∨ ∃ batch, s.world.script = batch :: t.world.script)

/-- A word of the opcode table placed for fetching is what the very next step runs (log 11, log 12: the model's
placing of programs). -/
def Obligations.FetchedTableWordRuns : Prop :=
  ∀ (s : State) (nbits w : Nat) (i : Instr), w < 2 ^ nbits → decodeTableWord nbits w = some i →
    step (s.withFetchWord nbits w) = exec i { s with seq := .idle }

/-- The block with no command in hand: the environment's turn and nothing else; no transaction, and a quiet environment
leaves the state as it is (70_reset_and_hazards.md R271; that the idle block keeps stepping is the model's choice,
log 10). -/
def Obligations.IdleBlockDoesNothing : Prop :=
  ∀ s : State, Ready s → s.client = [] →
    (∃ t, step s = .next t ∧ t = { s with world := t.world } ∧ t.world.trace = s.world.trace)
    ∧ (Quiet s → step s = .next s)

/-- The pseudo-instructions stand for the stated words, for every configuration (30_encoding.md R104;
44_toc_calibrator.md R217). -/
def Obligations.PseudoInstructionWords : Prop :=
  ∀ c : Cfg,
    ((Pseudo.cal).expand c).map encode = [if c.calStrategy = .brute then 0x51000000 else 0x52000000]
    ∧ ((Pseudo.exit).expand c).map encode = [0x13000100]
    ∧ (∀ m : Byte, ((Pseudo.go m).expand c).map encode = [0x17000000 ||| ((m &&& 0xF0) ||| 0x01).setWidth 32]
      ∧ ((Pseudo.irqack m).expand c).map encode = [0x17000000 ||| ((m &&& 0xF0) ||| 0x02).setWidth 32]
      ∧ ((Pseudo.newq m).expand c).map encode = [0x17000000 ||| ((m &&& 0xF0) ||| 0x04).setWidth 32]
      ∧ ((Pseudo.endloop m).expand c).map encode = [0x17000000 ||| ((m &&& 0xF0) ||| 0x08).setWidth 32]
      ∧ ((Pseudo.setmode m).expand c).map encode = [0x1B000000 ||| (m &&& 0xF0).setWidth 32]
      ∧ ((Pseudo.run m).expand c).map encode =
        [0x20000000, 0x17000000 ||| ((m &&& 0xF0) ||| 0x01).setWidth 32, 0x21000000,
          0x17000000 ||| ((m &&& 0xF0) ||| 0x02).setWidth 32])
    ∧ ∀ a b : Offset, ((Pseudo.setofs a b).expand c).map encode = [0x1B000700 ||| (b ++ a).setWidth 32]

-- ================================================================ RTX

/-- All environments: a read of a legal address is one transaction, and its result is the 4th inbound byte, whatever it
is; under `READ_RETURN` = `previous` it is two identical transactions, and the result is the 4th inbound byte of the
second; no register but `ret` changes (40_rtx_transactions.md R123, R132 to R135; 20_memory.md R65, R66). With a quiet
peripheral the result is the byte of the location, and every byte and every flag stays (20_memory.md R67, R69, R72 (d)).
Instructions: RD.WV, RD.RX, RD.TX, RD.US. -/
def Obligations.ReadReturnsTheAnswer : Prop :=
  ∀ (spc : Space) (addr : Addr) (s : State), Ready s → s.cfg.addrOk spc addr = true →
    ∃ t pre inn, exec (readInstr spc addr) s = .next t ∧ OnlyRetWorld s t
      ∧ t.ret = some (.ok (.byte inn.b3))
      ∧ Added s t (if s.cfg.readReturn = .same then [.xfer (rdQ spc addr) inn]
        else [.xfer (rdQ spc addr) inn, .xfer (rdQ spc addr) pre])
      ∧ (Quiet s → inn.b3 = s.world.peek spc addr.toNat ∧ SameBytes s t ∧ t.world.ev = s.world.ev)

/-- The deterministic double of 20_memory.md R67, for any four bytes on the wire: three inbound bytes are 0x00; an invalid
header or an address out of range is answered with 0x00 and changes nothing; a read is answered with its byte and changes
nothing; a write is answered with 0x00 and drops the trigger bits of `CTRL`, leaves `STATUS` and `BR_RDATA`, moves one byte
over the bridge when it sets `BR_START`, leaves `BR_CTRL` when it does not, and stores its byte elsewhere. Which trigger
fires what is scripted by the test, outside this statement. Instructions: TXN.RD.*, TXN.WR.*; that four bytes which spell
none are exchanged, and that a state says it has this peripheral, are the model's (logs 14, 3). -/
def Obligations.ReferencePeripheral : Prop :=
  ∀ (w : Word) (rest : List Input) (s : State), Double s → memoryOk s = true → s.client = .wire w :: rest →
    let q := quadOfWord w
    let sa := (s.world.peek .us 2).toNat % 128
    ∃ t i3, step s = .next t ∧ t = { s with client := rest, world := t.world }
      ∧ Added s t [.xfer q ⟨0x00, 0x00, 0x00, i3⟩] ∧ t.world.ev = s.world.ev
      ∧ match decodeHeader q with
        | none => i3 = 0x00 ∧ SameBytes s t
        | some h =>
          if s.cfg.size h.spc ≤ h.addr.toNat then i3 = 0x00 ∧ SameBytes s t
          else if h.write = false then i3 = s.world.peek h.spc h.addr.toNat ∧ SameBytes s t
          else i3 = 0x00 ∧
            if h.spc = .us ∧ h.addr = 0 then
              t.world.peek .us 0 = q.b3 &&& 0xF0 ∧ SameBytesBut s t [(.us, 0)] ∧ SameSdrBut s t []
            else if h.spc = .us ∧ (h.addr = 1 ∨ h.addr = 4) then SameBytes s t
            else if h.spc = .us ∧ h.addr = 5 then
              if q.b3.getLsbD 0 = false then SameBytes s t
              else if (s.world.peek .us 2).getLsbD 7 = true then
                t.world.peekSdr sa = s.world.peek .us 3 ∧ t.world.peek .us 5 = 0x02
                ∧ SameBytesBut s t [(.us, 5)] ∧ SameSdrBut s t [sa]
              else
                t.world.peek .us 4 = s.world.peekSdr sa ∧ t.world.peek .us 5 = 0x02
                ∧ SameBytesBut s t [(.us, 4), (.us, 5)] ∧ SameSdrBut s t []
            else
              t.world.peek h.spc h.addr.toNat = q.b3 ∧ SameBytesBut s t [(h.spc, h.addr.toNat)] ∧ SameSdrBut s t []

/-- A bridge that takes its time. From the spec: a write of `BR_START` clears `BR_DONE` and starts the transfer of one byte
with the direction, the address and the data in `BR_ADDR` and `BR_WDATA`; when it finishes, the byte is moved and `BR_DONE`
is set (10_state.md R34 (e), R38 to R41). The model's choice (log 31, DESIGN CHOICE): while it is in flight byte 5 reads
exactly 0x00 and no SDR byte and no `BR_RDATA` has moved; the transfer keeps the direction, the address and the data as they
stood at the start; a second start replaces it; the environment says when it finishes. Instruction: WR.US. -/
def Obligations.BridgeTransferInFlight : Prop :=
  (∀ (v : Byte) (s : State), SlowBench s → Quiet s → v.getLsbD 0 = true →
    ∃ t, exec (.wrUs 5 v) s = .next t ∧ OnlyRetWorld s t ∧ t.ret = some (.ok .unit)
      ∧ t.world.peek .us 5 = 0x00 ∧ SameBytesBut s t [(.us, 5)] ∧ SameSdrBut s t [] ∧ t.world.ev = s.world.ev
      ∧ t.world.periph.flight =
        some ⟨(s.world.peek .us 2).getLsbD 7, (s.world.peek .us 2).setWidth 7, s.world.peek .us 3⟩)
  ∧ ∀ (s : State) (f : Transfer), SlowBench s → s.client = [] → s.world.script = [[.bridgeDone]] →
    s.world.periph.flight = some f →
    ∃ t, step s = .next t ∧ t = { s with world := t.world } ∧ t.world.peek .us 5 = 0x02
      ∧ t.world.periph.flight = none ∧ t.world.ev = s.world.ev
      ∧ (f.wnr = true → t.world.peekSdr f.sa.toNat = f.data ∧ SameBytesBut s t [(.us, 5)]
        ∧ SameSdrBut s t [f.sa.toNat])
      ∧ (f.wnr = false → t.world.peek .us 4 = s.world.peekSdr f.sa.toNat ∧ SameBytesBut s t [(.us, 4), (.us, 5)]
        ∧ SameSdrBut s t [])

/-- An address at or above the size of its space is rejected with `BAD_ADDRESS`, an SDR address above 127 with
`BAD_SDR_ADDR`, before any transaction; nothing wraps (20_memory.md R63). Instructions: RD.*, WR.*, WRV.*, BRD, BWR. -/
def Obligations.AddressRangeRejected : Prop :=
  (∀ (spc : Space) (addr : Addr) (v : Byte) (s : State), Ready s → s.cfg.size spc ≤ addr.toNat →
    exec (readInstr spc addr) s = .next { s with ret := some (.reject .badAddress) }
    ∧ exec (writeInstr spc addr v) s = .next { s with ret := some (.reject .badAddress) }
    ∧ exec (verifyInstr spc addr v) s = .next { s with ret := some (.reject .badAddress) })
  ∧ ∀ (sa v : Byte) (s : State), Ready s → 127 < sa.toNat →
    exec (.brd sa) s = .next { s with ret := some (.reject .badSdrAddr) }
    ∧ exec (.bwr sa v) s = .next { s with ret := some (.reject .badSdrAddr) }

/-- All environments: a plain write to a legal address that starts no run is exactly one transaction, unchecked, and
its outcome is `Ok`; no register but `ret` changes (40_rtx_transactions.md R124, R136 to R139). Instructions: WR.WV,
WR.RX, WR.TX, WR.US. -/
def Obligations.PlainWriteIsOneTransaction : Prop :=
  ∀ (spc : Space) (addr : Addr) (v : Byte) (s : State), Ready s → s.cfg.addrOk spc addr = true →
    ¬(spc = .us ∧ addr = 0 ∧ goBit s.cfg.userMap v = true) →
    ∃ t inn, exec (writeInstr spc addr v) s = .next t ∧ OnlyRetWorld s t
      ∧ t.ret = some (.ok .unit) ∧ Added s t [.xfer (wrQ spc addr v) inn]

/-- Quiet peripheral: a plain write to a RAM, or to a user byte other than `CTRL`, `STATUS`, `BR_RDATA` and `BR_CTRL`,
stores its byte and leaves every other byte and every flag (20_memory.md R67). Instructions: WR.WV, WR.RX, WR.TX, WR.US. -/
def Obligations.QuietPlainWriteStores : Prop :=
  ∀ (spc : Space) (addr : Addr) (v : Byte) (s : State), Ready s → Quiet s → memoryOk s = true →
    s.cfg.addrOk spc addr = true → (spc = .us → addr ≠ 0 ∧ addr ≠ 1 ∧ addr ≠ 4 ∧ addr ≠ 5) →
    ∃ t, exec (writeInstr spc addr v) s = .next t ∧ OnlyRetWorld s t ∧ t.ret = some (.ok .unit)
      ∧ t.world.peek spc addr.toNat = v ∧ SameBytesBut s t [(spc, addr.toNat)] ∧ SameSdrBut s t []
      ∧ t.world.ev = s.world.ev

/-- Quiet peripheral, the four user bytes that do not store what is written (20_memory.md R67; 10_state.md R36, R37,
R40, R41): `CTRL` drops the trigger bits, `STATUS` and `BR_RDATA` ignore writes, `BR_CTRL` ignores a byte without
`BR_START` and with it moves one byte between the SDR register and the bridge registers. Instruction: WR.US. -/
def Obligations.QuietUserControlBytes : Prop :=
  ∀ (v : Byte) (s : State), Bench s → memoryOk s = true →
    (v.getLsbD 0 = false ∨ s.fac.runsOnChannel < s.cfg.dwellMaxRuns →
      ∃ t, exec (.wrUs 0 v) s = .next t ∧ t.ret = some (.ok .unit) ∧ t.world.peek .us 0 = v &&& 0xF0
      ∧ SameBytesBut s t [(.us, 0)] ∧ SameSdrBut s t [] ∧ t.world.ev = s.world.ev)
    ∧ (∀ addr : Addr, addr = 1 ∨ addr = 4 ∨ (addr = 5 ∧ v.getLsbD 0 = false) →
      ∃ t, exec (.wrUs addr v) s = .next t ∧ OnlyRetWorld s t ∧ t.ret = some (.ok .unit)
        ∧ SameBytes s t ∧ t.world.ev = s.world.ev)
    ∧ (v.getLsbD 0 = true → (s.world.peek .us 2).getLsbD 7 = true →
      ∃ t, exec (.wrUs 5 v) s = .next t ∧ OnlyRetWorld s t ∧ t.ret = some (.ok .unit)
        ∧ t.world.peek .us 5 = 0x02 ∧ t.world.ev = s.world.ev
        ∧ t.world.peekSdr ((s.world.peek .us 2).toNat % 128) = s.world.peek .us 3
        ∧ SameBytesBut s t [(.us, 5)] ∧ SameSdrBut s t [(s.world.peek .us 2).toNat % 128])
    ∧ (v.getLsbD 0 = true → (s.world.peek .us 2).getLsbD 7 = false →
      ∃ t, exec (.wrUs 5 v) s = .next t ∧ OnlyRetWorld s t ∧ t.ret = some (.ok .unit)
        ∧ t.world.peek .us 5 = 0x02 ∧ t.world.ev = s.world.ev
        ∧ t.world.peek .us 4 = s.world.peekSdr (s.world.peek .us 2).toNat
        ∧ SameBytesBut s t [(.us, 4), (.us, 5)] ∧ SameSdrBut s t [])

/-- All environments: a plain write to `CTRL` with `GO` = 1 is counted after its one transaction; at `DWELL_MAX_RUNS`
it is rejected with no transaction; no other register changes (40_rtx_transactions.md R124, R127). Instruction: WR.US. -/
def Obligations.DwellAccounting : Prop :=
  ∀ (v : Byte) (s : State), Ready s → s.cfg.addrOk .us 0 = true → goBit s.cfg.userMap v = true →
    (s.fac.runsOnChannel < s.cfg.dwellMaxRuns →
      ∃ t inn, exec (.wrUs 0 v) s = .next t
        ∧ t = { s with ret := some (.ok .unit), world := t.world,
                       fac := { s.fac with runsOnChannel := s.fac.runsOnChannel + 1 } }
        ∧ Added s t [.xfer (wrQ .us 0 v) inn])
    ∧ (s.cfg.dwellMaxRuns ≤ s.fac.runsOnChannel →
      exec (.wrUs 0 v) s = .next { s with ret := some (.reject .dwellLimit) })

/-- All environments: a verified write makes one to three attempts, each a write and a read-back compared under the mask
(a read-back is two transactions under `READ_RETURN` = `previous`); it stops with `Ok` at the first that matches and with
`WRITE_VERIFY_FAIL` after three that do not (40_rtx_transactions.md R125, 60_exceptions.md R234). Instructions: WRV.WV,
WRV.RX, WRV.TX, WRV.US. -/
def Obligations.VerifiedWriteProtocol : Prop :=
  ∀ (spc : Space) (addr : Addr) (v mask : Byte) (s : State), Ready s →
    s.cfg.addrOk spc addr = true → vMask s.cfg.userMap spc addr = some mask →
    ¬(spc = .us ∧ addr = 0 ∧ v &&& trigMask s.cfg.userMap ≠ 0) →
    ∃ t l, exec (verifyInstr spc addr v) s = .next t ∧ OnlyRetWorld s t ∧ Added s t (attemptsOf s.cfg spc addr v l)
      ∧ (∀ p ∈ l.dropLast, p.back.b3 &&& mask ≠ v &&& mask)
      ∧ ((t.ret = some (.ok .unit) ∧ l.length ≤ 3 ∧ ∃ p, l.getLast? = some p ∧ p.back.b3 &&& mask = v &&& mask)
        ∨ (t.ret = some (.fault .writeVerifyFail) ∧ l.length = 3 ∧ ∀ p ∈ l, p.back.b3 &&& mask ≠ v &&& mask))

/-- Quiet peripheral: a verified write succeeds at its first attempt, one write and one read-back, and stores its byte,
leaving every other byte and flag (40_rtx_transactions.md R125, R140 to R143; 20_memory.md R67). Instructions: WRV.WV, WRV.RX,
WRV.TX, WRV.US. -/
def Obligations.QuietVerifiedWriteSucceeds : Prop :=
  ∀ (spc : Space) (addr : Addr) (v : Byte) (s : State), Bench s → memoryOk s = true →
    s.cfg.addrOk spc addr = true →
    (spc = .us → addr ≠ 1 ∧ addr ≠ 4 ∧ addr ≠ 5 ∧ (addr = 0 → v &&& 0x0F = 0)) →
    ∃ t new, exec (verifyInstr spc addr v) s = .next t ∧ OnlyRetWorld s t ∧ t.ret = some (.ok .unit)
      ∧ Added s t new ∧ sentOf new = wrQ spc addr v :: rdQs s.cfg spc addr
      ∧ t.world.peek spc addr.toNat = v ∧ SameBytesBut s t [(spc, addr.toNat)] ∧ SameSdrBut s t []
      ∧ t.world.ev = s.world.ev

/-- The source's property S5 (95_test_vectors.md S5, V20 to V23; 40_rtx_transactions.md R125): a peripheral that stores
the byte only at the k-th attempt makes the verified write succeed for k ≤ 3, after k attempts, and fail for k > 3, after
three; an attempt is two transactions, three under `READ_RETURN` = `previous`. Here `j` = k - 1 writes are lost.
Instruction: WRV.TX. -/
def Obligations.VerifiedWriteSurvivesTwoLosses : Prop :=
  ∀ (addr : Addr) (v : Byte) (j : Nat) (s : State), Ready s → memoryOk s = true →
    s.cfg.addrOk .tx addr = true → s.world.peek .tx addr.toNat ≠ v →
    s.world.script = lossTurns s.cfg addr (s.world.peek .tx addr.toNat) j →
    (j ≤ 2 → ∃ t new, exec (.wrvTx addr v) s = .next t ∧ t.ret = some (.ok .unit) ∧ Added s t new
      ∧ sentOf new = (List.replicate (j + 1) (wrQ .tx addr v :: rdQs s.cfg .tx addr)).flatten
      ∧ t.world.peek .tx addr.toNat = v)
    ∧ (3 ≤ j → ∃ t new, exec (.wrvTx addr v) s = .next t ∧ t.ret = some (.fault .writeVerifyFail) ∧ Added s t new
      ∧ sentOf new = (List.replicate 3 (wrQ .tx addr v :: rdQs s.cfg .tx addr)).flatten
      ∧ t.world.peek .tx addr.toNat = s.world.peek .tx addr.toNat)

/-- The verify mask and the two rejections that protect against verifying what cannot be verified, in their order
(40_rtx_transactions.md R126, R143). Instructions: WRV.WV, WRV.RX, WRV.TX, WRV.US. -/
def Obligations.VerifyMaskAndRefusals : Prop :=
  (∀ (m : UserMap) (addr : Addr),
    vMask m .wv addr = some 0xFF ∧ vMask m .rx addr = some 0xFF ∧ vMask m .tx addr = some 0xFF
    ∧ (addr = 1 ∨ addr = 4 ∨ addr = 5 → vMask m .us addr = none)
    ∧ (addr ≠ 0 → addr ≠ 1 → addr ≠ 4 → addr ≠ 5 → vMask m .us addr = some 0xFF))
  ∧ vMask UserMap.default .us 0 = some 0xF0
  ∧ ∀ (addr : Addr) (v : Byte) (s : State), Ready s → s.cfg.addrOk .us addr = true →
    (addr = 1 ∨ addr = 4 ∨ addr = 5 →
      exec (.wrvUs addr v) s = .next { s with ret := some (.reject .verifyVolatile) })
    ∧ (addr = 0 → v &&& trigMask s.cfg.userMap ≠ 0 →
      exec (.wrvUs addr v) s = .next { s with ret := some (.reject .verifyTrigger) })

/-- Quiet peripheral: a bridge read returns the SDR register in the five transactions of the worked example (each of its
three reads is two under `READ_RETURN` = `previous`) and leaves every other byte and every flag (40_rtx_transactions.md R129, R131; 20_memory.md R67). Instruction: BRD. -/
def Obligations.QuietBridgeRead : Prop :=
  ∀ (sa : Byte) (s : State), Bench s → memoryOk s = true → 1 ≤ s.cfg.bridgePollMax → sa.toNat ≤ 127 →
    ∃ t new, exec (.brd sa) s = .next t ∧ OnlyRetWorld s t
      ∧ t.ret = some (.ok (.byte (s.world.peekSdr sa.toNat))) ∧ Added s t new
      ∧ sentOf new = wrQ .us 2 sa :: rdQs s.cfg .us 2 ++ wrQ .us 5 0x01 :: rdQs s.cfg .us 5 ++ rdQs s.cfg .us 4
      ∧ t.world.peek .us 2 = sa ∧ t.world.peek .us 4 = s.world.peekSdr sa.toNat ∧ t.world.peek .us 5 = 0x02
      ∧ SameBytesBut s t [(.us, 2), (.us, 4), (.us, 5)] ∧ SameSdrBut s t [] ∧ t.world.ev = s.world.ev

/-- Quiet peripheral: a bridge write stores the SDR register in the six transactions of the worked example (each of its
three reads is two under `READ_RETURN` = `previous`) and leaves every other byte and every flag (40_rtx_transactions.md R130, R131; 20_memory.md R67). Instruction: BWR. -/
def Obligations.QuietBridgeWrite : Prop :=
  ∀ (sa v : Byte) (s : State), Bench s → memoryOk s = true → 1 ≤ s.cfg.bridgePollMax → sa.toNat ≤ 127 →
    ∃ t new, exec (.bwr sa v) s = .next t ∧ OnlyRetWorld s t ∧ t.ret = some (.ok .unit) ∧ Added s t new
      ∧ sentOf new = bwrSent s.cfg sa v
      ∧ t.world.peek .us 2 = sa ||| 0x80 ∧ t.world.peek .us 3 = v ∧ t.world.peek .us 5 = 0x02
      ∧ t.world.peekSdr sa.toNat = v
      ∧ SameBytesBut s t [(.us, 2), (.us, 3), (.us, 5)] ∧ SameSdrBut s t [sa.toNat] ∧ t.world.ev = s.world.ev

/-- All environments: a bridge operation ends in `Ok`, `WRITE_VERIFY_FAIL` or `BRIDGE_TIMEOUT`, changes no register but
`ret`, and keeps to the transaction counts of 40_rtx_transactions.md R144 (R131), for every legal `BRIDGE_POLL_MAX`
(00_scope.md R6: 3 to 5; R144's numbers are those of 5), where a read is one transaction, two under `READ_RETURN` =
`previous`; after a timeout the last `BRIDGE_POLL_MAX` reads are polls that all saw `BR_DONE` = 0 (60_exceptions.md R235).
Instructions: BRD, BWR. -/
def Obligations.BridgeOutcomesAndCounts : Prop :=
  ∀ (sa v : Byte) (s : State), Ready s → sa.toNat ≤ 127 → 3 ≤ s.cfg.bridgePollMax →
    let r := readCost s.cfg
    let polled := s.cfg.bridgePollMax
    let timedOut (new : List PortEvent) : Prop :=
      ∃ polls before, new = pollsOf s.cfg polls ++ before ∧ polls.length = polled
        ∧ ∀ p ∈ polls, brDoneOf s.cfg.userMap p.2.b3 = false
    (∃ t new, exec (.brd sa) s = .next t ∧ OnlyRetWorld s t ∧ Added s t new
      ∧ 2 + 3 * r ≤ (sentOf new).length ∧ (sentOf new).length ≤ 4 + (4 + polled) * r
      ∧ ((∃ b, t.ret = some (.ok (.byte b))) ∨ t.ret = some (.fault .writeVerifyFail)
        ∨ (t.ret = some (.fault .bridgeTimeout) ∧ (sentOf new).length ≤ 4 + (3 + polled) * r ∧ timedOut new)))
    ∧ ∃ t new, exec (.bwr sa v) s = .next t ∧ OnlyRetWorld s t ∧ Added s t new
      ∧ 3 + 3 * r ≤ (sentOf new).length ∧ (sentOf new).length ≤ 7 + (6 + polled) * r
      ∧ (t.ret = some (.ok .unit) ∨ t.ret = some (.fault .writeVerifyFail)
        ∨ (t.ret = some (.fault .bridgeTimeout) ∧ timedOut new))

-- ================================================================ EVT

/-- All environments: `EVCLR` leaves its flag 0, sends nothing and changes no register but `ret`; with nothing else
going on the other flags and every byte stay (41_evt_events.md R151). Instruction: EVCLR. -/
def Obligations.EvclrClearsItsFlag : Prop :=
  ∀ (e : Event) (s : State), Ready s →
    ∃ t, exec (.evclr e) s = .next t ∧ OnlyRetWorld s t ∧ t.ret = some (.ok .unit)
      ∧ t.world.ev.get e = false ∧ t.world.trace = s.world.trace
      ∧ (Quiet s → (∀ e', e' ≠ e → t.world.ev.get e' = s.world.ev.get e') ∧ SameBytes s t)

/-- All environments: `EVWAIT` on a flag that is 1 completes at once, consumes the flag, sends nothing and changes no
register but `ret` (41_evt_events.md R153). Instruction: EVWAIT. -/
def Obligations.EvwaitConsumesSetFlag : Prop :=
  ∀ (e : Event) (s : State), Ready s → s.world.ev.get e = true →
    ∃ t, exec (.evwait e) s = .next t ∧ OnlyRetWorld s t ∧ t.ret = some (.ok .unit)
      ∧ t.world.ev.get e = false ∧ t.world.trace = s.world.trace
      ∧ (Quiet s → (∀ e', e' ≠ e → t.world.ev.get e' = s.world.ev.get e') ∧ SameBytes s t)

/-- `EVWAIT` on a flag that is 0: the block is held, with no outcome and no transaction, and has no step while nothing
sets the flag; `EvSet` of this flag alone lifts the hold, and the operation then consumes the flag and ends with `Ok`
(41_evt_events.md R152, R153; 60_exceptions.md R254). Instruction: EVWAIT. -/
def Obligations.EvwaitHoldsUntilSet : Prop :=
  ∀ (e : Event) (s : State), Ready s → Quiet s → s.world.ev.get e = false →
    exec (.evwait e) s = .next { s with seq := .evWait e }
    ∧ step { s with seq := .evWait e } = .fault (.held e)
    ∧ (∀ e', e' ≠ e →
      step { s with seq := .evWait e, world := { s.world with ev := s.world.ev.put e' true } } = .fault (.held e))
    ∧ step { s with seq := .evWait e, world := { s.world with script := [[.evSet e]] } }
        = .next { s with ret := some (.ok .unit) }

-- ================================================================ RXD

/-- `RES.NEW` makes both channels fresh and `RES.FAIL` clears one pass flag; nothing else changes but `ret`
(42_rxd_decoder.md R164, R172; 10_state.md R28). Instructions: RES.NEW, RES.FAIL. -/
def Obligations.ResultRecordOperations : Prop :=
  ∀ s : State, Ready s →
    exec .resNew s = .next { s with
      resI := ⟨false, none, List.replicate 12 none, none, none, none, none⟩
      resQ := ⟨false, none, List.replicate 12 none, none, none, none, none⟩
      ret := some (.ok .unit) }
    ∧ exec (.resFail .I) s = .next { s with resI := { s.resI with pass := false }, ret := some (.ok .unit) }
    ∧ exec (.resFail .Q) s = .next { s with resQ := { s.resQ with pass := false }, ret := some (.ok .unit) }

/-- All environments, default layout: `DEC.RN16` reads two bytes and `DEC.HANDLE` four, in ascending order, each by one
read operation, and takes its fields from the bytes returned, most significant first; no other register changes
(42_rxd_decoder.md R162, R163, R165, R166). A quiet peripheral answers with RX RAM, and every byte and flag stays
(20_memory.md R67, R69). Instructions: DEC.RN16, DEC.HANDLE. -/
def Obligations.DecodeRn16AndHandle : Prop :=
  ∀ s : State, Ready s → s.cfg.rxLayout = RxLayout.default → 6 ≤ s.cfg.rxramSize →
    (∃ t x y x' y', exec .decRn16 s = .next t
      ∧ Added s t (readOf s.cfg .rx 1 y' y ++ readOf s.cfg .rx 0 x' x)
      ∧ t = { s with world := t.world, dec := { s.dec with rn16 := some (x.b3 ++ y.b3) },
                     ret := some (.ok (.word16 (x.b3 ++ y.b3))) }
      ∧ (Quiet s → x.b3 = s.world.peek .rx 0 ∧ y.b3 = s.world.peek .rx 1 ∧ SameBytes s t ∧ t.world.ev = s.world.ev))
    ∧ ∃ t x y z u x' y' z' u', exec .decHandle s = .next t
      ∧ Added s t (readOf s.cfg .rx 5 u' u ++ readOf s.cfg .rx 4 z' z ++ readOf s.cfg .rx 3 y' y
          ++ readOf s.cfg .rx 2 x' x)
      ∧ t = { s with world := t.world,
                     dec := { s.dec with handle := some (x.b3 ++ y.b3), crc := some (z.b3 ++ u.b3) },
                     ret := some (.ok (.word16 (x.b3 ++ y.b3))) }
      ∧ (Quiet s → x.b3 = s.world.peek .rx 2 ∧ y.b3 = s.world.peek .rx 3 ∧ z.b3 = s.world.peek .rx 4
        ∧ u.b3 = s.world.peek .rx 5 ∧ SameBytes s t ∧ t.world.ev = s.world.ev)

/-- All environments, default layout: `DEC.WRACK` reads five bytes, each by one read operation, and splits their 40 bits
into header, handle, CRC and seven ignored bits; no other register changes (42_rxd_decoder.md R163, R168). A quiet
peripheral answers with RX RAM, and every byte and flag stays (20_memory.md R67, R69). Instruction: DEC.WRACK. -/
def Obligations.DecodeWriteAck : Prop :=
  ∀ s : State, Ready s → s.cfg.rxLayout = RxLayout.default → 11 ≤ s.cfg.rxramSize →
    ∃ t, ∃ a b c d e a' b' c' d' e' : Quad, exec .decWrack s = .next t
      ∧ Added s t (readOf s.cfg .rx 10 e' e ++ readOf s.cfg .rx 9 d' d ++ readOf s.cfg .rx 8 c' c
          ++ readOf s.cfg .rx 7 b' b ++ readOf s.cfg .rx 6 a' a)
      ∧ t = { s with
          world := t.world
          dec := { s.dec with
            hdr := some (a.b3.getLsbD 7)
            handle := some ((a.b3 ++ b.b3 ++ c.b3).extractLsb' 7 16)
            crc := some ((c.b3 ++ d.b3 ++ e.b3).extractLsb' 7 16) }
          ret := some (.ok (.bit (a.b3.getLsbD 7))) }
      ∧ (Quiet s → a.b3 = s.world.peek .rx 6 ∧ b.b3 = s.world.peek .rx 7 ∧ c.b3 = s.world.peek .rx 8
        ∧ d.b3 = s.world.peek .rx 9 ∧ e.b3 = s.world.peek .rx 10 ∧ SameBytes s t ∧ t.world.ev = s.world.ev)

/-- Quiet peripheral, default layout: `DEC.READ n` takes header, data, handle and CRC from RX RAM at bit offset 1, in
`n + 5` reads in ascending order, sets the unused data registers to `none`, and leaves every byte, every flag and every other
register (42_rxd_decoder.md R163, R167, R171). Instruction: DEC.READ. -/
def Obligations.QuietDecodeRead : Prop :=
  ∀ (n : BitVec 4) (s : State), RxBench s → 1 ≤ n.toNat → n.toNat ≤ 12 →
    ∃ t new, exec (.decRead n) s = .next t ∧ Added s t new
      ∧ sentOf new = (List.range (n.toNat + 5)).flatMap (fun k => rdQs s.cfg .rx (BitVec.ofNat 16 (0x0B + k)))
      ∧ t = { s with world := t.world, dec := t.dec, ret := t.ret }
      ∧ t.dec.hdr = some ((s.world.peek .rx 0x0B).getLsbD 7)
      ∧ t.ret = some (.ok (.bit ((s.world.peek .rx 0x0B).getLsbD 7)))
      ∧ t.dec.len = n.toNat ∧ t.dec.rn16 = s.dec.rn16
      ∧ t.dec.data.length = 12
      ∧ (∀ k, k < n.toNat → t.dec.data[k]? =
          some (some ((s.world.peek .rx (0x0B + k) <<< 1) ||| (s.world.peek .rx (0x0C + k) >>> 7))))
      ∧ (∀ k, n.toNat ≤ k → k < 12 → t.dec.data[k]? = some none)
      ∧ t.dec.handle = some ((s.world.peek .rx (0x0B + n.toNat) ++ s.world.peek .rx (0x0C + n.toNat)
          ++ s.world.peek .rx (0x0D + n.toNat)).extractLsb' 7 16)
      ∧ t.dec.crc = some ((s.world.peek .rx (0x0D + n.toNat) ++ s.world.peek .rx (0x0E + n.toNat)
          ++ s.world.peek .rx (0x0F + n.toNat)).extractLsb' 7 16)
      ∧ SameBytes s t ∧ t.world.ev = s.world.ev

/-- A bridge that takes its time, in an environment that does nothing but finish the transfer after `k` polls: a bridge
operation polls until it sees `BR_DONE`, and ends with the transfer's effect if that is within `BRIDGE_POLL_MAX` polls;
otherwise it ends in `BRIDGE_TIMEOUT` after `BRIDGE_POLL_MAX` of them (40_rtx_transactions.md R129 to R131; 10_state.md
R34 (e), R41; 60_exceptions.md R235). The model's choice (log 31, DESIGN CHOICE): after the timeout the transfer is still in
flight, as it stood at its start, and neither an SDR register nor `BR_RDATA` has changed; R130, R235 and
93_implementation_defined.md U4 leave the addressed SDR register open then. Instructions: BRD, BWR. -/
def Obligations.SlowBridgeIsPolled : Prop :=
  ∀ (sa v : Byte) (k : Nat) (s : State), SlowBench s → sa.toNat ≤ 127 →
    let polls (n : Nat) : List Quad := (List.replicate n (rdQs s.cfg .us 5)).flatten
    let rdHead := wrQ .us 2 sa :: rdQs s.cfg .us 2 ++ [wrQ .us 5 0x01]
    let wrHead := wrQ .us 2 (sa ||| 0x80) :: rdQs s.cfg .us 2 ++ wrQ .us 3 v :: rdQs s.cfg .us 3 ++ [wrQ .us 5 0x01]
    (s.world.script = bridgeTurns s.cfg 1 k →
      ∃ t new, exec (.brd sa) s = .next t ∧ OnlyRetWorld s t ∧ Added s t new ∧ SameSdrBut s t []
        ∧ t.world.ev = s.world.ev
        ∧ if k < s.cfg.bridgePollMax then
            t.ret = some (.ok (.byte (s.world.peekSdr sa.toNat))) ∧ t.world.periph.flight = none
            ∧ sentOf new = rdHead ++ polls (k + 1) ++ rdQs s.cfg .us 4
            ∧ SameBytesBut s t [(.us, 2), (.us, 4), (.us, 5)]
          else
            t.ret = some (.fault .bridgeTimeout)
            ∧ t.world.periph.flight = some ⟨false, sa.setWidth 7, s.world.peek .us 3⟩
            ∧ sentOf new = rdHead ++ polls s.cfg.bridgePollMax ∧ SameBytesBut s t [(.us, 2), (.us, 5)])
    ∧ (s.world.script = bridgeTurns s.cfg 2 k →
      ∃ t new, exec (.bwr sa v) s = .next t ∧ OnlyRetWorld s t ∧ Added s t new
        ∧ SameBytesBut s t [(.us, 2), (.us, 3), (.us, 5)] ∧ t.world.ev = s.world.ev
        ∧ if k < s.cfg.bridgePollMax then
            t.ret = some (.ok .unit) ∧ t.world.periph.flight = none ∧ t.world.peekSdr sa.toNat = v
            ∧ SameSdrBut s t [sa.toNat] ∧ sentOf new = wrHead ++ polls (k + 1)
          else
            t.ret = some (.fault .bridgeTimeout) ∧ t.world.periph.flight = some ⟨true, sa.setWidth 7, v⟩
            ∧ SameSdrBut s t [] ∧ sentOf new = wrHead ++ polls s.cfg.bridgePollMax)

/-- All environments: `DEC.TAG` reads `STATUS` first; on a non-zero exit code it records a fail for its channel only,
reads no RX RAM, keeps every other field, and its outcome is `Ok`, not a fault (42_rxd_decoder.md R169,
60_exceptions.md R237); on zero it records a pass. It changes no other register (default user map). Instruction: DEC.TAG. -/
def Obligations.DecodeTagExitCode : Prop :=
  ∀ (ch : Chan) (f : TagFlags) (s : State), Ready s → s.cfg.userMap = UserMap.default →
    ∃ t new pre inn, exec (.decTag ch f) s = .next t
      ∧ Added s t (new ++ readOf s.cfg .us 1 pre inn)
      ∧ t.ret = some (.ok (.exitCode (inn.b3.extractLsb' 0 4)))
      ∧ (∀ ch', ch' ≠ ch → t.res ch' = s.res ch')
      ∧ t = { s with world := t.world, resI := t.resI, resQ := t.resQ, ret := t.ret }
      ∧ (t.res ch).pass = decide (inn.b3.extractLsb' 0 4 = 0)
      ∧ (inn.b3.extractLsb' 0 4 ≠ 0 → new = [] ∧ t.res ch = { s.res ch with pass := false })

/-- Quiet peripheral, default layout, exit code 0, every `EPC_LEN` of 1 to 12: `DEC.TAG` fills exactly the fields its flags
name from RX RAM, with the bytes it reads in the order E, M, L, each part ascending, and leaves every byte and flag; EPC
registers from `EPC_LEN` on become `none` (42_rxd_decoder.md R163, R169, R170; 95_test_vectors.md V54, V60). Instruction:
DEC.TAG. -/
def Obligations.QuietDecodeTagFields : Prop :=
  ∀ (ch : Chan) (f : TagFlags) (s : State), RxBench s → 1 ≤ s.cfg.epcLen → s.cfg.epcLen ≤ 12 →
    (s.world.peek .us 1).extractLsb' 0 4 = 0 →
    let el := s.cfg.epcLen
    let reads (first n : Nat) : List Quad :=
      (List.range n).flatMap fun k => rdQs s.cfg .rx (BitVec.ofNat 16 (first + k))
    ∃ t new, exec (.decTag ch f) s = .next t ∧ Added s t new
      ∧ sentOf new = rdQs s.cfg .us 1 ++ (if f.e then reads 0x1C (el + 4) else [])
        ++ (if f.m then reads 0x2C 9 else []) ++ (if f.l then reads 0x35 1 else [])
      ∧ SameBytes s t ∧ t.world.ev = s.world.ev
      ∧ t.res ch =
        { pass := true
          pc := if f.e then some (s.world.peek .rx 0x1C ++ s.world.peek .rx 0x1D) else (s.res ch).pc
          epc := if f.e then (List.range 12).map (fun k => if k < el then some (s.world.peek .rx (0x1E + k)) else none)
            else (s.res ch).epc
          crc := if f.e then some (s.world.peek .rx (0x1E + el) ++ s.world.peek .rx (0x1F + el)) else (s.res ch).crc
          lna := if f.l then some (s.world.peek .rx 0x35) else (s.res ch).lna
          magMain := if f.m then some ((s.world.peek .rx 0x2C ++ s.world.peek .rx 0x2D ++ s.world.peek .rx 0x2E
            ++ s.world.peek .rx 0x2F ++ s.world.peek .rx 0x30).extractLsb' 4 32).toInt else (s.res ch).magMain
          magAlt := if f.m then some ((s.world.peek .rx 0x30 ++ s.world.peek .rx 0x31 ++ s.world.peek .rx 0x32
            ++ s.world.peek .rx 0x33 ++ s.world.peek .rx 0x34).extractLsb' 4 32).toInt else (s.res ch).magAlt }

/-- All environments, from any registers: a calibration held in a measurement and going on until it ends. `CAL.BRUTE` draws
its samples at the pair it was held at and at the later pairs of the sweep, in order, the running best of before taking
them into account one by one, a strictly smaller one alone replacing it; `CAL.GRAD` goes on through the search of
44_toc_calibrator.md R214 from the measurement it was held at. Each sample is drawn with its own point in `TXOFS`. Either it
ends in `Ok`, all samples drawn, the registers copied into the outcome and `none` afterwards, or in `WRITE_VERIFY_FAIL`, the
registers left at the running values of the samples drawn (44_toc_calibrator.md R212 to R215, R218, R220; 10_state.md R24,
R26). What stands in the outcome for registers that hold `none` there, which no run reaches, is log 27. -/
def Obligations.CalibrationGoesOnAfterHold : Prop :=
  ∀ s t : State, step s = .next t → t.seq = .idle →
    let byte (p : Offset × Offset) : Byte := txofsByte s.cfg.userMap p.1 p.2
    (∀ a0 b0, s.seq = .brute a0 b0 →
      let pts := sweep.drop (16 * a0.toNat + b0.toNat)
      ∃ new, Added s t new
        ∧ measuresFrom (byte (a0, b0)) new = (pts.map byte).zip (samplesOf new)
        ∧ ((t.ret = some (.fault .writeVerifyFail) ∧ t.toc = swept pts (samplesOf new) s.toc)
          ∨ ∃ a b best, t.ret = some (.ok (.cal a b best .swept)) ∧ t.toc = ⟨none, none, none, none, none⟩
            ∧ (samplesOf new).length = pts.length
            ∧ (∀ v ∈ samplesOf new, best ≤ v) ∧ (∀ v, s.toc.calBest = some v → best ≤ v)
            ∧ (swept pts (samplesOf new) s.toc).calBest = some best
            ∧ a = (swept pts (samplesOf new) s.toc).calA.getD 0 ∧ b = (swept pts (samplesOf new) s.toc).calB.getD 0))
    ∧ ∀ g, s.seq = .grad g →
      ∃ new pts u ask, Added s t new
        ∧ searched s.cfg g (g.point s.toc) s.toc (samplesOf new) = some (pts, u, ask)
        ∧ measuresFrom (byte (g.point s.toc)) new = (pts.map byte).zip (samplesOf new)
        ∧ ((t.ret = some (.fault .writeVerifyFail) ∧ t.toc = u)
          ∨ ∃ exit, ask = .done exit ∧ t.toc = ⟨none, none, none, none, none⟩
            ∧ t.ret = some (.ok (.cal (u.calA.getD 0) (u.calB.getD 0) (u.calBest.getD 0) exit)))

/-- Reassembly byte by byte of a field that is not byte-aligned (42_rxd_decoder.md R171, from 00_scope.md R8), its two
uses, and the number of bytes a field touches. -/
def Obligations.BitPackedBytes : Prop :=
  (∀ (m : Buf) (g k : Nat), m.byteAt g k =
    if g % 8 = 0 then m.byte (g / 8 + k)
    else (m.byte (g / 8 + k) <<< (g % 8)) ||| (m.byte (g / 8 + k + 1) >>> (8 - g % 8)))
  ∧ (∀ (m : Buf) (k : Nat), m.byteAt 89 k = (m.byte (0x0B + k) <<< 1) ||| (m.byte (0x0C + k) >>> 7))
  ∧ (∀ (m : Buf) (o j : Nat), m.byteAt (8 * o + 4) j =
    ((m.byte (o + j) &&& 0x0F) <<< 4) ||| (m.byte (o + j + 1) >>> 4))
  ∧ ∀ (g n : Nat), 1 ≤ n →
    (BitField.mk g (8 * n)).lastByte + 1 - (BitField.mk g (8 * n)).firstByte = if g % 8 = 0 then n else n + 1

-- ================================================================ FAC

/-- Quiet peripheral, 3-byte codes at the default SDR addresses: each of the four retunes completes in six bridge
writes (36 transactions; a read is two under `READ_RETURN` = `previous`), writes the channel's code to the receive and to the transmit registers, records the channel, and restarts the dwell
count unless the channel was tuned already; `HOP` and the hop phase of `ALT` advance the sequence, `SET`, `SKIP` and
the skip phase of `ALT` do not; `nonce` and `alt_phase` change in `ALT` only (43_fac_frequency.md R191, R193, R194,
R196, R197). That a hop, too, keeps the count of a channel tuned already is the model's choice between R191 and R193, log
32. Every other register, byte and flag is unchanged. Instructions: HOP, SET, SKIP, ALT. -/
def Obligations.QuietRetunesComplete : Prop :=
  ∀ s : State, FacBench s → memoryOk s = true →
    let done (i : Instr) (ch : Channel) (f : Fac) (v : Value) : Prop :=
      let code := s.cfg.freqCode.getD ch.val 0
      ∃ t new, exec i s = .next t
        ∧ t = { s with world := t.world, fac := f, ret := some (.ok v) }
        ∧ Added s t new
        ∧ sentOf new = ([1, 4].flatMap fun base =>
            bwrSent s.cfg base (BitVec.ofNat 8 (code / 65536))
            ++ bwrSent s.cfg (base + 1) (BitVec.ofNat 8 (code / 256)) ++ bwrSent s.cfg (base + 2) (BitVec.ofNat 8 code))
        ∧ (∀ base : Nat, base = 1 ∨ base = 4 →
          t.world.peekSdr base = BitVec.ofNat 8 (code / 65536)
          ∧ t.world.peekSdr (base + 1) = BitVec.ofNat 8 (code / 256)
          ∧ t.world.peekSdr (base + 2) = BitVec.ofNat 8 code)
        ∧ SameSdrBut s t [1, 2, 3, 4, 5, 6] ∧ SameBytesBut s t [(.us, 2), (.us, 3), (.us, 5)]
        ∧ t.world.ev = s.world.ev
    let tunedTo (ch : Channel) : Fac :=
      { s.fac with
        tunedChannel := some ch
        runsOnChannel := if s.fac.tunedChannel = some ch then s.fac.runsOnChannel else 0 }
    let next := nextHop s.cfg s.fac.hopChannel
    let sk := skipCh s.cfg s.fac.hopChannel
    let nonce := (s.fac.nonce + 1) % 2 ^ s.cfg.nonceBits
    done .hop next { tunedTo next with hopChannel := next } (.channel next)
    ∧ (∀ ch : BitVec 5, ∀ h : ch.toNat < 25, done (.setCh ch) ⟨ch.toNat, h⟩ (tunedTo ⟨ch.toNat, h⟩)
        (.channel ⟨ch.toNat, h⟩))
    ∧ done .skip sk (tunedTo sk) (.channel sk)
    ∧ (s.fac.altPhase = 0 →
        done .alt next { tunedTo next with hopChannel := next, nonce := nonce, altPhase := 1 } (.alt .hop next nonce))
    ∧ (s.fac.altPhase = 1 → done .alt sk { tunedTo sk with altPhase := 0 } (.alt .skip sk s.fac.nonce))

/-- All environments: a retune that faults leaves `tuned_channel` = `none`, the dwell count, `alt_phase` and `nonce` as
they were, and the sequence position advanced only by `HOP` and the hop phase of `ALT`; no other register changes
(43_fac_frequency.md R191, R193, R197). Instructions: HOP, SET, SKIP, ALT. -/
def Obligations.FailedRetune : Prop :=
  ∀ (i : Instr) (s t : State) (code : FaultCode), retunes i = true → exec i s = .next t →
    t.ret = some (.fault code) →
    t = { s with
      world := t.world
      ret := some (.fault code)
      fac := { s.fac with
        tunedChannel := none
        hopChannel := if i = .hop ∨ (i = .alt ∧ s.fac.altPhase = 0) then nextHop s.cfg s.fac.hopChannel
          else s.fac.hopChannel } }

/-- Operands that are rejected and change nothing but `ret`: a channel above 24 (43_fac_frequency.md R194), a read reply
of 0 or of more than 12 data bytes (42_rxd_decoder.md R167), and a retune with frequency codes so long that an SDR address
of its writes lies above 127 (40_rtx_transactions.md R131; that it is rejected before its first write is the model's
choice, log 19). Instructions: SET, DEC.READ, HOP, SKIP, ALT. -/
def Obligations.OperandsRejected : Prop :=
  (∀ (ch : BitVec 5) (s : State), Ready s → 24 < ch.toNat →
    exec (.setCh ch) s = .next { s with ret := some (.reject .badChannel) })
  ∧ (∀ (n : BitVec 4) (s : State), Ready s → n = 0 ∨ 12 < n.toNat →
    exec (.decRead n) s = .next { s with ret := some (.reject .badLength) })
  ∧ ∀ (i : Instr) (s : State), Ready s →
    128 < s.cfg.sdrFrfRxAddr + s.cfg.freqCodeBytes ∨ 128 < s.cfg.sdrFrfTxAddr + s.cfg.freqCodeBytes →
    i = .hop ∨ i = .skip ∨ i = .alt ∨ (∃ ch : BitVec 5, ch.toNat ≤ 24 ∧ i = .setCh ch) →
    exec i s = .next { s with ret := some (.reject .badSdrAddr) }

/-- The hop sequence is a pure function of the current channel and visits all 25 channels exactly once before it
repeats, for every step coprime with 25; with the step 7 from channel 0 it is the listed sequence
(43_fac_frequency.md R199). -/
def Obligations.HopSequenceVisitsEveryChannel : Prop :=
  (∀ (c : Cfg) (ch : Channel), c.hopStep.gcd 25 = 1 →
    (nextHop c)^[25] ch = ch
    ∧ (∀ d : Channel, ∃ k, k < 25 ∧ (nextHop c)^[k + 1] ch = d)
    ∧ ((List.range 25).map fun k => (nextHop c)^[k + 1] ch).Nodup)
  ∧ ∀ c : Cfg, c.hopStep = 7 →
    ((List.range 25).map fun k => ((nextHop c)^[k + 1] 0).val) =
      [7, 14, 21, 3, 10, 17, 24, 6, 13, 20, 2, 9, 16, 23, 5, 12, 19, 1, 8, 15, 22, 4, 11, 18, 0]

/-- The skip channel is the stated one and differs from the sequence position; under `reflect` it always lies exactly
`SKIP_OFFSET` slots away, under `modulo` `25 - SKIP_OFFSET` slots at the top of the table (43_fac_frequency.md R195). -/
def Obligations.SkipChannelKeepsItsDistance : Prop :=
  (Cfg.default.skipOffset = 1 ∧ Cfg.default.skipWrap = .reflect)
  ∧ ∀ (c : Cfg) (ch : Channel), 1 ≤ c.skipOffset → c.skipOffset ≤ 12 →
    skipCh c ch ≠ ch
    ∧ (c.skipWrap = .reflect →
      (skipCh c ch).val = (if ch.val + c.skipOffset ≤ 24 then ch.val + c.skipOffset else ch.val - c.skipOffset)
      ∧ ((skipCh c ch).val = ch.val + c.skipOffset ∨ (skipCh c ch).val + c.skipOffset = ch.val))
    ∧ (c.skipWrap = .modulo →
      (skipCh c ch).val = (ch.val + c.skipOffset) % 25
      ∧ (24 < ch.val + c.skipOffset → (skipCh c ch).val + (25 - c.skipOffset) = ch.val))

-- ================================================================ TOC

/-- All environments: whenever `CAL.BRUTE` runs to its `Ok` outcome it has drawn exactly 256 samples, one a pair in
sweep order, each with its own pair in `TXOFS`, and reports the smallest of them and the first pair that had it; the
calibration registers are `none` afterwards (44_toc_calibrator.md R212, R213, R215, R220). Runs that go on after a hold:
CalibrationGoesOnAfterHold. Instruction: CAL.BRUTE. -/
def Obligations.BruteFindsFirstMinimum : Prop :=
  ∀ (s t : State) (a b : Offset) (best : Nat) (exit : CalExit),
    exec .calBrute s = .next t → t.seq = .idle → t.ret = some (.ok (.cal a b best exit)) →
    exit = .swept ∧ t.toc = ⟨none, none, none, none, none⟩
    ∧ ∃ new, Added s t new ∧ (samplesOf new).length = 256
      ∧ (∀ x, measuresFrom x new = ((List.range 256).map fun k =>
          txofsByte s.cfg.userMap (BitVec.ofNat 4 (k / 16)) (BitVec.ofNat 4 (k % 16))).zip (samplesOf new))
      ∧ (samplesOf new)[16 * a.toNat + b.toNat]? = some best
      ∧ (∀ v ∈ samplesOf new, best ≤ v)
      ∧ ∀ k v, k < 16 * a.toNat + b.toNat → (samplesOf new)[k]? = some v → best < v

/-- A sampler that answers every trigger and a peripheral that is otherwise quiet: `CAL.BRUTE` completes in 514
transactions (a read is two under `READ_RETURN` = `previous`), 256 pulses and 256 samples, programming the pairs in the order of the sweep (`a` outer, `b` inner) and
the reported pair last; only `ret`, the calibration registers
and `ev[3]` differ among the registers and flags, only `TXOFS` among the bytes (44_toc_calibrator.md R212, R213, R215,
R216). Instruction: CAL.BRUTE. -/
def Obligations.BruteCompletes : Prop :=
  ∀ (s : State) (samples : List Nat), Ready s → 8 ≤ s.cfg.userSize → memoryOk s = true →
    samples.length = 256 → s.world.script = samples.flatMap (measureTurns s.cfg) →
    ∃ t new a b best, exec .calBrute s = .next t
      ∧ t = { s with world := t.world, toc := t.toc, ret := some (.ok (.cal a b best .swept)) }
      ∧ t.toc = ⟨none, none, none, none, none⟩
      ∧ Added s t new ∧ pulsesOf new = 256
      ∧ sentOf new = ((List.finRange 256).flatMap fun k =>
            let x := txofsByte s.cfg.userMap (BitVec.ofNat 4 (k.val / 16)) (BitVec.ofNat 4 (k.val % 16))
            wrQ .us 7 x :: rdQs s.cfg .us 7)
          ++ wrQ .us 7 (txofsByte s.cfg.userMap a b) :: rdQs s.cfg .us 7
      ∧ samplesOf new = samples.map (· % 2 ^ s.cfg.sampleBits)
      ∧ t.world.peek .us 7 = txofsByte s.cfg.userMap a b
      ∧ SameBytesBut s t [(.us, 7)] ∧ SameSdrBut s t []
      ∧ t.world.ev = { s.world.ev with sampleReady := false }

/-- All environments: whenever `CAL.GRAD` runs to its `Ok` outcome, it has gone through the search of 44_toc_calibrator.md
R214 from `CAL_START` on, point by point with the samples drawn, each sample drawn with its own point in `TXOFS`; it reports
the pair, the sample and the exit of that search; the reported sample was drawn at the reported pair and is no larger than
the start point's; ended as a local minimum, the last points measured are exactly the in-range neighbours of the reported
pair, in the probe order, and none of their samples is smaller than the reported one; the calibration registers are `none`
afterwards (44_toc_calibrator.md R212, R214, R215, R219, R220). Instruction: CAL.GRAD. -/
def Obligations.GradientEndsAtLocalMinimum : Prop :=
  ∀ (s t : State) (a b : Offset) (best : Nat) (exit : CalExit),
    exec .calGrad s = .next t → t.seq = .idle → t.ret = some (.ok (.cal a b best exit)) →
    let byte (p : Offset × Offset) : Byte := txofsByte s.cfg.userMap p.1 p.2
    exit ≠ .swept ∧ t.toc = ⟨none, none, none, none, none⟩
    ∧ ∃ new pts u, Added s t new
      ∧ searched s.cfg .start s.cfg.calStart (s.toc.startAt s.cfg.calStart) (samplesOf new) = some (pts, u, .done exit)
      ∧ u.calA = some a ∧ u.calB = some b ∧ u.calBest = some best
      ∧ (∀ x, measuresFrom x new = (pts.map byte).zip (samplesOf new))
      ∧ ((a, b), best) ∈ pts.zip (samplesOf new)
      ∧ (∀ v, (samplesOf new).head? = some v → best ≤ v)
      ∧ (exit = .localMin →
        ∃ before around, pts.zip (samplesOf new) = before ++ around
          ∧ around.map (·.1) = probeOrder.filterMap (neighbour a b) ∧ ∀ p ∈ around, best ≤ p.2)

/-- A sampler that answers every trigger and a peripheral that is otherwise quiet: `CAL.GRAD` completes, with a sample
no larger than the start point's, and `TXOFS` holds the reported pair; only `ret`, the calibration registers and `ev[3]`
differ among the registers and flags, only `TXOFS` among the bytes (44_toc_calibrator.md R212, R214, R215, R216). The sampler has as
many samples ready as the largest number of measurements R214 gives. Instruction: CAL.GRAD. -/
def Obligations.GradientCompletes : Prop :=
  ∀ (s : State) (samples : List Nat), Ready s → 8 ≤ s.cfg.userSize → memoryOk s = true →
    1 + 5 * s.cfg.calMaxIter ≤ samples.length → s.world.script = samples.flatMap (measureTurns s.cfg) →
    ∃ t new a b best exit, exec .calGrad s = .next t
      ∧ t = { s with world := t.world, toc := t.toc, ret := some (.ok (.cal a b best exit)) }
      ∧ t.toc = ⟨none, none, none, none, none⟩ ∧ exit ≠ .swept
      ∧ Added s t new
      ∧ (∃ n, samplesOf new = (samples.take n).map (· % 2 ^ s.cfg.sampleBits) ∧ pulsesOf new = n
        ∧ (sentOf new).length = (n + 1) * (1 + readCost s.cfg))
      ∧ (∀ v, (samplesOf new).head? = some v → best ≤ v)
      ∧ t.world.peek .us 7 = txofsByte s.cfg.userMap a b
      ∧ SameBytesBut s t [(.us, 7)] ∧ SameSdrBut s t []
      ∧ t.world.ev = { s.world.ev with sampleReady := false }

/-- All environments: `CAL.BRUTE` makes at most 256 measurements and `CAL.GRAD` at most `1 + 5 * CAL_MAX_ITER`
(44_toc_calibrator.md R213, R214, R216), one trigger pulse each, and neither touches a register of another unit
(R213, R214; 10_state.md R23). Ended in `WRITE_VERIFY_FAIL`, it leaves the `cal_*` registers at the running values of the
samples drawn so far, each drawn with its own point in `TXOFS`: for `CAL.BRUTE` the first pairs of the sweep, from registers
that are `none`; for `CAL.GRAD` the first points of the search of R214 from `CAL_START` on, the registers that the search
has not reached as they were (44_toc_calibrator.md R218; 10_state.md R26). Runs that go on after a hold:
CalibrationGoesOnAfterHold. Instructions: CAL.BRUTE, CAL.GRAD. -/
def Obligations.CalibrationBoundsAndFrame : Prop :=
  ∀ (i : Instr) (s t : State), calibrates i = true → exec i s = .next t →
    let byte (p : Offset × Offset) : Byte := txofsByte s.cfg.userMap p.1 p.2
    t = { s with world := t.world, toc := t.toc, seq := t.seq, ret := t.ret }
    ∧ ∃ new, Added s t new
      ∧ (samplesOf new).length ≤ pulsesOf new
      ∧ pulsesOf new ≤ (if i = .calBrute then 256 else 1 + 5 * s.cfg.calMaxIter)
      ∧ (t.seq = .idle → t.ret = some (.fault .writeVerifyFail) →
        (i = .calBrute → t.toc = swept sweep (samplesOf new) ⟨none, none, none, none, none⟩
          ∧ ∀ x, measuresFrom x new = (sweep.map byte).zip (samplesOf new))
        ∧ (i = .calGrad → ∃ pts ask,
          searched s.cfg .start s.cfg.calStart (s.toc.startAt s.cfg.calStart) (samplesOf new) = some (pts, t.toc, ask)
          ∧ ∀ x, measuresFrom x new = (pts.map byte).zip (samplesOf new)))

/-- A sampler that never answers: both calibrations are held in their first measurement after one verified write and one
pulse, with no outcome, and have no step (44_toc_calibrator.md R216, R218; 95_test_vectors.md V93). Instructions:
CAL.BRUTE, CAL.GRAD. -/
def Obligations.CalibrationHeldWithoutSampler : Prop :=
  ∀ s : State, Ready s → Quiet s → 8 ≤ s.cfg.userSize → memoryOk s = true →
    (∃ t new, exec .calBrute s = .next t ∧ t.seq = .brute 0 0 ∧ t.ret = s.ret ∧ Added s t new
      ∧ (sentOf new).length = 1 + readCost s.cfg ∧ pulsesOf new = 1 ∧ step t = .fault (.held .sampleReady))
    ∧ ∃ t new, exec .calGrad s = .next t ∧ t.seq = .grad .start ∧ t.ret = s.ret ∧ Added s t new
      ∧ (sentOf new).length = 1 + readCost s.cfg ∧ pulsesOf new = 1 ∧ step t = .fault (.held .sampleReady)

-- ================================================================ wire-level transactions

/-- All environments: a transaction on the wire is exactly one exchange with its own header and payload, and changes no
register of the block, not even `ret` or the dwell count (30_encoding.md R91, R93; 20_memory.md R64; that no register
changes is the model's choice, log 13). Instructions: TXN.RD.WV, TXN.RD.RX, TXN.RD.TX, TXN.RD.US, TXN.WR.WV, TXN.WR.RX,
TXN.WR.TX, TXN.WR.US. -/
def Obligations.TransactionIsOneExchange : Prop :=
  ∀ (spc : Space) (addr : Addr) (v : Byte) (s : State), Ready s →
    (∃ t inn, exec (txnReadInstr spc addr) s = .next t ∧ t = { s with world := t.world }
      ∧ Added s t [.xfer (rdQ spc addr) inn])
    ∧ ∃ t inn, exec (txnWriteInstr spc addr v) s = .next t ∧ t = { s with world := t.world }
      ∧ Added s t [.xfer (wrQ spc addr v) inn]

/-- Quiet peripheral with a bridge that finishes at once, default user map: a write transaction to a RAM inside its space
stores its byte alone, and so does one to a user byte that stores what is written; `CTRL` drops the trigger bits, `STATUS`
and `BR_RDATA` ignore writes, `BR_CTRL` ignores a byte without `BR_START` and with it moves one byte over the bridge; outside
its space a write changes nothing, and no read changes a byte (20_memory.md R67, R69). Under `READ_RETURN` = `same` a read
inside its space is answered with the byte of its location; under `previous` it is answered with the byte of the location
the preceding transaction addressed, and every transaction, read or write, then moves the latch to its own location (R65).
No flag changes. Instructions: TXN.RD.*, TXN.WR.*. -/
def Obligations.QuietTransactionEffects : Prop :=
  ∀ (spc : Space) (addr : Addr) (v : Byte) (s : State), Bench s → memoryOk s = true →
    let sa := (s.world.peek .us 2).toNat % 128
    (∃ t inn, exec (txnReadInstr spc addr) s = .next t
      ∧ Added s t [.xfer (rdQ spc addr) inn] ∧ SameBytes s t ∧ t.world.ev = s.world.ev
      ∧ (s.cfg.readReturn = .same → s.cfg.addrOk spc addr = true → inn.b3 = s.world.peek spc addr.toNat)
      ∧ (s.cfg.readReturn = .previous → t.world.latch = some ⟨spc, addr⟩
        ∧ ∀ l, s.world.latch = some l → s.cfg.addrOk l.spc l.addr = true →
          inn.b3 = s.world.peek l.spc l.addr.toNat))
    ∧ ∃ t, exec (txnWriteInstr spc addr v) s = .next t ∧ t.world.ev = s.world.ev
      ∧ (s.cfg.readReturn = .previous → t.world.latch = some ⟨spc, addr⟩)
      ∧ if s.cfg.addrOk spc addr = false then SameBytes s t
        else if spc = .us ∧ addr = 0 then
          t.world.peek .us 0 = v &&& 0xF0 ∧ SameBytesBut s t [(.us, 0)] ∧ SameSdrBut s t []
        else if spc = .us ∧ (addr = 1 ∨ addr = 4 ∨ (addr = 5 ∧ v.getLsbD 0 = false)) then SameBytes s t
        else if spc = .us ∧ addr = 5 then
          t.world.peek .us 5 = 0x02
          ∧ if (s.world.peek .us 2).getLsbD 7 = true then
              t.world.peekSdr sa = s.world.peek .us 3 ∧ SameBytesBut s t [(.us, 5)] ∧ SameSdrBut s t [sa]
            else
              t.world.peek .us 4 = s.world.peekSdr sa ∧ SameBytesBut s t [(.us, 4), (.us, 5)] ∧ SameSdrBut s t []
        else t.world.peek spc addr.toNat = v ∧ SameBytesBut s t [(spc, addr.toNat)] ∧ SameSdrBut s t []

-- ================================================================ the whole machine

/-- Every operation the idle block takes has its step, whatever the peripheral answers (20_memory.md R66), and only
`EVWAIT` and the two calibrations can leave it held (41_evt_events.md R153, 44_toc_calibrator.md R216); every command
that is not held has an outcome (60_exceptions.md R230). During an operation a second one is refused
(70_reset_and_hazards.md R271; the refusal is the model's choice, log 21). -/
def Obligations.OperationsComplete : Prop :=
  ∀ (i : Instr) (s : State),
    (Ready s → ∃ t, exec i s = .next t
      ∧ (t.seq = .idle ∨ (∃ e, i = .evwait e) ∨ calibrates i = true)
      ∧ (i.isTxn = false → t.seq = .idle → t.ret ≠ none))
    ∧ (s.seq ≠ .idle → exec i s = .refused .busy)

/-- Whatever the environment does, each register of 10_state.md R23, R25, R27, R28, R29 is written only by the operations
named for it there: the FAC registers, with the phase of `ALT` and the `GO` bit of `WR.US` told apart, the calibration
registers, each decoder output, each part of the result records, and the event flags, which the block only ever clears: no
operation and no step raises one, only the environment does (R27, 20_memory.md R74); the configuration is written by none
(R21). The client's program, which none writes either, is the model's field (log 11);
that a transaction on the wire leaves `ret` and the sequencing state is the model's choice (log 13). -/
def Obligations.OnlyTheirOwnersWriteRegisters : Prop :=
  (∀ (i : Instr) (s t : State), exec i s = .next t →
    t.cfg = s.cfg ∧ t.client = s.client
    ∧ (writesHop i = false ∨ (i = .alt ∧ s.fac.altPhase ≠ 0) →
      t.fac.hopChannel = s.fac.hopChannel ∧ t.fac.nonce = s.fac.nonce)
    ∧ (i ≠ .alt → t.fac.altPhase = s.fac.altPhase ∧ t.fac.nonce = s.fac.nonce)
    ∧ (retunes i = false → t.fac.tunedChannel = s.fac.tunedChannel)
    ∧ (retunes i = false → (∀ v, i = .wrUs 0 v → goBit s.cfg.userMap v = false) →
      t.fac.runsOnChannel = s.fac.runsOnChannel)
    ∧ (calibrates i = false → t.toc = s.toc)
    ∧ (i = .calBrute → t.toc.calDir = none ∧ t.toc.calIter = none)
    ∧ (i ≠ .decRn16 → t.dec.rn16 = s.dec.rn16)
    ∧ (writesHandle i = false → t.dec.handle = s.dec.handle ∧ t.dec.crc = s.dec.crc)
    ∧ (writesHdr i = false → t.dec.hdr = s.dec.hdr)
    ∧ (writesData i = false → t.dec.len = s.dec.len ∧ t.dec.data = s.dec.data)
    ∧ (∀ ch, writesPass i ch = false → (t.res ch).pass = (s.res ch).pass)
    ∧ (∀ ch, writesPart i ch .epc = false →
      (t.res ch).pc = (s.res ch).pc ∧ (t.res ch).epc = (s.res ch).epc ∧ (t.res ch).crc = (s.res ch).crc)
    ∧ (∀ ch, writesPart i ch .mag = false →
      (t.res ch).magMain = (s.res ch).magMain ∧ (t.res ch).magAlt = (s.res ch).magAlt)
    ∧ (∀ ch, writesPart i ch .lna = false → (t.res ch).lna = (s.res ch).lna)
    ∧ (∀ e, s.world.ev.get e = true → t.world.ev.get e = false → clearsFlag i e = true)
    ∧ FlagsOnlyFromOutside s t
    ∧ (i.isTxn = true → t.ret = s.ret ∧ t.seq = s.seq))
  ∧ ∀ s t : State, step s = .next t → FlagsOnlyFromOutside s t

/-- A rejected command changes nothing but `ret`: no transaction, no register, no flag (60_exceptions.md R232), for every
command, every reject code, and every word that spells no command. -/
def Obligations.RejectChangesNothing : Prop :=
  (∀ (i : Instr) (s t : State) (c : RejectCode), i.isTxn = false → exec i s = .next t → t.seq = .idle →
    t.ret = some (.reject c) → t = { s with ret := some (.reject c) })
  ∧ ∀ (s : State) (w : Word) (rest : List Input) (e : DecodeError), Ready s → s.client = .command w :: rest →
    decodeCommand w = .error e →
    step s = .next { s with client := rest, ret := some (.reject (rejectOfDecode e)) }

/-- Whatever the environment does, every transaction a step of the block emits has one of the eight legal headers, an
address inside its space, and payload 0x00 on a read (20_memory.md R63, R64; 30_encoding.md R94, R95), for every
well-formed configuration and every client; only bytes a test bench itself puts on the wire are excepted. A step
leaves no operation between two micro-steps and starts from none there (log 8). -/
def Obligations.BlockEmitsOnlyLegalTransactions : Prop :=
  ∀ s t : State, s.cfg.wf = true → s.seq.midway = false → step s = .next t → t.seq.midway = false ∧
    ((s.seq ≠ .idle ∨ ∀ w rest, s.client ≠ .wire w :: rest) →
    ∃ new, Added s t new ∧ ∀ q ∈ sentOf new, legalXfer s.cfg q = true)

/-- Every step, and every single micro-step, keeps the memories in canonical form with every listed address inside its
space, from any sequencing state and whatever the client and the environment do (20_memory.md R63; the canonical form is
the model's, log 5), for a user space of at least 8 bytes. -/
def Obligations.StepKeepsMemoryCanonical : Prop :=
  ∀ s t : State, 8 ≤ s.cfg.userSize → memoryOk s = true → step s = .next t ∨ tick s = .next t → memoryOk t = true

/-- Every step keeps the registers in their ranges, whatever the client and the environment do: `runs_on_channel` never
above `DWELL_MAX_RUNS`, `nonce` `NONCE_BITS` wide (60_exceptions.md R247), the calibration registers and the sampler in
theirs (10_state.md R23), the decoder outputs in their shape (R28, R29); and no step changes the configuration (R21). Of `tocOk`, that no
step leaves `adc_trigger` asserted is the model's choice (log 16), that none leaves an operation between two micro-steps is
log 8, and that a held `CAL.GRAD` has its registers set is 10_state.md R24 with 44_toc_calibrator.md R214 (log 27). -/
def Obligations.StepKeepsRegisterRanges : Prop :=
  ∀ s t : State, facOk s = true → tocOk s = true → decOk s = true → step s = .next t →
    facOk t = true ∧ tocOk t = true ∧ decOk t = true ∧ t.cfg = s.cfg

/-- The block after reset (10_state.md R44, 70_reset_and_hazards.md R260): every block register at the value the table
gives. -/
def Obligations.ResetBlockState : Prop :=
  State.reset.seq = .idle
  ∧ State.reset.fac = ⟨0, none, 0, 0, 0⟩
  ∧ State.reset.toc = ⟨none, none, none, none, none⟩
  ∧ State.reset.resI = ⟨false, none, List.replicate 12 none, none, none, none, none⟩
  ∧ State.reset.resQ = ⟨false, none, List.replicate 12 none, none, none, none, none⟩
  ∧ State.reset.dec = ⟨none, none, none, none, 0, List.replicate 12 none⟩
  ∧ State.reset.ret = none
  ∧ State.reset.world.ev = ⟨false, false, false, false⟩
  ∧ State.reset.world.adcTrigger = false

/-- The invariants that every step keeps hold after reset. Where 10_state.md R44 leaves the values after reset open they
rest on the model's choices: nothing listed in a memory (log 5), `adc_value` 0 and `adc_trigger` not asserted (log 6), the
configuration (log 28). -/
def Obligations.ResetMeetsInvariants : Prop :=
  memoryOk State.reset = true ∧ facOk State.reset = true ∧ tocOk State.reset = true ∧ decOk State.reset = true
end

