-- ==== Sys2Proof/Laws/Config.lean ====
section
/-! SUPPORT. The default configuration meets every constraint of 00_scope.md R6, whatever the values the spec leaves
open are. -/

namespace Sys2Proof

/-- The codes left free are 25 codes of 3 bytes. -/
theorem Config.openFreqCode_fits : Config.openFreqCode.all (· < 2 ^ (8 * 3)) = true := by
  simp only [Config.openFreqCode, List.all_map, List.all_eq_true, Function.comp_apply, decide_eq_true_eq]
  exact fun c _ => (Config.freqCode c).isLt

/-- The mode codes left free are distinct. -/
theorem Config.openModeValues_distinct :
    (Config.openModeValues.inventory :: Config.openModeValues.pllCheck :: Config.openModeValues.others).Nodup := by
  have h : Config.modeInventory ≠ Config.modePllCheck := by
    unfold Config.modePllCheck
    generalize Config.modeInventory = x
    generalize Config.modePllCheckGap = g
    revert x g
    decide
  simp only [Config.openModeValues, List.nodup_cons, List.mem_cons, not_or, List.mem_dedup, List.mem_filter]
  refine ⟨⟨h, fun hm => ?_⟩, fun hm => ?_, List.nodup_dedup _⟩
  · simp at hm
  · simp at hm

/-- The default configuration is legal. -/
theorem Cfg.default_wf : Cfg.default.wf = true := by
  have h1 : Cfg.default.freqCode.all (· < 2 ^ (8 * Cfg.default.freqCodeBytes)) = true := Config.openFreqCode_fits
  have h2 : decide (Cfg.default.modeValues.inventory :: Cfg.default.modeValues.pllCheck
      :: Cfg.default.modeValues.others).Nodup = true := decide_eq_true Config.openModeValues_distinct
  have h3 : Cfg.default.freqCode.length = nChannels := by simp [Cfg.default, Config.openFreqCode]
  have h4 : Cfg.default.layoutFits = true := by decide +kernel
  have h5 : Cfg.default.userMap.wf = true := by decide +kernel
  unfold Cfg.wf
  rw [h1, h2, h3, h4, h5]
  decide +kernel

end Sys2Proof
end

