-- ==== Sys2Proof/Laws/Decode.lean ====
section
/-! SUPPORT. The laws of the encodings: what the decoders read from an encoded header, opcode byte or operand
field, and the inverse laws of the small operand codes. -/

namespace Sys2Proof

@[simp] theorem decodeHeaderByte_headerByte (spc : Space) (write : Bool) :
    decodeHeaderByte (headerByte spc write) = some (spc, write) := by
  cases spc <;> cases write <;> rfl

/-- A header byte is read only as what it encodes. -/
theorem headerByte_of_decode {t0 : Byte} {spc : Space} {write : Bool}
    (h : decodeHeaderByte t0 = some (spc, write)) : t0 = headerByte spc write := by
  have ht : ∀ n : Nat, t0.toNat = n → t0 = BitVec.ofNat 8 n := fun n hn => by rw [← hn]; simp
  unfold decodeHeaderByte at h
  split at h <;> first
    | (injection h with h; injection h with h1 h2; subst h1; subst h2; exact ht _ ‹_›)
    | cases h

theorem addr_bytes (a : Addr) :
    ((a.extractLsb' 8 8).setWidth 16 <<< 8) ||| (a.extractLsb' 0 8).setWidth 16 = a := by
  apply BitVec.eq_of_getElem_eq
  intro i hi
  interval_cases i <;> simp

/-- `DecodeHeader` is the inverse of `EncodeHeader` (30_encoding.md R93). -/
@[simp] theorem decodeHeader_encodeTxn (h : Header) (v : Byte) : decodeHeader (encodeTxn h v) = some h := by
  simp [decodeHeader, encodeTxn, addr_bytes]

@[simp] theorem encodeTxn_b3 (h : Header) (v : Byte) : (encodeTxn h v).b3 = v := rfl

@[simp] theorem quadOfWord_wordOfQuad (q : Quad) : quadOfWord (wordOfQuad q) = q := by
  obtain ⟨b0, b1, b2, b3⟩ := q
  simp only [quadOfWord, wordOfQuad, Quad.mk.injEq]
  refine ⟨?_, ?_, ?_, ?_⟩ <;>
  · apply BitVec.eq_of_getElem_eq
    intro i hi
    interval_cases i <;> simp

theorem bit_wordOfQuad (w : Word) (i : Nat) (hi : i < 32) : (wordOfQuad (quadOfWord w)).getLsbD i = w.getLsbD i := by
  simp only [wordOfQuad, quadOfWord, BitVec.getLsbD_or, BitVec.getLsbD_shiftLeft, BitVec.getLsbD_setWidth,
    BitVec.getLsbD_extractLsb']
  rcases (by omega : i < 8 ∨ (8 ≤ i ∧ i < 16) ∨ (16 ≤ i ∧ i < 24) ∨ 24 ≤ i) with h | ⟨h, h'⟩ | ⟨h, h'⟩ | h
  · simp [h, show i < 24 by omega, show i < 16 by omega, hi]
  · obtain ⟨k, rfl⟩ := Nat.exists_eq_add_of_le h
    simp [show k < 8 by omega, show 8 + k < 24 by omega, show k < 32 by omega, h', hi]
  · obtain ⟨k, rfl⟩ := Nat.exists_eq_add_of_le h
    simp [show k < 8 by omega, show k < 32 by omega, h', hi,
      show ¬ 16 + k < 8 by omega, show ¬ 16 + k - 8 < 8 by omega]
  · obtain ⟨k, rfl⟩ := Nat.exists_eq_add_of_le h
    simp [show k < 8 by omega, show k < 32 by omega, hi,
      show ¬ 24 + k < 8 by omega, show ¬ 24 + k - 8 < 8 by omega, show ¬ 24 + k - 16 < 8 by omega]

@[simp] theorem wordOfQuad_quadOfWord (w : Word) : wordOfQuad (quadOfWord w) = w :=
  BitVec.eq_of_getLsbD_eq fun i hi => bit_wordOfQuad w i hi

@[simp] theorem opcode_commandWord (op : Byte) (x : BitVec 24) : (commandWord op x).extractLsb' 24 8 = op := by
  apply BitVec.eq_of_getElem_eq
  intro i hi
  interval_cases i <;> simp [commandWord]

@[simp] theorem fieldAddr_formatA (op : Byte) (a : Addr) (v : Byte) :
    fieldAddr (commandWord op (formatA a v)) = a := by
  apply BitVec.eq_of_getElem_eq
  intro i hi
  interval_cases i <;> simp [fieldAddr, commandWord, formatA]

@[simp] theorem fieldVal_formatA (op : Byte) (a : Addr) (v : Byte) :
    fieldVal (commandWord op (formatA a v)) = v := by
  apply BitVec.eq_of_getElem_eq
  intro i hi
  interval_cases i <;> simp [fieldVal, commandWord, formatA]

@[simp] theorem fieldSa_formatB (op sa v : Byte) : fieldSa (commandWord op (formatB sa v)) = sa := by
  apply BitVec.eq_of_getElem_eq
  intro i hi
  interval_cases i <;> simp [fieldSa, commandWord, formatB]

@[simp] theorem fieldBval_formatB (op sa v : Byte) : fieldBval (commandWord op (formatB sa v)) = v := by
  apply BitVec.eq_of_getElem_eq
  intro i hi
  interval_cases i <;> simp [fieldBval, commandWord, formatB]

@[simp] theorem eventOfIndex_index (e : Event) : eventOfIndex e.index = e := by
  cases e <;> rfl

theorem index_eventOfIndex (i : BitVec 2) : (eventOfIndex i).index = i := by
  revert i; decide

theorem or_masked (x y m : BitVec 32) : (x ||| y) &&& m = (x &&& m) ||| (y &&& m) := by
  ext i; simp [Bool.and_or_distrib_right]

theorem lowByte_masked (b : Byte) (k : Nat) (hk : k ≤ 16) : (b.setWidth 32 <<< k) &&& 0xFF000000#32 = 0 := by
  apply BitVec.eq_of_getLsbD_eq
  intro i hi
  simp only [BitVec.getLsbD_and, BitVec.getLsbD_shiftLeft, BitVec.getLsbD_setWidth]
  by_cases h : i < 24
  · have : (0xFF000000#32).getLsbD i = false := by interval_cases i <;> rfl
    simp [this]
  · simp [BitVec.getLsbD_of_ge b (i - k) (by omega)]

/-- The top byte of a transaction's word is `T0` (30_encoding.md R91). -/
theorem wordOfQuad_masked (q : Quad) :
    wordOfQuad q &&& 0xFF000000#32 = (q.b0.setWidth 32 <<< 24) &&& 0xFF000000#32 := by
  have h0 := lowByte_masked q.b3 0 (by omega)
  rw [BitVec.shiftLeft_zero] at h0
  simp only [wordOfQuad, or_masked, lowByte_masked _ 16 (by omega), lowByte_masked _ 8 (by omega), h0]
  simp

end Sys2Proof
end

