-- ==== Sys2Proof/Laws/State.lean ====
section
/-! SUPPORT. The small lemmas of the state records: one per field per update, true by rfl, so that no later proof
unfolds a record update. -/

namespace Sys2Proof.Machine

-- ---------------------------------------------------------------- State.finish

@[simp] theorem State.finish_cfg (s : State) (v : Value) : (s.finish v).cfg = s.cfg := rfl
@[simp] theorem State.finish_client (s : State) (v : Value) : (s.finish v).client = s.client := rfl
@[simp] theorem State.finish_seq (s : State) (v : Value) : (s.finish v).seq = .idle := rfl
@[simp] theorem State.finish_fac (s : State) (v : Value) : (s.finish v).fac = s.fac := rfl
@[simp] theorem State.finish_toc (s : State) (v : Value) : (s.finish v).toc = s.toc := rfl
@[simp] theorem State.finish_resI (s : State) (v : Value) : (s.finish v).resI = s.resI := rfl
@[simp] theorem State.finish_resQ (s : State) (v : Value) : (s.finish v).resQ = s.resQ := rfl
@[simp] theorem State.finish_dec (s : State) (v : Value) : (s.finish v).dec = s.dec := rfl
@[simp] theorem State.finish_ret (s : State) (v : Value) : (s.finish v).ret = some (.ok v) := rfl
@[simp] theorem State.finish_world (s : State) (v : Value) : (s.finish v).world = s.world := rfl

-- ---------------------------------------------------------------- State.raise

@[simp] theorem State.raise_cfg (s : State) (f : FaultCode) : (s.raise f).cfg = s.cfg := rfl
@[simp] theorem State.raise_client (s : State) (f : FaultCode) : (s.raise f).client = s.client := rfl
@[simp] theorem State.raise_seq (s : State) (f : FaultCode) : (s.raise f).seq = .idle := rfl
@[simp] theorem State.raise_fac (s : State) (f : FaultCode) : (s.raise f).fac = s.fac := rfl
@[simp] theorem State.raise_toc (s : State) (f : FaultCode) : (s.raise f).toc = s.toc := rfl
@[simp] theorem State.raise_resI (s : State) (f : FaultCode) : (s.raise f).resI = s.resI := rfl
@[simp] theorem State.raise_resQ (s : State) (f : FaultCode) : (s.raise f).resQ = s.resQ := rfl
@[simp] theorem State.raise_dec (s : State) (f : FaultCode) : (s.raise f).dec = s.dec := rfl
@[simp] theorem State.raise_ret (s : State) (f : FaultCode) : (s.raise f).ret = some (.fault f) := rfl
@[simp] theorem State.raise_world (s : State) (f : FaultCode) : (s.raise f).world = s.world := rfl

-- ---------------------------------------------------------------- State.reject

@[simp] theorem State.reject_cfg (s : State) (r : RejectCode) : (s.reject r).cfg = s.cfg := rfl
@[simp] theorem State.reject_client (s : State) (r : RejectCode) : (s.reject r).client = s.client := rfl
@[simp] theorem State.reject_seq (s : State) (r : RejectCode) : (s.reject r).seq = s.seq := rfl
@[simp] theorem State.reject_fac (s : State) (r : RejectCode) : (s.reject r).fac = s.fac := rfl
@[simp] theorem State.reject_toc (s : State) (r : RejectCode) : (s.reject r).toc = s.toc := rfl
@[simp] theorem State.reject_resI (s : State) (r : RejectCode) : (s.reject r).resI = s.resI := rfl
@[simp] theorem State.reject_resQ (s : State) (r : RejectCode) : (s.reject r).resQ = s.resQ := rfl
@[simp] theorem State.reject_dec (s : State) (r : RejectCode) : (s.reject r).dec = s.dec := rfl
@[simp] theorem State.reject_ret (s : State) (r : RejectCode) : (s.reject r).ret = some (.reject r) := rfl
@[simp] theorem State.reject_world (s : State) (r : RejectCode) : (s.reject r).world = s.world := rfl

-- ---------------------------------------------------------------- State.advanceHop

@[simp] theorem State.advanceHop_cfg (s : State) : (s.advanceHop).cfg = s.cfg := rfl
@[simp] theorem State.advanceHop_client (s : State) : (s.advanceHop).client = s.client := rfl
@[simp] theorem State.advanceHop_seq (s : State) : (s.advanceHop).seq = s.seq := rfl
@[simp] theorem State.advanceHop_fac (s : State) : (s.advanceHop).fac = { s.fac with hopChannel := nextHop s.cfg s.fac.hopChannel } := rfl
@[simp] theorem State.advanceHop_toc (s : State) : (s.advanceHop).toc = s.toc := rfl
@[simp] theorem State.advanceHop_resI (s : State) : (s.advanceHop).resI = s.resI := rfl
@[simp] theorem State.advanceHop_resQ (s : State) : (s.advanceHop).resQ = s.resQ := rfl
@[simp] theorem State.advanceHop_dec (s : State) : (s.advanceHop).dec = s.dec := rfl
@[simp] theorem State.advanceHop_ret (s : State) : (s.advanceHop).ret = s.ret := rfl
@[simp] theorem State.advanceHop_world (s : State) : (s.advanceHop).world = s.world := rfl

-- ---------------------------------------------------------------- State.withFetchWord

@[simp] theorem State.withFetchWord_cfg (s : State) (nbits w : Nat) : (s.withFetchWord nbits w).cfg = s.cfg := rfl
@[simp] theorem State.withFetchWord_client (s : State) (nbits w : Nat) : (s.withFetchWord nbits w).client = inputOfWord (BitVec.ofNat 32 (w % 2 ^ nbits)) :: s.client := rfl
@[simp] theorem State.withFetchWord_seq (s : State) (nbits w : Nat) : (s.withFetchWord nbits w).seq = .idle := rfl
@[simp] theorem State.withFetchWord_fac (s : State) (nbits w : Nat) : (s.withFetchWord nbits w).fac = s.fac := rfl
@[simp] theorem State.withFetchWord_toc (s : State) (nbits w : Nat) : (s.withFetchWord nbits w).toc = s.toc := rfl
@[simp] theorem State.withFetchWord_resI (s : State) (nbits w : Nat) : (s.withFetchWord nbits w).resI = s.resI := rfl
@[simp] theorem State.withFetchWord_resQ (s : State) (nbits w : Nat) : (s.withFetchWord nbits w).resQ = s.resQ := rfl
@[simp] theorem State.withFetchWord_dec (s : State) (nbits w : Nat) : (s.withFetchWord nbits w).dec = s.dec := rfl
@[simp] theorem State.withFetchWord_ret (s : State) (nbits w : Nat) : (s.withFetchWord nbits w).ret = s.ret := rfl
@[simp] theorem State.withFetchWord_world (s : State) (nbits w : Nat) : (s.withFetchWord nbits w).world = s.world := rfl

-- ---------------------------------------------------------------- idleTurn

@[simp] theorem idleTurn_cfg (s : State) : (idleTurn s).cfg = s.cfg := rfl
@[simp] theorem idleTurn_client (s : State) : (idleTurn s).client = s.client := rfl
@[simp] theorem idleTurn_seq (s : State) : (idleTurn s).seq = s.seq := rfl
@[simp] theorem idleTurn_fac (s : State) : (idleTurn s).fac = s.fac := rfl
@[simp] theorem idleTurn_toc (s : State) : (idleTurn s).toc = s.toc := rfl
@[simp] theorem idleTurn_resI (s : State) : (idleTurn s).resI = s.resI := rfl
@[simp] theorem idleTurn_resQ (s : State) : (idleTurn s).resQ = s.resQ := rfl
@[simp] theorem idleTurn_dec (s : State) : (idleTurn s).dec = s.dec := rfl
@[simp] theorem idleTurn_ret (s : State) : (idleTurn s).ret = s.ret := rfl
@[simp] theorem idleTurn_world (s : State) : (idleTurn s).world = s.world.envTurn s.cfg := rfl

-- ---------------------------------------------------------------- opXfer

@[simp] theorem opXfer_cfg (q : Quad) (s : State) : (opXfer q s).cfg = s.cfg := rfl
@[simp] theorem opXfer_client (q : Quad) (s : State) : (opXfer q s).client = s.client := rfl
@[simp] theorem opXfer_seq (q : Quad) (s : State) : (opXfer q s).seq = s.seq := rfl
@[simp] theorem opXfer_fac (q : Quad) (s : State) : (opXfer q s).fac = s.fac := rfl
@[simp] theorem opXfer_toc (q : Quad) (s : State) : (opXfer q s).toc = s.toc := rfl
@[simp] theorem opXfer_resI (q : Quad) (s : State) : (opXfer q s).resI = s.resI := rfl
@[simp] theorem opXfer_resQ (q : Quad) (s : State) : (opXfer q s).resQ = s.resQ := rfl
@[simp] theorem opXfer_dec (q : Quad) (s : State) : (opXfer q s).dec = s.dec := rfl
@[simp] theorem opXfer_ret (q : Quad) (s : State) : (opXfer q s).ret = s.ret := rfl
@[simp] theorem opXfer_world (q : Quad) (s : State) : (opXfer q s).world = (xfer s.cfg q s.world).2 := rfl

-- ---------------------------------------------------------------- State.conclude

@[simp] theorem State.conclude_none (s : State) (v : Value) : s.conclude none v = s.finish v := rfl
@[simp] theorem State.conclude_some (s : State) (f : FaultCode) (v : Value) : s.conclude (some f) v = s.raise f := rfl
@[simp] theorem State.conclude_cfg (s : State) (f : Option FaultCode) (v : Value) : (s.conclude f v).cfg = s.cfg := by
  cases f <;> rfl
@[simp] theorem State.conclude_client (s : State) (f : Option FaultCode) (v : Value) : (s.conclude f v).client = s.client := by
  cases f <;> rfl
@[simp] theorem State.conclude_fac (s : State) (f : Option FaultCode) (v : Value) : (s.conclude f v).fac = s.fac := by
  cases f <;> rfl
@[simp] theorem State.conclude_toc (s : State) (f : Option FaultCode) (v : Value) : (s.conclude f v).toc = s.toc := by
  cases f <;> rfl
@[simp] theorem State.conclude_resI (s : State) (f : Option FaultCode) (v : Value) : (s.conclude f v).resI = s.resI := by
  cases f <;> rfl
@[simp] theorem State.conclude_resQ (s : State) (f : Option FaultCode) (v : Value) : (s.conclude f v).resQ = s.resQ := by
  cases f <;> rfl
@[simp] theorem State.conclude_dec (s : State) (f : Option FaultCode) (v : Value) : (s.conclude f v).dec = s.dec := by
  cases f <;> rfl
@[simp] theorem State.conclude_world (s : State) (f : Option FaultCode) (v : Value) : (s.conclude f v).world = s.world := by
  cases f <;> rfl
@[simp] theorem State.conclude_seq (s : State) (f : Option FaultCode) (v : Value) : (s.conclude f v).seq = .idle := by
  cases f <;> rfl

-- ---------------------------------------------------------------- State.putRes

@[simp] theorem State.putRes_cfg (s : State) (ch : Chan) (r : TagRead) : (s.putRes ch r).cfg = s.cfg := by
  cases ch <;> rfl
@[simp] theorem State.putRes_client (s : State) (ch : Chan) (r : TagRead) : (s.putRes ch r).client = s.client := by
  cases ch <;> rfl
@[simp] theorem State.putRes_seq (s : State) (ch : Chan) (r : TagRead) : (s.putRes ch r).seq = s.seq := by
  cases ch <;> rfl
@[simp] theorem State.putRes_fac (s : State) (ch : Chan) (r : TagRead) : (s.putRes ch r).fac = s.fac := by
  cases ch <;> rfl
@[simp] theorem State.putRes_toc (s : State) (ch : Chan) (r : TagRead) : (s.putRes ch r).toc = s.toc := by
  cases ch <;> rfl
@[simp] theorem State.putRes_dec (s : State) (ch : Chan) (r : TagRead) : (s.putRes ch r).dec = s.dec := by
  cases ch <;> rfl
@[simp] theorem State.putRes_ret (s : State) (ch : Chan) (r : TagRead) : (s.putRes ch r).ret = s.ret := by
  cases ch <;> rfl
@[simp] theorem State.putRes_world (s : State) (ch : Chan) (r : TagRead) : (s.putRes ch r).world = s.world := by
  cases ch <;> rfl
@[simp] theorem State.res_putRes (s : State) (ch : Chan) (r : TagRead) : (s.putRes ch r).res ch = r := by
  cases ch <;> rfl
theorem State.res_putRes_other (s : State) {ch ch' : Chan} (r : TagRead) (h : ch' ≠ ch) :
    (s.putRes ch r).res ch' = s.res ch' := by
  cases ch <;> cases ch' <;> first | rfl | exact absurd rfl h

-- ---------------------------------------------------------------- State.at

@[simp] theorem State.at_seq (s : State) (code : List Micro) (x : Locals) : (s.at code x).seq = .run code x := rfl
@[simp] theorem State.at_cfg (s : State) (code : List Micro) (x : Locals) : (s.at code x).cfg = s.cfg := rfl
@[simp] theorem State.at_client (s : State) (code : List Micro) (x : Locals) : (s.at code x).client = s.client := rfl
@[simp] theorem State.at_fac (s : State) (code : List Micro) (x : Locals) : (s.at code x).fac = s.fac := rfl
@[simp] theorem State.at_toc (s : State) (code : List Micro) (x : Locals) : (s.at code x).toc = s.toc := rfl
@[simp] theorem State.at_resI (s : State) (code : List Micro) (x : Locals) : (s.at code x).resI = s.resI := rfl
@[simp] theorem State.at_resQ (s : State) (code : List Micro) (x : Locals) : (s.at code x).resQ = s.resQ := rfl
@[simp] theorem State.at_dec (s : State) (code : List Micro) (x : Locals) : (s.at code x).dec = s.dec := rfl
@[simp] theorem State.at_ret (s : State) (code : List Micro) (x : Locals) : (s.at code x).ret = s.ret := rfl
@[simp] theorem State.at_world (s : State) (code : List Micro) (x : Locals) : (s.at code x).world = s.world := rfl

-- ---------------------------------------------------------------- World.poke

@[simp] theorem World.poke_ev (w : World) (spc : Space) (a : Nat) (v : Byte) : (w.poke spc a v).ev = w.ev := rfl
@[simp] theorem World.poke_spaces (w : World) (spc : Space) (a : Nat) (v : Byte) : (w.poke spc a v).spaces = w.spaces.put spc ((w.spaces.get spc).write a v) := rfl
@[simp] theorem World.poke_periph (w : World) (spc : Space) (a : Nat) (v : Byte) : (w.poke spc a v).periph = w.periph := rfl
@[simp] theorem World.poke_latch (w : World) (spc : Space) (a : Nat) (v : Byte) : (w.poke spc a v).latch = w.latch := rfl
@[simp] theorem World.poke_adcTrigger (w : World) (spc : Space) (a : Nat) (v : Byte) : (w.poke spc a v).adcTrigger = w.adcTrigger := rfl
@[simp] theorem World.poke_adcValue (w : World) (spc : Space) (a : Nat) (v : Byte) : (w.poke spc a v).adcValue = w.adcValue := rfl
@[simp] theorem World.poke_script (w : World) (spc : Space) (a : Nat) (v : Byte) : (w.poke spc a v).script = w.script := rfl
@[simp] theorem World.poke_trace (w : World) (spc : Space) (a : Nat) (v : Byte) : (w.poke spc a v).trace = w.trace := rfl
@[simp] theorem World.poke_draws (w : World) (spc : Space) (a : Nat) (v : Byte) : (w.poke spc a v).draws = w.draws := rfl

-- ---------------------------------------------------------------- World.pokeSdr

@[simp] theorem World.pokeSdr_ev (w : World) (a : Nat) (v : Byte) : (w.pokeSdr a v).ev = w.ev := rfl
@[simp] theorem World.pokeSdr_spaces (w : World) (a : Nat) (v : Byte) : (w.pokeSdr a v).spaces = { w.spaces with sdr := w.spaces.sdr.write a v } := rfl
@[simp] theorem World.pokeSdr_periph (w : World) (a : Nat) (v : Byte) : (w.pokeSdr a v).periph = w.periph := rfl
@[simp] theorem World.pokeSdr_latch (w : World) (a : Nat) (v : Byte) : (w.pokeSdr a v).latch = w.latch := rfl
@[simp] theorem World.pokeSdr_adcTrigger (w : World) (a : Nat) (v : Byte) : (w.pokeSdr a v).adcTrigger = w.adcTrigger := rfl
@[simp] theorem World.pokeSdr_adcValue (w : World) (a : Nat) (v : Byte) : (w.pokeSdr a v).adcValue = w.adcValue := rfl
@[simp] theorem World.pokeSdr_script (w : World) (a : Nat) (v : Byte) : (w.pokeSdr a v).script = w.script := rfl
@[simp] theorem World.pokeSdr_trace (w : World) (a : Nat) (v : Byte) : (w.pokeSdr a v).trace = w.trace := rfl
@[simp] theorem World.pokeSdr_draws (w : World) (a : Nat) (v : Byte) : (w.pokeSdr a v).draws = w.draws := rfl

-- ---------------------------------------------------------------- Spaces and EventFlags

@[simp] theorem Spaces.get_put_same (m : Spaces) (spc : Space) (x : Memory) : (m.put spc x).get spc = x := by
  cases spc <;> rfl
theorem Spaces.get_put_other (m : Spaces) {spc spc' : Space} (x : Memory) (h : spc' ≠ spc) :
    (m.put spc x).get spc' = m.get spc' := by
  cases spc <;> cases spc' <;> first | rfl | exact absurd rfl h
@[simp] theorem Spaces.put_sdr (m : Spaces) (spc : Space) (x : Memory) : (m.put spc x).sdr = m.sdr := by
  cases spc <;> rfl
@[simp] theorem Spaces.put_get_self (m : Spaces) (spc : Space) : m.put spc (m.get spc) = m := by
  cases spc <;> rfl
@[simp] theorem Spaces.get_withSdr (m : Spaces) (x : Memory) (spc : Space) :
    ({ m with sdr := x } : Spaces).get spc = m.get spc := by
  cases spc <;> rfl

@[simp] theorem EventFlags.get_put_same (f : EventFlags) (e : Event) (v : Bool) : (f.put e v).get e = v := by
  cases e <;> rfl
theorem EventFlags.get_put_other (f : EventFlags) {e e' : Event} (v : Bool) (h : e' ≠ e) :
    (f.put e v).get e' = f.get e' := by
  cases e <;> cases e' <;> first | rfl | exact absurd rfl h
@[simp] theorem EventFlags.put_put (f : EventFlags) (e : Event) (v v' : Bool) :
    (f.put e v).put e v' = f.put e v' := by
  cases e <;> rfl

-- ---------------------------------------------------------------- Fac and Toc

@[simp] theorem Fac.tuned_hopChannel (f : Fac) (p : Option Channel) (ch : Channel) :
    (f.tuned p ch).hopChannel = f.hopChannel := rfl
@[simp] theorem Fac.tuned_tunedChannel (f : Fac) (p : Option Channel) (ch : Channel) :
    (f.tuned p ch).tunedChannel = some ch := rfl
@[simp] theorem Fac.tuned_runsOnChannel (f : Fac) (p : Option Channel) (ch : Channel) :
    (f.tuned p ch).runsOnChannel = if p = some ch then f.runsOnChannel else 0 := rfl
@[simp] theorem Fac.tuned_altPhase (f : Fac) (p : Option Channel) (ch : Channel) :
    (f.tuned p ch).altPhase = f.altPhase := rfl
@[simp] theorem Fac.tuned_nonce (f : Fac) (p : Option Channel) (ch : Channel) :
    (f.tuned p ch).nonce = f.nonce := rfl
@[simp] theorem Fac.hopped_hopChannel (f : Fac) (c : Cfg) : (f.hopped c).hopChannel = f.hopChannel := rfl
@[simp] theorem Fac.hopped_tunedChannel (f : Fac) (c : Cfg) : (f.hopped c).tunedChannel = f.tunedChannel := rfl
@[simp] theorem Fac.hopped_runsOnChannel (f : Fac) (c : Cfg) : (f.hopped c).runsOnChannel = f.runsOnChannel := rfl
@[simp] theorem Fac.hopped_altPhase (f : Fac) (c : Cfg) : (f.hopped c).altPhase = 1 := rfl
@[simp] theorem Fac.hopped_nonce (f : Fac) (c : Cfg) : (f.hopped c).nonce = (f.nonce + 1) % 2 ^ c.nonceBits := rfl
@[simp] theorem Toc.startAt_calA (t : Toc) (p : Offset × Offset) : (t.startAt p).calA = some p.1 := rfl
@[simp] theorem Toc.startAt_calB (t : Toc) (p : Offset × Offset) : (t.startAt p).calB = some p.2 := rfl
@[simp] theorem Toc.startAt_calBest (t : Toc) (p : Offset × Offset) : (t.startAt p).calBest = t.calBest := rfl
@[simp] theorem Toc.startAt_calDir (t : Toc) (p : Offset × Offset) : (t.startAt p).calDir = t.calDir := rfl
@[simp] theorem Toc.startAt_calIter (t : Toc) (p : Offset × Offset) : (t.startAt p).calIter = t.calIter := rfl
@[simp] theorem Toc.moveTo_calA (t : Toc) (a b : Offset) (v : Nat) : (t.moveTo a b v).calA = some a := rfl
@[simp] theorem Toc.moveTo_calB (t : Toc) (a b : Offset) (v : Nat) : (t.moveTo a b v).calB = some b := rfl
@[simp] theorem Toc.moveTo_calBest (t : Toc) (a b : Offset) (v : Nat) : (t.moveTo a b v).calBest = some v := rfl
@[simp] theorem Toc.moveTo_calDir (t : Toc) (a b : Offset) (v : Nat) : (t.moveTo a b v).calDir = t.calDir := rfl
@[simp] theorem Toc.moveTo_calIter (t : Toc) (a b : Offset) (v : Nat) : (t.moveTo a b v).calIter = t.calIter := rfl

end Sys2Proof.Machine
end

