-- ==== Sys2Proof/Laws/Memory.lean ====
section
/-! SUPPORT. The laws of memory: what a write leaves to read, and that every memory operation keeps the
canonical form and the address bound. -/

namespace Sys2Proof.Machine

@[simp] theorem Memory.read_nil (a : Nat) : Memory.read [] a = unlistedByte := rfl

theorem Memory.read_cons (b : Nat) (x : Byte) (m : Memory) (a : Nat) :
    Memory.read ((b, x) :: m) a = if a = b then x else m.read a := rfl

/-- An address below every listed one is unlisted. -/
theorem Memory.read_below (m : Memory) (a : Nat) (h : m.all (fun c => a < c.1) = true) :
    m.read a = unlistedByte := by
  induction m with
  | nil => rfl
  | cons c m ih =>
    obtain ⟨b, x⟩ := c
    simp only [List.all_cons, Bool.and_eq_true, decide_eq_true_eq] at h
    rw [Memory.read_cons, if_neg (by omega), ih h.2]

theorem Memory.wf_cons {b : Nat} {x : Byte} {m : Memory} (h : Memory.wf ((b, x) :: m) = true) :
    x ≠ unlistedByte ∧ (m.all (fun c => b < c.1) = true) ∧ m.wf = true := by
  simp only [Memory.wf, Bool.and_eq_true, bne_iff_ne, ne_eq] at h
  exact ⟨h.1.1, h.1.2, h.2⟩

theorem Memory.wf_mk {b : Nat} {x : Byte} {m : Memory} (hx : x ≠ unlistedByte)
    (hm : m.all (fun c => b < c.1) = true) (h : m.wf = true) : Memory.wf ((b, x) :: m) = true := by
  simp only [Memory.wf, Bool.and_eq_true, bne_iff_ne, ne_eq]
  exact ⟨⟨hx, hm⟩, h⟩

theorem Memory.all_lt_trans {m : Memory} {a b : Nat} (hab : a < b)
    (h : m.all (fun c => b < c.1) = true) : m.all (fun c => a < c.1) = true := by
  simp only [List.all_eq_true, decide_eq_true_eq] at h ⊢
  exact fun c hc => lt_trans hab (h c hc)

/-- A predicate of addresses that holds of a memory and of the address written holds of the result. -/
theorem Memory.write_all (m : Memory) (a : Nat) (v : Byte) (p : Nat → Bool)
    (hm : m.all (fun c => p c.1) = true) (ha : p a = true) : (m.write a v).all (fun c => p c.1) = true := by
  induction m with
  | nil => simp only [Memory.write]; split <;> simp [ha]
  | cons c m ih =>
    obtain ⟨b, x⟩ := c
    simp only [List.all_cons, Bool.and_eq_true] at hm
    simp only [Memory.write]
    split
    · split <;> simp only [List.all_cons, Bool.and_eq_true] <;> simp [ha, hm]
    · split
      · split
        · exact hm.2
        · simp only [List.all_cons, Bool.and_eq_true]; exact ⟨ha, hm.2⟩
      · simp only [List.all_cons, Bool.and_eq_true]; exact ⟨hm.1, ih hm.2⟩

/-- A write keeps the canonical form. -/
theorem Memory.wf_write (m : Memory) (a : Nat) (v : Byte) (h : m.wf = true) : (m.write a v).wf = true := by
  induction m with
  | nil =>
    simp only [Memory.write]
    split
    · rfl
    · exact Memory.wf_mk ‹_› rfl rfl
  | cons c m ih =>
    obtain ⟨b, x⟩ := c
    obtain ⟨hx, hlt, hm⟩ := Memory.wf_cons h
    simp only [Memory.write]
    split
    · rename_i hab
      split
      · exact h
      · refine Memory.wf_mk ‹_› ?_ h
        simp only [List.all_cons, Bool.and_eq_true, decide_eq_true_eq]
        exact ⟨hab, Memory.all_lt_trans hab hlt⟩
    · split
      · rename_i hab; subst hab
        split
        · exact hm
        · exact Memory.wf_mk ‹_› hlt hm
      · refine Memory.wf_mk hx ?_ (ih hm)
        have := Memory.write_all m a v (fun c => decide (b < c)) (by simpa using hlt) (by simp; omega)
        simpa using this

/-- A write below a size keeps every listed address below it. -/
theorem Memory.below_write (m : Memory) (a : Nat) (v : Byte) (n : Nat) (h : m.below n = true) (ha : a < n) :
    (m.write a v).below n = true :=
  Memory.write_all m a v (fun c => decide (c < n)) h (by simpa using ha)

/-- In canonical form, a byte written is the byte read. -/
theorem Memory.read_write_same (m : Memory) (a : Nat) (v : Byte) (h : m.wf = true) :
    (m.write a v).read a = v := by
  induction m with
  | nil =>
    simp only [Memory.write]
    split
    · rename_i hv; simp [hv]
    · simp [Memory.read_cons]
  | cons c m ih =>
    obtain ⟨b, x⟩ := c
    obtain ⟨_, hlt, hm⟩ := Memory.wf_cons h
    simp only [Memory.write]
    split
    · rename_i hab
      split
      · rename_i hv
        rw [Memory.read_cons, if_neg (by omega), hv]
        exact Memory.read_below m a (Memory.all_lt_trans hab hlt)
      · simp [Memory.read_cons]
    · split
      · rename_i hab; subst hab
        split
        · rename_i hv; rw [hv]; exact Memory.read_below m a hlt
        · simp [Memory.read_cons]
      · rename_i hne
        rw [Memory.read_cons, if_neg hne, ih hm]

/-- A write leaves every other address alone. -/
theorem Memory.read_write_other (m : Memory) {a b : Nat} (v : Byte) (h : b ≠ a) :
    (m.write a v).read b = m.read b := by
  induction m with
  | nil =>
    simp only [Memory.write]
    split
    · rfl
    · simp [Memory.read_cons, h]
  | cons c m ih =>
    obtain ⟨d, x⟩ := c
    simp only [Memory.write]
    split
    · split
      · rfl
      · rw [Memory.read_cons, if_neg h]
    · split
      · rename_i had; subst had
        split
        · rw [Memory.read_cons, if_neg h]
        · rw [Memory.read_cons, if_neg h, Memory.read_cons, if_neg h]
      · rw [Memory.read_cons, Memory.read_cons, ih]

/-- Two memories in canonical form that read alike are equal. -/
theorem Memory.ext_read {m n : Memory} (hm : m.wf = true) (hn : n.wf = true)
    (h : ∀ a, m.read a = n.read a) : m = n := by
  induction m generalizing n with
  | nil =>
    cases n with
    | nil => rfl
    | cons c n =>
      obtain ⟨b, x⟩ := c
      have := h b
      rw [Memory.read_cons, if_pos rfl] at this
      exact absurd this.symm (Memory.wf_cons hn).1
  | cons c m ih =>
    obtain ⟨a, x⟩ := c
    obtain ⟨hx, hlt, hm'⟩ := Memory.wf_cons hm
    cases n with
    | nil =>
      have := h a
      rw [Memory.read_cons, if_pos rfl] at this
      exact absurd this hx
    | cons d n =>
      obtain ⟨b, y⟩ := d
      obtain ⟨hy, hlt', hn'⟩ := Memory.wf_cons hn
      have hab : a = b := by
        rcases lt_trichotomy a b with hc | hc | hc
        · have := h a
          rw [Memory.read_cons, if_pos rfl, Memory.read_cons, if_neg (by omega),
            Memory.read_below n a (Memory.all_lt_trans hc hlt')] at this
          exact absurd this hx
        · exact hc
        · have := h b
          rw [Memory.read_cons, if_neg (by omega), Memory.read_below m b (Memory.all_lt_trans hc hlt),
            Memory.read_cons, if_pos rfl] at this
          exact absurd this.symm hy
      subst hab
      have hxy : x = y := by
        have := h a
        rwa [Memory.read_cons, if_pos rfl, Memory.read_cons, if_pos rfl] at this
      subst hxy
      have : m = n := by
        refine ih hm' hn' fun b => ?_
        by_cases hb : b = a
        · subst hb; rw [Memory.read_below m b hlt, Memory.read_below n b hlt']
        · have := h b
          rwa [Memory.read_cons, if_neg hb, Memory.read_cons, if_neg hb] at this
      rw [this]

-- ---------------------------------------------------------------- through the world

theorem World.peek_poke_same (w : World) (spc : Space) (a : Nat) (v : Byte) (h : (w.spaces.get spc).wf = true) :
    (w.poke spc a v).peek spc a = v := by
  simp [World.peek, Memory.read_write_same _ _ _ h]

theorem World.peek_poke_other (w : World) {spc spc' : Space} {a b : Nat} (v : Byte) (h : (spc', b) ≠ (spc, a)) :
    (w.poke spc a v).peek spc' b = w.peek spc' b := by
  by_cases hs : spc' = spc
  · subst hs
    have hb : b ≠ a := fun hc => h (by rw [hc])
    simp [World.peek, Memory.read_write_other _ v hb]
  · simp [World.peek, Spaces.get_put_other _ _ hs]

@[simp] theorem World.peekSdr_poke (w : World) (spc : Space) (a : Nat) (v : Byte) (b : Nat) :
    (w.poke spc a v).peekSdr b = w.peekSdr b := by
  simp [World.peekSdr]

@[simp] theorem World.peek_pokeSdr (w : World) (a : Nat) (v : Byte) (spc : Space) (b : Nat) :
    (w.pokeSdr a v).peek spc b = w.peek spc b := by
  simp [World.peek]

theorem World.peekSdr_pokeSdr_same (w : World) (a : Nat) (v : Byte) (h : w.spaces.sdr.wf = true) :
    (w.pokeSdr a v).peekSdr a = v := by
  simp [World.peekSdr, Memory.read_write_same _ _ _ h]

theorem World.peekSdr_pokeSdr_other (w : World) {a b : Nat} (v : Byte) (h : b ≠ a) :
    (w.pokeSdr a v).peekSdr b = w.peekSdr b := by
  simp [World.peekSdr, Memory.read_write_other _ v h]

end Sys2Proof.Machine
end

