-- ==== Sys2Proof/Laws/Micro.lean ====
section
/-! SUPPORT. What running a list of micro-steps comes to: it forgets the sequencing state it starts in, a read is its
read operation, and the head of a loop comes to one turn of the loop followed by its head again. -/

namespace Sys2Proof.Machine

/-- The waits and the calibrations write the sequencing state before anything reads it. -/
theorem bruteFrom_seq (q : Seq) (l : List (Offset × Offset)) :
    ∀ s : State, bruteFrom l { s with seq := q } = bruteFrom l s := by
  induction l with
  | nil =>
    intro s
    simp only [bruteFrom, calFinish]
    split <;> rfl
  | cons p l ih =>
    intro s
    simp only [bruteFrom]
    split
    · rfl
    · rfl
    · rename_i v w _
      exact ih { s with world := w, toc := bruteTake p.1 p.2 v s.toc }

/-- A read is its read operation: the byte it returned stays in `got`. -/
theorem runCode_readCode {c : Cfg} (spc : Space) (addr : Addr) (code : List Micro) (x : Locals) (s : State)
    (hc : s.cfg = c) :
    runCode (readCode c spc addr ++ code) x s =
      runCode code { x with got := (readByte c spc addr s.world).1 }
        { s with world := (readByte c spc addr s.world).2 } := by
  subst hc
  cases hr : s.cfg.readReturn <;> simp [readCode, readByte, runCode, hr]

/-- One attempt of a verified write, then its comparison. -/
theorem runCode_attempts (spc : Space) (addr : Addr) (v mask : Byte) (n : Nat) (code : List Micro) (x : Locals)
    (s : State) :
    runCode (.attempts spc addr v mask (n + 1) :: code) x s =
      runCode (.xfer spc true addr v :: readCode s.cfg spc addr ++ .compare spc addr v mask n :: code) x s := by
  rw [List.cons_append]
  simp only [runCode]
  rw [runCode_readCode (s := { s with world := (xfer s.cfg (encodeTxn ⟨spc, true, addr⟩ v) s.world).2 }) (hc := rfl)]
  simp only [runCode, verifyLoop, writeByte]
  split <;> simp_all

/-- One poll of the bridge, then its test. -/
theorem runCode_polls (n : Nat) (code : List Micro) (x : Locals) (s : State) :
    runCode (.polls (n + 1) :: code) x s =
      runCode (readCode s.cfg .us brCtrlAddr ++ .pollTest n :: code) x s := by
  rw [runCode_readCode (c := s.cfg) _ _ _ _ _ rfl]
  simp only [runCode, pollLoop]
  split <;> simp_all

/-- One byte of a span, then the rest of it. -/
theorem runCode_bytes (a n : Nat) (code : List Micro) (x : Locals) (s : State) :
    runCode (.bytes a (n + 1) :: code) x s =
      runCode (readCode s.cfg .rx (BitVec.ofNat 16 a) ++ .keep :: .bytes (a + 1) n :: code) x s := by
  rw [runCode_readCode (c := s.cfg) _ _ _ _ _ rfl]
  simp [runCode, readBytes]

/-- `WriteV` in a list: its fault, or the rest. -/
theorem runCode_writeV (spc : Space) (addr : Addr) (v mask : Byte) (code : List Micro) (x : Locals) (s : State) :
    runCode (writeVCode spc addr v mask ++ code) x s =
      match writeV s.cfg spc addr v mask s.world with
      | (some f, w) => { s with world := w }.raise f
      | (none, w) => runCode code { x with got := 0 } { s with world := w } := by
  simp only [writeVCode, List.cons_append, List.nil_append, runCode, writeV]
  split <;> simp_all

/-- `ReadSpan` in a list: the buffer it fills. -/
theorem runCode_span (fs : List BitField) (code : List Micro) (x : Locals) (s : State) :
    runCode (spanCode fs ++ code) x s =
      runCode code { x with got := 0, buf := (readSpan s.cfg fs s.world).1 }
        { s with world := (readSpan s.cfg fs s.world).2 } := by
  simp [spanCode, runCode, readSpan]

end Sys2Proof.Machine
end

