-- ==== Sys2Proof/Laws/Ops.lean ====
section
/-! SUPPORT. What each shared operation can do, once: what the environment's turn and one transaction leave alone,
what a quiet peripheral answers and stores, which properties of the world every operation keeps, and what each
operation adds to the port history. -/

namespace Sys2Proof.Machine

-- ---------------------------------------------------------------- the bridge

/-- The start of a transfer: `BR_CTRL` reads 0 and the transfer is in flight; nothing else. -/
theorem bridgeBegin_frame (c : Cfg) (w : World) :
    bridgeBegin c w =
      { w with spaces := (bridgeBegin c w).spaces, periph := { w.periph with flight := (bridgeBegin c w).periph.flight } } :=
  rfl

/-- The end of a transfer: one byte moved, `BR_DONE` set, nothing in flight; nothing else. -/
theorem bridgeEnd_frame (c : Cfg) (w : World) :
    bridgeEnd c w = { w with spaces := (bridgeEnd c w).spaces, periph := { w.periph with flight := none } } := by
  obtain ⟨ev, sp, ⟨d, sl, fl⟩, l, at', av, sc, tr, dr⟩ := w
  cases fl with
  | none => rfl
  | some f =>
    simp only [bridgeEnd]
    split <;> rfl

@[simp] theorem bridgeEnd_ev (c : Cfg) (w : World) : (bridgeEnd c w).ev = w.ev := by rw [bridgeEnd_frame]
@[simp] theorem bridgeEnd_periph (c : Cfg) (w : World) : (bridgeEnd c w).periph = { w.periph with flight := none } := by
  rw [bridgeEnd_frame]
@[simp] theorem bridgeEnd_latch (c : Cfg) (w : World) : (bridgeEnd c w).latch = w.latch := by rw [bridgeEnd_frame]
@[simp] theorem bridgeEnd_adcTrigger (c : Cfg) (w : World) : (bridgeEnd c w).adcTrigger = w.adcTrigger := by
  rw [bridgeEnd_frame]
@[simp] theorem bridgeEnd_adcValue (c : Cfg) (w : World) : (bridgeEnd c w).adcValue = w.adcValue := by
  rw [bridgeEnd_frame]
@[simp] theorem bridgeEnd_script (c : Cfg) (w : World) : (bridgeEnd c w).script = w.script := by rw [bridgeEnd_frame]
@[simp] theorem bridgeEnd_trace (c : Cfg) (w : World) : (bridgeEnd c w).trace = w.trace := by rw [bridgeEnd_frame]
@[simp] theorem bridgeEnd_draws (c : Cfg) (w : World) : (bridgeEnd c w).draws = w.draws := by rw [bridgeEnd_frame]

-- ---------------------------------------------------------------- the environment

@[simp] theorem EnvStep.act_script (c : Cfg) (w : World) (e : EnvStep) : (EnvStep.act c w e).script = w.script := by
  cases e <;> simp only [EnvStep.act] <;> (try split) <;> first | rfl | simp
@[simp] theorem EnvStep.act_trace (c : Cfg) (w : World) (e : EnvStep) : (EnvStep.act c w e).trace = w.trace := by
  cases e <;> simp only [EnvStep.act] <;> (try split) <;> first | rfl | simp
@[simp] theorem EnvStep.act_draws (c : Cfg) (w : World) (e : EnvStep) : (EnvStep.act c w e).draws = w.draws := by
  cases e <;> simp only [EnvStep.act] <;> (try split) <;> first | rfl | simp
@[simp] theorem EnvStep.act_adcTrigger (c : Cfg) (w : World) (e : EnvStep) :
    (EnvStep.act c w e).adcTrigger = w.adcTrigger := by
  cases e <;> simp only [EnvStep.act] <;> (try split) <;> first | rfl | simp

/-- What one step of the environment keeps, a batch of them keeps. -/
theorem foldl_act_keeps {c : Cfg} {P : World → Prop} (h : ∀ w e, P w → P (EnvStep.act c w e)) (batch : List EnvStep) :
    ∀ w, P w → P (batch.foldl (EnvStep.act c) w) := by
  induction batch with
  | nil => exact fun w hw => hw
  | cons e batch ih => exact fun w hw => ih _ (h w e hw)

@[simp] theorem foldl_act_script (c : Cfg) (batch : List EnvStep) (w : World) :
    (batch.foldl (EnvStep.act c) w).script = w.script :=
  foldl_act_keeps (P := fun w' => w'.script = w.script) (fun w' e hw => by simpa using hw) batch w rfl
@[simp] theorem foldl_act_trace (c : Cfg) (batch : List EnvStep) (w : World) :
    (batch.foldl (EnvStep.act c) w).trace = w.trace :=
  foldl_act_keeps (P := fun w' => w'.trace = w.trace) (fun w' e hw => by simpa using hw) batch w rfl
@[simp] theorem foldl_act_draws (c : Cfg) (batch : List EnvStep) (w : World) :
    (batch.foldl (EnvStep.act c) w).draws = w.draws :=
  foldl_act_keeps (P := fun w' => w'.draws = w.draws) (fun w' e hw => by simpa using hw) batch w rfl
@[simp] theorem foldl_act_adcTrigger (c : Cfg) (batch : List EnvStep) (w : World) :
    (batch.foldl (EnvStep.act c) w).adcTrigger = w.adcTrigger :=
  foldl_act_keeps (P := fun w' => w'.adcTrigger = w.adcTrigger) (fun w' e hw => by simpa using hw) batch w rfl

/-- A quiet environment does nothing. -/
theorem World.envTurn_quiet {c : Cfg} {w : World} (h : w.script = []) : w.envTurn c = w := by
  simp [World.envTurn, h]

/-- The environment plays the first batch of its script. -/
theorem World.envTurn_batch {c : Cfg} {w : World} {batch : List EnvStep} {rest : List (List EnvStep)}
    (h : w.script = batch :: rest) : w.envTurn c = batch.foldl (EnvStep.act c) { w with script := rest } := by
  simp [World.envTurn, h]

@[simp] theorem World.envTurn_trace (c : Cfg) (w : World) : (w.envTurn c).trace = w.trace := by
  unfold World.envTurn; split <;> simp
@[simp] theorem World.envTurn_draws (c : Cfg) (w : World) : (w.envTurn c).draws = w.draws := by
  unfold World.envTurn; split <;> simp
@[simp] theorem World.envTurn_adcTrigger (c : Cfg) (w : World) : (w.envTurn c).adcTrigger = w.adcTrigger := by
  unfold World.envTurn; split <;> simp
@[simp] theorem World.envTurn_script (c : Cfg) (w : World) : (w.envTurn c).script = w.script.tail := by
  unfold World.envTurn; split <;> simp [*]

-- ---------------------------------------------------------------- one transaction

/-- A write changes nothing but the memories and what the bridge has in flight. -/
theorem peripheralWrite_frame (c : Cfg) (h : Header) (v : Byte) (w : World) :
    peripheralWrite c h v w = { w with
      spaces := (peripheralWrite c h v w).spaces
      periph := { w.periph with flight := (peripheralWrite c h v w).periph.flight } } := by
  obtain ⟨spc, write, addr⟩ := h
  cases spc <;> simp only [peripheralWrite] <;> (repeat' split) <;>
    first | rfl | (rw [bridgeEnd_frame]; rfl)

/-- Whatever the peripheral does on a transaction, it changes nothing but the memories and what the bridge has in
flight. -/
theorem peripheralAct_frame (c : Cfg) (q : Quad) (w : World) :
    peripheralAct c q w = { w with
      spaces := (peripheralAct c q w).spaces
      periph := { w.periph with flight := (peripheralAct c q w).periph.flight } } := by
  unfold peripheralAct
  split
  · rfl
  · split
    · exact peripheralWrite_frame c _ _ w
    · rfl

/-- One transaction: the answer, the memories, the bridge, the latch, the history and the free counter; nothing else. -/
theorem exchange_frame (c : Cfg) (q : Quad) (w : World) :
    (exchange c q w).2 = { w with
      spaces := (peripheralAct c q w).spaces
      periph := { w.periph with flight := (peripheralAct c q w).periph.flight }
      latch := latchAfter c q w
      trace := .xfer q (exchange c q w).1 :: w.trace
      draws := w.draws + 4 } := by
  simp only [exchange]
  rw [peripheralAct_frame]

@[simp] theorem exchange_ev (c : Cfg) (q : Quad) (w : World) : (exchange c q w).2.ev = w.ev := by rw [exchange_frame]
@[simp] theorem exchange_script (c : Cfg) (q : Quad) (w : World) : (exchange c q w).2.script = w.script := by
  rw [exchange_frame]
@[simp] theorem exchange_adcTrigger (c : Cfg) (q : Quad) (w : World) :
    (exchange c q w).2.adcTrigger = w.adcTrigger := by rw [exchange_frame]
@[simp] theorem exchange_adcValue (c : Cfg) (q : Quad) (w : World) : (exchange c q w).2.adcValue = w.adcValue := by
  rw [exchange_frame]
@[simp] theorem exchange_draws (c : Cfg) (q : Quad) (w : World) : (exchange c q w).2.draws = w.draws + 4 := by
  rw [exchange_frame]
@[simp] theorem exchange_trace (c : Cfg) (q : Quad) (w : World) :
    (exchange c q w).2.trace = .xfer q (exchange c q w).1 :: w.trace := by rw [exchange_frame]
@[simp] theorem exchange_spaces (c : Cfg) (q : Quad) (w : World) :
    (exchange c q w).2.spaces = (peripheralAct c q w).spaces := by rw [exchange_frame]
@[simp] theorem exchange_periph (c : Cfg) (q : Quad) (w : World) :
    (exchange c q w).2.periph = { w.periph with flight := (peripheralAct c q w).periph.flight } := by rw [exchange_frame]
@[simp] theorem exchange_latch (c : Cfg) (q : Quad) (w : World) : (exchange c q w).2.latch = latchAfter c q w := by
  rw [exchange_frame]

/-- A read transaction changes no memory. -/
@[simp] theorem peripheralAct_read (c : Cfg) (spc : Space) (addr : Addr) (v : Byte) (w : World) :
    peripheralAct c (encodeTxn ⟨spc, false, addr⟩ v) w = w := by
  simp [peripheralAct]

/-- A write transaction inside its space is the peripheral's write. -/
theorem peripheralAct_write {c : Cfg} {spc : Space} {addr : Addr} (v : Byte) (w : World)
    (h : c.addrOk spc addr = true) :
    peripheralAct c (encodeTxn ⟨spc, true, addr⟩ v) w = peripheralWrite c ⟨spc, true, addr⟩ v w := by
  simp [peripheralAct, h]

/-- A write outside its space changes no memory. -/
theorem peripheralAct_write_outside {c : Cfg} {spc : Space} {addr : Addr} (v : Byte) (w : World)
    (h : c.addrOk spc addr = false) : peripheralAct c (encodeTxn ⟨spc, true, addr⟩ v) w = w := by
  simp [peripheralAct, h]

/-- Under `same`, a read inside its space is answered with its byte. -/
theorem exchange_read_same {c : Cfg} {spc : Space} {addr : Addr} (w : World) (hr : c.readReturn = .same)
    (h : c.addrOk spc addr = true) :
    (exchange c (rdQ spc addr) w).1.b3 = w.peek spc addr.toNat := by
  simp [exchange, inbound, answer, answerLoc, hr, h]

/-- Under `previous`, a read is answered with the byte of the location addressed before. -/
theorem exchange_read_previous {c : Cfg} {spc : Space} {addr : Addr} (w : World) {l : Loc}
    (hr : c.readReturn = .previous) (hl : w.latch = some l) (h : c.addrOk l.spc l.addr = true) :
    (exchange c (rdQ spc addr) w).1.b3 = w.peek l.spc l.addr.toNat := by
  simp [exchange, inbound, answer, answerLoc, hr, hl, h]

/-- One transaction adds itself to the history. -/
@[simp] theorem xfer_trace (c : Cfg) (q : Quad) (w : World) :
    (xfer c q w).2.trace = .xfer q (xfer c q w).1 :: w.trace := by
  simp [xfer]

@[simp] theorem xfer_adcTrigger (c : Cfg) (q : Quad) (w : World) : (xfer c q w).2.adcTrigger = w.adcTrigger := by
  simp [xfer]

@[simp] theorem xfer_script (c : Cfg) (q : Quad) (w : World) : (xfer c q w).2.script = w.script.tail := by
  simp [xfer]

theorem xfer_quiet {c : Cfg} {w : World} (q : Quad) (h : w.script = []) : xfer c q w = exchange c q w := by
  rw [xfer, World.envTurn_quiet h]

-- ---------------------------------------------------------------- reads and writes

/-- Under `same` a read is one transaction. -/
theorem readByte_same {c : Cfg} (spc : Space) (addr : Addr) (w : World) (hr : c.readReturn = .same) :
    readByte c spc addr w = ((xfer c (rdQ spc addr) w).1.b3, (xfer c (rdQ spc addr) w).2) := by
  simp only [readByte, hr]

/-- Under `previous` a read is two. -/
theorem readByte_previous {c : Cfg} (spc : Space) (addr : Addr) (w : World) (hr : c.readReturn = .previous) :
    readByte c spc addr w =
      ((xfer c (rdQ spc addr) (xfer c (rdQ spc addr) w).2).1.b3,
        (xfer c (rdQ spc addr) (xfer c (rdQ spc addr) w).2).2) := by
  simp only [readByte, hr]

/-- A quiet read, in both modes: the byte of its location, and no memory, flag or script changed. -/
theorem readByte_quiet {c : Cfg} {spc : Space} {addr : Addr} {w : World} (hq : w.script = [])
    (h : c.addrOk spc addr = true) :
    (readByte c spc addr w).1 = w.peek spc addr.toNat ∧ (readByte c spc addr w).2.spaces = w.spaces
    ∧ (readByte c spc addr w).2.ev = w.ev ∧ (readByte c spc addr w).2.script = [] := by
  cases hr : c.readReturn with
  | same =>
    rw [readByte_same _ _ _ hr, xfer_quiet _ hq]
    simp [exchange_read_same _ hr h, hq]
  | previous =>
    have hs : (xfer c (rdQ spc addr) w).2.script = [] := by simp [hq]
    have hl : (xfer c (rdQ spc addr) w).2.latch = some ⟨spc, addr⟩ := by
      rw [xfer_quiet _ hq]; simp [latchAfter, hr]
    rw [readByte_previous _ _ _ hr, xfer_quiet _ hs]
    refine ⟨?_, ?_, ?_, ?_⟩
    · rw [exchange_read_previous _ hr hl h, xfer_quiet _ hq]
      simp [World.peek]
    · rw [xfer_quiet _ hq]; simp
    · rw [xfer_quiet _ hq]; simp
    · simp [hq]

/-- A quiet read of any location, in or out of its space, changes no memory, flag or script. -/
theorem readByte_quiet_frame {c : Cfg} (spc : Space) (addr : Addr) {w : World} (hq : w.script = []) :
    (readByte c spc addr w).2.spaces = w.spaces ∧ (readByte c spc addr w).2.ev = w.ev
    ∧ (readByte c spc addr w).2.script = [] := by
  cases hr : c.readReturn with
  | same =>
    rw [readByte_same _ _ _ hr, xfer_quiet _ hq]
    simp [hq]
  | previous =>
    have hs : (xfer c (rdQ spc addr) w).2.script = [] := by simp [hq]
    rw [readByte_previous _ _ _ hr, xfer_quiet _ hs, xfer_quiet _ hq]
    simp [hq]

@[simp] theorem readByte_adcTrigger (c : Cfg) (spc : Space) (addr : Addr) (w : World) :
    (readByte c spc addr w).2.adcTrigger = w.adcTrigger := by
  cases hr : c.readReturn with
  | same => simp [readByte_same _ _ _ hr]
  | previous => simp [readByte_previous _ _ _ hr]

/-- A write is one transaction. -/
@[simp] theorem writeByte_trace (c : Cfg) (spc : Space) (addr : Addr) (v : Byte) (w : World) :
    (writeByte c spc addr v w).trace = .xfer (wrQ spc addr v) (xfer c (wrQ spc addr v) w).1 :: w.trace := by
  simp [writeByte]

@[simp] theorem writeByte_adcTrigger (c : Cfg) (spc : Space) (addr : Addr) (v : Byte) (w : World) :
    (writeByte c spc addr v w).adcTrigger = w.adcTrigger := by
  simp [writeByte]

/-- A quiet write inside its space is the peripheral's write; it sets no flag. -/
theorem writeByte_quiet {c : Cfg} {spc : Space} {addr : Addr} (v : Byte) {w : World} (hq : w.script = [])
    (h : c.addrOk spc addr = true) :
    (writeByte c spc addr v w).spaces = (peripheralWrite c ⟨spc, true, addr⟩ v w).spaces
    ∧ (writeByte c spc addr v w).ev = w.ev ∧ (writeByte c spc addr v w).script = [] := by
  rw [writeByte, xfer_quiet _ hq]
  simp [peripheralAct_write v w h, hq]

/-- A write to a location that stores what is written: every space but the four special user bytes. -/
theorem peripheralWrite_plain {c : Cfg} {spc : Space} {addr : Addr} (v : Byte) (w : World)
    (h : spc = .us → addr ≠ 0 ∧ addr ≠ 1 ∧ addr ≠ 4 ∧ addr ≠ 5) :
    peripheralWrite c ⟨spc, true, addr⟩ v w = w.poke spc addr.toNat v := by
  cases spc
  case us =>
    obtain ⟨h0, h1, h4, h5⟩ := h rfl
    simp only [peripheralWrite]
    rw [if_neg h0, if_neg (fun hc => hc.elim h1 h4), if_neg h5]
  all_goals rfl

-- ---------------------------------------------------------------- what every operation keeps

/-- A property of the world that the environment, a transaction with allowed outbound bytes and a flag write
keep. -/
structure Kept (c : Cfg) (okQ : Quad → Prop) (P : World → Prop) : Prop where
  env : ∀ w e, P w → P (EnvStep.act c w e)
  script : ∀ w l, P w → P { w with script := l }
  exchange : ∀ w q, okQ q → P w → P (Machine.exchange c q w).2
  flags : ∀ w f, P w → P { w with ev := f }

/-- A property that the sampler port keeps as well. -/
structure KeptPort (c : Cfg) (okQ : Quad → Prop) (P : World → Prop) : Prop extends Kept c okQ P where
  pulse : ∀ w, P w → P { w with adcTrigger := true, trace := .adcPulse :: w.trace }
  settle : ∀ w, P w → P { w with adcTrigger := false }
  sample : ∀ w, P w → P { w with trace := .sample w.adcValue :: w.trace }

/-- Reading and writing the user bytes 0..7 is allowed. -/
abbrev UserOk (okQ : Quad → Prop) : Prop :=
  ∀ addr : Addr, addr.toNat < 8 → okQ (rdQ .us addr) ∧ ∀ v, okQ (wrQ .us addr v)

section kept

variable {c : Cfg} {okQ : Quad → Prop} {P : World → Prop}

theorem Kept.foldl (k : Kept c okQ P) (batch : List EnvStep) {w : World} (h : P w) :
    P (batch.foldl (EnvStep.act c) w) := foldl_act_keeps k.env batch w h

theorem Kept.envTurn (k : Kept c okQ P) {w : World} (h : P w) : P (w.envTurn c) := by
  unfold World.envTurn
  split
  · exact h
  · exact k.foldl _ (k.script _ _ h)

theorem Kept.xfer (k : Kept c okQ P) {q : Quad} (hq : okQ q) {w : World} (h : P w) :
    P (Machine.xfer c q w).2 := k.exchange _ _ hq (k.envTurn h)

theorem Kept.readByte (k : Kept c okQ P) {spc : Space} {addr : Addr} (hq : okQ (rdQ spc addr)) {w : World} (h : P w) :
    P (Machine.readByte c spc addr w).2 := by
  cases hr : c.readReturn with
  | same => rw [readByte_same _ _ _ hr]; exact k.xfer hq h
  | previous => rw [readByte_previous _ _ _ hr]; exact k.xfer hq (k.xfer hq h)

theorem Kept.writeByte (k : Kept c okQ P) {spc : Space} {addr : Addr} {v : Byte} (hq : okQ (wrQ spc addr v))
    {w : World} (h : P w) : P (Machine.writeByte c spc addr v w) := k.xfer hq h

theorem Kept.verifyLoop (k : Kept c okQ P) {spc : Space} {addr : Addr} {v : Byte} (mask : Byte)
    (hr : okQ (rdQ spc addr)) (hw : okQ (wrQ spc addr v)) (n : Nat) :
    ∀ {w : World}, P w → P (Machine.verifyLoop c spc addr v mask n w).2 := by
  induction n with
  | zero => exact fun h => h
  | succ n ih =>
    intro w h
    have h' := k.readByte hr (k.writeByte hw h)
    simp only [Machine.verifyLoop]
    split
    · exact h'
    · exact ih h'

theorem Kept.writeV (k : Kept c okQ P) {spc : Space} {addr : Addr} {v : Byte} (mask : Byte)
    (hr : okQ (rdQ spc addr)) (hw : okQ (wrQ spc addr v)) {w : World} (h : P w) :
    P (Machine.writeV c spc addr v mask w).2 := k.verifyLoop mask hr hw _ h

theorem Kept.pollLoop (k : Kept c okQ P) (hr : okQ (rdQ .us brCtrlAddr)) (n : Nat) :
    ∀ {w : World}, P w → P (Machine.pollLoop c n w).2 := by
  induction n with
  | zero => exact fun h => h
  | succ n ih =>
    intro w h
    have h' := k.readByte hr h
    simp only [Machine.pollLoop]
    split
    · exact h'
    · exact ih h'

theorem Kept.bridge (k : Kept c okQ P) (hu : UserOk okQ) (wnr : Bool) (sa v : Byte) {w : World} (h : P w) :
    P (Machine.bridge c wnr sa v w).2 := by
  have wv : ∀ {addr : Addr} {x : Byte} {w : World}, addr.toNat < 8 → P w →
      P (Machine.writeV c .us addr x 0xFF w).2 :=
    fun ha h => k.writeV _ (hu _ ha).1 ((hu _ ha).2 _) h
  have h1 : P (Machine.writeV c .us brAddrAddr (brAddrByte c.userMap wnr sa) 0xFF w).2 := wv (by decide) h
  unfold Machine.bridge
  split
  · rename_i he; rw [he] at h1; exact h1
  · rename_i w1 he
    rw [he] at h1
    have h2 : P (if wnr = true then Machine.writeV c .us brWdataAddr v 0xFF w1 else (none, w1)).2 := by
      split
      · exact wv (by decide) h1
      · exact h1
    split
    · rename_i he2; rw [he2] at h2; exact h2
    · rename_i w2 he2
      rw [he2] at h2
      have h3 := k.pollLoop (hu _ (by decide)).1 c.bridgePollMax
        (k.writeByte ((hu brCtrlAddr (by decide)).2 (brStartByte c.userMap)) h2)
      split
      · rename_i he3; rw [he3] at h3; exact h3
      · rename_i w3 he3
        rw [he3] at h3
        split
        · exact h3
        · exact k.readByte (hu _ (by decide)).1 h3

theorem Kept.sdrWrite (k : Kept c okQ P) (hu : UserOk okQ) (sa v : Byte) {w : World} (h : P w) :
    P (Machine.sdrWrite c sa v w).2 := by
  have h' := k.bridge hu true sa v h
  unfold Machine.sdrWrite
  split <;> (rename_i he; rw [he] at h'; exact h')

theorem Kept.sdrWrites (k : Kept c okQ P) (hu : UserOk okQ) (l : List (Byte × Byte)) :
    ∀ {w : World}, P w → P (Machine.sdrWrites c l w).2 := by
  induction l with
  | nil => exact fun h => h
  | cons p l ih =>
    obtain ⟨sa, v⟩ := p
    intro w h
    have h' := k.sdrWrite hu sa v h
    simp only [Machine.sdrWrites]
    split
    · rename_i he; rw [he] at h'; exact h'
    · rename_i he; rw [he] at h'; exact ih h'

theorem Kept.readBytes (k : Kept c okQ P) (n : Nat) :
    ∀ (a : Nat) {w : World}, (∀ j, a ≤ j → j < a + n → okQ (rdQ .rx (BitVec.ofNat 16 j))) → P w →
      P (Machine.readBytes c a n w).2 := by
  induction n with
  | zero => exact fun a w _ h => h
  | succ n ih =>
    intro a w hq h
    exact ih (a + 1) (fun j h1 h2 => hq j (by omega) (by omega)) (k.readByte (hq a (by omega) (by omega)) h)

theorem Kept.readSpan (k : Kept c okQ P) (fs : List BitField)
    (hq : ∀ j, spanFirst fs ≤ j → j ≤ spanLast fs → okQ (rdQ .rx (BitVec.ofNat 16 j))) {w : World} (h : P w) :
    P (Machine.readSpan c fs w).2 :=
  k.readBytes _ _ (fun j h1 h2 => hq j h1 (by omega)) h

theorem Kept.clearFlag (k : Kept c okQ P) (e : Event) {w : World} (h : P w) : P (Machine.clearFlag c e w) :=
  k.flags _ _ (k.envTurn h)

theorem Kept.waitLoop (k : Kept c okQ P) (e : Event) (l : List (List EnvStep)) :
    ∀ {w : World}, P w → P (Machine.waitLoop c e l w).2 := by
  induction l with
  | nil => exact fun h => k.script _ _ h
  | cons b l ih =>
    intro w h
    simp only [Machine.waitLoop]
    split
    · exact k.script _ _ h
    · exact ih (k.foldl _ (k.script _ _ h))

theorem Kept.waitFlag (k : Kept c okQ P) (e : Event) {w : World} (h : P w) : P (Machine.waitFlag c e w).2 :=
  k.waitLoop e _ h

theorem KeptPort.pulseAdc (k : KeptPort c okQ P) {w : World} (h : P w) : P (Machine.pulseAdc c w) :=
  k.pulse _ (k.envTurn h)

theorem KeptPort.drawSample (k : KeptPort c okQ P) {w : World} (h : P w) : P (Machine.drawSample c w).2 :=
  k.sample _ (k.envTurn h)

theorem KeptPort.measureWait (k : KeptPort c okQ P) {w : World} (h : P w) : P (Machine.measureWait c w).2 := by
  have h' := k.waitFlag .sampleReady (k.settle _ h)
  unfold Machine.measureWait
  split
  · rename_i he; rw [he] at h'; exact h'
  · rename_i he; rw [he] at h'; exact k.drawSample (k.clearFlag _ h')

theorem KeptPort.measure (k : KeptPort c okQ P) (hu : UserOk okQ) (a b : Offset) {w : World} (h : P w) :
    P (Machine.measure c a b w).2 := by
  have h' : P (Machine.writeV c .us txofsAddr (txofsByte c.userMap a b) 0xFF w).2 :=
    k.writeV _ (hu _ (by decide)).1 ((hu _ (by decide)).2 _) h
  unfold Machine.measure
  split
  · rename_i he; rw [he] at h'; exact h'
  · rename_i he; rw [he] at h'; exact k.measureWait (k.pulseAdc (k.clearFlag _ h'))

end kept

-- ---------------------------------------------------------------- two properties that are kept

theorem World.memoryOk_iff (c : Cfg) (w : World) :
    w.memoryOk c = true ↔
      (∀ spc, (w.spaces.get spc).wf = true ∧ (w.spaces.get spc).below (c.size spc) = true)
      ∧ w.spaces.sdr.wf = true ∧ w.spaces.sdr.below Config.sdrSize = true := by
  constructor
  · intro h
    simp only [World.memoryOk, Bool.and_eq_true] at h
    obtain ⟨⟨⟨⟨⟨⟨⟨⟨⟨h1, h2⟩, h3⟩, h4⟩, h5⟩, h6⟩, h7⟩, h8⟩, h9⟩, h10⟩ := h
    exact ⟨fun spc => by cases spc <;> exact ⟨by assumption, by assumption⟩, h9, h10⟩
  · rintro ⟨h, h9, h10⟩
    simp only [World.memoryOk, Bool.and_eq_true]
    exact ⟨⟨⟨⟨⟨⟨⟨⟨⟨(h .wv).1, (h .wv).2⟩, (h .rx).1⟩, (h .rx).2⟩, (h .tx).1⟩, (h .tx).2⟩, (h .us).1⟩, (h .us).2⟩, h9⟩, h10⟩

theorem World.memoryOk_poke {c : Cfg} {w : World} {spc : Space} {a : Nat} (v : Byte) (h : w.memoryOk c = true)
    (ha : a < c.size spc) : (w.poke spc a v).memoryOk c = true := by
  rw [World.memoryOk_iff] at h ⊢
  obtain ⟨hs, h9, h10⟩ := h
  refine ⟨fun spc' => ?_, by simpa using h9, by simpa using h10⟩
  by_cases hc : spc' = spc
  · subst hc
    simp only [World.poke_spaces, Spaces.get_put_same]
    exact ⟨Memory.wf_write _ _ _ (hs _).1, Memory.below_write _ _ _ _ (hs _).2 ha⟩
  · simp only [World.poke_spaces, Spaces.get_put_other _ _ hc]
    exact hs spc'

theorem World.memoryOk_pokeSdr {c : Cfg} {w : World} {a : Nat} (v : Byte) (h : w.memoryOk c = true)
    (ha : a < Config.sdrSize) : (w.pokeSdr a v).memoryOk c = true := by
  rw [World.memoryOk_iff] at h ⊢
  obtain ⟨hs, h9, h10⟩ := h
  refine ⟨fun spc => by simpa using hs spc, ?_, ?_⟩
  · exact Memory.wf_write _ _ _ h9
  · exact Memory.below_write _ _ _ _ h10 ha

/-- The start of a bridge transfer keeps the memories canonical. -/
theorem memoryOk_bridgeBegin {c : Cfg} (hc : 8 ≤ c.userSize) {w : World} (h : w.memoryOk c = true) :
    (bridgeBegin c w).memoryOk c = true :=
  World.memoryOk_poke (a := 5) (spc := .us) 0 h (Nat.lt_of_lt_of_le (by decide) hc)

/-- The end of a bridge transfer keeps the memories canonical. -/
theorem memoryOk_bridgeEnd {c : Cfg} (hc : 8 ≤ c.userSize) {w : World} (h : w.memoryOk c = true) :
    (bridgeEnd c w).memoryOk c = true := by
  have hus : ∀ {a : Nat}, a < 8 → a < c.size .us := fun h => Nat.lt_of_lt_of_le h hc
  unfold bridgeEnd
  split
  · exact h
  · rename_i t _
    refine World.memoryOk_poke (c := c) (spc := .us) (a := 5) _ ?_ (hus (by decide))
    split
    · exact World.memoryOk_pokeSdr _ h t.sa.isLt
    · exact World.memoryOk_poke _ h (hus (by decide))

/-- The peripheral's writes keep the memories canonical. -/
theorem memoryOk_peripheralWrite {c : Cfg} (hc : 8 ≤ c.userSize) {hd : Header} {w : World} (v : Byte)
    (hok : c.addrOk hd.spc hd.addr = true) (h : w.memoryOk c = true) :
    (peripheralWrite c hd v w).memoryOk c = true := by
  obtain ⟨spc, write, addr⟩ := hd
  have ha : addr.toNat < c.size spc := by simpa [Cfg.addrOk] using hok
  have hus : ∀ {a : Nat}, a < 8 → a < c.size .us := fun h => Nat.lt_of_lt_of_le h hc
  cases spc
  case us =>
    simp only [peripheralWrite]
    split
    · exact World.memoryOk_poke _ h (hus (by decide))
    · split
      · exact h
      · split
        · split
          · split
            · exact memoryOk_bridgeBegin hc h
            · exact memoryOk_bridgeEnd hc (memoryOk_bridgeBegin hc h)
          · exact h
        · exact World.memoryOk_poke _ h ha
  all_goals exact World.memoryOk_poke _ h ha

/-- Every operation keeps the memories canonical, whatever is sent. -/
theorem memoryOk_kept {c : Cfg} (hc : 8 ≤ c.userSize) :
    KeptPort c (fun _ => True) (fun w => w.memoryOk c = true) where
  env w e h := by
    cases e <;> simp only [EnvStep.act]
    case poke spc a v =>
      split
      · rename_i ha; exact World.memoryOk_poke v h ha
      · exact h
    case pokeSdr a v =>
      split
      · rename_i ha; exact World.memoryOk_pokeSdr v h ha
      · exact h
    case bridgeDone => rw [if_pos hc]; exact memoryOk_bridgeEnd hc h
    all_goals exact h
  script _ _ h := h
  exchange w q _ h := by
    rw [exchange_frame]
    change (peripheralAct c q w).memoryOk c = true
    unfold peripheralAct
    split
    · exact h
    · split
      · exact memoryOk_peripheralWrite hc _ (by simp_all) h
      · exact h
  flags _ _ h := h
  pulse _ h := h
  settle _ h := h
  sample _ h := h

/-- Every operation keeps the sampler's value in its width, whatever is sent. -/
theorem sampleOk_kept (c : Cfg) : KeptPort c (fun _ => True) (fun w => sampleOk c w.adcValue = true) where
  env w e h := by
    cases e <;> simp only [EnvStep.act]
    case poke => split <;> exact h
    case pokeSdr => split <;> exact h
    case bridgeDone => split <;> simpa using h
    case adc v => simp [sampleOk, Nat.mod_lt _ (Nat.two_pow_pos c.sampleBits)]
    all_goals exact h
  script _ _ h := h
  exchange w q _ h := by simpa using h
  flags _ _ h := h
  pulse _ h := h
  settle _ h := h
  sample _ h := h

-- ---------------------------------------------------------------- the port history

@[simp] theorem xfersOf_append (l m : List PortEvent) : xfersOf (l ++ m) = xfersOf m ++ xfersOf l := by
  induction l with
  | nil => simp [xfersOf]
  | cons e l ih => cases e <;> simp [xfersOf, ih]

@[simp] theorem sentOf_append (l m : List PortEvent) : sentOf (l ++ m) = sentOf m ++ sentOf l := by
  simp [sentOf]

@[simp] theorem samplesOf_append (l m : List PortEvent) : samplesOf (l ++ m) = samplesOf m ++ samplesOf l := by
  induction l with
  | nil => simp [samplesOf]
  | cons e l ih => cases e <;> simp [samplesOf, ih]

@[simp] theorem pulsesOf_append (l m : List PortEvent) : pulsesOf (l ++ m) = pulsesOf l + pulsesOf m := by
  simp [pulsesOf]

/-- The history has grown by events that all meet a property. -/
abbrev Grown (w w' : World) (ok : List PortEvent → Prop) : Prop := ∃ new, w'.trace = new ++ w.trace ∧ ok new

/-- A read operation in the history: its transactions, the result in the last (40_rtx_transactions.md R123). -/
theorem readByte_readOf (c : Cfg) (spc : Space) (addr : Addr) (w : World) : ∃ pre inn : Quad,
    (readByte c spc addr w).1 = inn.b3
    ∧ (readByte c spc addr w).2.trace = readOf c spc addr pre inn ++ w.trace := by
  cases hr : c.readReturn with
  | same =>
    exact ⟨⟨0, 0, 0, 0⟩, (xfer c (rdQ spc addr) w).1, by simp [readByte_same _ _ _ hr],
      by simp [readByte_same _ _ _ hr, readOf, hr]⟩
  | previous =>
    exact ⟨(xfer c (rdQ spc addr) w).1, (xfer c (rdQ spc addr) (xfer c (rdQ spc addr) w).2).1,
      by simp [readByte_previous _ _ _ hr], by simp [readByte_previous _ _ _ hr, readOf, hr]⟩

/-- A verified write: its attempts, each a write and its read-back, stopping at the first that matches under the mask
(40_rtx_transactions.md R125). -/
theorem verifyLoop_attempts (c : Cfg) (spc : Space) (addr : Addr) (v mask : Byte) (n : Nat) :
    ∀ w : World, ∃ l : List Attempt,
      (verifyLoop c spc addr v mask n w).2.trace = attemptsOf c spc addr v l ++ w.trace
      ∧ (∀ p ∈ l.dropLast, p.back.b3 &&& mask ≠ v &&& mask)
      ∧ (((verifyLoop c spc addr v mask n w).1 = true ∧ l.length ≤ n
          ∧ ∃ p, l.getLast? = some p ∧ p.back.b3 &&& mask = v &&& mask)
        ∨ ((verifyLoop c spc addr v mask n w).1 = false ∧ l.length = n ∧ ∀ p ∈ l, p.back.b3 &&& mask ≠ v &&& mask)) := by
  induction n with
  | zero => intro w; exact ⟨[], by simp [verifyLoop, attemptsOf]⟩
  | succ n ih =>
    intro w
    obtain ⟨pre, inn, h1, h2⟩ := readByte_readOf c spc addr (writeByte c spc addr v w)
    simp only [verifyLoop]
    split
    · rename_i hm
      refine ⟨[⟨(xfer c (wrQ spc addr v) w).1, pre, inn⟩], ?_, by simp, ?_⟩
      · simp [attemptsOf, h2]
      · exact .inl ⟨rfl, by simp, _, rfl, by rw [h1] at hm; exact hm⟩
    · rename_i hm
      obtain ⟨l, ht, hd, hcase⟩ := ih (readByte c spc addr (writeByte c spc addr v w)).2
      rw [h1] at hm
      refine ⟨⟨(xfer c (wrQ spc addr v) w).1, pre, inn⟩ :: l, ?_, ?_, ?_⟩
      · rw [ht, h2]; simp [attemptsOf]
      · intro p hp
        cases l with
        | nil => simp at hp
        | cons x l =>
          rw [List.dropLast_cons_cons] at hp
          rcases List.mem_cons.1 hp with rfl | hp
          · exact hm
          · exact hd p hp
      · rcases hcase with ⟨h1, h2, p, h3, h4⟩ | ⟨h1, h2, h3⟩
        · refine .inl ⟨h1, by simp; omega, p, ?_, h4⟩
          cases l with
          | nil => simp at h3
          | cons x l => simpa using h3
        · exact .inr ⟨h1, by simp; omega, fun p hp => by
            rcases List.mem_cons.1 hp with rfl | hp
            · exact hm
            · exact h3 p hp⟩

/-- The polls of the bridge: reads of `BR_CTRL` only, all with `BR_DONE` = 0 when none is seen set
(40_rtx_transactions.md R131). -/
theorem pollLoop_polls (c : Cfg) (n : Nat) : ∀ w : World, ∃ l : List (Quad × Quad),
    (pollLoop c n w).2.trace = pollsOf c l ++ w.trace
    ∧ (((pollLoop c n w).1 = true ∧ 1 ≤ l.length ∧ l.length ≤ n)
      ∨ ((pollLoop c n w).1 = false ∧ l.length = n ∧ ∀ p ∈ l, brDoneOf c.userMap p.2.b3 = false)) := by
  induction n with
  | zero => intro w; exact ⟨[], by simp [pollLoop, pollsOf]⟩
  | succ n ih =>
    intro w
    obtain ⟨pre, inn, h1, h2⟩ := readByte_readOf c .us brCtrlAddr w
    simp only [pollLoop]
    split
    · exact ⟨[(pre, inn)], by simpa [pollsOf] using h2, .inl ⟨rfl, by simp, by simp⟩⟩
    · rename_i hm
      obtain ⟨l, ht, hcase⟩ := ih (readByte c .us brCtrlAddr w).2
      rw [h1] at hm
      refine ⟨(pre, inn) :: l, by rw [ht, h2]; simp [pollsOf], ?_⟩
      rcases hcase with ⟨h1, h2, h3⟩ | ⟨h1, h2, h3⟩
      · exact .inl ⟨h1, by simp, by simp; omega⟩
      · exact .inr ⟨h1, by simp; omega, fun p hi => by
          rcases List.mem_cons.1 hi with rfl | hi
          · simpa using hm
          · exact h3 p hi⟩

-- ---------------------------------------------------------------- waits and measurements

@[simp] theorem clearFlag_trace (c : Cfg) (e : Event) (w : World) : (clearFlag c e w).trace = w.trace := by
  simp [clearFlag]
@[simp] theorem clearFlag_get (c : Cfg) (e : Event) (w : World) : (clearFlag c e w).ev.get e = false := by
  simp [clearFlag]
@[simp] theorem clearFlag_adcTrigger (c : Cfg) (e : Event) (w : World) :
    (clearFlag c e w).adcTrigger = w.adcTrigger := by
  simp [clearFlag]

/-- The wait is over when its flag is 1, and holds only when the environment has nothing left to do; it sends
nothing (41_evt_events.md R153). -/
theorem waitLoop_cases (c : Cfg) (e : Event) (l : List (List EnvStep)) : ∀ w : World,
    (waitLoop c e l w).2.trace = w.trace ∧ (waitLoop c e l w).2.adcTrigger = w.adcTrigger
    ∧ (waitLoop c e l w).2.ev.get e = (waitLoop c e l w).1
    ∧ ((waitLoop c e l w).1 = false → (waitLoop c e l w).2.script = []) := by
  induction l with
  | nil => intro w; simp [waitLoop]
  | cons b l ih =>
    intro w
    simp only [waitLoop]
    split
    · rename_i h; simp [h]
    · simpa using ih (b.foldl (EnvStep.act c) { w with script := l })

theorem waitFlag_cases (c : Cfg) (e : Event) (w : World) :
    (waitFlag c e w).2.trace = w.trace ∧ (waitFlag c e w).2.adcTrigger = w.adcTrigger
    ∧ (waitFlag c e w).2.ev.get e = (waitFlag c e w).1
    ∧ ((waitFlag c e w).1 = false → (waitFlag c e w).2.script = []) := waitLoop_cases c e _ w

/-- A wait for a flag that is 1 is over at once and changes nothing. -/
theorem waitFlag_set {c : Cfg} {e : Event} {w : World} (h : w.ev.get e = true) : waitFlag c e w = (true, w) := by
  unfold waitFlag
  cases hs : w.script with
  | nil => rw [waitLoop, h, ← hs]
  | cons b l => rw [waitLoop, if_pos h, ← hs]

/-- A wait for a flag that is 0 in a quiet environment holds and changes nothing. -/
theorem waitFlag_held {c : Cfg} {e : Event} {w : World} (h : w.ev.get e = false) (hq : w.script = []) :
    waitFlag c e w = (false, w) := by
  rw [waitFlag, hq, waitLoop, h, ← hq]

/-- The second half of a measurement: held with nothing drawn, or one sample drawn; never a fault, and the trigger
pulse is over (44_toc_calibrator.md R212). -/
theorem measureWait_cases (c : Cfg) (w : World) :
    (measureWait c w).2.adcTrigger = false
    ∧ (((measureWait c w).1 = .held ∧ (measureWait c w).2.trace = w.trace ∧ (measureWait c w).2.script = [])
      ∨ ∃ v, (measureWait c w).1 = .sample v ∧ (measureWait c w).2.adcValue = v
        ∧ (measureWait c w).2.trace = .sample v :: w.trace) := by
  obtain ⟨h1, h2, h3, h4⟩ := waitFlag_cases c .sampleReady { w with adcTrigger := false }
  unfold measureWait
  split
  · rename_i he
    rw [he] at h1 h2 h4
    exact ⟨h2, .inl ⟨rfl, h1, h4 rfl⟩⟩
  · rename_i he
    rw [he] at h1 h2
    exact ⟨by simpa [drawSample] using h2, .inr ⟨_, rfl, rfl, by simpa [drawSample] using h1⟩⟩

/-- A verified write keeps the trigger signal. -/
@[simp] theorem writeV_adcTrigger (c : Cfg) (spc : Space) (addr : Addr) (v mask : Byte) (w : World) :
    (writeV c spc addr v mask w).2.adcTrigger = w.adcTrigger := by
  have h : ∀ n (w : World), (verifyLoop c spc addr v mask n w).2.adcTrigger = w.adcTrigger := by
    intro n
    induction n with
    | zero => intro w; rfl
    | succ n ih =>
      intro w
      simp only [verifyLoop]
      split <;> simp [ih]
  exact h _ w

end Sys2Proof.Machine
end

