-- ==== Sys2Proof/Laws/PerInstr.lean ====
section
/-! SUPPORT. Statements about every instruction as syntax, one lemma per constructor. `RowMatch`: the encoder's
word lies in the instruction's row of the opcode table (30_encoding.md R93, R100: `w AND mask = match`). -/

namespace Sys2Proof.Laws

/-- The column `mask` of the opcode table. -/
def rowMask : Instr → Word
  | .rdWv _ => 0xFF0000FF
  | .rdRx _ => 0xFF0000FF
  | .rdTx _ => 0xFF0000FF
  | .rdUs _ => 0xFF0000FF
  | .wrWv _ _ => 0xFF000000
  | .wrRx _ _ => 0xFF000000
  | .wrTx _ _ => 0xFF000000
  | .wrUs _ _ => 0xFF000000
  | .wrvWv _ _ => 0xFF000000
  | .wrvRx _ _ => 0xFF000000
  | .wrvTx _ _ => 0xFF000000
  | .wrvUs _ _ => 0xFF000000
  | .brd _ => 0xFF00FFFF
  | .bwr _ _ => 0xFF0000FF
  | .evclr _ => 0xFFFFFFFC
  | .evwait _ => 0xFFFFFFFC
  | .resNew => 0xFFFFFFFF
  | .decRn16 => 0xFFFFFFFF
  | .decHandle => 0xFFFFFFFF
  | .decRead _ => 0xFFFFFFF0
  | .decWrack => 0xFFFFFFFF
  | .decTag _ _ => 0xFFFFFEF8
  | .resFail _ => 0xFFFFFEFF
  | .hop => 0xFFFFFFFF
  | .setCh _ => 0xFFFFFFE0
  | .skip => 0xFFFFFFFF
  | .alt => 0xFFFFFFFF
  | .calBrute => 0xFFFFFFFF
  | .calGrad => 0xFFFFFFFF
  | .txnRdWv _ => 0xFF0000FF
  | .txnWrWv _ _ => 0xFF000000
  | .txnRdRx _ => 0xFF0000FF
  | .txnWrRx _ _ => 0xFF000000
  | .txnRdTx _ => 0xFF0000FF
  | .txnWrTx _ _ => 0xFF000000
  | .txnRdUs _ => 0xFF0000FF
  | .txnWrUs _ _ => 0xFF000000

/-- The column `match` of the opcode table. -/
def rowMatch : Instr → Word
  | .rdWv _ => 0x10000000
  | .rdRx _ => 0x11000000
  | .rdTx _ => 0x12000000
  | .rdUs _ => 0x13000000
  | .wrWv _ _ => 0x14000000
  | .wrRx _ _ => 0x15000000
  | .wrTx _ _ => 0x16000000
  | .wrUs _ _ => 0x17000000
  | .wrvWv _ _ => 0x18000000
  | .wrvRx _ _ => 0x19000000
  | .wrvTx _ _ => 0x1A000000
  | .wrvUs _ _ => 0x1B000000
  | .brd _ => 0x1C000000
  | .bwr _ _ => 0x1D000000
  | .evclr _ => 0x20000000
  | .evwait _ => 0x21000000
  | .resNew => 0x30000000
  | .decRn16 => 0x31000000
  | .decHandle => 0x32000000
  | .decRead _ => 0x33000000
  | .decWrack => 0x34000000
  | .decTag _ _ => 0x35000000
  | .resFail _ => 0x36000000
  | .hop => 0x40000000
  | .setCh _ => 0x41000000
  | .skip => 0x42000000
  | .alt => 0x43000000
  | .calBrute => 0x51000000
  | .calGrad => 0x52000000
  | .txnRdWv _ => 0x40000000
  | .txnWrWv _ _ => 0x60000000
  | .txnRdRx _ => 0x80000000
  | .txnWrRx _ _ => 0xA0000000
  | .txnRdTx _ => 0x90000000
  | .txnWrTx _ _ => 0xB0000000
  | .txnRdUs _ => 0xC0000000
  | .txnWrUs _ _ => 0xE0000000

end Sys2Proof.Laws

namespace Sys2Proof.Laws.RowMatch

/-- The word of the instruction spells its row. -/
def Statement (i : Instr) : Prop := encode i &&& rowMask i = rowMatch i

theorem rdWv (addr : Addr) : Statement (.rdWv addr) := by
  unfold Statement
  apply BitVec.eq_of_getElem_eq
  intro i hi
  interval_cases i <;>
    simp [encode, rowMask, rowMatch, commandWord, formatA]

theorem rdRx (addr : Addr) : Statement (.rdRx addr) := by
  unfold Statement
  apply BitVec.eq_of_getElem_eq
  intro i hi
  interval_cases i <;>
    simp [encode, rowMask, rowMatch, commandWord, formatA]

theorem rdTx (addr : Addr) : Statement (.rdTx addr) := by
  unfold Statement
  apply BitVec.eq_of_getElem_eq
  intro i hi
  interval_cases i <;>
    simp [encode, rowMask, rowMatch, commandWord, formatA]

theorem rdUs (addr : Addr) : Statement (.rdUs addr) := by
  unfold Statement
  apply BitVec.eq_of_getElem_eq
  intro i hi
  interval_cases i <;>
    simp [encode, rowMask, rowMatch, commandWord, formatA]

theorem wrWv (addr : Addr) (val : Byte) : Statement (.wrWv addr val) := by
  unfold Statement
  apply BitVec.eq_of_getElem_eq
  intro i hi
  interval_cases i <;>
    simp [encode, rowMask, rowMatch, commandWord, formatA]

theorem wrRx (addr : Addr) (val : Byte) : Statement (.wrRx addr val) := by
  unfold Statement
  apply BitVec.eq_of_getElem_eq
  intro i hi
  interval_cases i <;>
    simp [encode, rowMask, rowMatch, commandWord, formatA]

theorem wrTx (addr : Addr) (val : Byte) : Statement (.wrTx addr val) := by
  unfold Statement
  apply BitVec.eq_of_getElem_eq
  intro i hi
  interval_cases i <;>
    simp [encode, rowMask, rowMatch, commandWord, formatA]

theorem wrUs (addr : Addr) (val : Byte) : Statement (.wrUs addr val) := by
  unfold Statement
  apply BitVec.eq_of_getElem_eq
  intro i hi
  interval_cases i <;>
    simp [encode, rowMask, rowMatch, commandWord, formatA]

theorem wrvWv (addr : Addr) (val : Byte) : Statement (.wrvWv addr val) := by
  unfold Statement
  apply BitVec.eq_of_getElem_eq
  intro i hi
  interval_cases i <;>
    simp [encode, rowMask, rowMatch, commandWord, formatA]

theorem wrvRx (addr : Addr) (val : Byte) : Statement (.wrvRx addr val) := by
  unfold Statement
  apply BitVec.eq_of_getElem_eq
  intro i hi
  interval_cases i <;>
    simp [encode, rowMask, rowMatch, commandWord, formatA]

theorem wrvTx (addr : Addr) (val : Byte) : Statement (.wrvTx addr val) := by
  unfold Statement
  apply BitVec.eq_of_getElem_eq
  intro i hi
  interval_cases i <;>
    simp [encode, rowMask, rowMatch, commandWord, formatA]

theorem wrvUs (addr : Addr) (val : Byte) : Statement (.wrvUs addr val) := by
  unfold Statement
  apply BitVec.eq_of_getElem_eq
  intro i hi
  interval_cases i <;>
    simp [encode, rowMask, rowMatch, commandWord, formatA]

theorem brd (sa : Byte) : Statement (.brd sa) := by
  unfold Statement
  apply BitVec.eq_of_getElem_eq
  intro i hi
  interval_cases i <;>
    simp [encode, rowMask, rowMatch, commandWord, formatB]

theorem bwr (sa : Byte) (val : Byte) : Statement (.bwr sa val) := by
  unfold Statement
  apply BitVec.eq_of_getElem_eq
  intro i hi
  interval_cases i <;>
    simp [encode, rowMask, rowMatch, commandWord, formatB]

theorem evclr (ev : Event) : Statement (.evclr ev) := by
  unfold Statement
  cases ev <;> decide

theorem evwait (ev : Event) : Statement (.evwait ev) := by
  unfold Statement
  cases ev <;> decide

theorem resNew : Statement (.resNew) := by
  unfold Statement
  decide

theorem decRn16 : Statement (.decRn16) := by
  unfold Statement
  decide

theorem decHandle : Statement (.decHandle) := by
  unfold Statement
  decide

theorem decRead (n : BitVec 4) : Statement (.decRead n) := by
  unfold Statement
  revert n; decide

theorem decWrack : Statement (.decWrack) := by
  unfold Statement
  decide

theorem decTag (ch : Chan) (flags : TagFlags) : Statement (.decTag ch flags) := by
  unfold Statement
  rcases flags with ⟨_ | _, _ | _, _ | _⟩ <;> cases ch <;> decide

theorem resFail (ch : Chan) : Statement (.resFail ch) := by
  unfold Statement
  cases ch <;> decide

theorem hop : Statement (.hop) := by
  unfold Statement
  decide

theorem setCh (ch : BitVec 5) : Statement (.setCh ch) := by
  unfold Statement
  revert ch; decide

theorem skip : Statement (.skip) := by
  unfold Statement
  decide

theorem alt : Statement (.alt) := by
  unfold Statement
  decide

theorem calBrute : Statement (.calBrute) := by
  unfold Statement
  decide

theorem calGrad : Statement (.calGrad) := by
  unfold Statement
  decide

theorem txnRdWv (addr : Addr) : Statement (.txnRdWv addr) := by
  unfold Statement
  apply BitVec.eq_of_getElem_eq
  intro i hi
  interval_cases i <;>
    simp [encode, rowMask, rowMatch, wordOfQuad, encodeTxn, headerByte]

theorem txnWrWv (addr : Addr) (data : Byte) : Statement (.txnWrWv addr data) := by
  exact (wordOfQuad_masked _).trans (by simp [encodeTxn, headerByte, rowMatch])

theorem txnRdRx (addr : Addr) : Statement (.txnRdRx addr) := by
  unfold Statement
  apply BitVec.eq_of_getElem_eq
  intro i hi
  interval_cases i <;>
    simp [encode, rowMask, rowMatch, wordOfQuad, encodeTxn, headerByte]

theorem txnWrRx (addr : Addr) (data : Byte) : Statement (.txnWrRx addr data) := by
  exact (wordOfQuad_masked _).trans (by simp [encodeTxn, headerByte, rowMatch])

theorem txnRdTx (addr : Addr) : Statement (.txnRdTx addr) := by
  unfold Statement
  apply BitVec.eq_of_getElem_eq
  intro i hi
  interval_cases i <;>
    simp [encode, rowMask, rowMatch, wordOfQuad, encodeTxn, headerByte]

theorem txnWrTx (addr : Addr) (data : Byte) : Statement (.txnWrTx addr data) := by
  exact (wordOfQuad_masked _).trans (by simp [encodeTxn, headerByte, rowMatch])

theorem txnRdUs (addr : Addr) : Statement (.txnRdUs addr) := by
  unfold Statement
  apply BitVec.eq_of_getElem_eq
  intro i hi
  interval_cases i <;>
    simp [encode, rowMask, rowMatch, wordOfQuad, encodeTxn, headerByte]

theorem txnWrUs (addr : Addr) (data : Byte) : Statement (.txnWrUs addr data) := by
  exact (wordOfQuad_masked _).trans (by simp [encodeTxn, headerByte, rowMatch])

end Sys2Proof.Laws.RowMatch
end

