-- ==== Sys2Proof/Machine/Asm.lean ====
section
/-! DEFINITION. The assembler syntax of 30_encoding.md R103: one line of text as the commands it stands for, the
pseudo-instructions of R104 expanded. Nothing of the machine depends on it. -/

namespace Sys2Proof.Machine

-- ---------------------------------------------------------------- tokens

/-- A blank between tokens. -/
def isBlank (c : Char) : Bool := c = ' ' ∨ c = '\t'

/-- The line without its comment (R103: a `;` starts one). -/
def stripComment (l : List Char) : List Char := l.takeWhile (· ≠ ';')

/-- The text without the blanks around it. -/
def trimBlanks (l : List Char) : List Char := ((l.dropWhile isBlank).reverse.dropWhile isBlank).reverse

/-- The pieces between commas; at least one. -/
def splitCommas : List Char → List (List Char)
  | [] => [[]]
  | c :: l =>
    if c = ',' then [] :: splitCommas l
    else
      match splitCommas l with
      | [] => [[c]]
      | p :: ps => (c :: p) :: ps

/-- The operands behind a mnemonic, separated by commas; none when there is no text. -/
def operandsOf (l : List Char) : List (List Char) :=
  match trimBlanks l with
  | [] => []
  | t => (splitCommas t).map trimBlanks

-- ---------------------------------------------------------------- numbers and names

/-- The value of a digit in a base, 10 or 16. -/
def digitValue (base : Nat) (c : Char) : Option Nat :=
  let n := c.toNat
  let v := if 48 ≤ n ∧ n ≤ 57 then n - 48
    else if 65 ≤ n ∧ n ≤ 70 then n - 55
    else if 97 ≤ n ∧ n ≤ 102 then n - 87
    else 16
  if v < base then some v else none

/-- The digits of a number, read on from what is read so far. -/
def digitsFrom (base : Nat) : Nat → List Char → Option Nat
  | acc, [] => some acc
  | acc, c :: l =>
    match digitValue base c with
    | some v => digitsFrom base (base * acc + v) l
    | none => none

/-- A number (R103: decimal, or hexadecimal with `0x`). -/
def number : List Char → Option Nat
  | '0' :: 'x' :: d :: ds => digitsFrom 16 0 (d :: ds)
  | d :: ds => digitsFrom 10 0 (d :: ds)
  | [] => none

/-- A number that fits a field of this width. -/
def fieldOf (w : Nat) (l : List Char) : Option (BitVec w) :=
  match number l with
  | some n => if n < 2 ^ w then some (BitVec.ofNat w n) else none
  | none => none

/-- An event by name or index (R103). -/
def eventOf (l : List Char) : Option Event :=
  match String.ofList l with
  | "radio_done" => some .radioDone
  | "host_ack_a" => some .hostAckA
  | "host_ack_b" => some .hostAckB
  | "sample_ready" => some .sampleReady
  | _ => (fieldOf 2 l).map eventOfIndex

/-- A receive channel (R103). -/
def chanOf (l : List Char) : Option Chan :=
  match l with
  | ['I'] => some .I
  | ['Q'] => some .Q
  | _ => none

/-- The return flags of `DEC.TAG` (R103): the letters in any order, each at most once, or `-` for none. -/
def flagsOf (l : List Char) : Option TagFlags :=
  if l = ['-'] then some ⟨false, false, false⟩
  else if l ≠ [] ∧ l.Nodup ∧ l.all (fun c => c = 'E' ∨ c = 'M' ∨ c = 'L') then
    some ⟨l.contains 'E', l.contains 'M', l.contains 'L'⟩
  else none

-- ---------------------------------------------------------------- lines

/-- An operation on an address (format A of a read). -/
def withAddr (mk : Addr → Instr) (a : List Char) : Option (List Instr) :=
  (fieldOf 16 a).map fun x => [mk x]

/-- An operation on an address and a value (format A of a write). -/
def withAddrVal (mk : Addr → Byte → Instr) (a v : List Char) : Option (List Instr) :=
  (fieldOf 16 a).bind fun x => (fieldOf 8 v).map fun y => [mk x y]

/-- A pseudo-instruction on a byte, expanded (R104). -/
def withByte (c : Cfg) (mk : Byte → Pseudo) (m : List Char) : Option (List Instr) :=
  (fieldOf 8 m).map fun x => (mk x).expand c

/-- The commands a mnemonic with its operands stands for (R103, R104). -/
def assemble (c : Cfg) (mnemonic : String) (ops : List (List Char)) : Option (List Instr) :=
  match mnemonic, ops with
  | "RD.WV", [a] => withAddr .rdWv a
  | "RD.RX", [a] => withAddr .rdRx a
  | "RD.TX", [a] => withAddr .rdTx a
  | "RD.US", [a] => withAddr .rdUs a
  | "WR.WV", [a, v] => withAddrVal .wrWv a v
  | "WR.RX", [a, v] => withAddrVal .wrRx a v
  | "WR.TX", [a, v] => withAddrVal .wrTx a v
  | "WR.US", [a, v] => withAddrVal .wrUs a v
  | "WRV.WV", [a, v] => withAddrVal .wrvWv a v
  | "WRV.RX", [a, v] => withAddrVal .wrvRx a v
  | "WRV.TX", [a, v] => withAddrVal .wrvTx a v
  | "WRV.US", [a, v] => withAddrVal .wrvUs a v
  | "BRD", [sa] => (fieldOf 8 sa).map fun x => [.brd x]
  | "BWR", [sa, v] => (fieldOf 8 sa).bind fun x => (fieldOf 8 v).map fun y => [.bwr x y]
  | "EVCLR", [e] => (eventOf e).map fun x => [.evclr x]
  | "EVWAIT", [e] => (eventOf e).map fun x => [.evwait x]
  | "RES.NEW", [] => some [.resNew]
  | "DEC.RN16", [] => some [.decRn16]
  | "DEC.HANDLE", [] => some [.decHandle]
  | "DEC.READ", [n] => (fieldOf 4 n).map fun x => [.decRead x]
  | "DEC.WRACK", [] => some [.decWrack]
  | "DEC.TAG", [ch, f] => (chanOf ch).bind fun x => (flagsOf f).map fun y => [.decTag x y]
  | "RES.FAIL", [ch] => (chanOf ch).map fun x => [.resFail x]
  | "HOP", [] => some [.hop]
  | "SET", [ch] => (fieldOf 5 ch).map fun x => [.setCh x]
  | "SKIP", [] => some [.skip]
  | "ALT", [] => some [.alt]
  | "CAL.BRUTE", [] => some [.calBrute]
  | "CAL.GRAD", [] => some [.calGrad]
  | "CAL", [] => some (Pseudo.cal.expand c)
  | "GO", [m] => withByte c .go m
  | "IRQACK", [m] => withByte c .irqack m
  | "NEWQ", [m] => withByte c .newq m
  | "ENDLOOP", [m] => withByte c .endloop m
  | "SETMODE", [m] => withByte c .setmode m
  | "EXIT", [] => some (Pseudo.exit.expand c)
  | "SETOFS", [a, b] =>
    (fieldOf 4 a).bind fun x => (fieldOf 4 b).map fun y => (Pseudo.setofs x y).expand c
  | "RUN", [m] => withByte c .run m
  | _, _ => none

/-- The commands one line stands for; an empty line or a comment stands for none, `none` is no line of the
syntax (R103). -/
def assembleLine (c : Cfg) (line : List Char) : Option (List Instr) :=
  match trimBlanks (stripComment line) with
  | [] => some []
  | t => assemble c (String.ofList (t.takeWhile fun x => !isBlank x)) (operandsOf (t.dropWhile fun x => !isBlank x))

end Sys2Proof.Machine
end

