-- ==== Sys2Proof/Tests/Slice0.lean ====
section
/-! SUPPORT. Named tests: words written out from the encodings of 30_encoding.md, ill-formed operands, one step
each against the vectors of 95_test_vectors.md (the vector's number in the comment), and for every statement with
hypotheses a state that meets them all. -/

namespace Sys2Proof.Tests

set_option Elab.async false

open Sys2Proof Sys2Proof.Machine

-- ---------------------------------------------------------------- the bench

/-- The default configuration with the made-up tables of 95_test_vectors.md. -/
def cfg : Cfg :=
  { Cfg.default with
    freqCode := (List.range 25).map fun c => 0xCB0000 + 0x2000 * c
    modeValues := ⟨0, 1, []⟩ }

/-- The start state of the vectors. -/
def bench : State := { State.reset with cfg := cfg }

/-- The same under `READ_RETURN` = `previous`. -/
def benchPrev : State := { bench with cfg := { cfg with readReturn := .previous } }

/-- A state with these bytes in a space, from an address on. -/
def fill (s : State) (spc : Space) (a : Nat) (l : List Byte) : State :=
  { s with world := l.zipIdx.foldl (fun w p => w.poke spc (a + p.2) p.1) s.world }

/-- A state with this script of the environment. -/
def played (s : State) (script : List (List EnvStep)) : State := { s with world := { s.world with script := script } }

/-- A state with these words in the client's hand. -/
def handed (s : State) (l : List Input) : State := { s with client := l }

/-- A state with these FAC registers. -/
def withFac (s : State) (f : Fac) : State := { s with fac := f }

/-- The state an instruction leaves. -/
def after (i : Instr) (s : State) : State :=
  match exec i s with
  | .next t => t
  | .fault _ | .refused _ => s

/-- The state a step leaves. -/
def stepped (s : State) : State :=
  match step s with
  | .next t => t
  | .fault _ | .refused _ => s

/-- The state so many micro-steps leave. -/
def ticked (n : Nat) (s : State) : State :=
  match ticks n s with
  | .next t => t
  | .fault _ | .refused _ => s

/-- The state in which an instruction is begun. -/
def begun (i : Instr) (s : State) : State :=
  match beginOp i s with
  | .next t => t
  | .fault _ | .refused _ => s

/-- A state whose bridge takes its time. -/
def slowed (s : State) : State := { s with world := { s.world with periph := ⟨false, true, none⟩ } }

/-- A state with the deterministic double of 20_memory.md R67. -/
def doubled (s : State) : State := { s with world := { s.world with periph := ⟨true, false, none⟩ } }

/-- The inbound bytes since a state with an empty history. -/
def answers (t : State) : List Quad := (xfersOf t.world.trace).map (·.2)

/-- What was sent since a state with an empty history. -/
def sent (t : State) : List Quad := sentOf t.world.trace

/-- The first bytes of a space. -/
def bytes (t : State) (spc : Space) (a n : Nat) : List Byte := (List.range n).map fun k => t.world.peek spc (a + k)

/-- SDR registers 0x01 to 0x06. -/
def sdrCodes (t : State) : List Byte := (List.range 6).map fun k => t.world.peekSdr (k + 1)

-- ---------------------------------------------------------------- decoding, 30_encoding.md R93, R96, R100; V1

/-- Words and the commands they spell; encoding gives the word back. -/
def spells (l : List (Word × Instr)) : Bool := l.all fun p => decodeCommand p.1 = .ok p.2 ∧ encode p.2 = p.1

theorem test_decode_reads : spells
    [(0x101FFF00, .rdWv 0x1FFF), (0x11001C00, .rdRx 0x001C), (0x12001000, .rdTx 0x0010), (0x13000100, .rdUs 1)] = true := by
  decide +kernel
theorem test_decode_writes : spells
    [(0x140000FF, .wrWv 0 0xFF), (0x15003500, .wrRx 0x35 0), (0x160010A5, .wrTx 0x10 0xA5), (0x17000051, .wrUs 0 0x51)]
      = true := by decide +kernel
theorem test_decode_verified_writes : spells
    [(0x1801007E, .wrvWv 0x100 0x7E), (0x19000000, .wrvRx 0 0), (0x1A0010A5, .wrvTx 0x10 0xA5),
     (0x1B000788, .wrvUs 7 0x88)] = true := by decide +kernel
theorem test_decode_bridge : spells [(0x1C010000, .brd 1), (0x1D04CB00, .bwr 4 0xCB)] = true := by decide +kernel
theorem test_decode_events : spells
    [(0x20000003, .evclr .sampleReady), (0x21000000, .evwait .radioDone), (0x20000001, .evclr .hostAckA),
     (0x21000002, .evwait .hostAckB)] = true := by decide +kernel
theorem test_decode_replies : spells
    [(0x30000000, .resNew), (0x31000000, .decRn16), (0x32000000, .decHandle), (0x3300000C, .decRead 12),
     (0x34000000, .decWrack), (0x35000107, .decTag .Q ⟨true, true, true⟩), (0x35000001, .decTag .I ⟨true, false, false⟩),
     (0x35000002, .decTag .I ⟨false, true, false⟩), (0x35000104, .decTag .Q ⟨false, false, true⟩),
     (0x36000100, .resFail .Q), (0x36000000, .resFail .I)] = true := by decide +kernel
theorem test_decode_frequency : spells
    [(0x40000000, .hop), (0x41000018, .setCh 24), (0x42000000, .skip), (0x43000000, .alt)] = true := by decide +kernel
theorem test_decode_calibration : spells [(0x51000000, .calBrute), (0x52000000, .calGrad)] = true := by decide +kernel

/-- R93: header byte, address high, address low, payload. -/
theorem test_decode_wire :
    ([(0x401FFF00, .txnRdWv 0x1FFF), (0x6001007E, .txnWrWv 0x100 0x7E), (0x80001C00, .txnRdRx 0x1C),
      (0xA0003512, .txnWrRx 0x35 0x12), (0x90001000, .txnRdTx 0x10), (0xB001FFA5, .txnWrTx 0x1FF 0xA5),
      (0xC0000700, .txnRdUs 7), (0xE0000051, .txnWrUs 0 0x51)] : List (Word × Instr)).all
      (fun p => decodeWire p.1 = some p.2 ∧ encode p.2 = p.1) = true := by decide +kernel

/-- V2 to V4: unassigned opcodes. -/
theorem test_bad_opcodes :
    ([0x00000000, 0x50000000, 0x0F000000, 0x1E000000, 0x22000000, 0x37000000, 0x44000000, 0x53000000, 0xFFFFFFFF]
      : List Word).all (fun w => decodeCommand w = .error .badOpcode) = true := by decide +kernel

/-- V5 to V14: a reserved bit set. -/
theorem test_bad_operands :
    ([0x13000101, 0x1C010100, 0x1D04CB01, 0x20000004, 0x21000010, 0x30000001, 0x40000001, 0x42800000, 0x51000001,
      0x3300010C, 0x35000008, 0x36000001, 0x41000020, 0x1C800100] : List Word).all
      (fun w => decodeCommand w = .error .badOperand) = true := by decide +kernel

/-- V4W: reserved headers, and a read with a payload. -/
theorem test_bad_wire :
    ([0x00000000, 0x50000000, 0xD0000000, 0x41000000, 0x20000000, 0x90001001] : List Word).all
      (fun w => decodeWire w = none) = true := by decide +kernel

/-- The words of the opcode table as the host hands them in; 0x40000000 is read as `HOP` (log 12). -/
theorem test_table_words :
    decodeTableWord 32 0x1B000788 = some (.wrvUs 7 0x88) ∧ decodeTableWord 32 0xB001FFA5 = some (.txnWrTx 0x1FF 0xA5)
    ∧ decodeTableWord 32 0x40000000 = some .hop ∧ decodeTableWord 32 0x40000100 = some (.txnRdWv 1)
    ∧ decodeTableWord 32 0x00000000 = none := by decide +kernel

/-- R104 with the operands of 95_test_vectors.md, section 2.1. -/
theorem test_pseudo_words :
    (([.go 0x50, .irqack 0x50, .newq 0x50, .endloop 0x50, .setmode 0x5F, .exit, .setofs 11 5, .cal] : List Pseudo).flatMap
      fun p => (p.expand cfg).map encode)
      = [0x17000051, 0x17000052, 0x17000054, 0x17000058, 0x1B000050, 0x13000100, 0x1B00075B, 0x51000000] := by
  decide +kernel

/-- R103, lines of the programs of 95_test_vectors.md. -/
theorem test_assembler :
    assembleLine cfg "WRV.TX 0x0010, 0xA5     ; Ok".toList = some [.wrvTx 0x10 0xA5]
    ∧ assembleLine cfg "DEC.TAG I, EML".toList = some [.decTag .I ⟨true, true, true⟩]
    ∧ assembleLine cfg "DEC.TAG Q, -".toList = some [.decTag .Q ⟨false, false, false⟩]
    ∧ assembleLine cfg "EVCLR  radio_done".toList = some [.evclr .radioDone]
    ∧ assembleLine cfg "SET 24".toList = some [.setCh 24]
    ∧ assembleLine cfg "; a comment".toList = some []
    ∧ assembleLine cfg "SET 32".toList = none := by decide +kernel

-- ---------------------------------------------------------------- ill-formed terms, R101 step 3

theorem test_ill_address : Instr.wellFormed cfg (.rdWv 0x2000) = false ∧ Instr.wellFormed cfg (.wrRx 0x200 0) = false
    ∧ Instr.wellFormed cfg (.wrvTx 0x200 0) = false ∧ Instr.wellFormed cfg (.rdUs 8) = false
    ∧ Instr.wellFormed cfg (.txnRdUs 8) = false := by decide +kernel
theorem test_ill_volatile : Instr.wellFormed cfg (.wrvUs 1 0) = false ∧ Instr.wellFormed cfg (.wrvUs 4 0) = false
    ∧ Instr.wellFormed cfg (.wrvUs 5 1) = false := by decide +kernel
theorem test_ill_trigger : Instr.wellFormed cfg (.wrvUs 0 0x51) = false ∧ Instr.wellFormed cfg (.wrvUs 0 0x50) = true := by
  decide +kernel
theorem test_ill_sdr : Instr.wellFormed cfg (.brd 128) = false ∧ Instr.wellFormed cfg (.bwr 255 0) = false := by
  decide +kernel
theorem test_ill_length : Instr.wellFormed cfg (.decRead 0) = false ∧ Instr.wellFormed cfg (.decRead 13) = false := by
  decide +kernel
theorem test_ill_channel : Instr.wellFormed cfg (.setCh 25) = false ∧ Instr.wellFormed cfg (.setCh 24) = true := by
  decide +kernel
theorem test_default_cfg_legal : cfg.wf = true := by decide +kernel

-- ---------------------------------------------------------------- one step each, 95_test_vectors.md

/-- V28, V27 and the smallest address of each space. -/
theorem test_read : (after (.rdUs 1) (fill bench .us 1 [0x30])).ret = some (.ok (.byte 0x30))
    ∧ sent (after (.rdUs 1) bench) = [⟨0xC0, 0, 1, 0⟩] := by decide +kernel
theorem test_read_spaces : (after (.rdWv 0x1FFF) (fill bench .wv 0x1FFF [7])).ret = some (.ok (.byte 7))
    ∧ (after (.rdRx 0x1FF) (fill bench .rx 0x1FF [8])).ret = some (.ok (.byte 8))
    ∧ (after (.rdTx 0) (fill bench .tx 0 [9])).ret = some (.ok (.byte 9)) := by decide +kernel
theorem test_read_previous : (after (.rdTx 3) (fill benchPrev .tx 3 [9])).ret = some (.ok (.byte 9))
    ∧ sent (after (.rdTx 3) benchPrev) = [⟨0x90, 0, 3, 0⟩, ⟨0x90, 0, 3, 0⟩] := by decide +kernel
theorem test_write_spaces : (after (.wrWv 0x1FFF 1) bench).world.peek .wv 0x1FFF = 1
    ∧ (after (.wrRx 5 2) bench).world.peek .rx 5 = 2 ∧ (after (.wrTx 6 3) bench).world.peek .tx 6 = 3
    ∧ sent (after (.wrWv 0x1FFF 1) bench) = [⟨0x60, 0x1F, 0xFF, 1⟩] := by decide +kernel
/-- V29: a plain write to `STATUS` is sent and ignored. -/
theorem test_write_status : (after (.wrUs 1 0xFF) (fill bench .us 1 [0x30])).world.peek .us 1 = 0x30 := by decide +kernel
/-- V30: the trigger bits are not stored and the run is counted. -/
theorem test_write_go : (after (.wrUs 0 0x51) bench).fac.runsOnChannel = 1
    ∧ (after (.wrUs 0 0x51) bench).world.peek .us 0 = 0x50 := by decide +kernel
/-- V20 to V22, V26. -/
theorem test_verified_write : (after (.wrvTx 0x10 0xA5) bench).ret = some (.ok .unit)
    ∧ sent (after (.wrvTx 0x10 0xA5) bench) = [⟨0xB0, 0, 0x10, 0xA5⟩, ⟨0x90, 0, 0x10, 0⟩]
    ∧ (after (.wrvUs 0 0x50) bench).ret = some (.ok .unit) ∧ (after (.wrvWv 1 2) bench).world.peek .wv 1 = 2
    ∧ (after (.wrvRx 1 2) bench).world.peek .rx 1 = 2 := by decide +kernel
/-- V26: only bits 7:4 of `CTRL` are compared. -/
theorem test_verified_write_mask :
    (after (.wrvUs 0 0x50) (played bench [[], [.poke .us 0 0x5F]])).ret = some (.ok .unit) := by decide +kernel
/-- V34. -/
theorem test_bridge_read : (after (.brd 1) { bench with world := bench.world.pokeSdr 1 0xCB }).ret = some (.ok (.byte 0xCB))
    ∧ sent (after (.brd 1) bench) = [⟨0xE0, 0, 2, 1⟩, ⟨0xC0, 0, 2, 0⟩, ⟨0xE0, 0, 5, 1⟩, ⟨0xC0, 0, 5, 0⟩, ⟨0xC0, 0, 4, 0⟩] := by
  decide +kernel
/-- V36, V37: a bridge that is never done. -/
theorem test_bridge_timeout : (after (.brd 1) (slowed bench)).ret = some (.fault .bridgeTimeout)
    ∧ (sent (after (.brd 1) (slowed bench))).length = 8
    ∧ (after (.bwr 4 0xCB) (slowed bench)).ret = some (.fault .bridgeTimeout)
    ∧ (sent (after (.bwr 4 0xCB) (slowed bench))).length = 10 := by decide +kernel
/-- 10_state.md R41: `BR_DONE` reads 0 while the transfer is in flight; done before the third poll, the read succeeds. -/
theorem test_bridge_in_flight : (after (.wrUs 5 1) (fill (slowed bench) .us 2 [0x81, 7])).world.periph.flight = some ⟨true, 1, 7⟩
    ∧ (after (.wrUs 5 1) (fill (slowed bench) .us 5 [2])).world.peek .us 5 = 0
    ∧ (after (.brd 1) (played { slowed bench with world := (slowed bench).world.pokeSdr 1 0xCB }
        [[], [], [], [], [], [.bridgeDone]])).ret = some (.ok (.byte 0xCB)) := by decide +kernel
/-- V35. -/
theorem test_bridge_write : (after (.bwr 4 0xCB) bench).world.peekSdr 4 = 0xCB
    ∧ sent (after (.bwr 4 0xCB) bench) = [⟨0xE0, 0, 2, 0x84⟩, ⟨0xC0, 0, 2, 0⟩, ⟨0xE0, 0, 3, 0xCB⟩, ⟨0xC0, 0, 3, 0⟩,
      ⟨0xE0, 0, 5, 1⟩, ⟨0xC0, 0, 5, 0⟩] := by decide +kernel

/-- 40_rtx_transactions.md R123: under `previous` each read of a bridge write is two transactions. -/
theorem test_previous : (after (.bwr 4 0xCB) benchPrev).world.peekSdr 4 = 0xCB
    ∧ (sent (after (.bwr 4 0xCB) benchPrev)).length = 9 ∧ (sent (after .hop benchPrev)).length = 54
    ∧ (after .decRn16 (fill benchPrev .rx 0 [0xFF, 0xFE])).ret = some (.ok (.word16 0xFFFE)) := by decide +kernel

/-- A state with these flags. -/
def flagged (a b c d : Bool) : State := { bench with world := { bench.world with ev := ⟨a, b, c, d⟩ } }

/-- V42. -/
theorem test_evclr : (after (.evclr .sampleReady) (flagged true false false true)).world.ev = ⟨true, false, false, false⟩ := by
  decide +kernel
/-- V44, V48. -/
theorem test_evwait : (after (.evwait .radioDone) (flagged true false false false)).world.ev = ⟨false, false, false, false⟩
    ∧ (after (.evwait .hostAckB) (flagged false true false false)).seq = .evWait .hostAckB := by decide +kernel
/-- V46. -/
theorem test_evwait_lifted :
    (stepped (played { bench with seq := .evWait .radioDone } [[], [.evSet .radioDone]])).ret = some (.ok .unit) := by
  decide +kernel

/-- V49 and V59. -/
theorem test_results : (after .resNew { bench with resI := { TagRead.fresh with pass := true } }).resI = TagRead.fresh
    ∧ (after (.resFail .Q) { bench with resQ := { TagRead.fresh with pass := true, magMain := some (-1) } }).resQ
      = { TagRead.fresh with magMain := some (-1) } := by decide +kernel
/-- V50. -/
theorem test_rn16 : (after .decRn16 (fill bench .rx 0 [0xFF, 0xFE])).ret = some (.ok (.word16 0xFFFE)) := by decide +kernel
/-- V51. -/
theorem test_handle : (after .decHandle (fill bench .rx 2 [0, 0, 0x80, 1])).dec.crc = some 0x8001
    ∧ (after .decHandle (fill bench .rx 2 [0, 0, 0x80, 1])).dec.handle = some 0 := by decide +kernel
/-- V52. -/
theorem test_wrack : (after .decWrack (fill bench .rx 6 [0xDF, 0x77, 0x8E, 0x87, 0x80])).dec
    = { Decoded.fresh with hdr := some true, handle := some 0xBEEF, crc := some 0x1D0F } := by decide +kernel
/-- V53. -/
theorem test_read_reply : (after (.decRead 1) (fill bench .rx 0x0B [0xD2, 0xFF, 0xFF, 0x80, 0, 0x80])).dec
    = { Decoded.fresh with
        hdr := some true
        len := 1
        data := some 0xA5 :: List.replicate 11 none
        handle := some 0xFFFF
        crc := some 1 } := by decide +kernel
/-- V25. -/
theorem test_read_reply_12 : (after (.decRead 12) (fill bench .rx 0x0B [0x71, 0, 9, 0x1A, 0x2B, 0x3C, 0x4D, 0x5E, 0x6F, 0x78,
      8, 0x91, 9, 0x1A, 0x55, 0xE6, 0x80])).dec.data
    = [0xE2, 0, 0x12, 0x34, 0x56, 0x78, 0x9A, 0xBC, 0xDE, 0xF0, 0x11, 0x22].map some := by decide +kernel
/-- V54. -/
def tagged : State := fill bench .rx 0x1C [0x30, 0, 0xE2, 0, 0x12, 0x34, 0x56, 0x78, 0x9A, 0xBC, 0xDE, 0xF0, 0x11, 0x22, 0xBE, 0xEF,
  0xAF, 0xFF, 0xE1, 0xDC, 0, 0, 0x12, 0x34, 0x55, 0x17]
theorem test_tag : (after (.decTag .I ⟨true, true, true⟩) tagged).resI =
    ⟨true, some 0x3000, [0xE2, 0, 0x12, 0x34, 0x56, 0x78, 0x9A, 0xBC, 0xDE, 0xF0, 0x11, 0x22].map some, some 0xBEEF,
      some 0x17, some (-123456), some 74565⟩
    ∧ (sent (after (.decTag .I ⟨true, true, true⟩) tagged)).length = 27 := by decide +kernel
/-- V57. -/
theorem test_tag_exit : (after (.decTag .I ⟨true, true, true⟩) (fill tagged .us 1 [0x23])).ret = some (.ok (.exitCode 3))
    ∧ (sent (after (.decTag .I ⟨true, true, true⟩) (fill tagged .us 1 [0x23]))).length = 1 := by decide +kernel

/-- V60: `EPC_LEN` = 8. -/
theorem test_tag_short :
    let s := fill { bench with cfg := { cfg with epcLen := 8 } } .rx 0x1C
      [0x30, 0, 0xE2, 0, 0x12, 0x34, 0x56, 0x78, 0x9A, 0xBC, 0xBE, 0xEF]
    (after (.decTag .I ⟨true, false, false⟩) s).resI = { TagRead.fresh with
      pass := true
      pc := some 0x3000
      epc := [0xE2, 0, 0x12, 0x34, 0x56, 0x78, 0x9A, 0xBC].map some ++ List.replicate 4 none
      crc := some 0xBEEF }
    ∧ (sent (after (.decTag .I ⟨true, false, false⟩) s)).length = 13 := by decide +kernel
/-- 93_implementation_defined.md K2: another width of a reply field is another layout; here a handle of 8 bits. -/
theorem test_layout_width :
    (after .decHandle (fill { bench with cfg := { cfg with rxLayout := { RxLayout.default with handleRn := ⟨16, 8, 0, 0⟩ } } }
      .rx 2 [0xAB, 0xCD, 0x80, 1])).dec.handle = some 0xAB := by decide +kernel

/-- V61. -/
theorem test_hop : (after .hop bench).ret = some (.ok (.channel 7)) ∧ (after .hop bench).fac = ⟨7, some 7, 0, 0, 0⟩
    ∧ sdrCodes (after .hop bench) = [0xCB, 0xE0, 0, 0xCB, 0xE0, 0] ∧ (sent (after .hop bench)).length = 36 := by
  decide +kernel
/-- 43_fac_frequency.md R191, where R193's corner case says otherwise (log 32): a hop to the channel tuned already keeps
the dwell count. -/
theorem test_hop_to_tuned : (after .hop (withFac bench ⟨0, some 7, 1, 0, 0⟩)).fac = ⟨7, some 7, 1, 0, 0⟩ := by
  decide +kernel
/-- V64. -/
theorem test_set : (after (.setCh 24) (withFac bench ⟨7, some 7, 3, 0, 0⟩)).fac = ⟨7, some 24, 0, 0, 0⟩
    ∧ sdrCodes (after (.setCh 24) bench) = [0xCE, 0, 0, 0xCE, 0, 0] := by decide +kernel
/-- V66, and V69 for the dwell count of a channel tuned already. -/
theorem test_skip : (after .skip (withFac bench ⟨24, none, 0, 0, 0⟩)).ret = some (.ok (.channel 23))
    ∧ (after .skip (withFac bench ⟨0, some 1, 3, 0, 0⟩)).fac.runsOnChannel = 3 := by decide +kernel
/-- V67, V68. -/
theorem test_alt : (after .alt (withFac bench ⟨0, none, 0, 0, 255⟩)).ret = some (.ok (.alt .hop 7 0))
    ∧ (after .alt (withFac bench ⟨7, some 7, 0, 1, 1⟩)).fac = ⟨7, some 8, 0, 0, 1⟩ := by decide +kernel

/-- The sample function `f1` of 95_test_vectors.md, section 2.9. -/
def f1 (a b : Offset) : Nat :=
  100 + 10 * ((a.toNat - 11) + (11 - a.toNat)) + 7 * ((b.toNat - 5) + (5 - b.toNat))

/-- V80. -/
theorem test_cal_brute :
    (after .calBrute (played bench ((sweep.map fun p => f1 p.1 p.2).flatMap (measureTurns cfg)))).ret
      = some (.ok (.cal 11 5 100 .swept)) := by decide +kernel
/-- V83. -/
theorem test_cal_grad :
    let t := after .calGrad (played bench ([151, 141, 161, 158, 144, 131, 121, 131, 131, 131, 128, 114, 107, 100, 107, 110,
      110, 107, 107].flatMap (measureTurns cfg)))
    t.ret = some (.ok (.cal 11 5 100 .localMin)) ∧ (sent t).length = 40 ∧ t.world.peek .us 7 = 0x5B := by decide +kernel

/-- V1W, V2W on the wire; the answer of a read is the byte of its location. -/
theorem test_wire_writes : (after (.txnWrTx 0x1FF 5) bench).world.peek .tx 0x1FF = 5
    ∧ (after (.txnWrWv 0 6) bench).world.peek .wv 0 = 6 ∧ (after (.txnWrRx 1 7) bench).world.peek .rx 1 = 7
    ∧ (after (.txnWrUs 7 8) bench).world.peek .us 7 = 8 := by decide +kernel
theorem test_wire_reads : ([(.txnRdWv 2, ⟨0x40, 0, 2, 0⟩), (.txnRdRx 2, ⟨0x80, 0, 2, 0⟩), (.txnRdTx 2, ⟨0x90, 0, 2, 0⟩),
    (.txnRdUs 2, ⟨0xC0, 0, 2, 0⟩)] : List (Instr × Quad)).all (fun p => sent (after p.1 bench) = [p.2]) = true := by
  decide +kernel
theorem test_wire_answer : ((xfersOf (after (.txnRdUs 7) (fill bench .us 7 [0x5B])).world.trace).map fun p => p.2.b3) = [0x5B] := by
  decide +kernel

/-- V4W: the deterministic double answers a reserved header with 0x00, and a write too. -/
theorem test_double : answers (stepped (handed (doubled bench) [.wire 0x50000001])) = [⟨0, 0, 0, 0⟩]
    ∧ answers (stepped (handed (doubled (fill bench .us 7 [0x5B])) [.wire 0xC0000700])) = [⟨0, 0, 0, 0x5B⟩]
    ∧ answers (stepped (handed (doubled bench) [.wire 0xE0000051])) = [⟨0, 0, 0, 0⟩] := by decide +kernel
/-- 20_memory.md R65: under `previous` a transaction is answered with the location addressed before. -/
theorem test_latch :
    ((answers (after (.txnRdUs 6) (after (.txnWrUs 7 0x5B) benchPrev))).map (·.b3))[1]? = some 0x5B := by decide +kernel

-- ---------------------------------------------------------------- micro-steps, 00_scope.md R11, 10_state.md R24

/-- After two micro-steps of a verified write its write is sent, its read-back and its comparison are to come, with two
attempts left. -/
theorem test_micro_position : (ticked 2 (begun (.wrvTx 0x10 0xA5) bench)).seq =
      .run [.xfer .tx false 0x10 0, .compare .tx 0x10 0xA5 0xFF 2, .ret .unit] ⟨(answers
        (after (.wrTx 0x10 0xA5) bench)).head?.elim 0 (·.b3), ⟨0, []⟩, 0⟩
    ∧ sent (ticked 2 (begun (.wrvTx 0x10 0xA5) bench)) = [⟨0xB0, 0, 0x10, 0xA5⟩] := by
  constructor <;> rfl
/-- The micro-steps of an operation make it. -/
theorem test_micro_steps : ticked 5 (begun (.wrvTx 0x10 0xA5) (doubled bench)) = after (.wrvTx 0x10 0xA5) (doubled bench)
    ∧ ticked 12 (begun (.brd 1) (doubled bench)) = after (.brd 1) (doubled bench)
    ∧ (ticked 1 (begun (.evwait .radioDone) bench)).seq = .evWait .radioDone := by decide +kernel
theorem test_micro_held : tick (begun (.evwait .radioDone) bench) = .next { bench with seq := .evWait .radioDone }
    ∧ tick { bench with seq := .evWait .radioDone } = .fault (.held .radioDone) := ⟨rfl, rfl⟩
/-- A calibration taken up again between two micro-steps of its second measurement. -/
theorem test_micro_calibration :
    let s := doubled (played bench ([151, 141].flatMap (measureTurns cfg)))
    let t := ticked 15 (begun .calGrad s)
    samplesOf t.world.trace = [151] ∧ t.toc.calIter = some 1 ∧ stepped t = after .calGrad s := by decide +kernel

-- ---------------------------------------------------------------- the hypotheses of the statements can be met

theorem witness_CommandDecodeEncode : Instr.isTxn (.rdWv 0xFFFF) = false ∧ Instr.isTxn .calGrad = false := by decide
theorem witness_TransactionDecodeEncode : Instr.isTxn (.txnRdWv 0) = true ∧ Instr.isTxn (.txnWrUs 0xFFFF 0xFF) = true := by
  decide
theorem witness_DecodedWordIsItsEncoding :
    decodeCommand 0x3300000F = .ok (.decRead 15) ∧ decodeWire 0xE00000FF = some (.txnWrUs 0 0xFF) := by decide +kernel
theorem witness_CommandRejectionsByRow :
    decodeCommand 0x0F000000 = .error .badOpcode ∧ decodeCommand 0x10000001 = .error .badOperand := by decide +kernel
theorem witness_TransactionHeaderCodes :
    decodeHeader ⟨0xB0, 1, 0xFF, 0⟩ = some ⟨.tx, true, 0x1FF⟩
    ∧ (0x50 : Byte) ∉ [0x40, 0x60, 0x80, 0xA0, 0x90, 0xB0, 0xC0, (0xE0 : Byte)] := by decide +kernel
theorem witness_StepRunsDecodedCommand :
    Ready (handed bench [.command 0x41000018]) ∧ (handed bench [.command 0x41000018]).client = .command 0x41000018 :: []
    ∧ decodeCommand 0x41000018 = .ok (.setCh 24) := by decide +kernel
theorem witness_StepRunsDecodedTransaction :
    Ready (handed bench [.wire 0xB0000001]) ∧ decodeWire 0xB0000001 = some (.txnWrTx 0 1)
    ∧ Ready (handed bench [.wire 0x00000000]) ∧ decodeWire 0x00000000 = none ∧ Quiet (handed bench [.wire 0x00000000])
    ∧ decodeWire 0x90000001 = none
    ∧ Ready (handed benchPrev [.wire 0xC0000701]) ∧ benchPrev.cfg.readReturn = .previous ∧ decodeWire 0xC0000701 = none
    ∧ decodeHeader (quadOfWord 0xC0000701) = some ⟨.us, false, 7⟩ ∧ decodeHeader (quadOfWord 0) = none := by
  decide +kernel
/-- MicroStepsMakeTheOperation: an operation that ends, one that is held, one that goes on from a hold, and one from
between two micro-steps. -/
theorem witness_MicroStepsMakeTheOperation : (∃ t, exec .decRn16 bench = .next t) ∧ Ready bench
    ∧ (∃ t, exec (.evwait .radioDone) bench = .next t ∧ t.seq = .evWait .radioDone)
    ∧ (∃ t, step (played { bench with seq := .evWait .radioDone } [[.evSet .radioDone]]) = .next t)
    ∧ (begun .decRn16 bench).seq ≠ .idle ∧ (∃ t, step (begun .decRn16 bench) = .next t)
    ∧ ∃ t, tick (begun .decRn16 bench) = .next t :=
  ⟨⟨_, rfl⟩, rfl, ⟨_, rfl, rfl⟩, ⟨_, rfl⟩, by decide +kernel, ⟨_, rfl⟩, ⟨_, rfl⟩⟩
theorem witness_FetchedTableWordRuns :
    0x41000018 < 2 ^ 32 ∧ decodeTableWord 32 0x41000018 = some (.setCh 24) := by decide +kernel
theorem witness_IdleBlockDoesNothing : Ready bench ∧ bench.client = [] ∧ Quiet bench := by decide +kernel

/-- The largest address of each space is legal, the next is not. -/
theorem witness_addresses :
    (cfg.addrOk .wv 0x1FFF ∧ cfg.addrOk .rx 0x1FF ∧ cfg.addrOk .tx 0x1FF ∧ cfg.addrOk .us 7 ∧ cfg.addrOk .wv 0)
    ∧ cfg.size .wv ≤ (0x2000 : Addr).toNat ∧ cfg.size .rx ≤ (0x200 : Addr).toNat ∧ cfg.size .tx ≤ (0x200 : Addr).toNat
    ∧ cfg.size .us ≤ (8 : Addr).toNat ∧ cfg.size .wv ≤ (0xFFFF : Addr).toNat := by decide +kernel
theorem witness_ReadReturnsTheAnswer : (Ready bench ∧ bench.cfg.readReturn = .same ∧ bench.cfg.addrOk .us 7 = true ∧ Quiet bench)
    ∧ Ready benchPrev ∧ benchPrev.cfg.readReturn = .previous ∧ benchPrev.cfg.addrOk .rx 0x1FF = true ∧ Quiet benchPrev := by
  decide +kernel
/-- ReferencePeripheral: a write that starts a bridge transfer in each direction, a reserved header, an address out of
range. -/
theorem witness_ReferencePeripheral : ([0xE0000501, 0xE0000500, 0xE0000051, 0xE00001FF, 0xC0000700, 0x50000000,
      0x80020000, 0xB00010A5] : List Word).all (fun w =>
    let s := handed (doubled (fill bench .us 2 [0x84, 0x77])) [.wire w]
    Double s ∧ memoryOk s = true ∧ s.client = .wire w :: []) = true := by decide +kernel
/-- BridgeTransferInFlight: both directions. -/
theorem witness_BridgeTransferInFlight : (SlowBench (slowed bench) ∧ Quiet (slowed bench) ∧ (0x01 : Byte).getLsbD 0 = true)
    ∧ (let s := played (after (.wrUs 5 1) (fill (slowed bench) .us 2 [0x84, 0x77])) [[.bridgeDone]]
       SlowBench s ∧ s.client = [] ∧ s.world.script = [[.bridgeDone]] ∧ s.world.periph.flight = some ⟨true, 4, 0x77⟩)
    ∧ (let s := played (after (.wrUs 5 1) (fill (slowed bench) .us 2 [0x04])) [[.bridgeDone]]
       SlowBench s ∧ s.client = [] ∧ s.world.script = [[.bridgeDone]] ∧ s.world.periph.flight = some ⟨false, 4, 0⟩) := by
  decide +kernel
theorem witness_AddressRangeRejected :
    Ready bench ∧ bench.cfg.size .us ≤ (8 : Addr).toNat ∧ 127 < (128 : Byte).toNat := by decide +kernel
theorem witness_PlainWriteIsOneTransaction : Ready bench ∧ bench.cfg.addrOk .us 0 = true
    ∧ ¬(Space.us = .us ∧ (0 : Addr) = 0 ∧ goBit bench.cfg.userMap 0x52 = true) := by decide +kernel
theorem witness_QuietPlainWriteStores : Ready bench ∧ Quiet bench ∧ memoryOk bench = true
    ∧ bench.cfg.addrOk .us 2 = true ∧ ((2 : Addr) ≠ 0 ∧ (2 : Addr) ≠ 1 ∧ (2 : Addr) ≠ 4 ∧ (2 : Addr) ≠ 5)
    ∧ bench.cfg.addrOk .wv 0x1FFF = true := by decide +kernel
theorem witness_QuietUserControlBytes : Bench bench ∧ memoryOk bench = true
    ∧ bench.fac.runsOnChannel < bench.cfg.dwellMaxRuns
    ∧ Bench (fill bench .us 2 [0xFF]) ∧ memoryOk (fill bench .us 2 [0xFF]) = true
    ∧ ((fill bench .us 2 [0xFF]).world.peek .us 2).getLsbD 7 = true ∧ (bench.world.peek .us 2).getLsbD 7 = false
    ∧ (0x01 : Byte).getLsbD 0 = true ∧ (0xFE : Byte).getLsbD 0 = false := by decide +kernel
theorem witness_DwellAccounting : Ready bench ∧ bench.cfg.addrOk .us 0 = true ∧ goBit bench.cfg.userMap 0x51 = true
    ∧ (withFac bench ⟨0, none, 11, 0, 0⟩).fac.runsOnChannel < bench.cfg.dwellMaxRuns
    ∧ bench.cfg.dwellMaxRuns ≤ (withFac bench ⟨0, none, 12, 0, 0⟩).fac.runsOnChannel := by decide +kernel
theorem witness_VerifiedWriteProtocol : Ready bench ∧ Ready benchPrev ∧ bench.cfg.addrOk .us 0 = true
    ∧ vMask bench.cfg.userMap .us 0 = some 0xF0
    ∧ ¬(Space.us = .us ∧ (0 : Addr) = 0 ∧ (0x50 : Byte) &&& trigMask bench.cfg.userMap ≠ 0) := by decide +kernel
theorem witness_QuietVerifiedWriteSucceeds : Bench bench ∧ Bench benchPrev ∧ memoryOk bench = true ∧ bench.cfg.addrOk .us 0 = true
    ∧ ((0 : Addr) ≠ 1 ∧ (0 : Addr) ≠ 4 ∧ (0 : Addr) ≠ 5 ∧ ((0 : Addr) = 0 → (0xF0 : Byte) &&& 0x0F = 0)) := by
  decide +kernel
/-- S5: `TX[0x10]` holds 0x00, so many writes of 0xA5 are lost. -/
def lossy (j : Nat) : State := played bench (lossTurns cfg 0x10 (bench.world.peek .tx 0x10) j)
theorem witness_VerifiedWriteSurvivesTwoLosses : ∀ j ∈ [0, 2, 3, 4],
    Ready (lossy j) ∧ memoryOk (lossy j) = true ∧ (lossy j).cfg.addrOk .tx 0x10 = true
    ∧ (lossy j).world.peek .tx 0x10 ≠ 0xA5
    ∧ (lossy j).world.script = lossTurns (lossy j).cfg 0x10 ((lossy j).world.peek .tx 0x10) j := by decide +kernel
/-- V20 to V23. -/
theorem test_lossy : (after (.wrvTx 0x10 0xA5) (lossy 2)).ret = some (.ok .unit)
    ∧ (after (.wrvTx 0x10 0xA5) (lossy 3)).ret = some (.fault .writeVerifyFail)
    ∧ (sent (after (.wrvTx 0x10 0xA5) (lossy 1))).length = 4 := by decide +kernel
theorem witness_VerifyMaskAndRefusals : Ready bench ∧ bench.cfg.addrOk .us 1 = true ∧ bench.cfg.addrOk .us 4 = true
    ∧ bench.cfg.addrOk .us 5 = true ∧ bench.cfg.addrOk .us 0 = true ∧ (0x01 : Byte) &&& trigMask bench.cfg.userMap ≠ 0
    ∧ (0x08 : Byte) &&& trigMask bench.cfg.userMap ≠ 0 := by decide +kernel
/-- QuietBridgeRead, QuietBridgeWrite. -/
theorem witness_QuietBridge : Bench bench ∧ Bench benchPrev ∧ memoryOk bench = true ∧ 1 ≤ bench.cfg.bridgePollMax
    ∧ (127 : Byte).toNat ≤ 127 ∧ (0 : Byte).toNat ≤ 127 := by decide +kernel
theorem witness_BridgeOutcomesAndCounts : Ready bench ∧ Ready benchPrev ∧ (127 : Byte).toNat ≤ 127
    ∧ 3 ≤ bench.cfg.bridgePollMax ∧ 3 ≤ { cfg with bridgePollMax := 3 }.bridgePollMax := by decide +kernel
theorem witness_EvclrClearsItsFlag : Ready bench ∧ Quiet bench ∧ Event.hostAckA ≠ .sampleReady := by decide +kernel
theorem witness_EvwaitConsumesSetFlag : Ready (flagged true false false false)
    ∧ (flagged true false false false).world.ev.get .radioDone = true ∧ Quiet (flagged true false false false) := by
  decide +kernel
theorem witness_EvwaitHoldsUntilSet : Ready bench ∧ Quiet bench ∧ bench.world.ev.get .hostAckB = false
    ∧ Event.hostAckA ≠ .hostAckB := by decide +kernel
theorem witness_decodes : Ready bench ∧ bench.cfg.rxLayout = RxLayout.default ∧ 11 ≤ bench.cfg.rxramSize ∧ Quiet bench
    ∧ Ready benchPrev ∧ benchPrev.cfg.rxLayout = RxLayout.default := by decide +kernel
theorem witness_QuietDecodeRead : RxBench bench ∧ 1 ≤ (1 : BitVec 4).toNat ∧ (12 : BitVec 4).toNat ≤ 12 := by
  decide +kernel
/-- SlowBridgeIsPolled: done at the last poll allowed, and one poll too late, for both operations. -/
theorem witness_SlowBridgeIsPolled : ∀ writes ∈ [1, 2], ∀ k ∈ [0, 4, 5],
    let s := played (slowed bench) (bridgeTurns cfg writes k)
    SlowBench s ∧ (127 : Byte).toNat ≤ 127 ∧ s.world.script = bridgeTurns s.cfg writes k
    ∧ (k < s.cfg.bridgePollMax ↔ k ≤ 4) := by decide +kernel
theorem witness_DecodeTagExitCode : Ready tagged ∧ tagged.cfg.userMap = UserMap.default ∧ Chan.Q ≠ .I
    ∧ ((fill tagged .us 1 [0x23]).world.peek .us 1).extractLsb' 0 4 ≠ 0 := by decide +kernel
theorem witness_QuietDecodeTagFields : ∀ el ∈ [1, 8, 12],
    let s := { tagged with cfg := { tagged.cfg with epcLen := el } }
    RxBench s ∧ 1 ≤ s.cfg.epcLen ∧ s.cfg.epcLen ≤ 12 ∧ (s.world.peek .us 1).extractLsb' 0 4 = 0 := by decide +kernel
theorem witness_QuietRetunesComplete : FacBench bench ∧ FacBench benchPrev ∧ memoryOk bench = true ∧ bench.fac.altPhase = 0
    ∧ FacBench (withFac bench ⟨24, some 24, 12, 1, 255⟩) ∧ (withFac bench ⟨24, some 24, 12, 1, 255⟩).fac.altPhase = 1
    ∧ (24 : BitVec 5).toNat < 25 := by decide +kernel
/-- A peripheral that loses every write to `BR_ADDR`: each retune faults (V70). -/
def faulty : State := played (withFac bench ⟨0, some 3, 5, 0, 0⟩) ((List.replicate 3 [[], [EnvStep.poke .us 2 0]]).flatten)
theorem witness_FailedRetune : ∀ i ∈ [Instr.hop, .setCh 24, .skip, .alt], retunes i = true
    ∧ ∃ t, exec i faulty = .next t ∧ t.ret = some (.fault .writeVerifyFail) := by
  intro i hi
  fin_cases hi
  · exact ⟨rfl, _, rfl, by decide +kernel⟩
  · exact ⟨rfl, _, rfl, by decide +kernel⟩
  · exact ⟨rfl, _, rfl, by decide +kernel⟩
  · exact ⟨rfl, _, rfl, by decide +kernel⟩
/-- OperandsRejected: the bounds of a channel, of a length, and of the SDR addresses of a retune. -/
theorem witness_OperandsRejected : Ready bench ∧ 24 < (25 : BitVec 5).toNat ∧ 24 < (31 : BitVec 5).toNat
    ∧ ((0 : BitVec 4) = 0 ∨ 12 < (0 : BitVec 4).toNat) ∧ ((13 : BitVec 4) = 0 ∨ 12 < (13 : BitVec 4).toNat)
    ∧ (let c : Cfg := { cfg with sdrFrfTxAddr := 125, freqCodeBytes := 4 }
       c.wf = true ∧ 128 < c.sdrFrfTxAddr + c.freqCodeBytes ∧ Ready { bench with cfg := c })
    ∧ (24 : BitVec 5).toNat ≤ 24 := by decide +kernel
theorem witness_HopSequenceVisitsEveryChannel : cfg.hopStep.gcd 25 = 1 ∧ cfg.hopStep = 7
    ∧ ({ cfg with hopStep := 24 } : Cfg).hopStep.gcd 25 = 1 := by decide +kernel
theorem witness_SkipChannelKeepsItsDistance : (1 ≤ cfg.skipOffset ∧ cfg.skipOffset ≤ 12 ∧ cfg.skipWrap = .reflect)
    ∧ (let c : Cfg := { cfg with skipOffset := 12, skipWrap := .modulo }
       1 ≤ c.skipOffset ∧ c.skipOffset ≤ 12 ∧ c.skipWrap = .modulo ∧ 24 < (24 : Channel).val + c.skipOffset) := by
  decide +kernel
/-- 256 samples ready, one a pair of the sweep. -/
def sampled : State := played bench ((sweep.map fun p => f1 p.1 p.2).flatMap (measureTurns cfg))
theorem witness_BruteFindsFirstMinimum : ∃ t, exec .calBrute sampled = .next t ∧ t.seq = .idle
    ∧ t.ret = some (.ok (.cal 11 5 100 .swept)) := ⟨opCalBrute sampled, rfl, by decide +kernel⟩
theorem witness_GradientEndsAtLocalMinimum :
    let s := played bench ([151, 141, 161, 158, 144, 131, 121, 131, 131, 131, 128, 114, 107, 100, 107, 110, 110, 107,
      107].flatMap (measureTurns cfg))
    ∃ t, exec .calGrad s = .next t ∧ t.seq = .idle ∧ t.ret = some (.ok (.cal 11 5 100 .localMin)) :=
  ⟨opCalGrad _, rfl, by decide +kernel⟩
/-- The environment's turns of a held measurement of 99 and of five more measurements. -/
def heldTurns : List (List EnvStep) :=
  [[.adc 99, .evSet .sampleReady], [], []] ++ [141, 161, 158, 144, 131].flatMap (measureTurns cfg)
/-- `CAL.BRUTE` held at its last pair, `CAL.GRAD` at its start point; both go on to their end. -/
def heldBrute : State := played { bench with seq := .brute 15 15 } heldTurns
def heldGrad : State := played { bench with seq := .grad .start, toc := Toc.unwritten.startAt (8, 8) } heldTurns
theorem witness_CalibrationGoesOnAfterHold :
    (step heldBrute = .next (resume heldBrute) ∧ (resume heldBrute).seq = .idle
      ∧ (resume heldBrute).ret = some (.ok (.cal 15 15 99 .swept)))
    ∧ step heldGrad = .next (resume heldGrad) ∧ (resume heldGrad).seq = .idle
      ∧ (resume heldGrad).ret = some (.ok (.cal 8 8 99 .localMin)) :=
  ⟨⟨rfl, by decide +kernel, by decide +kernel⟩, rfl, by decide +kernel, by decide +kernel⟩
/-- The environment's turns of a verified write of `TXOFS` whose three writes are lost: `old` stays. -/
def lostTurns (old : Byte) : List (List EnvStep) := (List.replicate 3 [[], [.poke .us 7 old]]).flatten
/-- V92: `CAL.BRUTE` whose third measurement loses every write. -/
def faultyBrute : State := played bench ([245, 238].flatMap (measureTurns cfg) ++ lostTurns 0x10)
/-- The same of `CAL.GRAD`, whose third measurement is that of (7, 8). -/
def faultyGrad : State := played bench ([151, 141].flatMap (measureTurns cfg) ++ lostTurns 0x89)
/-- V92 of 95_test_vectors.md: the running values stay. -/
theorem test_brute_fault : (after .calBrute faultyBrute).toc = ⟨some 0, some 1, some 238, none, none⟩
    ∧ (after .calBrute faultyBrute).world.peek .us 7 = 0x10 ∧ (sent (after .calBrute faultyBrute)).length = 10 := by
  decide +kernel
/-- 44_toc_calibrator.md R214, R218: the start point is the best so far, one pass is begun. -/
theorem test_grad_fault : (after .calGrad faultyGrad).toc = ⟨some 8, some 8, some 151, none, some 1⟩ := by
  decide +kernel
/-- CalibrationBoundsAndFrame, its fault clause; CalibrationGoesOnAfterHold, a held calibration that ends in a fault. -/
theorem witness_calibration_faults :
    (∀ p ∈ [(Instr.calBrute, faultyBrute), (.calGrad, faultyGrad)],
      (after p.1 p.2).seq = .idle ∧ (after p.1 p.2).ret = some (.fault .writeVerifyFail))
    ∧ (let s := played { bench with seq := .brute 0 0 } ([[.adc 99, .evSet .sampleReady], [], []] ++ lostTurns 0x00)
      (resume s).seq = .idle ∧ (resume s).ret = some (.fault .writeVerifyFail)
        ∧ (resume s).toc = ⟨some 0, some 0, some 99, none, none⟩)
    ∧ (let s := played { bench with seq := .grad .start, toc := Toc.unwritten.startAt (8, 8) }
        ([[.adc 99, .evSet .sampleReady], [], []] ++ lostTurns 0x88)
      (resume s).seq = .idle ∧ (resume s).ret = some (.fault .writeVerifyFail)
        ∧ (resume s).toc = ⟨some 8, some 8, some 99, none, some 1⟩) := by decide +kernel
/-- BruteCompletes, GradientCompletes. -/
theorem witness_calibrations : Ready sampled ∧ 8 ≤ sampled.cfg.userSize
    ∧ memoryOk sampled = true ∧ sampled.world.script = (sweep.map fun p => f1 p.1 p.2).flatMap (measureTurns sampled.cfg)
    ∧ (sweep.map fun p => f1 p.1 p.2).length = 256
    ∧ 1 + 5 * sampled.cfg.calMaxIter ≤ (sweep.map fun p => f1 p.1 p.2).length := by decide +kernel
theorem witness_CalibrationBoundsAndFrame : ∀ i ∈ [Instr.calBrute, .calGrad], calibrates i = true
    ∧ ∃ t, exec i bench = .next t := by
  intro i hi
  fin_cases hi
  · exact ⟨rfl, opCalBrute bench, rfl⟩
  · exact ⟨rfl, opCalGrad bench, rfl⟩
theorem witness_CalibrationHeldWithoutSampler : Ready bench ∧ Quiet bench ∧ 8 ≤ bench.cfg.userSize ∧ memoryOk bench = true := by decide +kernel
theorem witness_QuietTransactionEffects : (Bench bench ∧ memoryOk bench = true ∧ bench.cfg.readReturn = .same
      ∧ bench.cfg.addrOk .rx 0x1FF = true ∧ bench.cfg.addrOk .rx 0x200 = false ∧ bench.cfg.addrOk .us 5 = true)
    ∧ (let s := after (.txnWrUs 7 0x5B) benchPrev
       Bench s ∧ memoryOk s = true ∧ s.cfg.readReturn = .previous ∧ s.world.latch = some ⟨.us, 7⟩
       ∧ s.cfg.addrOk .us 7 = true)
    ∧ ((fill bench .us 2 [0x84]).world.peek .us 2).getLsbD 7 = true ∧ (0x01 : Byte).getLsbD 0 = true := by decide +kernel
theorem witness_OperationsComplete : Ready bench ∧ ({ bench with seq := .evWait .radioDone } : State).seq ≠ .idle
    ∧ (after (.evwait .radioDone) bench).seq ≠ .idle := by decide +kernel
theorem witness_OnlyTheirOwnersWriteRegisters : (∃ t, exec (.rdUs 7) bench = .next t)
    ∧ ∃ t, exec (.evclr .radioDone) (flagged true false false false) = .next t
      ∧ (flagged true false false false).world.ev.get .radioDone = true ∧ t.world.ev.get .radioDone = false :=
  ⟨⟨_, rfl⟩, ⟨_, rfl, rfl, rfl⟩⟩
/-- OnlyTheirOwnersWriteRegisters: a step after which a flag is set that the environment set. -/
theorem witness_flag_from_outside :
    let s := played (handed bench [.command 0x13000700]) [[.evSet .radioDone]]
    (∃ t, step s = .next t) ∧ s.world.ev.get .radioDone = false ∧ (stepped s).world.ev.get .radioDone = true :=
  ⟨⟨_, rfl⟩, rfl, rfl⟩
theorem witness_RejectChangesNothing : ∃ t, exec (.rdUs 8) bench = .next t ∧ t.seq = .idle
    ∧ t.ret = some (.reject .badAddress) := ⟨_, rfl, by decide +kernel, by decide +kernel⟩
theorem witness_BlockEmitsOnlyLegalTransactions :
    (handed bench [.command 0x40000000]).cfg.wf = true ∧ (handed bench [.command 0x40000000]).seq.midway = false ∧ (∃ t, step (handed bench [.command 0x40000000]) = .next t)
    ∧ (handed bench [.command 0x40000000]).client = [.command 0x40000000] := ⟨by decide +kernel, rfl, ⟨_, rfl⟩, rfl⟩
/-- StepKeepsMemoryCanonical, StepKeepsRegisterRanges, with the step below. -/
theorem witness_Invariants : 8 ≤ bench.cfg.userSize ∧ memoryOk bench = true ∧ facOk bench = true ∧ tocOk bench = true
    ∧ decOk bench = true
    ∧ (let t := after .calGrad (played bench ([151, 141].flatMap (measureTurns cfg))); tocOk t = true ∧ t.seq ≠ .idle) := by
  decide +kernel
theorem witness_Invariants_step : (∃ t, step (handed bench [.command 0x40000000]) = .next t)
    ∧ ∃ t, tick (begun .hop bench) = .next t := ⟨⟨_, rfl⟩, ⟨_, rfl⟩⟩
end Sys2Proof.Tests
end

section
/-! The address range of 20_memory.md R63: which operation each instruction of the family runs, and that outside its
range the operation is its rejection. -/

namespace Sys2Proof.Machine

-- ---------------------------------------------------------------- what each instruction runs

/-- The idle block takes an operation and runs it to its end. -/
theorem State.command_of_ready {s : State} (h : Ready s) (run : State → State) : s.command run = .next (run s) := by
  simp only [State.command, h]

theorem exec_readInstr (spc : Space) (addr : Addr) (s : State) :
    exec (readInstr spc addr) s = s.command (opRead spc addr) := by
  cases spc <;> rfl

theorem exec_writeInstr (spc : Space) (addr : Addr) (v : Byte) (s : State) :
    exec (writeInstr spc addr v) s = s.command (opWrite spc addr v) := by
  cases spc <;> rfl

theorem exec_verifyInstr (spc : Space) (addr : Addr) (v : Byte) (s : State) :
    exec (verifyInstr spc addr v) s = s.command (opWriteV spc addr v) := by
  cases spc <;> rfl

theorem exec_brd (sa : Byte) (s : State) : exec (.brd sa) s = s.command (opBridge false sa 0) := rfl

theorem exec_bwr (sa v : Byte) (s : State) : exec (.bwr sa v) s = s.command (opBridge true sa v) := rfl

-- ---------------------------------------------------------------- out of range

theorem addrOk_eq_false_iff (c : Cfg) (spc : Space) (addr : Addr) :
    c.addrOk spc addr = false ↔ c.size spc ≤ addr.toNat := by
  simp [Cfg.addrOk]

theorem opRead_outside {s : State} {spc : Space} {addr : Addr} (h : s.cfg.addrOk spc addr = false) :
    opRead spc addr s = s.reject .badAddress := by
  simp [opRead, h]

theorem opWrite_outside {s : State} {spc : Space} {addr : Addr} (v : Byte) (h : s.cfg.addrOk spc addr = false) :
    opWrite spc addr v s = s.reject .badAddress := by
  simp [opWrite, h]

/-- The range is checked before the two rejections of a verified write (R236). -/
theorem opWriteV_outside {s : State} {spc : Space} {addr : Addr} (v : Byte) (h : s.cfg.addrOk spc addr = false) :
    opWriteV spc addr v s = s.reject .badAddress := by
  simp [opWriteV, h]

theorem opBridge_outside (wnr : Bool) {sa : Byte} (v : Byte) (s : State) (h : 127 < sa.toNat) :
    opBridge wnr sa v s = s.reject .badSdrAddr :=
  if_pos h

-- ---------------------------------------------------------------- the obligation

/-- Settles O16: each instruction runs its shared operation, and that operation looks at the range first; a rejection
is by definition the state with only `ret` replaced, so nothing was sent. -/
theorem addressRangeRejected : Obligations.AddressRangeRejected := by
  refine ⟨fun spc addr v s hready hsize => ?_, fun sa v s hready hsa => ?_⟩
  · have hout : s.cfg.addrOk spc addr = false := (addrOk_eq_false_iff s.cfg spc addr).mpr hsize
    refine ⟨?read, ?write, ?verify⟩
    case read => rw [exec_readInstr, State.command_of_ready hready, opRead_outside hout, State.reject]
    case write => rw [exec_writeInstr, State.command_of_ready hready, opWrite_outside v hout, State.reject]
    case verify => rw [exec_verifyInstr, State.command_of_ready hready, opWriteV_outside v hout, State.reject]
  · constructor
    · rw [exec_brd, State.command_of_ready hready, opBridge_outside false 0 s hsa, State.reject]
    · rw [exec_bwr, State.command_of_ready hready, opBridge_outside true v s hsa, State.reject]

end Sys2Proof.Machine
end

section
/-! The transaction headers of 30_encoding.md R93: which bytes are legal as `T0`, what `DecodeHeader` answers on any
four bytes, and the address as its two bytes side by side (R95). -/

namespace Sys2Proof

-- ---------------------------------------------------------------- the address bytes

/-- The address the decoder builds is `T1` on top of `T2`, so the library's laws of `++` speak about it. -/
theorem addrOfBytes_eq_append (t1 t2 : Byte) : (t1.setWidth 16 <<< 8) ||| t2.setWidth 16 = t1 ++ t2 := by
  rw [BitVec.append_def, BitVec.shiftLeftZeroExtend_eq, BitVec.setWidth'_eq]

theorem toNat_append_bytes (t1 t2 : Byte) : (t1 ++ t2).toNat = t1.toNat * 256 + t2.toNat := by
  rw [BitVec.toNat_append, ← Nat.shiftLeft_add_eq_or_of_lt t2.isLt, Nat.shiftLeft_eq]

-- ---------------------------------------------------------------- the legal values of `T0`

theorem headerByte_mem_legal (spc : Space) (write : Bool) :
    headerByte spc write ∈ ([0x40, 0x60, 0x80, 0xA0, 0x90, 0xB0, 0xC0, 0xE0] : List Byte) := by
  cases spc <;> cases write <;> decide

/-- The reserved values of `T0` decode to nothing (30_encoding.md R94): what decodes is a header byte. -/
theorem decodeHeaderByte_eq_none {t0 : Byte} (h : t0 ∉ [0x40, 0x60, 0x80, 0xA0, 0x90, 0xB0, 0xC0, 0xE0]) :
    decodeHeaderByte t0 = none := by
  refine Option.eq_none_iff_forall_ne_some.mpr fun (spc, write) hdec => h ?_
  rw [headerByte_of_decode hdec]
  exact headerByte_mem_legal spc write

-- ---------------------------------------------------------------- what `DecodeHeader` answers

theorem decodeHeader_eq_none_iff (q : Quad) : decodeHeader q = none ↔ decodeHeaderByte q.b0 = none := by
  unfold decodeHeader
  split <;> simp [*]

theorem decodeHeader_eq_some_iff (q : Quad) (h : Header) :
    decodeHeader q = some h ↔ decodeHeaderByte q.b0 = some (h.spc, h.write) ∧ h.addr = q.b1 ++ q.b2 := by
  obtain ⟨spc, write, addr⟩ := h
  unfold decodeHeader
  split
  next hdec => simp [hdec, addrOfBytes_eq_append, eq_comm, and_assoc]
  next hdec => simp [hdec]

/-- A legal header with its payload byte is the encoding of what it decodes to (30_encoding.md R93). -/
theorem encodeTxn_of_decodeHeader {q : Quad} {h : Header} (hdec : decodeHeader q = some h) : encodeTxn h q.b3 = q := by
  obtain ⟨b0, b1, b2, b3⟩ := q
  obtain ⟨hb0, haddr⟩ := (decodeHeader_eq_some_iff _ h).mp hdec
  simp only [encodeTxn, haddr, Quad.mk.injEq, and_true]
  exact ⟨(headerByte_of_decode hb0).symm, BitVec.extractLsb'_append_eq_left, BitVec.extractLsb'_append_eq_right⟩

-- ---------------------------------------------------------------- the obligation

/-- Settles O5: the eight codes are the model's table read row by row; a header that decodes has the byte of its row as
`T0` and its address split over `T1` and `T2`. -/
theorem transactionHeaderCodes : Obligations.TransactionHeaderCodes := by
  refine ⟨?wvRead, ?wvWrite, ?rxRead, ?rxWrite, ?txRead, ?txWrite, ?usRead, ?usWrite, decodeHeader_encodeTxn,
    fun q h hdec => ?decoded, fun q hreserved => ?reserved⟩
  case wvRead | wvWrite | rxRead | rxWrite | txRead | txWrite | usRead | usWrite => exact fun _ _ => rfl
  case decoded =>
    obtain ⟨-, haddr⟩ := (decodeHeader_eq_some_iff q h).mp hdec
    exact ⟨(encodeTxn_of_decodeHeader hdec).symm, haddr ▸ toNat_append_bytes q.b1 q.b2⟩
  case reserved => exact (decodeHeader_eq_none_iff q).mpr (decodeHeaderByte_eq_none hreserved)

end Sys2Proof
end

section
/-! The verify mask of 40_rtx_transactions.md R126: its value row by row of the table, and the two rejections of a
verified write that follow from it. -/

namespace Sys2Proof.Machine

-- ---------------------------------------------------------------- the mask

theorem vMask_of_ne_us (m : UserMap) {spc : Space} (h : spc ≠ .us) (addr : Addr) : vMask m spc addr = some 0xFF := by
  cases spc with
  | wv | rx | tx => rfl
  | us => exact absurd rfl h

/-- The rows `STATUS`, `BR_RDATA` and `BR_CTRL`, which answer `refuse`. -/
theorem vMask_us_volatile (m : UserMap) {addr : Addr} (h : addr = 1 ∨ addr = 4 ∨ addr = 5) :
    vMask m .us addr = none :=
  if_pos h

/-- The row `CTRL`: the trigger bits are left out of the comparison. -/
theorem vMask_us_ctrl (m : UserMap) : vMask m .us ctrlAddr = some (~~~ trigMask m) := rfl

theorem vMask_us_plain (m : UserMap) {addr : Addr} (h0 : addr ≠ 0) (h1 : addr ≠ 1) (h4 : addr ≠ 4) (h5 : addr ≠ 5) :
    vMask m .us addr = some 0xFF := by
  have hvolatile : ¬(addr = 1 ∨ addr = 4 ∨ addr = 5) := not_or.mpr ⟨h1, not_or.mpr ⟨h4, h5⟩⟩
  exact (if_neg hvolatile).trans (if_neg h0)

theorem trigMask_default : trigMask UserMap.default = 0x0F := by decide

-- ---------------------------------------------------------------- the two rejections

/-- A refused mask rejects whatever the byte, before its trigger bits are looked at (R236). -/
theorem opWriteV_volatile {s : State} {spc : Space} {addr : Addr} (v : Byte) (hin : s.cfg.addrOk spc addr = true)
    (hmask : vMask s.cfg.userMap spc addr = none) : opWriteV spc addr v s = s.reject .verifyVolatile := by
  simp only [opWriteV, hin, if_true, hmask]

/-- `CTRL` has a mask, so the trigger bits of the byte decide. -/
theorem opWriteV_trigger {s : State} {v : Byte} (hin : s.cfg.addrOk .us ctrlAddr = true)
    (htrig : v &&& trigMask s.cfg.userMap ≠ 0) : opWriteV .us ctrlAddr v s = s.reject .verifyTrigger := by
  have hverifies : verifiesTrigger s.cfg .us ctrlAddr v = true := decide_eq_true ⟨rfl, rfl, htrig⟩
  simp only [opWriteV, hin, if_true, vMask_us_ctrl, hverifies]

theorem exec_wrvUs_of_ready {s : State} (hready : Ready s) (addr : Addr) (v : Byte) :
    exec (.wrvUs addr v) s = .next (opWriteV .us addr v s) :=
  (exec_verifyInstr .us addr v s).trans (State.command_of_ready hready _)

-- ---------------------------------------------------------------- the obligation

/-- Settles O24: the mask row by row of its table; the rejections follow, `VERIFY_VOLATILE` from a refused mask and
`VERIFY_TRIGGER` from the trigger bits of a byte for `CTRL`. -/
theorem verifyMaskAndRefusals : Obligations.VerifyMaskAndRefusals := by
  refine ⟨fun m addr => ⟨?wv, ?rx, ?tx, vMask_us_volatile m, vMask_us_plain m⟩, ?ctrl,
    fun addr v s hready hin => ⟨fun hvolatile => ?volatile, fun hctrl htrig => ?trigger⟩⟩
  case wv | rx | tx => exact vMask_of_ne_us m (by decide) addr
  case ctrl => rw [vMask_us_ctrl, trigMask_default]; rfl
  case volatile =>
    rw [exec_wrvUs_of_ready hready, opWriteV_volatile v hin (vMask_us_volatile s.cfg.userMap hvolatile), State.reject]
  case trigger =>
    subst hctrl
    rw [exec_wrvUs_of_ready hready, opWriteV_trigger hin htrig, State.reject]

end Sys2Proof.Machine
end

section
/-! The hop sequence and the skip channel (43_fac_frequency.md R193, R195, R199): where a number of hops leads, that
25 of them meet every channel, and how far a skip goes. -/

namespace Sys2Proof.Machine

-- ---------------------------------------------------------------- the hop sequence

@[simp] theorem nextHop_val (c : Cfg) (ch : Channel) : (nextHop c ch).val = (ch.val + c.hopStep) % 25 := rfl

theorem iterate_nextHop_val (c : Cfg) (k : Nat) (ch : Channel) :
    ((nextHop c)^[k] ch).val = (ch.val + k * c.hopStep) % 25 := by
  induction k with
  | zero => simp [Nat.mod_eq_of_lt ch.isLt]
  | succ k ih => rw [Function.iterate_succ_apply', nextHop_val, ih, Nat.mod_add_mod, Nat.succ_mul, Nat.add_assoc]

theorem iterate_nextHop_period (c : Cfg) (ch : Channel) : (nextHop c)^[25] ch = ch := by
  apply Fin.ext
  rw [iterate_nextHop_val, Nat.add_mul_mod_self_left, Nat.mod_eq_of_lt ch.isLt]

/-- A step coprime with 25 cancels modulo 25, so only hop counts that agree modulo 25 meet. -/
theorem modEq_of_iterate_nextHop_eq {c : Cfg} (hstep : c.hopStep.gcd 25 = 1) {ch : Channel} {j k : Nat}
    (heq : (nextHop c)^[j] ch = (nextHop c)^[k] ch) : j ≡ k [MOD 25] := by
  have hval : ch.val + j * c.hopStep ≡ ch.val + k * c.hopStep [MOD 25] := by
    simpa only [iterate_nextHop_val, Nat.ModEq] using congrArg Fin.val heq
  exact (Nat.ModEq.add_left_cancel' _ hval).cancel_right_of_coprime ((Nat.gcd_comm _ _).trans hstep)

theorem injective_hopRound {c : Cfg} (hstep : c.hopStep.gcd 25 = 1) (ch : Channel) :
    Function.Injective fun k : Fin 25 => (nextHop c)^[k.val + 1] ch := fun j k heq =>
  Fin.ext ((Nat.ModEq.add_right_cancel' 1 (modEq_of_iterate_nextHop_eq hstep heq)).eq_of_lt_of_lt j.isLt k.isLt)

/-- Settles O43: 25 hops are injective because the step cancels modulo 25, and an injection of 25 hops into 25 channels
reaches every channel. -/
theorem hopSequenceVisitsEveryChannel : Obligations.HopSequenceVisitsEveryChannel := by
  refine ⟨fun c ch hstep => ⟨iterate_nextHop_period c ch, fun d => ?visited, ?once⟩, fun c hseven => ?listed⟩
  case visited =>
    obtain ⟨k, hk⟩ := Finite.surjective_of_injective (injective_hopRound hstep ch) d
    exact ⟨k.val, k.isLt, hk⟩
  case once =>
    refine List.nodup_range.map_on fun j hj k hk heq => ?_
    exact Fin.mk.inj (@injective_hopRound c hstep ch ⟨j, List.mem_range.mp hj⟩ ⟨k, List.mem_range.mp hk⟩ heq)
  case listed =>
    simp only [iterate_nextHop_val, hseven]
    decide

-- ---------------------------------------------------------------- the skip channel

theorem skipCh_val_of_reflect {c : Cfg} (hwrap : c.skipWrap = .reflect) (ch : Channel) :
    (skipCh c ch).val = if ch.val + c.skipOffset ≤ 24 then ch.val + c.skipOffset else ch.val - c.skipOffset := by
  simp only [skipCh, hwrap]
  split
  case isTrue hin => exact Nat.mod_eq_of_lt (Nat.lt_succ_of_le hin)
  case isFalse => exact Nat.mod_eq_of_lt (Nat.sub_lt_of_lt ch.isLt)

theorem skipCh_val_of_modulo {c : Cfg} (hwrap : c.skipWrap = .modulo) (ch : Channel) :
    (skipCh c ch).val = (ch.val + c.skipOffset) % 25 := by
  simp only [skipCh, hwrap, Fin.val_ofNat]

/-- With `SKIP_OFFSET` at most 12 a skip that leaves the table at the top has room for it below. -/
theorem skipCh_distance_of_reflect {c : Cfg} (hwrap : c.skipWrap = .reflect) (hmax : c.skipOffset ≤ 12)
    (ch : Channel) : (skipCh c ch).val = ch.val + c.skipOffset ∨ (skipCh c ch).val + c.skipOffset = ch.val := by
  rw [skipCh_val_of_reflect hwrap]
  split
  case isTrue => exact .inl rfl
  case isFalse => right; omega

theorem skipCh_distance_of_modulo {c : Cfg} (hwrap : c.skipWrap = .modulo) (hmax : c.skipOffset ≤ 12) {ch : Channel}
    (htop : 24 < ch.val + c.skipOffset) : (skipCh c ch).val + (25 - c.skipOffset) = ch.val := by
  have hch : ch.val < 25 := ch.isLt
  rw [skipCh_val_of_modulo hwrap]
  omega

theorem skipCh_ne {c : Cfg} (hmin : 1 ≤ c.skipOffset) (hmax : c.skipOffset ≤ 12) (ch : Channel) :
    skipCh c ch ≠ ch := by
  intro heq
  have hval : (skipCh c ch).val = ch.val := congrArg Fin.val heq
  cases hwrap : c.skipWrap with
  | reflect =>
    have hdist := skipCh_distance_of_reflect hwrap hmax ch
    omega
  | modulo =>
    rw [skipCh_val_of_modulo hwrap] at hval
    omega

/-- Settles O44: the value and the distance of each way to wrap, from its own lemma. -/
theorem skipChannelKeepsItsDistance : Obligations.SkipChannelKeepsItsDistance :=
  ⟨⟨rfl, rfl⟩, fun _ ch hmin hmax => ⟨skipCh_ne hmin hmax ch,
    fun hwrap => ⟨skipCh_val_of_reflect hwrap ch, skipCh_distance_of_reflect hwrap hmax ch⟩,
    fun hwrap => ⟨skipCh_val_of_modulo hwrap ch, skipCh_distance_of_modulo hwrap hmax⟩⟩⟩

end Sys2Proof.Machine
end

section
/-! The rejections of 60_exceptions.md R232: an operation either answers its rejection in place of doing anything, or
does not end in one. A calibration or a wait that stays held has no outcome yet, so `ret` is still that of the operation
before it. -/

namespace Sys2Proof.Machine

-- ---------------------------------------------------------------- how an operation ends

/-- The state is not the end of a rejected operation: an operation still in progress has not set `ret` (R230). -/
def NotRejected (t : State) : Prop := t.seq = .idle → ∀ c, t.ret ≠ some (.reject c)

/-- Wherever the operation starts, its rejection is all it does, or it does not end in one (R232). -/
def RejectsAtOnce (run : State → State) : Prop := ∀ s, (∃ c, run s = s.reject c) ∨ NotRejected (run s)

theorem notRejected_finish (s : State) (v : Value) : NotRejected (s.finish v) := fun _ _ => by simp

theorem notRejected_raise (s : State) (f : FaultCode) : NotRejected (s.raise f) := fun _ _ => by simp

theorem notRejected_conclude (s : State) (f : Option FaultCode) (v : Value) : NotRejected (s.conclude f v) := by
  cases f with
  | none => exact notRejected_finish s v
  | some f => exact notRejected_raise s f

theorem notRejected_held {t : State} (h : t.seq ≠ .idle) : NotRejected t := fun hidle => absurd hidle h

theorem rejectsAtOnce_of_notRejected {run : State → State} (h : ∀ s, NotRejected (run s)) : RejectsAtOnce run :=
  fun s => .inr (h s)

/-- Only the idle block takes an operation. -/
theorem State.command_eq_next {s t : State} {run : State → State} (h : s.command run = .next t) : run s = t := by
  unfold State.command at h
  split at h
  case h_1 => exact Host.Outcome.next.inj h
  all_goals cases h

/-- A command that ends in a rejection did nothing else. -/
theorem RejectsAtOnce.eq_reject {run : State → State} (hrun : RejectsAtOnce run) {s t : State} {c : RejectCode}
    (h : s.command run = .next t) (hidle : t.seq = .idle) (hret : t.ret = some (.reject c)) : t = s.reject c := by
  obtain rfl := State.command_eq_next h
  rcases hrun s with ⟨c', hreject⟩ | hnot
  · rw [hreject, State.reject_ret, Option.some.injEq, OpOutcome.reject.injEq] at hret
    rw [hreject, hret]
  · exact absurd hret (hnot hidle c)

-- ---------------------------------------------------------------- RTX and EVT

theorem rejectsAtOnce_opRead (spc : Space) (addr : Addr) : RejectsAtOnce (opRead spc addr) := by
  intro s
  unfold opRead
  split
  case isTrue => exact .inr (notRejected_finish _ _)
  case isFalse => exact .inl ⟨_, rfl⟩

theorem rejectsAtOnce_opWrite (spc : Space) (addr : Addr) (v : Byte) : RejectsAtOnce (opWrite spc addr v) := by
  intro s
  cases hin : s.cfg.addrOk spc addr with
  | false => exact .inl ⟨_, opWrite_outside v hin⟩
  | true =>
    simp only [opWrite, hin, if_true]
    split
    case isFalse => exact .inr (notRejected_finish _ _)
    case isTrue =>
      split
      case isTrue => exact .inl ⟨_, rfl⟩
      case isFalse => exact .inr (notRejected_finish _ _)

theorem rejectsAtOnce_opWriteV (spc : Space) (addr : Addr) (v : Byte) : RejectsAtOnce (opWriteV spc addr v) := by
  intro s
  cases hin : s.cfg.addrOk spc addr with
  | false => exact .inl ⟨_, opWriteV_outside v hin⟩
  | true =>
    cases hmask : vMask s.cfg.userMap spc addr with
    | none => exact .inl ⟨_, opWriteV_volatile v hin hmask⟩
    | some mask =>
      simp only [opWriteV, hin, if_true, hmask]
      split
      case isTrue => exact .inl ⟨_, rfl⟩
      case isFalse => exact .inr (notRejected_conclude _ _ _)

theorem rejectsAtOnce_opBridge (wnr : Bool) (sa v : Byte) : RejectsAtOnce (opBridge wnr sa v) := by
  intro s
  by_cases hsa : 127 < sa.toNat
  case pos => exact .inl ⟨_, opBridge_outside wnr v s hsa⟩
  case neg =>
    simp only [opBridge, hsa, if_false]
    split
    · exact .inr (notRejected_raise _ _)
    · exact .inr (notRejected_finish _ _)

theorem notRejected_opEvwait (e : Event) (s : State) : NotRejected (opEvwait e s) := by
  unfold opEvwait
  split
  · exact notRejected_held nofun
  · exact notRejected_finish _ _

-- ---------------------------------------------------------------- RXD

theorem rejectsAtOnce_opReply (r : Reply) : RejectsAtOnce (opReply r) :=
  rejectsAtOnce_of_notRejected fun _ => notRejected_finish _ _

theorem rejectsAtOnce_opDecRead (n : BitVec 4) : RejectsAtOnce (opDecRead n) := by
  intro s
  unfold opDecRead
  split
  case isTrue => exact .inl ⟨_, rfl⟩
  case isFalse => exact rejectsAtOnce_opReply (.read n) s

theorem notRejected_opDecTag (ch : Chan) (f : TagFlags) (s : State) : NotRejected (opDecTag ch f s) := by
  simp only [opDecTag]
  split
  case isTrue => exact notRejected_finish _ _
  case isFalse => exact notRejected_finish _ _

-- ---------------------------------------------------------------- FAC

/-- A retune adds one rejection, made before the operation is looked at (log 19). -/
theorem RejectsAtOnce.retune {run : State → State} (hrun : RejectsAtOnce run) :
    RejectsAtOnce (Machine.retune run) := by
  intro s
  unfold Machine.retune
  split
  case isTrue => exact hrun s
  case isFalse => exact .inl ⟨_, rfl⟩

theorem rejectsAtOnce_opTune (ch : Channel) : RejectsAtOnce (opTune ch) :=
  rejectsAtOnce_of_notRejected fun _ => notRejected_conclude _ _ _

theorem rejectsAtOnce_opSet (ch : BitVec 5) : RejectsAtOnce (opSet ch) := by
  intro s
  unfold opSet
  split
  case isTrue => exact .inl ⟨_, rfl⟩
  case isFalse => exact (rejectsAtOnce_opTune _).retune s

theorem notRejected_opAltHop (s : State) : NotRejected (opAltHop s) := by
  simp only [opAltHop]
  split
  · exact notRejected_raise _ _
  · exact notRejected_finish _ _

theorem notRejected_opAltSkip (s : State) : NotRejected (opAltSkip s) := by
  simp only [opAltSkip]
  split
  · exact notRejected_raise _ _
  · exact notRejected_finish _ _

theorem notRejected_opAlt (s : State) : NotRejected (opAlt s) := by
  unfold opAlt
  split
  case isTrue => exact notRejected_opAltHop s
  case isFalse => exact notRejected_opAltSkip s

-- ---------------------------------------------------------------- TOC

theorem notRejected_calFinish (exit : CalExit) (s : State) : NotRejected (calFinish exit s) := by
  simp only [calFinish]
  split
  · exact notRejected_raise _ _
  · exact notRejected_finish _ _

theorem notRejected_bruteFrom (l : List (Offset × Offset)) (s : State) : NotRejected (bruteFrom l s) := by
  induction l generalizing s with
  | nil => exact notRejected_calFinish .swept s
  | cons p l ih =>
    simp only [bruteFrom]
    split
    case h_1 => exact notRejected_raise _ _
    case h_2 => exact notRejected_held nofun
    case h_3 => exact ih _

/-- A pass of the descent does not end the operation in a rejection; one that goes on has not ended it. -/
def Pass.NotRejected : Pass → Prop
  | .again _ => True
  | .stop t => Machine.NotRejected t

theorem notRejected_probeFrom (l : List Dir) (cand : Option Cand) (s : State) : (probeFrom l cand s).NotRejected := by
  induction l generalizing cand s with
  | nil =>
    cases cand with
    | none => exact notRejected_calFinish .localMin s
    | some c => trivial
  | cons d l ih =>
    simp only [probeFrom]
    split
    case h_1 => exact ih _ _
    case h_2 =>
      split
      case h_1 => exact notRejected_raise _ _
      case h_2 => exact notRejected_held nofun
      case h_3 => exact ih _ _

theorem notRejected_alongTake (a b : Offset) (v : Nat) (s : State) : (alongTake a b v s).NotRejected := by
  unfold alongTake
  split
  case isTrue => trivial
  case isFalse => exact notRejected_probeFrom _ _ _

theorem notRejected_gradPass (s : State) : (gradPass s).NotRejected := by
  simp only [gradPass]
  split
  case h_1 => exact notRejected_probeFrom _ _ _
  case h_2 =>
    split
    case h_1 => exact notRejected_probeFrom _ _ _
    case h_2 =>
      split
      case h_1 => exact notRejected_raise _ _
      case h_2 => exact notRejected_held nofun
      case h_3 => exact notRejected_alongTake _ _ _ _

theorem notRejected_gradLoop (k : Nat) (s : State) : NotRejected (gradLoop k s) := by
  induction k generalizing s with
  | zero => exact notRejected_calFinish .iterCap s
  | succ k ih =>
    have hpass := notRejected_gradPass s
    unfold gradLoop
    split
    case h_1 => exact ih _
    case h_2 hstop => rwa [hstop] at hpass

theorem notRejected_opCalGrad (s : State) : NotRejected (opCalGrad s) := by
  simp only [opCalGrad]
  split
  case h_1 => exact notRejected_raise _ _
  case h_2 => exact notRejected_held nofun
  case h_3 => exact notRejected_gradLoop _ _

-- ---------------------------------------------------------------- every command

/-- Every command is one operation handed to the idle block, and that operation rejects at once or not at all. -/
theorem exec_rejectsAtOnce (i : Instr) (hcmd : i.isTxn = false) :
    ∃ run, RejectsAtOnce run ∧ ∀ s, exec i s = s.command run := by
  cases i with
  | rdWv a => exact ⟨_, rejectsAtOnce_opRead .wv a, exec_readInstr .wv a⟩
  | rdRx a => exact ⟨_, rejectsAtOnce_opRead .rx a, exec_readInstr .rx a⟩
  | rdTx a => exact ⟨_, rejectsAtOnce_opRead .tx a, exec_readInstr .tx a⟩
  | rdUs a => exact ⟨_, rejectsAtOnce_opRead .us a, exec_readInstr .us a⟩
  | wrWv a v => exact ⟨_, rejectsAtOnce_opWrite .wv a v, exec_writeInstr .wv a v⟩
  | wrRx a v => exact ⟨_, rejectsAtOnce_opWrite .rx a v, exec_writeInstr .rx a v⟩
  | wrTx a v => exact ⟨_, rejectsAtOnce_opWrite .tx a v, exec_writeInstr .tx a v⟩
  | wrUs a v => exact ⟨_, rejectsAtOnce_opWrite .us a v, exec_writeInstr .us a v⟩
  | wrvWv a v => exact ⟨_, rejectsAtOnce_opWriteV .wv a v, exec_verifyInstr .wv a v⟩
  | wrvRx a v => exact ⟨_, rejectsAtOnce_opWriteV .rx a v, exec_verifyInstr .rx a v⟩
  | wrvTx a v => exact ⟨_, rejectsAtOnce_opWriteV .tx a v, exec_verifyInstr .tx a v⟩
  | wrvUs a v => exact ⟨_, rejectsAtOnce_opWriteV .us a v, exec_verifyInstr .us a v⟩
  | brd sa => exact ⟨_, rejectsAtOnce_opBridge false sa 0, exec_brd sa⟩
  | bwr sa v => exact ⟨_, rejectsAtOnce_opBridge true sa v, exec_bwr sa v⟩
  | evclr e => exact ⟨opEvclr e, rejectsAtOnce_of_notRejected fun _ => notRejected_finish _ _, fun _ => rfl⟩
  | evwait e => exact ⟨opEvwait e, rejectsAtOnce_of_notRejected (notRejected_opEvwait e), fun _ => rfl⟩
  | resNew => exact ⟨opResNew, rejectsAtOnce_of_notRejected fun _ => notRejected_finish _ _, fun _ => rfl⟩
  | decRn16 => exact ⟨_, rejectsAtOnce_opReply .rn16, fun _ => rfl⟩
  | decHandle => exact ⟨_, rejectsAtOnce_opReply .handle, fun _ => rfl⟩
  | decRead n => exact ⟨_, rejectsAtOnce_opDecRead n, fun _ => rfl⟩
  | decWrack => exact ⟨_, rejectsAtOnce_opReply .wrack, fun _ => rfl⟩
  | decTag ch f => exact ⟨opDecTag ch f, rejectsAtOnce_of_notRejected (notRejected_opDecTag ch f), fun _ => rfl⟩
  | resFail ch => exact ⟨opResFail ch, rejectsAtOnce_of_notRejected fun _ => notRejected_finish _ _, fun _ => rfl⟩
  | hop =>
    have hhop : RejectsAtOnce opHop := rejectsAtOnce_of_notRejected fun _ => notRejected_conclude _ _ _
    exact ⟨_, hhop.retune, fun _ => rfl⟩
  | setCh ch => exact ⟨_, rejectsAtOnce_opSet ch, fun _ => rfl⟩
  | skip =>
    have hskip : RejectsAtOnce opSkip := fun s => rejectsAtOnce_opTune (skipCh s.cfg s.fac.hopChannel) s
    exact ⟨_, hskip.retune, fun _ => rfl⟩
  | alt => exact ⟨_, (rejectsAtOnce_of_notRejected notRejected_opAlt).retune, fun _ => rfl⟩
  | calBrute =>
    have hbrute : ∀ s, NotRejected (opCalBrute s) := fun s => notRejected_bruteFrom sweep _
    exact ⟨_, rejectsAtOnce_of_notRejected hbrute, fun _ => rfl⟩
  | calGrad => exact ⟨_, rejectsAtOnce_of_notRejected notRejected_opCalGrad, fun _ => rfl⟩
  | txnRdWv | txnWrWv | txnRdRx | txnWrRx | txnRdTx | txnWrTx | txnRdUs | txnWrUs => cases hcmd

-- ---------------------------------------------------------------- a word that spells no command

theorem step_of_ready_input {s : State} {inp : Input} {rest : List Input} (hready : Ready s)
    (hclient : s.client = inp :: rest) : step s = runInput inp { s with client := rest } := by
  simp only [step, hready, Seq.waitsFor, hclient]

theorem runCommand_of_error {w : Word} {e : DecodeError} (hdec : decodeCommand w = .error e) (s : State) :
    runCommand w s = .next (s.reject (rejectOfDecode e)) := by
  simp only [runCommand, hdec]

-- ---------------------------------------------------------------- the obligation

/-- Settles O55: the operation of each command rejects at once or not at all, and an undecodable word is nothing but its
rejection; `State.reject` replaces `ret` alone. -/
theorem rejectChangesNothing : Obligations.RejectChangesNothing := by
  refine ⟨fun i s t c hcmd hexec hidle hret => ?command, fun s w rest e hready hclient hdec => ?undecodable⟩
  case command =>
    obtain ⟨run, hrun, hdispatch⟩ := exec_rejectsAtOnce i hcmd
    rw [hdispatch s] at hexec
    exact hrun.eq_reject hexec hidle hret
  case undecodable =>
    rw [step_of_ready_input hready hclient, runInput, runCommand_of_error hdec, State.reject]

end Sys2Proof.Machine
end

section
/-! The two encodings of 30_encoding.md, there and back: a command word is its opcode over its 24 operand bits, the
reserved bits of a row are those its format leaves 0, and four bytes on the wire are a header and a payload. -/

namespace Sys2Proof

-- ---------------------------------------------------------------- from the instruction to the word

/-- Every instruction's word lies in its row of the opcode table. -/
theorem encode_rowMatch (i : Instr) : Laws.RowMatch.Statement i := by
  cases i with
  | rdWv a => exact Laws.RowMatch.rdWv a
  | rdRx a => exact Laws.RowMatch.rdRx a
  | rdTx a => exact Laws.RowMatch.rdTx a
  | rdUs a => exact Laws.RowMatch.rdUs a
  | wrWv a v => exact Laws.RowMatch.wrWv a v
  | wrRx a v => exact Laws.RowMatch.wrRx a v
  | wrTx a v => exact Laws.RowMatch.wrTx a v
  | wrUs a v => exact Laws.RowMatch.wrUs a v
  | wrvWv a v => exact Laws.RowMatch.wrvWv a v
  | wrvRx a v => exact Laws.RowMatch.wrvRx a v
  | wrvTx a v => exact Laws.RowMatch.wrvTx a v
  | wrvUs a v => exact Laws.RowMatch.wrvUs a v
  | brd sa => exact Laws.RowMatch.brd sa
  | bwr sa v => exact Laws.RowMatch.bwr sa v
  | evclr e => exact Laws.RowMatch.evclr e
  | evwait e => exact Laws.RowMatch.evwait e
  | resNew => exact Laws.RowMatch.resNew
  | decRn16 => exact Laws.RowMatch.decRn16
  | decHandle => exact Laws.RowMatch.decHandle
  | decRead n => exact Laws.RowMatch.decRead n
  | decWrack => exact Laws.RowMatch.decWrack
  | decTag ch f => exact Laws.RowMatch.decTag ch f
  | resFail ch => exact Laws.RowMatch.resFail ch
  | hop => exact Laws.RowMatch.hop
  | setCh ch => exact Laws.RowMatch.setCh ch
  | skip => exact Laws.RowMatch.skip
  | alt => exact Laws.RowMatch.alt
  | calBrute => exact Laws.RowMatch.calBrute
  | calGrad => exact Laws.RowMatch.calGrad
  | txnRdWv a => exact Laws.RowMatch.txnRdWv a
  | txnWrWv a v => exact Laws.RowMatch.txnWrWv a v
  | txnRdRx a => exact Laws.RowMatch.txnRdRx a
  | txnWrRx a v => exact Laws.RowMatch.txnWrRx a v
  | txnRdTx a => exact Laws.RowMatch.txnRdTx a
  | txnWrTx a v => exact Laws.RowMatch.txnWrTx a v
  | txnRdUs a => exact Laws.RowMatch.txnRdUs a
  | txnWrUs a v => exact Laws.RowMatch.txnWrUs a v

/-- The bits a row reserves are those of its mask below the opcode; a row's match has none of them. -/
def reservedBits (i : Instr) : Word := Laws.rowMask i &&& 0x00FFFFFF

theorem encode_reserved (i : Instr) : encode i &&& reservedBits i = 0 := by
  have hmatch : Laws.rowMatch i &&& 0x00FFFFFF = 0 := by cases i <;> simp [Laws.rowMatch]
  have hrow : encode i &&& Laws.rowMask i = Laws.rowMatch i := encode_rowMatch i
  rw [reservedBits, ← BitVec.and_assoc, hrow, hmatch]

@[simp] theorem fieldEvent_formatE (op : Byte) (e : Event) :
    eventOfIndex ((commandWord op (formatE e)).extractLsb' 0 2) = e := by
  have hbits : (commandWord op (formatE e)).extractLsb' 0 2 = e.index := by
    apply BitVec.eq_of_getElem_eq
    intro i hi
    interval_cases i <;> simp [commandWord, formatE]
  rw [hbits, eventOfIndex_index]

@[simp] theorem fieldLen_formatD (op : Byte) (ch : BitVec 1) (n : BitVec 4) :
    (commandWord op (formatD ch n)).extractLsb' 0 4 = n := by
  apply BitVec.eq_of_getElem_eq
  intro i hi
  interval_cases i <;> simp [commandWord, formatD]

@[simp] theorem fieldCh_formatF (op : Byte) (ch : BitVec 5) :
    (commandWord op (formatF ch)).extractLsb' 0 5 = ch := by
  apply BitVec.eq_of_getElem_eq
  intro i hi
  interval_cases i <;> simp [commandWord, formatF]

@[simp] theorem fieldChan_formatD (op : Byte) (ch : Chan) (n : BitVec 4) :
    fieldChan (commandWord op (formatD ch.bit n)) = ch := by
  cases ch <;> simp [fieldChan, commandWord, formatD, Chan.bit]

theorem TagFlags.ofBits (f : TagFlags) :
    f.bits.getLsbD 0 = f.e ∧ f.bits.getLsbD 1 = f.m ∧ f.bits.getLsbD 2 = f.l
    ∧ f.bits.getLsbD 3 = false := by
  obtain ⟨e, m, l⟩ := f
  revert e m l
  decide

@[simp] theorem fieldFlags_formatD (op : Byte) (ch : BitVec 1) (f : TagFlags) :
    fieldFlags (commandWord op (formatD ch f.bits)) = f := by
  have hbit : ∀ i < 3, (commandWord op (formatD ch f.bits)).getLsbD i = f.bits.getLsbD i := fun i hi => by
    interval_cases i <;> simp [commandWord, formatD]
  obtain ⟨he, hm, hl, -⟩ := f.ofBits
  simp only [fieldFlags, hbit 0 (by decide), hbit 1 (by decide), hbit 2 (by decide), he, hm, hl]

/-- The opcode selects the row, and every operand is read back from where its format put it. -/
theorem decodeCommand_encode (i : Instr) (hcmd : i.isTxn = false) :
    decodeCommand (encode i) = fitted (encode i) (reservedBits i) i := by
  cases i with
  | txnRdWv | txnWrWv | txnRdRx | txnWrRx | txnRdTx | txnWrTx | txnRdUs | txnWrUs => cases hcmd
  | _ =>
    simp only [decodeCommand, encode, opcode_commandWord, fieldAddr_formatA, fieldVal_formatA, fieldSa_formatB,
      fieldBval_formatB, fieldEvent_formatE, fieldLen_formatD, fieldChan_formatD, fieldFlags_formatD, fieldCh_formatF,
      BitVec.reduceToNat, reservedBits, Laws.rowMask]
    rfl

/-- Settles O1: the decoder reads the instruction back from its row, and the reserved bits it checks are 0. -/
theorem commandDecodeEncode : Obligations.CommandDecodeEncode := fun i hcmd => by
  rw [decodeCommand_encode i hcmd]
  exact if_pos (encode_reserved i)

/-- Settles O2: the four bytes are the header and payload they were made of. -/
theorem transactionDecodeEncode : Obligations.TransactionDecodeEncode := by
  intro i htxn
  cases i with
  | txnRdWv | txnWrWv | txnRdRx | txnWrRx | txnRdTx | txnWrTx | txnRdUs | txnWrUs => simp [decodeWire, encode]
  | _ => cases htxn

-- ---------------------------------------------------------------- from the word to the instruction

theorem commandWord_of_fields {w : Word} {op : Byte} {x : BitVec 24} (hop : w.extractLsb' 24 8 = op)
    (hx : x = w.extractLsb' 0 24) : commandWord op x = w := by
  subst hop hx
  apply BitVec.eq_of_getElem_eq
  intro i hi
  interval_cases i <;> simp [commandWord]

/-- A word with its reserved bits 0 has each of them 0. -/
theorem bit_of_reserved {w m : Word} (h : w &&& m = 0) (i : Nat) (hi : m.getLsbD i = true) : w.getLsbD i = false := by
  simpa [hi] using congrArg (fun x => x.getLsbD i) h

section operands

variable {w : Word}

theorem formatA_fields : formatA (fieldAddr w) (fieldVal w) = w.extractLsb' 0 24 := by
  apply BitVec.eq_of_getElem_eq
  intro i hi
  interval_cases i <;> simp [formatA, fieldAddr, fieldVal]

theorem formatA_field (h : w &&& 0x000000FF = 0) : formatA (fieldAddr w) 0 = w.extractLsb' 0 24 := by
  have hval : fieldVal w = 0 := by
    apply BitVec.eq_of_getElem_eq
    intro i hi
    have hbit := bit_of_reserved h i
    interval_cases i <;> simpa [fieldVal] using hbit rfl
  rw [← hval, formatA_fields]

theorem formatB_fields (h : w &&& 0x000000FF = 0) : formatB (fieldSa w) (fieldBval w) = w.extractLsb' 0 24 := by
  apply BitVec.eq_of_getElem_eq
  intro i hi
  have hbit := bit_of_reserved h i
  interval_cases i <;> simp [formatB, fieldSa, fieldBval] <;> exact hbit rfl

theorem formatB_field (h : w &&& 0x0000FFFF = 0) : formatB (fieldSa w) 0 = w.extractLsb' 0 24 := by
  have hlow : w &&& 0x000000FF = 0 := by
    calc w &&& 0x000000FF = w &&& 0x0000FFFF &&& 0x000000FF := by rw [BitVec.and_assoc]; rfl
      _ = 0 := by rw [h]; rfl
  have hval : fieldBval w = 0 := by
    apply BitVec.eq_of_getElem_eq
    intro i hi
    have hbit := bit_of_reserved h (8 + i)
    interval_cases i <;> simpa [fieldBval] using hbit rfl
  rw [← hval, formatB_fields hlow]

theorem formatE_field (h : w &&& 0x00FFFFFC = 0) :
    formatE (eventOfIndex (w.extractLsb' 0 2)) = w.extractLsb' 0 24 := by
  rw [formatE, index_eventOfIndex]
  apply BitVec.eq_of_getElem_eq
  intro i hi
  have hbit := bit_of_reserved h i
  interval_cases i <;> simp <;> exact hbit rfl

theorem operands_none (h : w &&& 0x00FFFFFF = 0) : 0 = w.extractLsb' 0 24 := by
  apply BitVec.eq_of_getElem_eq
  intro i hi
  have hbit := bit_of_reserved h i
  interval_cases i <;> simp <;> exact hbit rfl

theorem formatD_len (h : w &&& 0x00FFFFF0 = 0) : formatD 0 (w.extractLsb' 0 4) = w.extractLsb' 0 24 := by
  apply BitVec.eq_of_getElem_eq
  intro i hi
  have hbit := bit_of_reserved h i
  interval_cases i <;> simp [formatD] <;> exact hbit rfl

theorem fieldChan_bit (w : Word) : (fieldChan w).bit = w.extractLsb' 8 1 := by
  apply BitVec.eq_of_getLsbD_eq
  intro i hi
  obtain rfl : i = 0 := by omega
  cases h : w.getLsbD 8 <;> simp [fieldChan, Chan.bit, h, -BitVec.getLsbD_eq_getElem]

theorem fieldFlags_bits (w : Word) : (fieldFlags w).bits = (w.extractLsb' 0 3).setWidth 4 := by
  obtain ⟨he, hm, hl, h3⟩ := (fieldFlags w).ofBits
  apply BitVec.eq_of_getLsbD_eq
  intro i hi
  interval_cases i
  · rw [he]; simp [fieldFlags]
  · rw [hm]; simp [fieldFlags]
  · rw [hl]; simp [fieldFlags]
  · rw [h3]; simp

theorem formatD_flags (h : w &&& 0x00FFFEF8 = 0) :
    formatD (fieldChan w).bit (fieldFlags w).bits = w.extractLsb' 0 24 := by
  rw [fieldChan_bit, fieldFlags_bits]
  apply BitVec.eq_of_getElem_eq
  intro i hi
  have hbit := bit_of_reserved h i
  interval_cases i <;> simp [formatD] <;> exact hbit rfl

theorem formatD_chan (h : w &&& 0x00FFFEFF = 0) : formatD (fieldChan w).bit 0 = w.extractLsb' 0 24 := by
  rw [fieldChan_bit]
  apply BitVec.eq_of_getElem_eq
  intro i hi
  have hbit := bit_of_reserved h i
  interval_cases i <;> simp [formatD] <;> exact hbit rfl

theorem formatF_field (h : w &&& 0x00FFFFE0 = 0) : formatF (w.extractLsb' 0 5) = w.extractLsb' 0 24 := by
  apply BitVec.eq_of_getElem_eq
  intro i hi
  have hbit := bit_of_reserved h i
  interval_cases i <;> simp [formatF] <;> exact hbit rfl

end operands

/-- The test of a row passes only for words with its reserved bits 0, and gives the row's operation. -/
theorem fitted_eq_ok {w m : Word} {i j : Instr} (h : fitted w m i = .ok j) : w &&& m = 0 ∧ i = j := by
  unfold fitted at h
  split at h
  · exact ⟨‹_›, Except.ok.inj h⟩
  · cases h

theorem encode_of_decodeCommand {w : Word} {i : Instr} (h : decodeCommand w = .ok i) : encode i = w := by
  have hop : ∀ {n : Nat}, (w.extractLsb' 24 8).toNat = n → w.extractLsb' 24 8 = BitVec.ofNat 8 n :=
    fun hn => by rw [← hn, BitVec.ofNat_toNat, BitVec.setWidth_eq]
  unfold decodeCommand at h
  split at h
  case h_30 => cases h
  all_goals
    obtain ⟨hreserved, rfl⟩ := fitted_eq_ok h
    refine commandWord_of_fields (hop ‹_›) ?_
  case h_1 | h_2 | h_3 | h_4 => exact formatA_field hreserved
  case h_5 | h_6 | h_7 | h_8 | h_9 | h_10 | h_11 | h_12 => exact formatA_fields
  case h_13 => exact formatB_field hreserved
  case h_14 => exact formatB_fields hreserved
  case h_15 | h_16 => exact formatE_field hreserved
  case h_20 => exact formatD_len hreserved
  case h_22 => exact formatD_flags hreserved
  case h_23 => exact formatD_chan hreserved
  case h_25 => exact formatF_field hreserved
  all_goals exact operands_none hreserved

theorem encode_of_decodeWire {w : Word} {i : Instr} (h : decodeWire w = some i) : encode i = w := by
  simp only [decodeWire] at h
  split at h
  case h_1 => cases h
  case h_2 hd hhd =>
    have hword : ∀ v, v = (quadOfWord w).b3 → wordOfQuad (encodeTxn hd v) = w := fun v hv => by
      rw [hv, encodeTxn_of_decodeHeader hhd, wordOfQuad_quadOfWord]
    obtain ⟨spc, write, addr⟩ := hd
    cases write with
    | true => cases spc <;> (cases h; exact hword _ rfl)
    | false =>
      simp only [Bool.false_eq_true, if_false] at h
      split at h
      case isTrue hzero => cases spc <;> (cases h; exact hword _ hzero.symm)
      case isFalse => cases h

/-- Settles O3: what a row's test lets through has the row's opcode and 0 in its reserved bits, so the fields read from the
word are all of it. -/
theorem decodedWordIsItsEncoding : Obligations.DecodedWordIsItsEncoding :=
  ⟨fun _ _ => encode_of_decodeCommand, fun _ _ => encode_of_decodeWire⟩

-- ---------------------------------------------------------------- the words that spell no command

open Machine (opcodeRows)

/-- The word has the opcode of a row and is read by its test, or has the opcode of none (R101 steps 1 and 2). -/
theorem decodeCommand_row (w : Word) :
    (∃ r ∈ opcodeRows, r.1 = w.extractLsb' 24 8 ∧ ∃ i, decodeCommand w = fitted w (r.2 &&& 0x00FFFFFF) i)
    ∨ ((∀ r ∈ opcodeRows, r.1 ≠ w.extractLsb' 24 8) ∧ decodeCommand w = .error .badOpcode) := by
  by_cases hrow : ∃ r ∈ opcodeRows, r.1 = w.extractLsb' 24 8
  case pos =>
    obtain ⟨r, hr, hop⟩ := hrow
    refine .inl ⟨r, hr, hop, ?_⟩
    unfold decodeCommand
    rw [← hop]
    fin_cases hr <;> exact ⟨_, rfl⟩
  case neg =>
    have hne : ∀ r ∈ opcodeRows, r.1 ≠ w.extractLsb' 24 8 := fun r hr hop => hrow ⟨r, hr, hop⟩
    refine .inr ⟨hne, ?_⟩
    have hval : ∀ n ∈ opcodeRows.map (·.1.toNat), (w.extractLsb' 24 8).toNat ≠ n := fun n hn heq => by
      obtain ⟨r, hr, rfl⟩ := List.mem_map.mp hn
      exact hne r hr (BitVec.eq_of_toNat_eq heq.symm)
    unfold decodeCommand
    split
    case h_30 => rfl
    all_goals exact absurd ‹_› (hval _ (by decide))

theorem opcodeRows_unique {r r' : Byte × Word} (hr : r ∈ opcodeRows) (hr' : r' ∈ opcodeRows) (hop : r.1 = r'.1) :
    r = r' := by
  have hnodup : (opcodeRows.map (·.1)).Nodup := by decide
  exact List.inj_on_of_nodup_map hnodup hr hr' hop

/-- A row's mask is the opcode byte with its reserved bits. -/
theorem opcodeRows_mask : ∀ r ∈ opcodeRows, r.2 &&& (0xFF000000 : Word) = 0xFF000000 := by
  intro r hr
  fin_cases hr <;> rfl

theorem opcode_masked (w : Word) : w &&& (0xFF000000 : Word) = (w.extractLsb' 24 8).setWidth 32 <<< 24 := by
  apply BitVec.eq_of_getElem_eq
  intro i hi
  interval_cases i <;> simp

/-- `w AND mask = match`, for a word with the row's opcode, says that the reserved bits are 0 (R100). -/
theorem reserved_eq_zero_iff {w : Word} {r : Byte × Word} (hr : r ∈ opcodeRows) (hop : r.1 = w.extractLsb' 24 8) :
    w &&& (r.2 &&& 0x00FFFFFF) = 0 ↔ w &&& r.2 = r.1.setWidth 32 <<< 24 := by
  have hhigh : (w &&& r.2) &&& (0xFF000000 : Word) = r.1.setWidth 32 <<< 24 := by
    rw [BitVec.and_assoc, opcodeRows_mask r hr, opcode_masked, hop]
  rw [← hhigh, ← BitVec.and_assoc]
  generalize w &&& r.2 = x
  have hsplit : (x &&& (0xFF000000 : Word)) ||| (x &&& 0x00FFFFFF) = x := by
    rw [← BitVec.and_or_distrib_left]
    exact BitVec.and_allOnes
  constructor
  · intro hlow
    rw [hlow] at hsplit
    exact hsplit.symm.trans BitVec.or_zero
  · intro heq
    rw [heq, BitVec.and_assoc]
    exact BitVec.and_zero

/-- Settles O4: a word with no row's opcode is a bad opcode; with one it meets that row's test, and fails it exactly when
`w AND mask` is not the row's match. -/
theorem commandRejectionsByRow : Obligations.CommandRejectionsByRow := by
  intro w
  rcases decodeCommand_row w with ⟨r, hr, hop, i, hdec⟩ | ⟨hnone, hdec⟩
  case inl =>
    have hrow : (∃ r' ∈ opcodeRows, r'.1 = w.extractLsb' 24 8 ∧ w &&& r'.2 ≠ r'.1.setWidth 32 <<< 24)
        ↔ w &&& (r.2 &&& 0x00FFFFFF) ≠ 0 := by
      rw [Ne, reserved_eq_zero_iff hr hop]
      refine ⟨fun ⟨r', hr', hop', hne⟩ => ?_, fun hne => ⟨r, hr, hop, hne⟩⟩
      rwa [opcodeRows_unique hr hr' (hop.trans hop'.symm)]
    rw [hdec, hrow]
    unfold fitted
    split
    case isTrue hzero => exact ⟨⟨nofun, fun h => absurd hop (h r hr)⟩, nofun, fun h => absurd hzero h⟩
    case isFalse hne => exact ⟨⟨nofun, fun h => absurd hop (h r hr)⟩, fun _ => hne, fun _ => rfl⟩
  case inr =>
    rw [hdec]
    exact ⟨⟨fun _ => hnone, fun _ => rfl⟩, nofun, fun ⟨r, hr, hop, _⟩ => absurd hop (hnone r hr)⟩

/-- Settles O6: the decoder evaluated on each word. -/
theorem sampleWordsDecode : Obligations.SampleWordsDecode := by
  refine ⟨?_, ?_, ?_, ?_, ?_, ?_, ?_, ?_, ?_⟩ <;> rfl

end Sys2Proof
end

section
/-! A calm environment: the turns it has coming do nothing (a quiet one has none coming). What one read, one write and one
verified write come to then: the byte, the memories, the turns used up and the transactions sent. -/

namespace Sys2Proof.Machine

-- ---------------------------------------------------------------- the ports

/-- The history has grown by these transactions (outbound bytes, oldest first), pulses and samples. -/
def Ports (w w' : World) (qs : List Quad) (pulses : Nat) (samples : List Nat) : Prop :=
  Grown w w' fun new => sentOf new = qs ∧ pulsesOf new = pulses ∧ samplesOf new = samples

theorem Ports.refl (w : World) : Ports w w [] 0 [] := ⟨[], rfl, rfl, rfl, rfl⟩

theorem Ports.trans {w w1 w2 : World} {qs qs' : List Quad} {n n' : Nat} {vs vs' : List Nat}
    (h : Ports w w1 qs n vs) (h' : Ports w1 w2 qs' n' vs') : Ports w w2 (qs ++ qs') (n + n') (vs ++ vs') := by
  obtain ⟨l, ht, rfl, rfl, rfl⟩ := h
  obtain ⟨l', ht', rfl, rfl, rfl⟩ := h'
  exact ⟨l' ++ l, by rw [ht', ht, List.append_assoc], sentOf_append _ _, by rw [pulsesOf_append, Nat.add_comm],
    samplesOf_append _ _⟩

/-- The ports see the history alone. -/
theorem Ports.of_trace_eq {w w' v v' : World} {qs : List Quad} {n : Nat} {vs : List Nat} (h : Ports w w' qs n vs)
    (hv : v.trace = w.trace) (hv' : v'.trace = w'.trace) : Ports v v' qs n vs := by
  obtain ⟨l, ht, hl⟩ := h
  exact ⟨l, by rw [hv', ht, hv], hl⟩

theorem ports_xfer (c : Cfg) (q : Quad) (w : World) : Ports w (xfer c q w).2 [q] 0 [] :=
  ⟨[.xfer q (xfer c q w).1], xfer_trace c q w, rfl, rfl, rfl⟩

theorem ports_readByte (c : Cfg) (spc : Space) (addr : Addr) (w : World) :
    Ports w (readByte c spc addr w).2 (rdQs c spc addr) 0 [] := by
  cases hr : c.readReturn with
  | same => simpa only [readByte_same _ _ _ hr, rdQs, hr] using ports_xfer c (rdQ spc addr) w
  | previous =>
    rw [readByte_previous _ _ _ hr, rdQs, hr]
    exact (ports_xfer c (rdQ spc addr) w).trans (ports_xfer c (rdQ spc addr) _)

theorem ports_writeByte (c : Cfg) (spc : Space) (addr : Addr) (v : Byte) (w : World) :
    Ports w (writeByte c spc addr v w) [wrQ spc addr v] 0 [] :=
  ports_xfer c _ w

@[simp] theorem length_rdQs (c : Cfg) (spc : Space) (addr : Addr) : (rdQs c spc addr).length = readCost c := by
  cases hr : c.readReturn <;> simp [rdQs, readCost, hr]

theorem readCost_same {c : Cfg} (hr : c.readReturn = .same) : readCost c = 1 := by simp [readCost, rdQs, hr]

theorem readCost_previous {c : Cfg} (hr : c.readReturn = .previous) : readCost c = 2 := by simp [readCost, rdQs, hr]

-- ---------------------------------------------------------------- turns that do nothing

/-- The environment's next `n` turns do nothing. -/
def Calm (n : Nat) (w : World) : Prop := ∀ batch ∈ w.script.take n, batch = []

theorem calm_of_quiet {w : World} (h : w.script = []) (n : Nat) : Calm n w := by simp [Calm, h]

theorem Calm.mono {m n : Nat} {w : World} (h : Calm n w) (hmn : m ≤ n) : Calm m w :=
  fun b hb => h b ((List.take_subset_take_left _ hmn) hb)

theorem Calm.drop {m n : Nat} {w w' : World} (h : Calm (m + n) w) (hs : w'.script = w.script.drop m) : Calm n w' := by
  intro b hb
  rw [hs, List.take_drop] at hb
  exact h b (List.mem_of_mem_drop hb)

theorem envTurn_calm (c : Cfg) {w : World} (h : Calm 1 w) : w.envTurn c = { w with script := w.script.tail } := by
  unfold World.envTurn
  split
  case h_1 hs => obtain ⟨_, _, _, _, _, _, script, _, _⟩ := w; cases hs; rfl
  case h_2 batch rest hs =>
    obtain rfl : batch = [] := h batch (by simp [hs])
    simp [hs]

theorem xfer_calm (c : Cfg) (q : Quad) {w : World} (h : Calm 1 w) :
    xfer c q w = exchange c q { w with script := w.script.tail } := by
  rw [xfer, envTurn_calm c h]

-- ---------------------------------------------------------------- what a calm stretch leaves alone

/-- A stretch of `n` turns of the environment that sends `qs` and draws nothing, while the environment does nothing: only
the memories, the bridge, the latch, the script and the history can differ. -/
structure Calmly (n : Nat) (qs : List Quad) (w w' : World) : Prop where
  ev : w'.ev = w.ev
  script : w'.script = w.script.drop n
  periph : w'.periph = { w.periph with flight := w'.periph.flight }
  adcTrigger : w'.adcTrigger = w.adcTrigger
  adcValue : w'.adcValue = w.adcValue
  ports : Ports w w' qs 0 []

theorem Calmly.trans {m n : Nat} {qs qs' : List Quad} {w w1 w2 : World} (h : Calmly m qs w w1)
    (h' : Calmly n qs' w1 w2) : Calmly (m + n) (qs ++ qs') w w2 where
  ev := h'.ev.trans h.ev
  script := by rw [h'.script, h.script, List.drop_drop]
  periph := by rw [h'.periph, h.periph]
  adcTrigger := h'.adcTrigger.trans h.adcTrigger
  adcValue := h'.adcValue.trans h.adcValue
  ports := h.ports.trans h'.ports

theorem Calmly.slow {n : Nat} {qs : List Quad} {w w' : World} (h : Calmly n qs w w') : w'.periph.slow = w.periph.slow := by
  rw [h.periph]

/-- The turns left over are as calm as they were. -/
theorem Calmly.calm {m n : Nat} {qs : List Quad} {w w' : World} (h : Calmly m qs w w') (hc : Calm (m + n) w) : Calm n w' :=
  hc.drop h.script

theorem calmly_xfer (c : Cfg) (q : Quad) {w : World} (h : Calm 1 w) : Calmly 1 [q] w (xfer c q w).2 where
  ev := by simp [xfer_calm c q h]
  script := by simp
  periph := by simp [xfer_calm c q h]
  adcTrigger := by simp
  adcValue := by simp [xfer_calm c q h]
  ports := ports_xfer c q w

-- ---------------------------------------------------------------- reads

/-- A read in a calm environment, in both modes: the byte of its location, nothing stored. -/
theorem readByte_calm {c : Cfg} {spc : Space} {addr : Addr} {w : World} (hc : Calm (readCost c) w)
    (hin : c.addrOk spc addr = true) :
    (readByte c spc addr w).1 = w.peek spc addr.toNat
    ∧ Calmly (readCost c) (rdQs c spc addr) w (readByte c spc addr w).2
    ∧ (readByte c spc addr w).2.spaces = w.spaces ∧ (readByte c spc addr w).2.periph = w.periph := by
  cases hr : c.readReturn with
  | same =>
    rw [readCost_same hr] at hc ⊢
    rw [readByte_same _ _ _ hr]
    refine ⟨?_, by simpa only [rdQs, hr] using calmly_xfer c (rdQ spc addr) hc, ?_⟩
    · rw [xfer_calm c _ hc, exchange_read_same _ hr hin]; rfl
    · simp [xfer_calm c _ hc]
  | previous =>
    rw [readCost_previous hr] at hc ⊢
    rw [readByte_previous _ _ _ hr, rdQs, hr]
    have hc0 : Calm 1 w := hc.mono (by decide)
    have h1 := calmly_xfer c (rdQ spc addr) hc0
    have hc1 : Calm 1 (xfer c (rdQ spc addr) w).2 := h1.calm hc
    have hl : (xfer c (rdQ spc addr) w).2.latch = some ⟨spc, addr⟩ := by simp [xfer, latchAfter, hr]
    have hs : (xfer c (rdQ spc addr) w).2.spaces = w.spaces ∧ (xfer c (rdQ spc addr) w).2.periph = w.periph := by
      simp [xfer_calm c _ hc0]
    refine ⟨?_, h1.trans (calmly_xfer c (rdQ spc addr) hc1), ?_⟩
    · change (xfer c (rdQ spc addr) (xfer c (rdQ spc addr) w).2).1.b3 = _
      rw [xfer_calm c _ hc1]
      exact (exchange_read_previous (l := ⟨spc, addr⟩) _ hr hl hin).trans
        (congrArg (fun sp => (sp.get spc).read addr.toNat) hs.1)
    · simp [xfer_calm c _ hc1, hs]

-- ---------------------------------------------------------------- writes

theorem bridgeEnd_script_comm (c : Cfg) (w : World) (l : List (List EnvStep)) :
    bridgeEnd c { w with script := l } = { bridgeEnd c w with script := l } := by
  obtain ⟨_, _, ⟨_, _, flight⟩, _, _, _, _, _, _⟩ := w
  cases flight with
  | none => rfl
  | some t => simp only [bridgeEnd]; split <;> rfl

/-- The peripheral does not see the script. -/
theorem peripheralWrite_script_comm (c : Cfg) (h : Header) (v : Byte) (w : World) (l : List (List EnvStep)) :
    peripheralWrite c h v { w with script := l } = { peripheralWrite c h v w with script := l } := by
  obtain ⟨spc, write, addr⟩ := h
  cases spc with
  | wv | rx | tx => rfl
  | us =>
    simp only [peripheralWrite]
    split
    · rfl
    · split
      · rfl
      · split
        · split
          · split
            · rfl
            · exact bridgeEnd_script_comm c (bridgeBegin c w) l
          · rfl
        · rfl

/-- A write in a calm environment is the peripheral's write. -/
theorem writeByte_calm {c : Cfg} {spc : Space} {addr : Addr} (v : Byte) {w : World} (hc : Calm 1 w)
    (hin : c.addrOk spc addr = true) :
    Calmly 1 [wrQ spc addr v] w (writeByte c spc addr v w)
    ∧ (writeByte c spc addr v w).spaces = (peripheralWrite c ⟨spc, true, addr⟩ v w).spaces
    ∧ (writeByte c spc addr v w).periph = (peripheralWrite c ⟨spc, true, addr⟩ v w).periph := by
  refine ⟨calmly_xfer c _ hc, ?_, ?_⟩
  · rw [writeByte, xfer_calm c _ hc, exchange_spaces, peripheralAct_write v _ hin, peripheralWrite_script_comm]
  · rw [writeByte, xfer_calm c _ hc, exchange_periph, peripheralAct_write v _ hin, peripheralWrite_script_comm,
      peripheralWrite_frame]

/-- A location whose byte reads back under the mask when it is written: every byte of the RAMs, the user bytes that store what
is written, and `CTRL` for a byte without trigger bits. -/
def ReadsBack (c : Cfg) (spc : Space) (addr : Addr) (v : Byte) : Prop :=
  ∀ w : World, peripheralWrite c ⟨spc, true, addr⟩ v w = w.poke spc addr.toNat v

theorem readsBack_plain (c : Cfg) {spc : Space} {addr : Addr} (v : Byte)
    (h : spc = .us → addr ≠ 0 ∧ addr ≠ 1 ∧ addr ≠ 4 ∧ addr ≠ 5) : ReadsBack c spc addr v :=
  fun w => peripheralWrite_plain v w h

theorem World.peek_of_spaces_eq {w w' : World} (h : w'.spaces = w.spaces) (spc : Space) (a : Nat) :
    w'.peek spc a = w.peek spc a := by
  simp only [World.peek, h]

theorem World.peekSdr_of_spaces_eq {w w' : World} (h : w'.spaces = w.spaces) (a : Nat) : w'.peekSdr a = w.peekSdr a := by
  simp only [World.peekSdr, h]

/-- One attempt of a verified write of a byte that reads back, in a calm environment: the byte is stored and returned. -/
theorem attempt_calm {c : Cfg} {spc : Space} {addr : Addr} {v : Byte} {w : World} (hc : Calm (1 + readCost c) w)
    (hin : c.addrOk spc addr = true) (hback : ReadsBack c spc addr v) (hwf : (w.spaces.get spc).wf = true) :
    (readByte c spc addr (writeByte c spc addr v w)).1 = v
    ∧ Calmly (1 + readCost c) (wrQ spc addr v :: rdQs c spc addr) w (readByte c spc addr (writeByte c spc addr v w)).2
    ∧ (readByte c spc addr (writeByte c spc addr v w)).2.spaces = (w.poke spc addr.toNat v).spaces
    ∧ (readByte c spc addr (writeByte c spc addr v w)).2.periph = w.periph := by
  obtain ⟨hw, hsp, hpe⟩ := writeByte_calm v (hc.mono (Nat.le_add_right 1 _)) hin
  obtain ⟨hb, hr, hrsp, hrpe⟩ := readByte_calm (spc := spc) (addr := addr) (hw.calm hc) hin
  rw [hback w] at hsp hpe
  have hbyte : (readByte c spc addr (writeByte c spc addr v w)).1 = v := by
    rw [hb, World.peek_of_spaces_eq hsp, World.peek_poke_same _ _ _ _ hwf]
  exact ⟨hbyte, hw.trans hr, hrsp.trans hsp, hrpe.trans hpe⟩

/-- A verified write of a byte that reads back, in a calm environment: done at the first attempt. -/
theorem verifyLoop_calm {c : Cfg} {spc : Space} {addr : Addr} {v : Byte} (mask : Byte) (n : Nat) {w : World}
    (hc : Calm (1 + readCost c) w) (hin : c.addrOk spc addr = true) (hback : ReadsBack c spc addr v)
    (hwf : (w.spaces.get spc).wf = true) :
    (verifyLoop c spc addr v mask (n + 1) w).1 = true
    ∧ Calmly (1 + readCost c) (wrQ spc addr v :: rdQs c spc addr) w (verifyLoop c spc addr v mask (n + 1) w).2
    ∧ (verifyLoop c spc addr v mask (n + 1) w).2.spaces = (w.poke spc addr.toNat v).spaces
    ∧ (verifyLoop c spc addr v mask (n + 1) w).2.periph = w.periph := by
  obtain ⟨hbyte, hcalm, hsp, hpe⟩ := attempt_calm hc hin hback hwf
  simp only [verifyLoop, hbyte, if_true]
  exact ⟨trivial, hcalm, hsp, hpe⟩

theorem writeV_calm {c : Cfg} {spc : Space} {addr : Addr} {v : Byte} (mask : Byte) {w : World}
    (hc : Calm (1 + readCost c) w) (hin : c.addrOk spc addr = true) (hback : ReadsBack c spc addr v)
    (hwf : (w.spaces.get spc).wf = true) :
    (writeV c spc addr v mask w).1 = none
    ∧ Calmly (1 + readCost c) (wrQ spc addr v :: rdQs c spc addr) w (writeV c spc addr v mask w).2
    ∧ (writeV c spc addr v mask w).2.spaces = (w.poke spc addr.toNat v).spaces
    ∧ (writeV c spc addr v mask w).2.periph = w.periph := by
  obtain ⟨hok, hrest⟩ := verifyLoop_calm mask 2 hc hin hback hwf
  exact ⟨if_pos hok, hrest⟩

end Sys2Proof.Machine
end

section
/-! One step of the machine: what the idle block takes and runs (70_reset_and_hazards.md R261, R271), what it does with
nothing in hand, the words of the pseudo-instructions, and the state after reset. -/

namespace Sys2Proof.Machine

-- ---------------------------------------------------------------- one step

/-- Settles O7. -/
theorem stepRunsDecodedCommand : Obligations.StepRunsDecodedCommand := fun s w rest i hready hclient hdec => by
  rw [step_of_ready_input hready hclient]
  simp only [runInput, runCommand, hdec]

theorem step_of_ready_wire {s : State} {w : Word} {rest : List Input} (hready : Ready s)
    (hclient : s.client = .wire w :: rest) : step s = runWire w { s with client := rest } :=
  step_of_ready_input hready hclient

/-- Bytes that spell no transaction have an invalid header or are a read with a payload (R94). -/
theorem decodeWire_eq_none {w : Word} (h : decodeWire w = none) :
    ∀ hd, decodeHeader (quadOfWord w) = some hd → hd.write = false := by
  intro hd hhd
  simp only [decodeWire, hhd] at h
  cases hw : hd.write with
  | false => rfl
  | true =>
    obtain ⟨spc, write, addr⟩ := hd
    subst hw
    cases spc <;> cases h

/-- What does not write stores nothing. -/
theorem peripheralAct_not_write {c : Cfg} {q : Quad} (h : ∀ hd, decodeHeader q = some hd → hd.write = false) (w : World) :
    peripheralAct c q w = w := by
  unfold peripheralAct
  split
  · rfl
  · rename_i hd hhd
    simp [h hd hhd]

theorem sameBytes_of_spaces_eq {s t : State} (h : t.world.spaces = s.world.spaces) : SameBytes s t :=
  ⟨World.peek_of_spaces_eq h, World.peekSdr_of_spaces_eq h⟩

/-- Settles O8: bytes that spell a transaction are that transaction; others are exchanged, and since they spell no write the
peripheral stores nothing. -/
theorem stepRunsDecodedTransaction : Obligations.StepRunsDecodedTransaction := by
  intro s w rest hready hclient
  rw [step_of_ready_wire hready hclient]
  refine ⟨fun i hdec => by simp only [runWire, hdec], fun hdec => ?_⟩
  have hact := fun v : World => peripheralAct_not_write (c := s.cfg) (decodeWire_eq_none hdec) v
  refine ⟨opXfer (quadOfWord w) { s with client := rest }, (xfer s.cfg (quadOfWord w) s.world).1,
    by simp only [runWire, hdec], rfl, xfer_trace _ _ _, fun hquiet => ⟨sameBytes_of_spaces_eq ?_, ?_⟩,
    fun hprev hd hhd => ?_, fun hquiet hlatch => ?_⟩
  · rw [opXfer_world, xfer_quiet _ hquiet, exchange_spaces, hact]
  · rw [opXfer_world, xfer_quiet _ hquiet, exchange_ev]
  · simp [opXfer_world, xfer, latchAfter, hprev, hhd]
  · rw [opXfer_world, xfer_quiet _ hquiet, exchange_latch]
    rcases hlatch with hsame | hnone
    · simp only [latchAfter, hsame]
    · simp only [latchAfter, hnone]
      split <;> rfl

theorem runInput_of_decode {inp : Input} {i : Instr} (hdec : decode inp = some i) (s : State) :
    runInput inp s = exec i s := by
  cases inp with
  | command w =>
    cases hw : decodeCommand w with
    | error e => simp [decode, hw, Except.toOption] at hdec
    | ok j =>
      obtain rfl : j = i := by simpa [decode, hw, Except.toOption] using hdec
      simp only [runInput, runCommand, hw]
  | wire w => simp only [runInput, runWire, show decodeWire w = some i from hdec]

/-- Settles O10: the word is first in the client's hand on the port that reads it, and the block is idle. -/
theorem fetchedTableWordRuns : Obligations.FetchedTableWordRuns := by
  intro s nbits w i hlt hdec
  simp only [decodeTableWord] at hdec
  split at hdec
  case isFalse => cases hdec
  case isTrue =>
    rw [← Nat.mod_eq_of_lt hlt] at hdec
    rw [step_of_ready_input (s := s.withFetchWord nbits w) rfl rfl, runInput_of_decode hdec]
    rfl

theorem step_idle {s : State} (hready : Ready s) (hclient : s.client = []) : step s = .next (idleTurn s) := by
  simp only [step, hready, Seq.waitsFor, hclient]

/-- Settles O11: the idle block's step is the environment's turn, which adds nothing to the history. -/
theorem idleBlockDoesNothing : Obligations.IdleBlockDoesNothing := fun s hready hclient =>
  ⟨⟨idleTurn s, step_idle hready hclient, rfl, World.envTurn_trace _ _⟩, fun hquiet => by
    rw [step_idle hready hclient, idleTurn, World.envTurn_quiet hquiet]⟩

-- ---------------------------------------------------------------- pseudo-instructions

theorem encode_wrUs_ctrl (v : Byte) : encode (.wrUs 0 v) = 0x17000000 ||| v.setWidth 32 := by
  apply BitVec.eq_of_getElem_eq
  intro i hi
  interval_cases i <;> simp [encode, commandWord, formatA]

theorem encode_wrvUs_ctrl (v : Byte) : encode (.wrvUs 0 v) = 0x1B000000 ||| v.setWidth 32 := by
  apply BitVec.eq_of_getElem_eq
  intro i hi
  interval_cases i <;> simp [encode, commandWord, formatA]

theorem encode_wrvUs_txofs (v : Byte) : encode (.wrvUs 7 v) = 0x1B000700 ||| v.setWidth 32 := by
  apply BitVec.eq_of_getElem_eq
  intro i hi
  interval_cases i <;> simp [encode, commandWord, formatA]

/-- The `TXOFS` byte of the default map is the two offsets side by side (30_encoding.md R97 (b)). -/
theorem offsets_append (a b : Offset) : (b.setWidth 8 <<< 4) ||| a.setWidth 8 = (b ++ a : BitVec 8) := by
  rw [BitVec.append_def, BitVec.shiftLeftZeroExtend_eq, BitVec.setWidth'_eq]

/-- Settles O12. -/
theorem pseudoInstructionWords : Obligations.PseudoInstructionWords := by
  intro c
  refine ⟨?cal, rfl, fun m => ⟨?go, ?irqack, ?newq, ?endloop, ?setmode, ?run⟩, fun a b => ?setofs⟩
  case cal => cases hs : c.calStrategy <;> simp [Pseudo.expand, hs] <;> rfl
  case go | irqack | newq | endloop => simp only [Pseudo.expand, List.map, encode_wrUs_ctrl]
  case setmode => simp only [Pseudo.expand, List.map, encode_wrvUs_ctrl]
  case run => simp only [Pseudo.expand, List.map, encode_wrUs_ctrl]; rfl
  case setofs => simp only [Pseudo.expand, List.map, encode_wrvUs_txofs, offsets_append]

-- ---------------------------------------------------------------- after reset

/-- Settles O59: the reset state, register by register. -/
theorem resetBlockState : Obligations.ResetBlockState := ⟨rfl, rfl, rfl, rfl, rfl, rfl, rfl, rfl, rfl⟩

/-- Settles O60: the reset state meets each invariant by evaluation. -/
theorem resetMeetsInvariants : Obligations.ResetMeetsInvariants := by
  refine ⟨by rfl, by decide, by decide, by decide⟩

end Sys2Proof.Machine
end

section
/-! What the reference peripheral does with one write transaction (20_memory.md R67), location by location, and the statements
that follow from it: transactions on the wire, plain writes, the deterministic double, the slow bridge. -/

namespace Sys2Proof.Machine

-- ---------------------------------------------------------------- one register write

theorem peek_eq_of_spaces {w w' : World} (h : w'.spaces = w.spaces) :
    (∀ spc a, w'.peek spc a = w.peek spc a) ∧ ∀ a, w'.peekSdr a = w.peekSdr a :=
  ⟨World.peek_of_spaces_eq h, World.peekSdr_of_spaces_eq h⟩

/-- One byte stored: it is read back there, and every other byte as before. -/
theorem peek_of_poke {w w' : World} {spc : Space} {a : Nat} {v : Byte} (hwf : (w.spaces.get spc).wf = true)
    (h : w'.spaces = (w.poke spc a v).spaces) :
    w'.peek spc a = v ∧ (∀ spc' b, (spc', b) ∉ [(spc, a)] → w'.peek spc' b = w.peek spc' b)
    ∧ ∀ b, b ∉ ([] : List Nat) → w'.peekSdr b = w.peekSdr b := by
  refine ⟨?_, fun spc' b hb => ?_, fun b _ => ?_⟩
  · rw [World.peek_of_spaces_eq h, World.peek_poke_same _ _ _ _ hwf]
  · rw [World.peek_of_spaces_eq h, World.peek_poke_other _ _ (by simpa using hb)]
  · rw [World.peekSdr_of_spaces_eq h, World.peekSdr_poke]

-- ---------------------------------------------------------------- the bridge

/-- The end of a transfer to the SDR chip: its byte moved, `BR_CTRL` set. -/
theorem peek_of_toSdr {w w' : World} {sa : Nat} {y v : Byte} (hwf : (w.spaces.get .us).wf = true)
    (hsdr : w.spaces.sdr.wf = true) (h : w'.spaces = ((w.pokeSdr sa v).poke .us 5 y).spaces) :
    w'.peek .us 5 = y ∧ w'.peekSdr sa = v
    ∧ (∀ spc b, (spc, b) ∉ [(Space.us, 5)] → w'.peek spc b = w.peek spc b)
    ∧ ∀ b, b ∉ [sa] → w'.peekSdr b = w.peekSdr b := by
  refine ⟨?_, ?_, fun spc b hb => ?_, fun b hb => ?_⟩
  · rw [World.peek_of_spaces_eq h, World.peek_poke_same]
    simpa using hwf
  · rw [World.peekSdr_of_spaces_eq h, World.peekSdr_poke, World.peekSdr_pokeSdr_same _ _ _ hsdr]
  · rw [World.peek_of_spaces_eq h, World.peek_poke_other _ _ (by simpa using hb), World.peek_pokeSdr]
  · rw [World.peekSdr_of_spaces_eq h, World.peekSdr_poke, World.peekSdr_pokeSdr_other _ _ (by simpa using hb)]

/-- The end of a transfer from the SDR chip: its byte in `BR_RDATA`, `BR_CTRL` set. -/
theorem peek_of_fromSdr {w w' : World} {y v : Byte} (hwf : (w.spaces.get .us).wf = true)
    (h : w'.spaces = ((w.poke .us 4 v).poke .us 5 y).spaces) :
    w'.peek .us 5 = y ∧ w'.peek .us 4 = v
    ∧ (∀ spc b, (spc, b) ∉ [(Space.us, 4), (Space.us, 5)] → w'.peek spc b = w.peek spc b)
    ∧ ∀ b, b ∉ ([] : List Nat) → w'.peekSdr b = w.peekSdr b := by
  refine ⟨?_, ?_, fun spc b hb => ?_, fun b _ => ?_⟩
  · rw [World.peek_of_spaces_eq h, World.peek_poke_same]
    simpa using Memory.wf_write _ 4 v hwf
  · rw [World.peek_of_spaces_eq h, World.peek_poke_other _ _ (by decide), World.peek_poke_same _ _ _ _ hwf]
  · simp only [List.mem_cons, List.not_mem_nil, or_false, not_or] at hb
    rw [World.peek_of_spaces_eq h, World.peek_poke_other _ _ hb.2, World.peek_poke_other _ _ hb.1]
  · rw [World.peekSdr_of_spaces_eq h, World.peekSdr_poke, World.peekSdr_poke]

/-- The memories after a transfer that is in flight finishes. -/
theorem bridgeEnd_spaces (c : Cfg) {w : World} {t : Transfer} (h : w.periph.flight = some t) :
    (bridgeEnd c w).spaces =
      if t.wnr then ((w.pokeSdr t.sa.toNat t.data).poke .us 5 (brDoneByte c.userMap)).spaces
      else ((w.poke .us 4 (w.peekSdr t.sa.toNat)).poke .us 5 (brDoneByte c.userMap)).spaces := by
  simp only [bridgeEnd, h]
  split <;> rfl

theorem brAOf_default (v : Byte) : (brAOf UserMap.default v).toNat = v.toNat % 128 := by
  simp [brAOf, UserMap.default]

theorem brWnrOf_default (v : Byte) : brWnrOf UserMap.default v = v.getLsbD 7 := rfl

-- ---------------------------------------------------------------- one write transaction

/-- What a write of `v` at a location does to the bytes, with a bridge that finishes at once and the default user map
(20_memory.md R67). -/
def WriteEffect (spc : Space) (addr : Addr) (v : Byte) (w w' : World) : Prop :=
  if spc = .us ∧ addr = 0 then
    w'.peek .us 0 = v &&& 0xF0 ∧ (∀ spc a, (spc, a) ∉ [(Space.us, 0)] → w'.peek spc a = w.peek spc a)
    ∧ ∀ a, a ∉ ([] : List Nat) → w'.peekSdr a = w.peekSdr a
  else if spc = .us ∧ (addr = 1 ∨ addr = 4 ∨ (addr = 5 ∧ v.getLsbD 0 = false)) then
    (∀ spc a, w'.peek spc a = w.peek spc a) ∧ ∀ a, w'.peekSdr a = w.peekSdr a
  else if spc = .us ∧ addr = 5 then
    w'.peek .us 5 = 0x02
    ∧ if (w.peek .us 2).getLsbD 7 = true then
        w'.peekSdr ((w.peek .us 2).toNat % 128) = w.peek .us 3
        ∧ (∀ spc a, (spc, a) ∉ [(Space.us, 5)] → w'.peek spc a = w.peek spc a)
        ∧ ∀ a, a ∉ [(w.peek .us 2).toNat % 128] → w'.peekSdr a = w.peekSdr a
      else
        w'.peek .us 4 = w.peekSdr ((w.peek .us 2).toNat % 128)
        ∧ (∀ spc a, (spc, a) ∉ [(Space.us, 4), (Space.us, 5)] → w'.peek spc a = w.peek spc a)
        ∧ ∀ a, a ∉ ([] : List Nat) → w'.peekSdr a = w.peekSdr a
  else
    w'.peek spc addr.toNat = v ∧ (∀ spc' a, (spc', a) ∉ [(spc, addr.toNat)] → w'.peek spc' a = w.peek spc' a)
    ∧ ∀ a, a ∉ ([] : List Nat) → w'.peekSdr a = w.peekSdr a

theorem writeEffect_of_spaces {c : Cfg} (hm : c.userMap = UserMap.default) {spc : Space} {addr : Addr} {v : Byte}
    {w w' : World} (hslow : w.periph.slow = false) (hwf : w.memoryOk c = true)
    (h : w'.spaces = (peripheralWrite c ⟨spc, true, addr⟩ v w).spaces) : WriteEffect spc addr v w w' := by
  obtain ⟨hspaces, hsdr, -⟩ := (World.memoryOk_iff c w).mp hwf
  have hwfs := fun spc => (hspaces spc).1
  unfold WriteEffect
  split
  case isTrue hctrl =>
    obtain ⟨rfl, rfl⟩ := hctrl
    have hv : v &&& ~~~trigMask c.userMap = v &&& 0xF0 := by rw [hm]; rfl
    rw [← hv]
    exact peek_of_poke (hwfs .us) h
  case isFalse hctrl =>
    split
    case isTrue hignored =>
      obtain ⟨rfl, haddr⟩ := hignored
      refine peek_eq_of_spaces (h.trans ?_)
      rcases haddr with rfl | rfl | ⟨rfl, hstart⟩
      · rfl
      · rfl
      · have hno : brStartOf c.userMap v = false := by rw [hm]; exact hstart
        simp [peripheralWrite, hno]
    case isFalse hignored =>
      split
      case isTrue hbr =>
        obtain ⟨rfl, rfl⟩ := hbr
        have hbit : v.getLsbD 0 = true := by simpa using hignored
        have hstart : brStartOf c.userMap v = true := by rw [hm]; exact hbit
        have hend : w'.spaces = (bridgeEnd c (bridgeBegin c w)).spaces := by
          rw [h]; simp [peripheralWrite, hstart, hslow]
        rw [bridgeEnd_spaces c rfl] at hend
        have hwnr : brWnrOf c.userMap (w.peek .us 2) = (w.peek .us 2).getLsbD 7 := by rw [hm]; rfl
        have hsa : (brAOf c.userMap (w.peek .us 2)).toNat = (w.peek .us 2).toNat % 128 := by rw [hm, brAOf_default]
        have hdone : brDoneByte c.userMap = 0x02 := by rw [hm]; rfl
        simp only [hwnr, hsa, hdone] at hend
        have hwf5 : ((w.poke .us 5 0).spaces.get .us).wf = true := by simpa using Memory.wf_write _ 5 0 (hwfs .us)
        have hbytes : ∀ spc b, (spc, b) ≠ (Space.us, 5) → (w.poke .us 5 0).peek spc b = w.peek spc b :=
          fun _ _ hb => World.peek_poke_other _ _ hb
        by_cases hdir : (w.peek .us 2).getLsbD 7 = true
        case pos =>
          rw [if_pos hdir] at hend ⊢
          obtain ⟨h5, hto, hrest, hsdrs⟩ := peek_of_toSdr (w := w.poke .us 5 0) hwf5 (by simpa using hsdr) hend
          exact ⟨h5, hto, fun spc b hb => (hrest spc b hb).trans (hbytes spc b (by simpa using hb)),
            fun b hb => (hsdrs b hb).trans (World.peekSdr_poke _ _ _ _ _)⟩
        case neg =>
          rw [if_neg hdir] at hend ⊢
          obtain ⟨h5, hfrom, hrest, hsdrs⟩ := peek_of_fromSdr (w := w.poke .us 5 0) hwf5 hend
          refine ⟨h5, hfrom.trans (World.peekSdr_poke _ _ _ _ _), fun spc b hb => (hrest spc b hb).trans (hbytes spc b ?_),
            fun b hb => (hsdrs b hb).trans (World.peekSdr_poke _ _ _ _ _)⟩
          simp only [List.mem_cons, List.not_mem_nil, or_false, not_or] at hb
          exact hb.2
      case isFalse hbr =>
        rw [peripheralWrite_plain v w] at h
        · exact peek_of_poke (hwfs spc) h
        · rintro rfl
          simp only [true_and, not_or] at hctrl hignored hbr
          exact ⟨hctrl, hignored.1, hignored.2.1, hbr⟩

-- ---------------------------------------------------------------- transactions on the wire

/-- A transaction on the wire is the exchange of its own four bytes. -/
theorem exec_txn {i : Instr} (htxn : i.isTxn = true) (s : State) :
    exec i s = s.command (opXfer (quadOfWord (encode i))) := by
  cases i with
  | txnRdWv | txnWrWv | txnRdRx | txnWrRx | txnRdTx | txnWrTx | txnRdUs | txnWrUs =>
    rw [encode, quadOfWord_wordOfQuad]
    rfl
  | _ => cases htxn

theorem exec_txnReadInstr {s : State} (hready : Ready s) (spc : Space) (addr : Addr) :
    exec (txnReadInstr spc addr) s = .next (opXfer (rdQ spc addr) s) := by
  rw [← State.command_of_ready hready]
  cases spc <;> rfl

theorem exec_txnWriteInstr {s : State} (hready : Ready s) (spc : Space) (addr : Addr) (v : Byte) :
    exec (txnWriteInstr spc addr v) s = .next (opXfer (wrQ spc addr v) s) := by
  rw [← State.command_of_ready hready]
  cases spc <;> rfl

/-- Settles O51. -/
theorem transactionIsOneExchange : Obligations.TransactionIsOneExchange := fun spc addr v _ hready =>
  ⟨⟨_, _, exec_txnReadInstr hready spc addr, rfl, xfer_trace _ _ _⟩,
    ⟨_, _, exec_txnWriteInstr hready spc addr v, rfl, xfer_trace _ _ _⟩⟩

/-- Settles O52: the answer of a read is the exchange's, the effect of a write inside its space is `WriteEffect`. -/
theorem quietTransactionEffects : Obligations.QuietTransactionEffects := by
  rintro spc addr v s ⟨hready, hquiet, hslow, hmap, -⟩ hmem
  refine ⟨⟨_, (xfer s.cfg (rdQ spc addr) s.world).1, exec_txnReadInstr hready spc addr, xfer_trace _ _ _,
    sameBytes_of_spaces_eq ?_, ?_, fun hsame hin => ?_, fun hprev => ⟨?_, fun l hl hin => ?_⟩⟩,
    ⟨_, exec_txnWriteInstr hready spc addr v, ?_, fun hprev => ?_, ?_⟩⟩
  · rw [opXfer_world, xfer_quiet _ hquiet, exchange_spaces, peripheralAct_read]
  · rw [opXfer_world, xfer_quiet _ hquiet, exchange_ev]
  · rw [xfer_quiet _ hquiet, exchange_read_same _ hsame hin]
  · simp [opXfer_world, xfer, latchAfter, hprev]
  · rw [xfer_quiet _ hquiet, exchange_read_previous _ hprev hl hin]
  · rw [opXfer_world, xfer_quiet _ hquiet, exchange_ev]
  · simp [opXfer_world, xfer, latchAfter, hprev]
  · cases hin : s.cfg.addrOk spc addr with
    | false =>
      rw [if_pos rfl]
      refine sameBytes_of_spaces_eq ?_
      rw [opXfer_world, xfer_quiet _ hquiet, exchange_spaces, peripheralAct_write_outside _ _ hin]
    | true =>
      rw [if_neg (by decide)]
      refine writeEffect_of_spaces hmap hslow hmem ?_
      rw [opXfer_world, xfer_quiet _ hquiet, exchange_spaces, peripheralAct_write _ _ hin]

-- ---------------------------------------------------------------- the deterministic double

/-- Whatever four bytes are put on the wire, they are exchanged. -/
theorem runWire_of_ready {s : State} (hready : Ready s) (w : Word) :
    runWire w s = .next (opXfer (quadOfWord w) s) := by
  unfold runWire
  split
  case h_1 i hdec =>
    have htxn : i.isTxn = true := by
      simp only [decodeWire] at hdec
      repeat' split at hdec
      all_goals (cases hdec; try rfl)
    rw [exec_txn htxn, encode_of_decodeWire hdec, State.command_of_ready hready]
  case h_2 => rfl

theorem openByte_double {c : Cfg} {w : World} (hd : w.periph.double = true) (hr : c.readReturn = .same) (k : Nat) :
    openByte c w k = 0 := by
  simp [openByte, hd, hr]

/-- Settles O14: every byte the spec leaves open is 0x00, a read is answered by `exchange`, and a write has `WriteEffect`. -/
theorem referencePeripheral : Obligations.ReferencePeripheral := by
  rintro w rest s ⟨⟨hready, hquiet, hslow, hmap, -⟩, hdouble, hsame⟩ hmem hclient
  have hx : xfer s.cfg (quadOfWord w) s.world = exchange s.cfg (quadOfWord w) s.world := xfer_quiet _ hquiet
  have hopen := openByte_double hdouble hsame
  have hsp : (opXfer (quadOfWord w) { s with client := rest }).world.spaces
      = (peripheralAct s.cfg (quadOfWord w) s.world).spaces := by
    rw [opXfer_world, hx, exchange_spaces]
  refine ⟨opXfer (quadOfWord w) { s with client := rest }, answer s.cfg (quadOfWord w) s.world, ?_, rfl, ?_, ?_, ?_⟩
  · rw [step_of_ready_wire hready hclient]
    exact runWire_of_ready (s := { s with client := rest }) hready w
  · have hinn : (exchange s.cfg (quadOfWord w) s.world).1 = ⟨0, 0, 0, answer s.cfg (quadOfWord w) s.world⟩ := by
      simp only [exchange, inbound, hopen]
    change (opXfer (quadOfWord w) { s with client := rest }).world.trace = _
    rw [opXfer_world, hx, exchange_trace, hinn]
    rfl
  · rw [opXfer_world, hx, exchange_ev]
  · cases hdec : decodeHeader (quadOfWord w) with
    | none =>
      simp only [peripheralAct, hdec] at hsp
      simp only [answer, answerLoc, hdec]
      exact ⟨hopen 3, sameBytes_of_spaces_eq hsp⟩
    | some hd =>
      obtain ⟨spc, write, addr⟩ := hd
      have hin : s.cfg.addrOk spc addr = decide (addr.toNat < s.cfg.size spc) := rfl
      simp only [peripheralAct, hdec, hin, decide_eq_true_eq] at hsp
      simp only [answer, answerLoc, hdec, hsame, hin, decide_eq_true_eq]
      by_cases hout : s.cfg.size spc ≤ addr.toNat
      case pos =>
        have hno : ¬ addr.toNat < s.cfg.size spc := Nat.not_lt.mpr hout
        rw [if_neg (fun h => hno h.2)] at hsp
        simp only [hout, hno, if_true, if_false]
        refine ⟨?_, sameBytes_of_spaces_eq hsp⟩
        cases write <;> exact hopen 3
      case neg =>
        have hyes : addr.toNat < s.cfg.size spc := Nat.lt_of_not_le hout
        cases write with
        | false =>
          rw [if_neg (fun h => absurd h.1 (by decide))] at hsp
          simp only [hout, hyes, if_true, if_false, Bool.false_eq_true]
          exact ⟨trivial, sameBytes_of_spaces_eq hsp⟩
        | true =>
          rw [if_pos ⟨rfl, hyes⟩] at hsp
          have heff : WriteEffect spc addr (quadOfWord w).b3 s.world _ := writeEffect_of_spaces hmap hslow hmem hsp
          rw [if_neg hout, if_neg (by decide)]
          refine ⟨hopen 3, ?_⟩
          unfold WriteEffect at heff
          by_cases hus : spc = .us ∧ addr = 5
          case pos =>
            obtain ⟨rfl, rfl⟩ := hus
            rw [if_neg (by decide), if_neg (by decide), if_pos ⟨rfl, rfl⟩]
            cases hstart : (quadOfWord w).b3.getLsbD 0 with
            | false =>
              simp only [hstart] at heff
              exact heff
            | true =>
              simp only [hstart] at heff
              cases hdir : (s.world.peek .us 2).getLsbD 7 with
              | false =>
                simp only [hdir] at heff
                exact ⟨heff.2.1, heff.1, heff.2.2⟩
              | true =>
                simp only [hdir] at heff
                exact ⟨heff.2.1, heff.1, heff.2.2⟩
          case neg =>
            have hbr : ∀ b : Prop, (spc = .us ∧ (addr = 1 ∨ addr = 4 ∨ (addr = 5 ∧ b))) ↔
                spc = .us ∧ (addr = 1 ∨ addr = 4) := by tauto
            simp only [hbr, hus, if_false] at heff ⊢
            exact heff

-- ---------------------------------------------------------------- plain writes

theorem onlyRetWorld_finish {s : State} (hready : Ready s) (w : World) (v : Value) :
    OnlyRetWorld s ({ s with world := w }.finish v) := by
  obtain ⟨_, _, seq, _, _, _, _, _, _, _⟩ := s
  cases hready
  rfl

theorem exec_writeInstr_of_ready {s : State} (hready : Ready s) (spc : Space) (addr : Addr) (v : Byte) :
    exec (writeInstr spc addr v) s = .next (opWrite spc addr v s) :=
  (exec_writeInstr spc addr v s).trans (State.command_of_ready hready _)

theorem startsRun_eq_true_iff (c : Cfg) (spc : Space) (addr : Addr) (v : Byte) :
    startsRun c spc addr v = true ↔ spc = .us ∧ addr = 0 ∧ goBit c.userMap v = true := by
  simp [startsRun]

/-- A plain write inside its space that starts no run. -/
theorem opWrite_plain {s : State} {spc : Space} {addr : Addr} {v : Byte} (hin : s.cfg.addrOk spc addr = true)
    (hrun : ¬(spc = .us ∧ addr = 0 ∧ goBit s.cfg.userMap v = true)) :
    opWrite spc addr v s = { s with world := writeByte s.cfg spc addr v s.world }.finish .unit := by
  rw [← startsRun_eq_true_iff] at hrun
  simp only [opWrite, hin, if_true, if_neg hrun]

/-- A write of `GO` to `CTRL`: one run counted, or the rejection at the limit (R127). -/
theorem opWrite_go {s : State} {v : Byte} (hin : s.cfg.addrOk .us 0 = true) (hgo : goBit s.cfg.userMap v = true) :
    opWrite .us 0 v s =
      if s.cfg.dwellMaxRuns ≤ s.fac.runsOnChannel then s.reject .dwellLimit
      else { s with
        world := writeByte s.cfg .us 0 v s.world
        fac := { s.fac with runsOnChannel := s.fac.runsOnChannel + 1 } }.finish .unit := by
  have hrun : startsRun s.cfg .us 0 v = true := (startsRun_eq_true_iff _ _ _ _).mpr ⟨rfl, rfl, hgo⟩
  simp only [opWrite, hin, if_true, hrun]

/-- Settles O17. -/
theorem plainWriteIsOneTransaction : Obligations.PlainWriteIsOneTransaction := by
  intro spc addr v s hready hin hrun
  have hexec := exec_writeInstr_of_ready hready spc addr v
  rw [opWrite_plain hin hrun] at hexec
  exact ⟨_, _, hexec, onlyRetWorld_finish hready _ _, rfl, writeByte_trace _ _ _ _ _⟩

theorem spaces_wf {s : State} (hmem : memoryOk s = true) (spc : Space) : (s.world.spaces.get spc).wf = true :=
  (((World.memoryOk_iff _ _).mp hmem).1 spc).1

/-- Settles O18: the location is one that stores what is written. -/
theorem quietPlainWriteStores : Obligations.QuietPlainWriteStores := by
  intro spc addr v s hready hquiet hmem hin hplain
  obtain ⟨hw, hsp, -⟩ := writeByte_calm v (calm_of_quiet hquiet 1) hin
  rw [peripheralWrite_plain v _ hplain] at hsp
  obtain ⟨hv, hbytes, hsdr⟩ := peek_of_poke (spaces_wf hmem spc) hsp
  refine ⟨_, exec_writeInstr_of_ready hready spc addr v, ?_⟩
  rw [opWrite_plain hin (fun h => (hplain h.1).1 h.2.1)]
  exact ⟨onlyRetWorld_finish hready _ _, rfl, hv, hbytes, hsdr, hw.ev⟩

/-- A plain write that is not rejected, on the bench: its bytes by `WriteEffect`. -/
theorem writeEffect_writeByte {s : State} (hbench : Bench s) (hmem : memoryOk s = true) {addr : Addr}
    (haddr : addr.toNat < 8) (v : Byte) :
    WriteEffect .us addr v s.world (writeByte s.cfg .us addr v s.world)
    ∧ (writeByte s.cfg .us addr v s.world).ev = s.world.ev := by
  obtain ⟨-, hquiet, hslow, hmap, husize⟩ := hbench
  have hin : s.cfg.addrOk .us addr = true := decide_eq_true (Nat.lt_of_lt_of_le haddr husize)
  obtain ⟨hw, hsp, -⟩ := writeByte_calm v (calm_of_quiet hquiet 1) hin
  exact ⟨writeEffect_of_spaces hmap hslow hmem hsp, hw.ev⟩

theorem addrOk_user {c : Cfg} (h : 8 ≤ c.userSize) {addr : Addr} (haddr : addr.toNat < 8) : c.addrOk .us addr = true :=
  decide_eq_true (Nat.lt_of_lt_of_le haddr h)

/-- Settles O19: each of the four bytes is a case of `WriteEffect`. -/
theorem quietUserControlBytes : Obligations.QuietUserControlBytes := by
  intro v s hbench hmem
  have heffect := fun {addr : Addr} (haddr : addr.toNat < 8) => writeEffect_writeByte hbench hmem haddr v
  obtain ⟨hready, -, -, hmap, husize⟩ := hbench
  have hplain : ∀ {addr : Addr}, addr.toNat < 8 → addr ≠ 0 →
      exec (.wrUs addr v) s = .next ({ s with world := writeByte s.cfg .us addr v s.world }.finish .unit) :=
    fun haddr hne => by
      rw [← opWrite_plain (addrOk_user husize haddr) (fun h => hne h.2.1)]
      exact exec_writeInstr_of_ready hready .us _ v
  refine ⟨fun hgo => ?ctrl, fun addr haddr => ?ignored, fun hstart hdir => ?toSdr, fun hstart hdir => ?fromSdr⟩
  case ctrl =>
    obtain ⟨heff, hev⟩ := heffect (addr := 0) (by decide)
    have hin := addrOk_user husize (addr := 0) (by decide)
    refine ⟨opWrite .us 0 v s, exec_writeInstr_of_ready hready .us 0 v, ?_⟩
    cases hbit : goBit s.cfg.userMap v with
    | false =>
      rw [opWrite_plain hin (fun h => by simp [hbit] at h)]
      exact ⟨rfl, heff.1, heff.2.1, heff.2.2, hev⟩
    | true =>
      have hlt : s.fac.runsOnChannel < s.cfg.dwellMaxRuns := hgo.resolve_left fun hno => by
        rw [hmap] at hbit
        exact absurd (hbit.symm.trans hno) (by decide)
      rw [opWrite_go hin hbit, if_neg (Nat.not_le.mpr hlt)]
      exact ⟨rfl, heff.1, heff.2.1, heff.2.2, hev⟩
  case ignored =>
    have hlt : addr.toNat < 8 ∧ addr ≠ 0 := by rcases haddr with rfl | rfl | ⟨rfl, -⟩ <;> decide
    obtain ⟨heff, hev⟩ := heffect hlt.1
    rw [WriteEffect, if_neg (fun h => hlt.2 h.2), if_pos ⟨rfl, haddr⟩] at heff
    exact ⟨_, hplain hlt.1 hlt.2, onlyRetWorld_finish hready _ _, rfl, heff, hev⟩
  case toSdr =>
    obtain ⟨heff, hev⟩ := heffect (addr := 5) (by decide)
    simp only [WriteEffect, hstart, hdir] at heff
    obtain ⟨h5, hsdr, hbytes, hsdrs⟩ := heff
    exact ⟨_, hplain (by decide) (by decide), onlyRetWorld_finish hready _ _, rfl, h5, hev, hsdr, hbytes, hsdrs⟩
  case fromSdr =>
    obtain ⟨heff, hev⟩ := heffect (addr := 5) (by decide)
    simp only [WriteEffect, hstart, hdir] at heff
    obtain ⟨h5, h4, hbytes, hsdrs⟩ := heff
    have hsa : (s.world.peek .us 2).toNat % 128 = (s.world.peek .us 2).toNat :=
      Nat.mod_eq_of_lt (BitVec.toNat_lt_of_msb_false (by simpa [BitVec.msb_eq_getLsbD_last] using hdir))
    rw [hsa] at h4
    exact ⟨_, hplain (by decide) (by decide), onlyRetWorld_finish hready _ _, rfl, h5, hev, h4, hbytes, hsdrs⟩

/-- Settles O20. -/
theorem dwellAccounting : Obligations.DwellAccounting := by
  intro v s hready hin hgo
  have hexec : exec (.wrUs 0 v) s = .next (opWrite .us 0 v s) := exec_writeInstr_of_ready hready .us 0 v
  rw [opWrite_go hin hgo] at hexec
  refine ⟨fun hlt => ?counted, fun hle => ?rejected⟩
  case counted =>
    rw [if_neg (Nat.not_le.mpr hlt)] at hexec
    refine ⟨_, _, hexec, ?_, writeByte_trace _ _ _ _ _⟩
    rw [State.finish, ← hready]
  case rejected => rw [hexec, if_pos hle, State.reject]

-- ---------------------------------------------------------------- a slow bridge

/-- `BR_START` on a slow bridge: `BR_CTRL` reads 0 and the transfer is in flight, as `BR_ADDR` and `BR_WDATA` say. -/
theorem peripheralWrite_start_slow {c : Cfg} {v : Byte} {w : World} (hslow : w.periph.slow = true)
    (hstart : brStartOf c.userMap v = true) : peripheralWrite c ⟨.us, true, brCtrlAddr⟩ v w = bridgeBegin c w := by
  simp [peripheralWrite, hstart, hslow]

/-- Settles O15: the start is `bridgeBegin`, the end of the transfer is the environment's turn. -/
theorem bridgeTransferInFlight : Obligations.BridgeTransferInFlight := by
  refine ⟨?start, ?finish⟩
  case start =>
    rintro v s ⟨hready, hslow, hmap, husize, hmem⟩ hquiet hbit
    have hstart : brStartOf s.cfg.userMap v = true := by rw [hmap]; exact hbit
    have hin := addrOk_user husize (addr := 5) (by decide)
    have hexec := exec_writeInstr_of_ready hready .us 5 v
    rw [opWrite_plain hin (fun h => absurd h.2.1 (by decide))] at hexec
    obtain ⟨hw, hsp, hpe⟩ := writeByte_calm v (calm_of_quiet hquiet 1) hin
    rw [peripheralWrite_start_slow hslow hstart] at hsp hpe
    obtain ⟨h5, hbytes, hsdr⟩ := peek_of_poke (spc := .us) (a := 5) (v := 0) (spaces_wf hmem .us) hsp
    refine ⟨_, hexec, onlyRetWorld_finish hready _ _, rfl, h5, hbytes, hsdr, hw.ev, ?_⟩
    have hflight := congrArg Periph.flight hpe
    simp only [bridgeBegin, hmap] at hflight
    exact hflight
  case finish =>
    rintro s f ⟨hready, -, hmap, husize, hmem⟩ hclient hscript hflight
    have hturn : s.world.envTurn s.cfg = bridgeEnd s.cfg { s.world with script := [] } := by
      rw [World.envTurn_batch hscript]
      simp [EnvStep.act, husize]
    have hworld : (idleTurn s).world = bridgeEnd s.cfg { s.world with script := [] } := hturn
    have hsp := bridgeEnd_spaces s.cfg (w := { s.world with script := [] }) hflight
    rw [← hworld] at hsp
    have hflown : (idleTurn s).world.periph.flight = none := by rw [hworld]; simp
    have hev : (idleTurn s).world.ev = s.world.ev := by rw [hworld]; simp
    have hdone : brDoneByte s.cfg.userMap = 0x02 := by rw [hmap]; rfl
    rw [hdone] at hsp
    refine ⟨idleTurn s, step_idle hready hclient, rfl, ?_⟩
    obtain ⟨wnr, sa, data⟩ := f
    have hsdr := ((World.memoryOk_iff _ _).mp hmem).2.1
    cases wnr with
    | true =>
      obtain ⟨h5, hto, hbytes, hsdrs⟩ := peek_of_toSdr (w := s.world) (spaces_wf hmem .us) hsdr hsp
      refine ⟨h5, hflown, hev, fun _ => ?_, nofun⟩
      exact ⟨hto, hbytes, hsdrs⟩
    | false =>
      obtain ⟨h5, hfrom, hbytes, hsdrs⟩ := peek_of_fromSdr (w := s.world) (spaces_wf hmem .us) hsp
      refine ⟨h5, hflown, hev, nofun, fun _ => ?_⟩
      exact ⟨hfrom, hbytes, hsdrs⟩

end Sys2Proof.Machine
end

section
/-! Reads, verified writes, event flags, and the operations that touch registers only: what the shared procedures' laws say of
the whole operation. -/

namespace Sys2Proof.Machine

-- ---------------------------------------------------------------- reads

theorem readOf_eq (c : Cfg) (spc : Space) (addr : Addr) (pre inn : Quad) :
    readOf c spc addr pre inn =
      if c.readReturn = .same then [.xfer (rdQ spc addr) inn]
      else [.xfer (rdQ spc addr) inn, .xfer (rdQ spc addr) pre] := by
  cases hr : c.readReturn <;> simp [readOf, hr]

theorem exec_readInstr_of_ready {s : State} (hready : Ready s) {spc : Space} {addr : Addr}
    (hin : s.cfg.addrOk spc addr = true) :
    exec (readInstr spc addr) s = .next ({ s with world := (readByte s.cfg spc addr s.world).2 }.finish
      (.byte (readByte s.cfg spc addr s.world).1)) := by
  rw [exec_readInstr, State.command_of_ready hready]
  simp only [opRead, hin, if_true]

/-- Settles O13: a read is `readByte`, whose history is `readOf`. -/
theorem readReturnsTheAnswer : Obligations.ReadReturnsTheAnswer := by
  intro spc addr s hready hin
  obtain ⟨pre, inn, hbyte, htrace⟩ := readByte_readOf s.cfg spc addr s.world
  refine ⟨_, pre, inn, exec_readInstr_of_ready hready hin, onlyRetWorld_finish hready _ _, by rw [← hbyte]; rfl, ?_,
    fun hquiet => ?_⟩
  · rw [← readOf_eq]
    exact htrace
  · obtain ⟨hval, hsp, hev, -⟩ := readByte_quiet (addr := addr) hquiet hin
    exact ⟨hbyte.symm.trans hval, sameBytes_of_spaces_eq hsp, hev⟩

-- ---------------------------------------------------------------- verified writes

theorem onlyRetWorld_conclude {s : State} (hready : Ready s) (w : World) (f : Option FaultCode) (v : Value) :
    OnlyRetWorld s ({ s with world := w }.conclude f v) := by
  obtain ⟨_, _, seq, _, _, _, _, _, _, _⟩ := s
  cases hready
  cases f <;> rfl

theorem verifiesTrigger_eq_true_iff (c : Cfg) (spc : Space) (addr : Addr) (v : Byte) :
    verifiesTrigger c spc addr v = true ↔ spc = .us ∧ addr = 0 ∧ v &&& trigMask c.userMap ≠ 0 := by
  simp [verifiesTrigger]

/-- A verified write that is not rejected is its attempts, under the mask of its location. -/
theorem exec_verifyInstr_of_ready {s : State} (hready : Ready s) {spc : Space} {addr : Addr} {v mask : Byte}
    (hin : s.cfg.addrOk spc addr = true) (hmask : vMask s.cfg.userMap spc addr = some mask)
    (htrig : ¬(spc = .us ∧ addr = 0 ∧ v &&& trigMask s.cfg.userMap ≠ 0)) :
    exec (verifyInstr spc addr v) s = .next ({ s with world := (writeV s.cfg spc addr v mask s.world).2 }.conclude
      (writeV s.cfg spc addr v mask s.world).1 .unit) := by
  rw [← verifiesTrigger_eq_true_iff] at htrig
  rw [exec_verifyInstr, State.command_of_ready hready]
  simp only [opWriteV, hin, if_true, hmask, if_neg htrig]

/-- Settles O21: the attempts are those of `verifyLoop`. -/
theorem verifiedWriteProtocol : Obligations.VerifiedWriteProtocol := by
  intro spc addr v mask s hready hin hmask htrig
  obtain ⟨l, htrace, hdrop, hcase⟩ := verifyLoop_attempts s.cfg spc addr v mask Config.writeVerifyAttempts s.world
  refine ⟨_, l, exec_verifyInstr_of_ready hready hin hmask htrig, onlyRetWorld_conclude hready _ _ _, ?_, hdrop, ?_⟩
  · simp only [Added, State.conclude_world]
    exact htrace
  · rcases hcase with ⟨hok, hlen, hlast⟩ | ⟨hfail, hlen, hall⟩
    · refine .inl ⟨?_, hlen, hlast⟩
      simp only [writeV, hok, if_true]
      rfl
    · refine .inr ⟨?_, hlen, hall⟩
      simp only [writeV, hfail]
      rfl

/-- `CTRL` reads back a byte without trigger bits. -/
theorem readsBack_ctrl {c : Cfg} (hmap : c.userMap = UserMap.default) {v : Byte} (hv : v &&& 0x0F = 0) :
    ReadsBack c .us ctrlAddr v := by
  have hkept : v &&& ~~~trigMask c.userMap = v := by
    rw [hmap]
    revert v
    decide
  intro w
  simp only [peripheralWrite, if_true, hkept]
  rfl

/-- On the default map a location that may be verified has a mask, and reads back what is written. -/
theorem vMask_of_plain {c : Cfg} {spc : Space} {addr : Addr}
    (h : spc = .us → addr ≠ 1 ∧ addr ≠ 4 ∧ addr ≠ 5) : ∃ mask, vMask c.userMap spc addr = some mask := by
  by_cases hus : spc = .us
  · subst hus
    obtain ⟨h1, h4, h5⟩ := h rfl
    by_cases h0 : addr = 0
    · subst h0; exact ⟨_, vMask_us_ctrl _⟩
    · exact ⟨_, vMask_us_plain _ h0 h1 h4 h5⟩
  · exact ⟨_, vMask_of_ne_us _ hus _⟩

/-- Settles O22: the location reads back what is written, so the first attempt matches. -/
theorem quietVerifiedWriteSucceeds : Obligations.QuietVerifiedWriteSucceeds := by
  rintro spc addr v s ⟨hready, hquiet, -, hmap, -⟩ hmem hin hloc
  obtain ⟨mask, hmask⟩ := vMask_of_plain (c := s.cfg) (spc := spc) (addr := addr)
    fun h => ⟨(hloc h).1, (hloc h).2.1, (hloc h).2.2.1⟩
  have htrig : ¬(spc = .us ∧ addr = 0 ∧ v &&& trigMask s.cfg.userMap ≠ 0) := fun ⟨hus, h0, hne⟩ => by
    rw [hmap, trigMask_default] at hne
    exact hne ((hloc hus).2.2.2 h0)
  have hback : ReadsBack s.cfg spc addr v := by
    by_cases hctrl : spc = .us ∧ addr = 0
    · obtain ⟨rfl, rfl⟩ := hctrl
      exact readsBack_ctrl hmap ((hloc rfl).2.2.2 rfl)
    · exact readsBack_plain _ _ fun h => ⟨fun h0 => hctrl ⟨h, h0⟩, (hloc h).1, (hloc h).2.1, (hloc h).2.2.1⟩
  obtain ⟨hok, hcalm, hsp, -⟩ := writeV_calm mask (calm_of_quiet hquiet _) hin hback (spaces_wf hmem spc)
  obtain ⟨new, htrace, hsent, -, -⟩ := hcalm.ports
  obtain ⟨hv, hbytes, hsdr⟩ := peek_of_poke (spaces_wf hmem spc) hsp
  have hexec := exec_verifyInstr_of_ready hready hin hmask htrig
  rw [hok] at hexec
  exact ⟨_, new, hexec, onlyRetWorld_finish hready _ _, rfl, htrace, hsent, hv, hbytes, hsdr, hcalm.ev⟩

-- ---------------------------------------------------------------- verified writes that are lost

/-- The turn before a read can be played before it. -/
theorem readByte_envTurn (c : Cfg) (spc : Space) (addr : Addr) (w : World) :
    readByte c spc addr w = readByte c spc addr { w.envTurn c with script := [] :: (w.envTurn c).script } := by
  cases hr : c.readReturn with
  | same => rw [readByte_same _ _ _ hr, readByte_same _ _ _ hr]; rfl
  | previous => rw [readByte_previous _ _ _ hr, readByte_previous _ _ _ hr]; rfl

theorem lossTurns_succ (c : Cfg) (addr : Addr) (old : Byte) (k : Nat) :
    lossTurns c addr old (k + 1) =
      [] :: [EnvStep.poke .tx addr.toNat old] :: (List.replicate (readCost c - 1) [] ++ lossTurns c addr old k) := by
  simp [lossTurns, List.replicate_succ]

theorem one_le_readCost (c : Cfg) : 1 ≤ readCost c := by
  cases hr : c.readReturn with
  | same => rw [readCost_same hr]
  | previous => rw [readCost_previous hr]; decide

/-- One attempt that is lost: the old byte is put back before the read-back, which returns it. -/
theorem attempt_lost {c : Cfg} {addr : Addr} {v old : Byte} {k : Nat} {w : World} (hin : c.addrOk .tx addr = true)
    (hmem : w.memoryOk c = true) (hscript : w.script = lossTurns c addr old (k + 1)) :
    (readByte c .tx addr (writeByte c .tx addr v w)).1 = old
    ∧ (readByte c .tx addr (writeByte c .tx addr v w)).2.peek .tx addr.toNat = old
    ∧ (readByte c .tx addr (writeByte c .tx addr v w)).2.memoryOk c = true
    ∧ (readByte c .tx addr (writeByte c .tx addr v w)).2.script = lossTurns c addr old k
    ∧ Ports w (readByte c .tx addr (writeByte c .tx addr v w)).2 (wrQ .tx addr v :: rdQs c .tx addr) 0 [] := by
  have hlt : addr.toNat < c.size .tx := by simpa [Cfg.addrOk] using hin
  rw [lossTurns_succ] at hscript
  obtain ⟨hw, hsp, -⟩ := writeByte_calm v (w := w) (c := c) (addr := addr) (spc := .tx)
    (by simp [Calm, hscript]) hin
  rw [peripheralWrite_plain v w (spc := .tx) nofun] at hsp
  generalize hw1 : writeByte c .tx addr v w = w1 at hw hsp
  have hturn : w1.envTurn c = { w1.poke .tx addr.toNat old with
      script := List.replicate (readCost c - 1) [] ++ lossTurns c addr old k } := by
    have hs1 : w1.script = [EnvStep.poke .tx addr.toNat old]
        :: (List.replicate (readCost c - 1) [] ++ lossTurns c addr old k) := by rw [hw.script, hscript]; rfl
    rw [World.envTurn_batch hs1]
    simp only [List.foldl, EnvStep.act, hlt, if_true]
    rfl
  have hcost : readCost c - 1 + 1 = readCost c := Nat.sub_add_cancel (one_le_readCost c)
  have hmem1 : w1.memoryOk c = true := by
    rw [World.memoryOk, hsp]
    exact World.memoryOk_poke v hmem hlt
  have hmem2 : (w1.poke .tx addr.toNat old).memoryOk c = true := World.memoryOk_poke old hmem1 hlt
  rw [readByte_envTurn, hturn]
  have hcalm : Calm (readCost c) { w1.poke .tx addr.toNat old with
      script := [] :: (List.replicate (readCost c - 1) [] ++ lossTurns c addr old k) } := by
    rw [← hcost]
    intro b hb
    rw [List.take_succ_cons, List.take_left' (by simp)] at hb
    exact (List.mem_cons.mp hb).elim id List.eq_of_mem_replicate
  obtain ⟨hb, hr, hrsp, -⟩ := readByte_calm (spc := .tx) (addr := addr) hcalm hin
  have hold : (w1.poke .tx addr.toNat old).peek .tx addr.toNat = old :=
    World.peek_poke_same _ _ _ _ (((World.memoryOk_iff _ _).mp hmem1).1 .tx).1
  refine ⟨hb.trans hold, (World.peek_of_spaces_eq hrsp _ _).trans hold, ?_, ?_, ?_⟩
  · rw [World.memoryOk, hrsp]
    exact hmem2
  · rw [hr.script, ← hcost, List.drop_succ_cons]
    exact List.drop_left' (by simp)
  · exact hw.ports.trans (hr.ports.of_trace_eq rfl rfl)

/-- The attempts of a verified write whose first `j` writes are lost. -/
theorem verifyLoop_lost {c : Cfg} {addr : Addr} {v old : Byte} (hin : c.addrOk .tx addr = true) (hne : old ≠ v) (n : Nat) :
    ∀ (j : Nat) (w : World), w.memoryOk c = true → w.peek .tx addr.toNat = old → w.script = lossTurns c addr old j →
      let r := verifyLoop c .tx addr v 0xFF n w
      r.1 = decide (j < n)
      ∧ Ports w r.2 (List.replicate (min (j + 1) n) (wrQ .tx addr v :: rdQs c .tx addr)).flatten 0 []
      ∧ r.2.peek .tx addr.toNat = if j < n then v else old := by
  induction n with
  | zero => exact fun j w _ hold _ => ⟨by simp [verifyLoop], Ports.refl w, by simpa [verifyLoop] using hold⟩
  | succ n ih =>
    intro j w hmem hold hscript
    cases j with
    | zero =>
      obtain ⟨hok, hcalm, hsp, -⟩ := verifyLoop_calm 0xFF n (calm_of_quiet (by simpa [lossTurns] using hscript) _) hin
        (readsBack_plain c v (spc := .tx) nofun) (((World.memoryOk_iff _ _).mp hmem).1 .tx).1
      refine ⟨by simpa using hok, ?_, ?_⟩
      · rw [Nat.min_eq_left (by omega)]
        simpa using hcalm.ports
      · rw [if_pos (Nat.succ_pos n), World.peek_of_spaces_eq hsp]
        exact World.peek_poke_same _ _ _ _ (((World.memoryOk_iff _ _).mp hmem).1 .tx).1
    | succ k =>
      obtain ⟨hb, hold', hmem', hscript', hports⟩ := attempt_lost (v := v) hin hmem hscript
      obtain ⟨hr, hp, hpeek⟩ := ih k _ hmem' hold' hscript'
      have hmiss : ¬ (readByte c .tx addr (writeByte c .tx addr v w)).1 &&& 0xFF = v &&& 0xFF := by
        have hall : ∀ x : Byte, x &&& 0xFF = x := fun _ => BitVec.and_allOnes
        rw [hb, hall, hall]
        exact hne
      simp only [verifyLoop, if_neg hmiss]
      refine ⟨by simpa using hr, ?_, by simpa using hpeek⟩
      rw [Nat.succ_min_succ, List.replicate_succ, List.flatten_cons]
      exact hports.trans hp

/-- Settles O23: the first attempts are lost one by one, and the one after them is quiet. -/
theorem verifiedWriteSurvivesTwoLosses : Obligations.VerifiedWriteSurvivesTwoLosses := by
  intro addr v j s hready hmem hin hold hscript
  have hexec := exec_verifyInstr_of_ready (v := v) (mask := 0xFF) hready hin (vMask_of_ne_us _ (by decide) _) (by simp)
  obtain ⟨hr, ⟨new, htrace, hsent, -⟩, hpeek⟩ := verifyLoop_lost hin hold 3 j s.world hmem rfl hscript
  have hwrite : writeV s.cfg .tx addr v 0xFF s.world =
      (if decide (j < 3) = true then none else some .writeVerifyFail, (verifyLoop s.cfg .tx addr v 0xFF 3 s.world).2) := by
    rw [← hr]
    rfl
  rw [hwrite] at hexec
  refine ⟨fun hj => ?found, fun hj => ?failed⟩
  case found =>
    have hlt : j < 3 := Nat.lt_succ_of_le hj
    rw [decide_eq_true hlt] at hexec
    rw [Nat.min_eq_left hlt] at hsent
    exact ⟨_, new, hexec, rfl, htrace, hsent, hpeek.trans (if_pos hlt)⟩
  case failed =>
    have hge : ¬ j < 3 := Nat.not_lt.mpr hj
    rw [decide_eq_false hge] at hexec
    rw [Nat.min_eq_right (Nat.le_succ_of_le hj)] at hsent
    exact ⟨_, new, hexec, rfl, htrace, hsent, hpeek.trans (if_neg hge)⟩

-- ---------------------------------------------------------------- event flags

theorem EventFlags.put_self {f : EventFlags} {e : Event} {v : Bool} (h : f.get e = v) : f.put e v = f := by
  subst h
  cases e <;> rfl

theorem clearFlag_quiet {c : Cfg} {e : Event} {w : World} (hq : w.script = []) :
    clearFlag c e w = { w with ev := w.ev.put e false } := by
  simp only [clearFlag, World.envTurn_quiet hq]

/-- A flag cleared in a quiet environment: the other flags and every byte stay. -/
theorem clearFlag_quiet_frame {s : State} {t : State} {e : Event} (hquiet : Quiet s)
    (ht : t.world = clearFlag s.cfg e s.world) :
    (∀ e', e' ≠ e → t.world.ev.get e' = s.world.ev.get e') ∧ SameBytes s t := by
  rw [clearFlag_quiet hquiet] at ht
  refine ⟨fun e' hne => ?_, sameBytes_of_spaces_eq (by rw [ht])⟩
  rw [ht]
  exact EventFlags.get_put_other _ _ hne

/-- Settles O28. -/
theorem evclrClearsItsFlag : Obligations.EvclrClearsItsFlag := by
  intro e s hready
  have hexec : exec (.evclr e) s = .next (opEvclr e s) := State.command_of_ready hready _
  exact ⟨_, hexec, onlyRetWorld_finish hready _ _, rfl, clearFlag_get _ _ _, clearFlag_trace _ _ _,
    fun hquiet => clearFlag_quiet_frame hquiet rfl⟩

/-- `EVWAIT` on a flag that is 1 clears it. -/
theorem opEvwait_set {e : Event} {s : State} (h : s.world.ev.get e = true) :
    opEvwait e s = { s with world := clearFlag s.cfg e s.world }.finish .unit := by
  simp only [opEvwait, waitFlag_set h]

/-- Settles O29. -/
theorem evwaitConsumesSetFlag : Obligations.EvwaitConsumesSetFlag := by
  intro e s hready hset
  have hexec : exec (.evwait e) s = .next (opEvwait e s) := State.command_of_ready hready _
  rw [opEvwait_set hset] at hexec
  exact ⟨_, hexec, onlyRetWorld_finish hready _ _, rfl, clearFlag_get _ _ _, clearFlag_trace _ _ _,
    fun hquiet => clearFlag_quiet_frame hquiet rfl⟩

/-- A held wait has no step while its flag is 0 and the environment does nothing (R153). -/
theorem step_held {s : State} {e : Event} (hseq : s.seq.waitsFor = some e) (hflag : s.world.ev.get e = false)
    (hquiet : Quiet s) : step s = .fault (.held e) := by
  simp only [step, hseq, hflag, hquiet, and_self, if_true]

/-- Settles O30: the wait holds at once, and only a flag that is 1 lets `step` go on with it. -/
theorem evwaitHoldsUntilSet : Obligations.EvwaitHoldsUntilSet := by
  intro e s hready hquiet hclear
  refine ⟨?held, step_held rfl hclear hquiet, fun e' hne => step_held rfl ?other hquiet, ?lifted⟩
  case held =>
    have hexec : exec (.evwait e) s = .next (opEvwait e s) := State.command_of_ready hready _
    rw [hexec, opEvwait, waitFlag_held hclear hquiet]
  case other => exact (EventFlags.get_put_other _ _ hne.symm).trans hclear
  case lifted =>
    have hres : step { s with seq := .evWait e, world := { s.world with script := [[.evSet e]] } } =
        .next (opEvwait e { s with seq := .evWait e, world := { s.world with script := [[.evSet e]] } }) := by
      simp [step, Seq.waitsFor, resume]
    have hwait : waitFlag s.cfg e { s.world with script := [[.evSet e]] } =
        (true, { s.world with ev := s.world.ev.put e true, script := [] }) := by
      simp [waitFlag, waitLoop, hclear, EnvStep.act]
    have hflags : { s.world with ev := s.world.ev.put e false, script := [] } = s.world := by
      rw [EventFlags.put_self hclear, ← hquiet]
    rw [hres, opEvwait, hwait]
    simp only [clearFlag_quiet, State.finish, EventFlags.put_put, hflags, ← hready]

-- ---------------------------------------------------------------- registers only

/-- Settles O31: each operation's result is its record update. -/
theorem resultRecordOperations : Obligations.ResultRecordOperations := by
  intro s hready
  refine ⟨?_, ?_, ?_⟩
  · have hexec : exec .resNew s = .next (opResNew s) := State.command_of_ready hready _
    rw [hexec, opResNew, State.finish, ← hready]
    rfl
  · have hexec : exec (.resFail .I) s = .next (opResFail .I s) := State.command_of_ready hready _
    rw [hexec, opResFail, State.finish, ← hready]
    rfl
  · have hexec : exec (.resFail .Q) s = .next (opResFail .Q s) := State.command_of_ready hready _
    rw [hexec, opResFail, State.finish, ← hready]
    rfl

theorem retune_unfit {s : State} (h : tuneFits s.cfg = false) (run : State → State) :
    retune run s = s.reject .badSdrAddr := by
  simp only [retune, h, Bool.false_eq_true, if_false]

/-- Settles O42: each operation looks at its operand, and every retune at its SDR addresses, before anything else. -/
theorem operandsRejected : Obligations.OperandsRejected := by
  refine ⟨fun ch s hready hch => ?channel, fun n s hready hn => ?length, fun i s hready hlong hi => ?address⟩
  case channel =>
    have hexec : exec (.setCh ch) s = .next (opSet ch s) := State.command_of_ready hready _
    rw [hexec, opSet, if_pos hch, State.reject]
  case length =>
    have hexec : exec (.decRead n) s = .next (opDecRead n s) := State.command_of_ready hready _
    have hbad : badLength n = true := decide_eq_true hn
    rw [hexec, opDecRead, if_pos hbad, State.reject]
  case address =>
    have hunfit : tuneFits s.cfg = false := by
      simp only [tuneFits, Bool.and_eq_false_iff, decide_eq_false_iff_not, Nat.not_le]
      exact hlong
    have hrej := retune_unfit hunfit
    rcases hi with rfl | rfl | rfl | ⟨ch, hch, rfl⟩
    · exact (State.command_of_ready hready _).trans (congrArg _ (hrej opHop))
    · exact (State.command_of_ready hready _).trans (congrArg _ (hrej opSkip))
    · exact (State.command_of_ready hready _).trans (congrArg _ (hrej opAlt))
    · have hset : opSet ch s = s.reject .badSdrAddr := by
        rw [opSet, if_neg (Nat.not_lt.mpr hch), hrej]
      exact (State.command_of_ready hready _).trans (congrArg _ hset)

end Sys2Proof.Machine
end

section
/-! The calibrations one measurement at a time: `exec` runs the searches of 44_toc_calibrator.md R213 and R214 as nested passes;
here they are one loop, `askRun`, that asks for a measurement, takes its sample and asks again. Every fact about a
calibration is then one induction over its measurements, `askRun_induct`. -/

namespace Sys2Proof.Machine

-- ---------------------------------------------------------------- what a calibration asks for

/-- What a calibration asks for next: the measurement of a pair, or its end. -/
inductive CalAsk where
  | point (k : CalAt) (a b : Offset)
  | done (exit : CalExit)

/-- What the search of `CAL.GRAD` asks for, as a calibration. -/
def Ask.cal : Ask → CalAsk
  | .point g a b => .point (.grad g) a b
  | .done exit => .done exit

/-- What `CAL.BRUTE` asks for with these pairs left. -/
def bruteAsk : List (Offset × Offset) → CalAsk
  | [] => .done .swept
  | p :: _ => .point (.brute p.1 p.2) p.1 p.2

/-- A sample taken into account: the registers, and what the calibration asks for next (R213, R214). -/
def calNext (c : Cfg) : CalAt → Nat → Toc → Toc × CalAsk
  | .brute a b, v, t => (bruteTake a b v t, bruteAsk (sweepAfter a b))
  | .grad g, v, t => ((gradNext c g v t).1, (gradNext c g v t).2.cal)

/-- The calibration from what it asks for on. -/
def askRun : CalAsk → State → State
  | .done exit, s => calFinish exit s
  | .point k a b, s =>
    match measure s.cfg a b s.world with
    | (.fault f, w) => { s with world := w }.raise f
    | (.held, w) => { s with world := w, seq := k.held }
    | (.sample v, w) => goOn k v { s with world := w }

-- ---------------------------------------------------------------- the sweep

@[simp] theorem length_sweep : sweep.length = 256 := by simp [sweep]

theorem getElem_sweep (k : Nat) (hk : k < 256) :
    sweep[k]'(by simpa using hk) = (BitVec.ofNat 4 (k / 16), BitVec.ofNat 4 (k % 16)) := by
  simp [sweep]

/-- The position of a pair of the sweep. -/
theorem sweep_position (k : Nat) (hk : k < 256) :
    16 * (BitVec.ofNat 4 (k / 16)).toNat + (BitVec.ofNat 4 (k % 16)).toNat = k := by
  simp only [BitVec.toNat_ofNat]
  omega

theorem drop_sweep {k : Nat} {p : Offset × Offset} {rest : List (Offset × Offset)} (h : sweep.drop k = p :: rest) :
    rest = sweepAfter p.1 p.2 ∧ 16 * p.1.toNat + p.2.toNat = k := by
  have hk : k < 256 := by
    by_contra hge
    rw [List.drop_eq_nil_of_le (by simpa using hge)] at h
    cases h
  rw [List.drop_eq_getElem_cons (by simpa using hk), getElem_sweep k hk] at h
  obtain ⟨rfl, rfl⟩ := List.cons.inj h
  have hpos := sweep_position k hk
  exact ⟨by rw [sweepAfter, hpos], hpos⟩

/-- The sweep of `CAL.BRUTE` is a calibration that asks for the first pair left. -/
theorem bruteFrom_eq (k : Nat) (s : State) : bruteFrom (sweep.drop k) s = askRun (bruteAsk (sweep.drop k)) s := by
  cases h : sweep.drop k with
  | nil => rfl
  | cons p rest =>
    obtain ⟨hrest, -⟩ := drop_sweep h
    simp only [bruteFrom, bruteAsk, askRun, goOn, ← hrest]
    rfl

-- ---------------------------------------------------------------- the descent

/-- The probe of the neighbours left asks for the first in range, or moves, or ends (R214). -/
theorem probeFrom_go (l : List Dir) (cand : Option Cand) (s : State) :
    (probeFrom l cand s).go =
      match nextProbe s.toc cand l, cand with
      | some ask, _ => askRun ask.cal s
      | none, none => calFinish .localMin s
      | none, some x => gradContinue { s with toc := { s.toc.moveTo x.a x.b x.sample with calDir := some x.dir } } := by
  induction l with
  | nil => cases cand <;> rfl
  | cons d l ih =>
    cases hn : neighbour (s.toc.calA.getD 0) (s.toc.calB.getD 0) d with
    | none =>
      simp only [probeFrom, nextProbe, hn]
      exact ih
    | some p =>
      obtain ⟨a, b⟩ := p
      simp only [probeFrom, nextProbe, hn, Ask.cal, askRun]
      rcases measure s.cfg a b s.world with ⟨m, w⟩
      cases m <;> rfl

/-- Giving up the direction: the registers, and the probe of the neighbours. -/
theorem startProbe_go (s : State) :
    (startProbe s).go = askRun (probeAsk s.toc).2.cal { s with toc := (probeAsk s.toc).1 } := by
  rw [startProbe, probeFrom_go]
  simp only [probeAsk]
  cases nextProbe { s.toc with calDir := none } none probeOrder <;> rfl

theorem probeFrom_again (l : List Dir) : ∀ (cand : Option Cand) (s : State) {s' : State},
    probeFrom l cand s = .again s' → s'.cfg = s.cfg ∧ s'.toc.calIter = s.toc.calIter := by
  induction l with
  | nil =>
    intro cand s s' h
    cases cand with
    | none => cases h
    | some x => cases h; exact ⟨rfl, rfl⟩
  | cons d l ih =>
    intro cand s s' h
    simp only [probeFrom] at h
    split at h
    case h_1 => exact ih _ _ h
    case h_2 =>
      split at h
      case h_1 => cases h
      case h_2 => cases h
      case h_3 => exact (ih _ _ h :)

theorem alongTake_again {a b : Offset} {v : Nat} {s s' : State} (h : alongTake a b v s = .again s') :
    s'.cfg = s.cfg ∧ s'.toc.calIter = s.toc.calIter := by
  unfold alongTake at h
  split at h
  case isTrue => cases h; exact ⟨rfl, rfl⟩
  case isFalse => exact (probeFrom_again probeOrder none _ h :)

/-- One pass of the descent counts itself, so the loop has as many passes left as the registers say. -/
theorem gradPass_again {s s' : State} (h : gradPass s = .again s') :
    s'.cfg = s.cfg ∧ s'.toc.calIter = some (s.toc.calIter.getD 0 + 1) := by
  simp only [gradPass] at h
  split at h
  case h_1 => exact probeFrom_again probeOrder none _ h
  case h_2 =>
    split at h
    case h_1 => exact probeFrom_again probeOrder none _ h
    case h_2 =>
      split at h
      case h_1 => cases h
      case h_2 => cases h
      case h_3 => exact alongTake_again h

theorem gradContinue_eq (s : State) :
    gradContinue s = if s.cfg.calMaxIter ≤ s.toc.calIter.getD 0 then calFinish .iterCap s else (gradPass s).go := by
  unfold gradContinue
  split
  case isTrue hcap => rw [passesLeft, Nat.sub_eq_zero_of_le hcap, gradLoop]
  case isFalse hcap =>
    obtain ⟨k, hk⟩ : ∃ k, passesLeft s = k + 1 := ⟨passesLeft s - 1, by unfold passesLeft; omega⟩
    rw [hk, gradLoop]
    cases hp : gradPass s with
    | stop t => rfl
    | again t =>
      obtain ⟨hcfg, hiter⟩ := gradPass_again hp
      have hleft : passesLeft t = k := by
        unfold passesLeft at hk ⊢
        rw [hcfg, hiter, Option.getD_some]
        omega
      simp only [Pass.go, gradContinue, hleft]

/-- The loop of the descent from its cap check on (R214). -/
theorem gradContinue_ask (s : State) :
    gradContinue s = askRun (loopAsk s.cfg s.toc).2.cal { s with toc := (loopAsk s.cfg s.toc).1 } := by
  rw [gradContinue_eq]
  simp only [loopAsk]
  split
  case isTrue => rfl
  case isFalse =>
    simp only [gradPass]
    cases s.toc.calDir with
    | none => exact startProbe_go _
    | some d =>
      simp only
      cases neighbour (s.toc.calA.getD 0) (s.toc.calB.getD 0) d with
      | none => exact startProbe_go _
      | some p =>
        obtain ⟨a, b⟩ := p
        simp only [Ask.cal, askRun]
        rcases measure s.cfg a b s.world with ⟨m, w⟩
        cases m <;> rfl

/-- A sample taken into account, and the calibration going on: what it asks for next. -/
theorem goOn_eq (k : CalAt) (v : Nat) (s : State) :
    goOn k v s = askRun (calNext s.cfg k v s.toc).2 { s with toc := (calNext s.cfg k v s.toc).1 } := by
  cases k with
  | brute a b => exact bruteFrom_eq _ _
  | grad g =>
    cases g with
    | start => exact gradContinue_ask _
    | along d a b =>
      simp only [goOn, gradTake, alongTake, calNext, gradNext]
      split
      case isTrue => exact gradContinue_ask _
      case isFalse => exact startProbe_go s
    | probe d a b rest cand =>
      simp only [goOn, gradTake, calNext, gradNext, probeFrom_go]
      cases nextProbe s.toc (betterCand s.toc d a b v cand) rest with
      | some ask => rfl
      | none =>
        cases betterCand s.toc d a b v cand with
        | none => rfl
        | some x => exact gradContinue_ask _

theorem opCalBrute_eq (s : State) :
    opCalBrute s = askRun (.point (.brute 0 0) 0 0) { s with toc := Toc.unwritten } :=
  bruteFrom_eq 0 _

theorem opCalGrad_eq (s : State) :
    opCalGrad s = askRun (.point (.grad .start) s.cfg.calStart.1 s.cfg.calStart.2)
      { s with toc := s.toc.startAt s.cfg.calStart } := rfl

theorem resumeCal_eq (k : CalAt) (s : State) :
    resumeCal k s =
      match measureWait s.cfg s.world with
      | (.fault f, w) => { s with world := w }.raise f
      | (.held, w) => { s with world := w, seq := k.held }
      | (.sample v, w) => goOn k v { s with world := w } := by
  cases k <;> rfl

/-- A held calibration going on: held still, or with its sample. -/
theorem resumeCal_cases {P : State → Prop} (k : CalAt) (s : State)
    (fault : ∀ f w, measureWait s.cfg s.world = (.fault f, w) → P ({ s with world := w }.raise f))
    (held : ∀ w, measureWait s.cfg s.world = (.held, w) → P { s with world := w, seq := k.held })
    (sample : ∀ v w, measureWait s.cfg s.world = (.sample v, w) →
      P (askRun (calNext s.cfg k v s.toc).2 { s with world := w, toc := (calNext s.cfg k v s.toc).1 })) :
    P (resumeCal k s) := by
  rw [resumeCal_eq]
  split
  case h_1 f w h => exact fault f w h
  case h_2 w h => exact held w h
  case h_3 v w h =>
    have hgo := goOn_eq k v { s with world := w }
    exact hgo ▸ sample v w h

-- ---------------------------------------------------------------- how many measurements

/-- The largest number of measurements `CAL.GRAD` can still make after one (R214). -/
def gradRank (c : Cfg) (t : Toc) : GradAt → Nat
  | .start => 5 * c.calMaxIter
  | .along _ _ _ => 5 * (c.calMaxIter - t.calIter.getD 0) + 4
  | .probe _ _ _ rest _ => 5 * (c.calMaxIter - t.calIter.getD 0) + rest.length

/-- The largest number of measurements a calibration can still make (R213, R214). -/
def calRank (c : Cfg) (t : Toc) : CalAsk → Nat
  | .done _ => 0
  | .point (.brute a b) _ _ => (sweepAfter a b).length + 1
  | .point (.grad g) _ _ => gradRank c t g + 1

theorem nextProbe_eq_some {t : Toc} {cand : Option Cand} {l : List Dir} {ask : Ask} (h : nextProbe t cand l = some ask) :
    ∃ d rest a b, ask = .point (.probe d a b rest cand) a b ∧ rest.length < l.length
      ∧ neighbour (t.calA.getD 0) (t.calB.getD 0) d = some (a, b) := by
  induction l with
  | nil => cases h
  | cons d l ih =>
    simp only [nextProbe] at h
    split at h
    case h_1 =>
      obtain ⟨d', rest, a, b, hask, hlen, hn⟩ := ih h
      exact ⟨d', rest, a, b, hask, Nat.lt_succ_of_lt hlen, hn⟩
    case h_2 a b hn => exact ⟨d, l, a, b, (Option.some.inj h).symm, Nat.lt_succ_self _, hn⟩

theorem calRank_probeAsk (c : Cfg) (t : Toc) :
    calRank c (probeAsk t).1 (probeAsk t).2.cal ≤ 5 * (c.calMaxIter - t.calIter.getD 0) + 4 := by
  simp only [probeAsk]
  cases h : nextProbe { t with calDir := none } none probeOrder with
  | none => exact Nat.zero_le _
  | some ask =>
    obtain ⟨d, rest, a, b, rfl, hlen, -⟩ := nextProbe_eq_some h
    have hlen' : rest.length < 4 := hlen
    simp only [Option.getD_some, Ask.cal, calRank, gradRank]
    omega

theorem calRank_loopAsk (c : Cfg) (t : Toc) :
    calRank c (loopAsk c t).1 (loopAsk c t).2.cal ≤ 5 * (c.calMaxIter - t.calIter.getD 0) := by
  simp only [loopAsk]
  split
  case isTrue => exact Nat.zero_le _
  case isFalse hcap =>
    have hprobe := calRank_probeAsk c { t with calIter := some (t.calIter.getD 0 + 1) }
    simp only [Option.getD_some] at hprobe
    split
    case h_1 => omega
    case h_2 =>
      split
      case h_1 => omega
      case h_2 =>
        simp only [Ask.cal, calRank, gradRank, Option.getD_some]
        omega

/-- Every sample taken leaves fewer measurements to come. -/
theorem calRank_calNext (c : Cfg) (t : Toc) (k : CalAt) (a b : Offset) (v : Nat) :
    calRank c (calNext c k v t).1 (calNext c k v t).2 + 1 ≤ calRank c t (.point k a b) := by
  cases k with
  | brute a b =>
    refine Nat.succ_le_succ ?_
    cases h : sweepAfter a b with
    | nil => simp [calNext, h, bruteAsk, calRank]
    | cons p rest =>
      obtain ⟨hrest, -⟩ := drop_sweep h
      simp [calNext, h, bruteAsk, calRank, ← hrest]
  | grad g =>
    refine Nat.succ_le_succ ?_
    change calRank c (gradNext c g v t).1 (gradNext c g v t).2.cal ≤ gradRank c t g
    cases g with
    | start => exact calRank_loopAsk c _
    | along d a b =>
      simp only [gradNext, gradRank]
      split
      case isTrue => exact Nat.le_trans (calRank_loopAsk c _) (Nat.le_add_right _ _)
      case isFalse => exact calRank_probeAsk c t
    | probe d a b rest cand =>
      simp only [gradNext, gradRank]
      cases h : nextProbe t (betterCand t d a b v cand) rest with
      | some ask =>
        obtain ⟨d', rest', a', b', rfl, hlen, -⟩ := nextProbe_eq_some h
        simp only [Ask.cal, calRank, gradRank]
        omega
      | none =>
        cases betterCand t d a b v cand with
        | none => exact Nat.zero_le _
        | some x => exact Nat.le_trans (calRank_loopAsk c _) (Nat.le_add_right _ _)

/-- Induction over the measurements of a calibration: from what it asks for, it ends, faults, is held, or draws a sample and
goes on with what it asks for then. -/
theorem askRun_induct {P : CalAsk → State → State → Prop}
    (done : ∀ exit s, P (.done exit) s (calFinish exit s))
    (fault : ∀ k a b s f w, measure s.cfg a b s.world = (.fault f, w) →
      P (.point k a b) s ({ s with world := w }.raise f))
    (held : ∀ k a b s w, measure s.cfg a b s.world = (.held, w) →
      P (.point k a b) s { s with world := w, seq := k.held })
    (sample : ∀ k a b s v w t, measure s.cfg a b s.world = (.sample v, w) →
      P (calNext s.cfg k v s.toc).2 { s with world := w, toc := (calNext s.cfg k v s.toc).1 } t → P (.point k a b) s t)
    (ask : CalAsk) (s : State) : P ask s (askRun ask s) := by
  generalize hn : calRank s.cfg s.toc ask = n
  induction n using Nat.strongRecOn generalizing ask s with
  | ind n ih =>
    cases ask with
    | done exit => exact done exit s
    | point k a b =>
      rw [askRun]
      split
      case h_1 f w hm => exact fault k a b s f w hm
      case h_2 w hm => exact held k a b s w hm
      case h_3 v w hm =>
        rw [goOn_eq]
        refine sample k a b s v w _ hm (ih _ ?_ _ _ rfl)
        have hlt := calRank_calNext s.cfg s.toc k a b v
        exact Nat.lt_of_lt_of_eq (Nat.lt_of_succ_le hlt) hn

end Sys2Proof.Machine
end

section
/-! What an operation can do to the world behind the ports: a chain of elementary moves, the environment's turns, exchanges of
allowed bytes, clears of allowed flags, pulses and samples (00_scope.md R11). Whatever each move keeps, the operation keeps. -/

namespace Sys2Proof.Machine

-- ---------------------------------------------------------------- moves

/-- One elementary change of the world. A pulse of `adc_trigger` is seen while it lasts (`high`) or when it is over (log 16). -/
inductive Move where
  | turn
  | exchange (q : Quad)
  | clear (e : Event)
  | pulse (high : Bool)
  | settle
  | sample

def Move.act (c : Cfg) (w : World) : Move → World
  | .turn => w.envTurn c
  | .exchange q => (Machine.exchange c q w).2
  | .clear e => { w with ev := w.ev.put e false }
  | .pulse high => { w with adcTrigger := high, trace := .adcPulse :: w.trace }
  | .settle => { w with adcTrigger := false }
  | .sample => { w with trace := .sample w.adcValue :: w.trace }

/-- The moves that send allowed bytes only, clear allowed flags only, and leave no pulse asserted. -/
def Allowed (okQ : Quad → Prop) (okE : Event → Prop) : Move → Prop
  | .exchange q => okQ q
  | .clear e => okE e
  | .pulse high => high = false
  | .turn | .settle | .sample => True

/-- One world is reached from another by allowed moves. -/
inductive Moved (c : Cfg) (ok : Move → Prop) : World → World → Prop where
  | refl (w : World) : Moved c ok w w
  | tail {w w1 : World} (m : Move) (h : Moved c ok w w1) (hm : ok m) : Moved c ok w (m.act c w1)

section moved

variable {c : Cfg} {ok : Move → Prop} {okQ : Quad → Prop} {okE : Event → Prop} {w w1 w2 : World}

theorem Moved.trans (h : Moved c ok w w1) (h' : Moved c ok w1 w2) : Moved c ok w w2 := by
  induction h' with
  | refl => exact h
  | tail m _ hm ih => exact ih.tail m hm

theorem Moved.one (m : Move) (hm : ok m) : Moved c ok w (m.act c w) := (Moved.refl w).tail m hm

theorem Moved.mono {ok' : Move → Prop} (h : Moved c ok w w1) (hok : ∀ m, ok m → ok' m) : Moved c ok' w w1 := by
  induction h with
  | refl => exact .refl _
  | tail m _ hm ih => exact ih.tail m (hok m hm)

/-- What every allowed move keeps, a chain of them keeps. -/
theorem Moved.keeps {P : World → Prop} (h : Moved c ok w w1)
    (hP : ∀ (m : Move) (w : World), ok m → P w → P (m.act c w)) (hw : P w) : P w1 := by
  induction h with
  | refl => exact hw
  | tail m _ hm ih => exact hP m _ hm ih

/-- A property of the world that the shared operations keep (`KeptPort`) is kept by moves. -/
theorem KeptPort.moved {P : World → Prop} (k : KeptPort c okQ P) (h : Moved c ok w w1)
    (hok : ∀ q, ok (.exchange q) → okQ q) (hw : P w) : P w1 := by
  refine h.keeps (fun m w hm hw => ?_) hw
  cases m with
  | turn => exact k.envTurn hw
  | exchange q => exact k.exchange w q (hok _ hm) hw
  | clear e => exact k.flags w _ hw
  | pulse high =>
    cases high with
    | true => exact k.pulse w hw
    | false => exact k.settle _ (k.pulse w hw)
  | settle => exact k.settle w hw
  | sample => exact k.sample w hw

-- ---------------------------------------------------------------- the procedures

theorem moved_turn (c : Cfg) (okQ : Quad → Prop) (okE : Event → Prop) (w : World) :
    Moved c (Allowed okQ okE) w (w.envTurn c) :=
  Moved.one .turn trivial

theorem moved_xfer {q : Quad} (hq : okQ q) (w : World) : Moved c (Allowed okQ okE) w (xfer c q w).2 :=
  (moved_turn c okQ okE w).tail (.exchange q) hq

theorem moved_readByte {spc : Space} {addr : Addr} (hq : okQ (rdQ spc addr)) (w : World) :
    Moved c (Allowed okQ okE) w (readByte c spc addr w).2 := by
  cases hr : c.readReturn with
  | same => rw [readByte_same _ _ _ hr]; exact moved_xfer hq w
  | previous => rw [readByte_previous _ _ _ hr]; exact (moved_xfer hq w).trans (moved_xfer hq _)

theorem moved_writeByte {spc : Space} {addr : Addr} {v : Byte} (hq : okQ (wrQ spc addr v)) (w : World) :
    Moved c (Allowed okQ okE) w (writeByte c spc addr v w) :=
  moved_xfer hq w

theorem moved_verifyLoop {spc : Space} {addr : Addr} {v : Byte} (mask : Byte) (hr : okQ (rdQ spc addr))
    (hw : okQ (wrQ spc addr v)) (n : Nat) (w : World) : Moved c (Allowed okQ okE) w (verifyLoop c spc addr v mask n w).2 := by
  induction n generalizing w with
  | zero => exact .refl w
  | succ n ih =>
    have hattempt : Moved c (Allowed okQ okE) w (readByte c spc addr (writeByte c spc addr v w)).2 :=
      (moved_writeByte hw w).trans (moved_readByte hr _)
    simp only [verifyLoop]
    split
    case isTrue => exact hattempt
    case isFalse => exact hattempt.trans (ih _)

theorem moved_writeV {spc : Space} {addr : Addr} {v : Byte} (mask : Byte) (hr : okQ (rdQ spc addr))
    (hw : okQ (wrQ spc addr v)) (w : World) : Moved c (Allowed okQ okE) w (writeV c spc addr v mask w).2 :=
  moved_verifyLoop mask hr hw _ w

theorem moved_pollLoop (hr : okQ (rdQ .us brCtrlAddr)) (n : Nat) (w : World) :
    Moved c (Allowed okQ okE) w (pollLoop c n w).2 := by
  induction n generalizing w with
  | zero => exact .refl w
  | succ n ih =>
    simp only [pollLoop]
    split
    case isTrue => exact moved_readByte hr w
    case isFalse => exact (moved_readByte hr w).trans (ih _)

theorem moved_bridge (hu : UserOk okQ) (wnr : Bool) (sa v : Byte) (w : World) :
    Moved c (Allowed okQ okE) w (bridge c wnr sa v w).2 := by
  have hwrite : ∀ {addr : Addr} (x : Byte) (w : World), addr.toNat < 8 →
      Moved c (Allowed okQ okE) w (writeV c .us addr x 0xFF w).2 :=
    fun x w ha => moved_writeV _ (hu _ ha).1 ((hu _ ha).2 x) w
  have h1 := hwrite (addr := brAddrAddr) (brAddrByte c.userMap wnr sa) w (by decide)
  unfold bridge
  split
  case h_1 he => rw [he] at h1; exact h1
  case h_2 w1 he =>
    rw [he] at h1
    have h2 : Moved c (Allowed okQ okE) w1 (if wnr = true then writeV c .us brWdataAddr v 0xFF w1 else (none, w1)).2 := by
      split
      case isTrue => exact hwrite v w1 (by decide)
      case isFalse => exact .refl w1
    split
    case h_1 he2 => rw [he2] at h2; exact h1.trans h2
    case h_2 w2 he2 =>
      rw [he2] at h2
      have h3 : Moved c (Allowed okQ okE) w
          (pollLoop c c.bridgePollMax (writeByte c .us brCtrlAddr (brStartByte c.userMap) w2)).2 :=
        (h1.trans h2).trans ((moved_writeByte ((hu _ (by decide)).2 _) w2).trans
          (moved_pollLoop (hu _ (by decide)).1 _ _))
      split
      case h_1 he3 => rw [he3] at h3; exact h3
      case h_2 w3 he3 =>
        rw [he3] at h3
        split
        case isTrue => exact h3
        case isFalse => exact h3.trans (moved_readByte (hu _ (by decide)).1 w3)

theorem moved_sdrWrites (hu : UserOk okQ) (l : List (Byte × Byte)) (w : World) :
    Moved c (Allowed okQ okE) w (sdrWrites c l w).2 := by
  induction l generalizing w with
  | nil => exact .refl w
  | cons p l ih =>
    have h1 := moved_bridge (c := c) (okE := okE) hu true p.1 p.2 w
    simp only [sdrWrites, sdrWrite]
    split
    case h_1 he =>
      split at he
      · cases he
      · rename_i hb; rw [hb] at h1; cases he; exact h1
    case h_2 he =>
      split at he
      · rename_i hb; rw [hb] at h1; cases he; exact h1.trans (ih _)
      · cases he

theorem moved_readBytes (n : Nat) (a : Nat) (hq : ∀ j, a ≤ j → j < a + n → okQ (rdQ .rx (BitVec.ofNat 16 j))) (w : World) :
    Moved c (Allowed okQ okE) w (readBytes c a n w).2 := by
  induction n generalizing a w with
  | zero => exact .refl w
  | succ n ih =>
    exact (moved_readByte (hq a (Nat.le_refl a) (by omega)) w).trans
      (ih (a + 1) (fun j h1 h2 => hq j (by omega) (by omega)) _)

theorem moved_readSpan {fs : List BitField} (hq : ∀ j, spanFirst fs ≤ j → j ≤ spanLast fs → okQ (rdQ .rx (BitVec.ofNat 16 j)))
    (w : World) : Moved c (Allowed okQ okE) w (readSpan c fs w).2 :=
  moved_readBytes _ _ (fun j h1 h2 => hq j h1 (by omega)) w

theorem moved_clearFlag {e : Event} (he : okE e) (w : World) : Moved c (Allowed okQ okE) w (clearFlag c e w) :=
  (moved_turn c okQ okE w).tail (.clear e) he

/-- A wait is turns of the environment (R153). -/
theorem moved_waitFlag (e : Event) (w : World) : Moved c (Allowed okQ okE) w (waitFlag c e w).2 := by
  unfold waitFlag
  generalize hl : w.script = l
  induction l generalizing w with
  | nil =>
    rw [waitLoop, ← hl]
    exact .refl w
  | cons batch rest ih =>
    rw [waitLoop]
    split
    case isTrue => rw [← hl]; exact .refl w
    case isFalse =>
      rw [← World.envTurn_batch hl]
      exact (moved_turn c okQ okE w).trans (ih _ (by simp [hl]))

theorem moved_measureWait (he : okE .sampleReady) (w : World) : Moved c (Allowed okQ okE) w (measureWait c w).2 := by
  have hsettle : Moved c (Allowed okQ okE) w { w with adcTrigger := false } := Moved.one .settle trivial
  have hwait := hsettle.trans (moved_waitFlag .sampleReady { w with adcTrigger := false })
  unfold measureWait
  split
  case h_1 hf => rw [hf] at hwait; exact hwait
  case h_2 hf =>
    rw [hf] at hwait
    exact ((hwait.trans (moved_clearFlag he _)).tail .turn trivial).tail .sample trivial

theorem moved_measure (hu : UserOk okQ) (he : okE .sampleReady) (a b : Offset) (w : World) :
    Moved c (Allowed okQ okE) w (measure c a b w).2 := by
  have hofs : Moved c (Allowed okQ okE) w (writeV c .us txofsAddr (txofsByte c.userMap a b) 0xFF w).2 :=
    moved_writeV _ (hu _ (by decide)).1 ((hu _ (by decide)).2 _) w
  unfold measure
  split
  case h_1 hf => rw [hf] at hofs; exact hofs
  case h_2 w1 hf =>
    rw [hf] at hofs
    have hpulse : ∀ w, measureWait c (pulseAdc c w) = measureWait c (Move.act c (w.envTurn c) (.pulse false)) := fun _ => rfl
    rw [hpulse]
    exact ((hofs.trans (moved_clearFlag he w1)).tail .turn trivial).tail (.pulse false) rfl |>.trans
      (moved_measureWait he _)

end moved

end Sys2Proof.Machine
end

section
/-! The operations behind the instructions: what each does to the world (`Moved`), which registers it leaves, and how it ends,
whatever the environment does. -/

namespace Sys2Proof.Machine

-- ---------------------------------------------------------------- one operation per instruction

/-- The operation an instruction stands for. -/
def opOf : Instr → State → State
  | .rdWv a => opRead .wv a
  | .rdRx a => opRead .rx a
  | .rdTx a => opRead .tx a
  | .rdUs a => opRead .us a
  | .wrWv a v => opWrite .wv a v
  | .wrRx a v => opWrite .rx a v
  | .wrTx a v => opWrite .tx a v
  | .wrUs a v => opWrite .us a v
  | .wrvWv a v => opWriteV .wv a v
  | .wrvRx a v => opWriteV .rx a v
  | .wrvTx a v => opWriteV .tx a v
  | .wrvUs a v => opWriteV .us a v
  | .brd sa => opBridge false sa 0
  | .bwr sa v => opBridge true sa v
  | .evclr e => opEvclr e
  | .evwait e => opEvwait e
  | .resNew => opResNew
  | .decRn16 => opReply .rn16
  | .decHandle => opReply .handle
  | .decRead n => opDecRead n
  | .decWrack => opReply .wrack
  | .decTag ch f => opDecTag ch f
  | .resFail ch => opResFail ch
  | .hop => retune opHop
  | .setCh ch => opSet ch
  | .skip => retune opSkip
  | .alt => retune opAlt
  | .calBrute => opCalBrute
  | .calGrad => opCalGrad
  | .txnRdWv a => opXfer (rdQ .wv a)
  | .txnWrWv a v => opXfer (wrQ .wv a v)
  | .txnRdRx a => opXfer (rdQ .rx a)
  | .txnWrRx a v => opXfer (wrQ .rx a v)
  | .txnRdTx a => opXfer (rdQ .tx a)
  | .txnWrTx a v => opXfer (wrQ .tx a v)
  | .txnRdUs a => opXfer (rdQ .us a)
  | .txnWrUs a v => opXfer (wrQ .us a v)

theorem exec_opOf (i : Instr) (s : State) : exec i s = s.command (opOf i) := by cases i <;> rfl

theorem exec_eq_next {i : Instr} {s t : State} (h : exec i s = .next t) : opOf i s = t :=
  State.command_eq_next (exec_opOf i s ▸ h)

@[simp] theorem opOf_readInstr (spc : Space) (a : Addr) : opOf (readInstr spc a) = opRead spc a := by cases spc <;> rfl
@[simp] theorem opOf_writeInstr (spc : Space) (a : Addr) (v : Byte) : opOf (writeInstr spc a v) = opWrite spc a v := by
  cases spc <;> rfl
@[simp] theorem opOf_verifyInstr (spc : Space) (a : Addr) (v : Byte) : opOf (verifyInstr spc a v) = opWriteV spc a v := by
  cases spc <;> rfl
@[simp] theorem opOf_txnReadInstr (spc : Space) (a : Addr) : opOf (txnReadInstr spc a) = opXfer (rdQ spc a) := by
  cases spc <;> rfl
@[simp] theorem opOf_txnWriteInstr (spc : Space) (a : Addr) (v : Byte) :
    opOf (txnWriteInstr spc a v) = opXfer (wrQ spc a v) := by
  cases spc <;> rfl

@[simp] theorem isTxn_readInstr (spc : Space) (a : Addr) : (readInstr spc a).isTxn = false := by cases spc <;> rfl
@[simp] theorem isTxn_writeInstr (spc : Space) (a : Addr) (v : Byte) : (writeInstr spc a v).isTxn = false := by
  cases spc <;> rfl
@[simp] theorem isTxn_verifyInstr (spc : Space) (a : Addr) (v : Byte) : (verifyInstr spc a v).isTxn = false := by
  cases spc <;> rfl
@[simp] theorem isTxn_txnReadInstr (spc : Space) (a : Addr) : (txnReadInstr spc a).isTxn = true := by cases spc <;> rfl
@[simp] theorem isTxn_txnWriteInstr (spc : Space) (a : Addr) (v : Byte) : (txnWriteInstr spc a v).isTxn = true := by
  cases spc <;> rfl

/-- The reply decodes other than `DEC.READ`, by instruction. -/
def IsReply (i : Instr) (r : Reply) : Prop :=
  (i = .decRn16 ∧ r = .rn16) ∨ (i = .decHandle ∧ r = .handle) ∨ i = .decWrack ∧ r = .wrack

/-- The instructions by kind: the spaces and the reply decodes taken together. -/
theorem instr_kinds {P : Instr → (State → State) → Prop}
    (read : ∀ spc a, P (readInstr spc a) (opRead spc a))
    (write : ∀ spc a v, P (writeInstr spc a v) (opWrite spc a v))
    (verify : ∀ spc a v, P (verifyInstr spc a v) (opWriteV spc a v))
    (txnRead : ∀ spc a, P (txnReadInstr spc a) (opXfer (rdQ spc a)))
    (txnWrite : ∀ spc a v, P (txnWriteInstr spc a v) (opXfer (wrQ spc a v)))
    (brd : ∀ sa, P (.brd sa) (opBridge false sa 0))
    (bwr : ∀ sa v, P (.bwr sa v) (opBridge true sa v))
    (evclr : ∀ e, P (.evclr e) (opEvclr e))
    (evwait : ∀ e, P (.evwait e) (opEvwait e))
    (resNew : P .resNew opResNew)
    (resFail : ∀ ch, P (.resFail ch) (opResFail ch))
    (reply : ∀ i r, IsReply i r → P i (opReply r))
    (decRead : ∀ n, P (.decRead n) (opDecRead n))
    (decTag : ∀ ch f, P (.decTag ch f) (opDecTag ch f))
    (retune : ∀ i, retunes i = true → P i (opOf i))
    (calBrute : P .calBrute opCalBrute)
    (calGrad : P .calGrad opCalGrad) (i : Instr) : P i (opOf i) := by
  cases i with
  | rdWv a => exact read .wv a
  | rdRx a => exact read .rx a
  | rdTx a => exact read .tx a
  | rdUs a => exact read .us a
  | wrWv a v => exact write .wv a v
  | wrRx a v => exact write .rx a v
  | wrTx a v => exact write .tx a v
  | wrUs a v => exact write .us a v
  | wrvWv a v => exact verify .wv a v
  | wrvRx a v => exact verify .rx a v
  | wrvTx a v => exact verify .tx a v
  | wrvUs a v => exact verify .us a v
  | brd sa => exact brd sa
  | bwr sa v => exact bwr sa v
  | evclr e => exact evclr e
  | evwait e => exact evwait e
  | resNew => exact resNew
  | decRn16 => exact reply _ _ (.inl ⟨rfl, rfl⟩)
  | decHandle => exact reply _ _ (.inr (.inl ⟨rfl, rfl⟩))
  | decRead n => exact decRead n
  | decWrack => exact reply _ _ (.inr (.inr ⟨rfl, rfl⟩))
  | decTag ch f => exact decTag ch f
  | resFail ch => exact resFail ch
  | hop => exact retune _ rfl
  | setCh ch => exact retune _ rfl
  | skip => exact retune _ rfl
  | alt => exact retune _ rfl
  | calBrute => exact calBrute
  | calGrad => exact calGrad
  | txnRdWv a => exact txnRead .wv a
  | txnWrWv a v => exact txnWrite .wv a v
  | txnRdRx a => exact txnRead .rx a
  | txnWrRx a v => exact txnWrite .rx a v
  | txnRdTx a => exact txnRead .tx a
  | txnWrTx a v => exact txnWrite .tx a v
  | txnRdUs a => exact txnRead .us a
  | txnWrUs a v => exact txnWrite .us a v

-- ---------------------------------------------------------------- retunes

/-- The FAC registers before the tuning of a retune: only `HOP` and the hop phase of `ALT` advance the sequence
(43_fac_frequency.md R193, R197). -/
def facAdvanced (i : Instr) (c : Cfg) (f : Fac) : Fac :=
  { f with hopChannel := if i = .hop ∨ (i = .alt ∧ f.altPhase = 0) then nextHop c f.hopChannel else f.hopChannel }

/-- The FAC registers after a completed retune: the dwell count kept or restarted, the nonce and the phase moved by `ALT`
alone, the nonce by its hop phase alone (R191, R193 to R197). -/
structure FacTuned (i : Instr) (c : Cfg) (f f' : Fac) : Prop where
  hop : f'.hopChannel = (facAdvanced i c f).hopChannel
  runs : f'.runsOnChannel = f.runsOnChannel ∨ f'.runsOnChannel = 0
  alt : i ≠ .alt → f'.altPhase = f.altPhase ∧ f'.nonce = f.nonce
  nonce : f'.nonce = f.nonce ∨ (i = .alt ∧ f.altPhase = 0 ∧ f'.nonce < 2 ^ c.nonceBits)

theorem tune_eq (ch : Channel) (s : State) :
    (∃ code w, tune ch s = (some code, { s with world := w, fac := { s.fac with tunedChannel := none } }))
    ∨ ∃ w, tune ch s = (none, { s with world := w, fac := s.fac.tuned s.fac.tunedChannel ch }) := by
  simp only [tune]
  cases h : (sdrWrites s.cfg (tuneWrites s.cfg ch) s.world).1 with
  | some code => exact .inl ⟨code, _, rfl⟩
  | none => exact .inr ⟨_, rfl⟩

theorem tuned_runs (f : Fac) (prev : Option Channel) (ch : Channel) :
    (f.tuned prev ch).runsOnChannel = f.runsOnChannel ∨ (f.tuned prev ch).runsOnChannel = 0 := by
  rw [Fac.tuned_runsOnChannel]
  split
  · exact .inl rfl
  · exact .inr rfl

/-- How a retune ends: rejected, faulted, or done. -/
def RetuneEnds (i : Instr) (s t : State) : Prop :=
  (∃ r, t = s.reject r)
  ∨ (∃ code w, t = { s with
      seq := .idle
      ret := some (.fault code)
      world := w
      fac := { facAdvanced i s.cfg s.fac with tunedChannel := none } })
  ∨ ∃ v w f, t = { s with seq := .idle, ret := some (.ok v), world := w, fac := f } ∧ FacTuned i s.cfg s.fac f

theorem retuneEnds_retune {i : Instr} {run : State → State} {s : State} (h : RetuneEnds i s (run s)) :
    RetuneEnds i s (retune run s) := by
  unfold retune
  split
  case isTrue => exact h
  case isFalse => exact .inl ⟨_, rfl⟩

theorem retuneEnds_opTune {i : Instr} (ch : Channel) (s : State) (hhop : i ≠ .hop) (halt : i ≠ .alt) :
    RetuneEnds i s (opTune ch s) := by
  have hadv : facAdvanced i s.cfg s.fac = s.fac := by simp [facAdvanced, hhop, halt]
  rw [RetuneEnds, hadv]
  rcases tune_eq ch s with ⟨code, w, h⟩ | ⟨w, h⟩
  · exact .inr (.inl ⟨code, w, by rw [opTune, h]; rfl⟩)
  · refine .inr (.inr ⟨.channel ch, w, _, by rw [opTune, h]; rfl, ?_⟩)
    exact ⟨by rw [hadv]; rfl, tuned_runs _ _ _, fun _ => ⟨rfl, rfl⟩, .inl rfl⟩

theorem retuneEnds_opHop (s : State) : RetuneEnds .hop s (opHop s) := by
  rcases tune_eq s.advanceHop.fac.hopChannel s.advanceHop with ⟨code, w, h⟩ | ⟨w, h⟩
  · exact .inr (.inl ⟨code, w, by rw [opHop, h]; rfl⟩)
  · refine .inr (.inr ⟨_, w, _, by rw [opHop, h]; rfl, ?_⟩)
    exact ⟨rfl, tuned_runs s.advanceHop.fac _ _, fun _ => ⟨rfl, rfl⟩, .inl rfl⟩

theorem retuneEnds_opAltHop {s : State} (hphase : s.fac.altPhase = 0) : RetuneEnds .alt s (opAltHop s) := by
  have hadv : facAdvanced .alt s.cfg s.fac = s.advanceHop.fac := by simp [facAdvanced, hphase]
  rw [RetuneEnds, hadv]
  rcases tune_eq s.advanceHop.fac.hopChannel s.advanceHop with ⟨code, w, h⟩ | ⟨w, h⟩
  · exact .inr (.inl ⟨code, w, by simp only [opAltHop, h]; rfl⟩)
  · refine .inr (.inr ⟨_, w, _, by simp only [opAltHop, h]; rfl, ?_⟩)
    exact ⟨by rw [hadv]; rfl, tuned_runs s.advanceHop.fac _ _, fun hne => absurd rfl hne,
      .inr ⟨rfl, hphase, Nat.mod_lt _ (Nat.two_pow_pos _)⟩⟩

theorem retuneEnds_opAltSkip {s : State} (hphase : s.fac.altPhase ≠ 0) : RetuneEnds .alt s (opAltSkip s) := by
  have hadv : facAdvanced .alt s.cfg s.fac = s.fac := by
    simp only [facAdvanced, hphase, and_false, or_false, reduceCtorEq, if_false]
  rw [RetuneEnds, hadv]
  rcases tune_eq (skipCh s.cfg s.fac.hopChannel) s with ⟨code, w, h⟩ | ⟨w, h⟩
  · exact .inr (.inl ⟨code, w, by simp only [opAltSkip, h]; rfl⟩)
  · refine .inr (.inr ⟨_, w, _, by simp only [opAltSkip, h]; rfl, ?_⟩)
    exact ⟨by rw [hadv]; rfl, tuned_runs s.fac _ _, fun hne => absurd rfl hne, .inl rfl⟩

/-- Every retune ends at once, in one of three ways, with the registers of the FAC alone written. -/
theorem retuneEnds_opOf {i : Instr} (h : retunes i = true) (s : State) : RetuneEnds i s (opOf i s) := by
  cases i with
  | hop => exact retuneEnds_retune (retuneEnds_opHop s)
  | skip => exact retuneEnds_retune (retuneEnds_opTune _ s nofun nofun)
  | setCh ch =>
    change RetuneEnds (.setCh ch) s (opSet ch s)
    unfold opSet
    split
    case isTrue => exact .inl ⟨_, rfl⟩
    case isFalse => exact retuneEnds_retune (retuneEnds_opTune _ s nofun nofun)
  | alt =>
    refine retuneEnds_retune ?_
    unfold opAlt
    split
    case isTrue hphase => exact retuneEnds_opAltHop hphase
    case isFalse hphase => exact retuneEnds_opAltSkip hphase
  | _ => cases h

/-- Settles O41: of the three ways a retune ends, only a fault leaves a fault in `ret`. -/
theorem failedRetune : Obligations.FailedRetune := fun i s t code hi hexec hret => by
  have hends := retuneEnds_opOf hi s
  rw [exec_eq_next hexec] at hends
  rcases hends with ⟨r, h⟩ | ⟨code', w, h⟩ | ⟨v, w, f, h, -⟩
  · rw [h] at hret; cases hret
  · have hidle : s.seq = .idle := by
      cases hs : s.seq with
      | idle => rfl
      | _ => simp [exec_opOf, State.command, hs] at hexec
    rw [h] at hret ⊢
    cases hret
    rw [← hidle]
    rfl
  · rw [h] at hret; cases hret

end Sys2Proof.Machine
end

section
/-! What every operation does to the world: allowed moves only, for any property of the bytes it may send that covers the
addresses inside their spaces, and any property of the flags that covers the ones it clears. -/

namespace Sys2Proof.Machine

-- ---------------------------------------------------------------- what an operation may send

/-- The reply decodes that are not rejected. -/
def Reply.legal : Reply → Bool
  | .read n => !badLength n
  | .rn16 | .handle | .wrack => true

/-- Every transaction of an operation is allowed: the user bytes, any address inside its space, the bytes of the reply
fields. -/
structure Allows (c : Cfg) (okQ : Quad → Prop) : Prop where
  user : UserOk okQ
  inside : ∀ spc addr, c.addrOk spc addr = true → okQ (rdQ spc addr) ∧ ∀ v, okQ (wrQ spc addr v)
  reply : ∀ r : Reply, r.legal = true → ∀ j, spanFirst (r.fields c.rxLayout) ≤ j → j ≤ spanLast (r.fields c.rxLayout) →
    okQ (rdQ .rx (BitVec.ofNat 16 j))
  part : ∀ (p : TagPart) (j : Nat), spanFirst (p.fields c) ≤ j → j ≤ spanLast (p.fields c) →
    okQ (rdQ .rx (BitVec.ofNat 16 j))

theorem allows_all (c : Cfg) : Allows c fun _ => True :=
  ⟨fun _ _ => ⟨trivial, fun _ => trivial⟩, fun _ _ _ => ⟨trivial, fun _ => trivial⟩, fun _ _ _ _ _ => trivial,
    fun _ _ _ _ => trivial⟩

section ops

variable {okQ : Quad → Prop} {okE : Event → Prop}

theorem moved_opRead (spc : Space) (addr : Addr) {s : State} (hA : Allows s.cfg okQ) :
    Moved s.cfg (Allowed okQ okE) s.world (opRead spc addr s).world := by
  unfold opRead
  split
  case isTrue hin => exact moved_readByte (hA.inside spc addr hin).1 s.world
  case isFalse => exact .refl _

theorem moved_opWrite (spc : Space) (addr : Addr) (v : Byte) {s : State} (hA : Allows s.cfg okQ) :
    Moved s.cfg (Allowed okQ okE) s.world (opWrite spc addr v s).world := by
  unfold opWrite
  split
  case isFalse => exact .refl _
  case isTrue hin =>
    have hwrite : Moved s.cfg (Allowed okQ okE) s.world (writeByte s.cfg spc addr v s.world) :=
      moved_writeByte ((hA.inside spc addr hin).2 v) s.world
    split
    · split
      · exact .refl _
      · exact hwrite
    · exact hwrite

theorem moved_opWriteV (spc : Space) (addr : Addr) (v : Byte) {s : State} (hA : Allows s.cfg okQ) :
    Moved s.cfg (Allowed okQ okE) s.world (opWriteV spc addr v s).world := by
  unfold opWriteV
  split
  case isFalse => exact .refl _
  case isTrue hin =>
    obtain ⟨hr, hw⟩ := hA.inside spc addr hin
    split
    case h_1 => exact .refl _
    case h_2 mask _ =>
      split
      · exact .refl _
      · rw [State.conclude_world]
        exact moved_writeV mask hr (hw v) s.world

theorem moved_opBridge (wnr : Bool) (sa v : Byte) {s : State} (hA : Allows s.cfg okQ) :
    Moved s.cfg (Allowed okQ okE) s.world (opBridge wnr sa v s).world := by
  have hbridge : Moved s.cfg (Allowed okQ okE) s.world (bridge s.cfg wnr sa v s.world).2 := moved_bridge hA.user wnr sa v s.world
  unfold opBridge
  split
  case isTrue => exact .refl _
  case isFalse =>
    simp only
    split
    · exact hbridge
    · exact hbridge

theorem moved_opEvwait {e : Event} (he : okE e) (s : State) : Moved s.cfg (Allowed okQ okE) s.world (opEvwait e s).world := by
  have hwait : Moved s.cfg (Allowed okQ okE) s.world (waitFlag s.cfg e s.world).2 := moved_waitFlag e s.world
  unfold opEvwait
  split
  case h_1 h => rw [h] at hwait; exact hwait
  case h_2 h => rw [h] at hwait; exact hwait.trans (moved_clearFlag he _)

theorem moved_opReply {r : Reply} (hr : r.legal = true) {s : State} (hA : Allows s.cfg okQ) :
    Moved s.cfg (Allowed okQ okE) s.world (opReply r s).world :=
  moved_readSpan (hA.reply r hr) s.world

theorem moved_readParts {c : Cfg} (hA : Allows c okQ) (ps : List TagPart) (t : TagRead) (w : World) :
    Moved c (Allowed okQ okE) w (readParts c ps t w).2 := by
  induction ps generalizing t w with
  | nil => exact .refl w
  | cons p ps ih => exact (moved_readSpan (hA.part p) w).trans (ih _ _)

theorem moved_opDecTag (ch : Chan) (f : TagFlags) {s : State} (hA : Allows s.cfg okQ) :
    Moved s.cfg (Allowed okQ okE) s.world (opDecTag ch f s).world := by
  have hstatus : Moved s.cfg (Allowed okQ okE) s.world (readByte s.cfg .us statusAddr s.world).2 :=
    moved_readByte (hA.user statusAddr (by decide)).1 s.world
  simp only [opDecTag]
  split
  · simpa using hstatus
  · simpa using hstatus.trans (moved_readParts hA _ _ _)

theorem moved_tune (ch : Channel) {s : State} (hA : Allows s.cfg okQ) :
    Moved s.cfg (Allowed okQ okE) s.world (tune ch s).2.world := by
  have hwrites : Moved s.cfg (Allowed okQ okE) s.world (sdrWrites s.cfg (tuneWrites s.cfg ch) s.world).2 :=
    moved_sdrWrites hA.user _ s.world
  simp only [tune]
  split
  · exact hwrites
  · exact hwrites

theorem moved_retune {run : State → State} {s : State} (h : Moved s.cfg (Allowed okQ okE) s.world (run s).world) :
    Moved s.cfg (Allowed okQ okE) s.world (retune run s).world := by
  unfold retune
  split
  · exact h
  · exact .refl _

theorem moved_opTune (ch : Channel) {s : State} (hA : Allows s.cfg okQ) :
    Moved s.cfg (Allowed okQ okE) s.world (opTune ch s).world := by
  rw [opTune, State.conclude_world]
  exact moved_tune ch hA

theorem moved_opAlt {s : State} (hA : Allows s.cfg okQ) : Moved s.cfg (Allowed okQ okE) s.world (opAlt s).world := by
  have hhop : Moved s.cfg (Allowed okQ okE) s.world (tune s.advanceHop.fac.hopChannel s.advanceHop).2.world :=
    moved_tune (s := s.advanceHop) _ hA
  have hskip : Moved s.cfg (Allowed okQ okE) s.world (tune (skipCh s.cfg s.fac.hopChannel) s).2.world := moved_tune _ hA
  unfold opAlt
  split
  · simp only [opAltHop]
    split
    · exact hhop
    · exact hhop
  · simp only [opAltSkip]
    split
    · exact hskip
    · exact hskip

theorem moved_retunes {i : Instr} (hi : retunes i = true) {s : State} (hA : Allows s.cfg okQ) :
    Moved s.cfg (Allowed okQ okE) s.world (opOf i s).world := by
  cases i with
  | hop =>
    refine moved_retune ?_
    rw [opHop, State.conclude_world]
    exact moved_tune (s := s.advanceHop) _ hA
  | setCh ch =>
    change Moved s.cfg (Allowed okQ okE) s.world (opSet ch s).world
    unfold opSet
    split
    · exact .refl _
    · exact moved_retune (moved_opTune _ hA)
  | skip => exact moved_retune (moved_opTune _ hA)
  | alt => exact moved_retune (moved_opAlt hA)
  | _ => cases hi

theorem moved_calFinish (exit : CalExit) {s : State} (hA : Allows s.cfg okQ) :
    Moved s.cfg (Allowed okQ okE) s.world (calFinish exit s).world := by
  have hofs : Moved s.cfg (Allowed okQ okE) s.world
      (writeV s.cfg .us txofsAddr (txofsByte s.cfg.userMap (s.toc.calA.getD 0) (s.toc.calB.getD 0)) 0xFF s.world).2 :=
    moved_writeV _ (hA.user txofsAddr (by decide)).1 ((hA.user txofsAddr (by decide)).2 _) s.world
  simp only [calFinish]
  split
  · exact hofs
  · exact hofs

/-- The samples of a calibration are drawn one after the other (44_toc_calibrator.md R212). -/
theorem moved_askRun {s : State} (he : okE .sampleReady) (ask : CalAsk) (hA : Allows s.cfg okQ) :
    Moved s.cfg (Allowed okQ okE) s.world (askRun ask s).world := by
  have hmeasure : ∀ {s : State} {m : Meas} {w : World} (a b : Offset), Allows s.cfg okQ → measure s.cfg a b s.world = (m, w) →
      Moved s.cfg (Allowed okQ okE) s.world w := by
    intro s m w a b hA hm
    have h : Moved s.cfg (Allowed okQ okE) s.world (measure s.cfg a b s.world).2 := moved_measure hA.user he a b s.world
    rwa [hm] at h
  refine askRun_induct (P := fun _ s t => Allows s.cfg okQ → Moved s.cfg (Allowed okQ okE) s.world t.world) ?_ ?_ ?_ ?_ ask s hA
  · exact fun exit s hA => moved_calFinish exit hA
  · exact fun k a b s f w hm hA => hmeasure a b hA hm
  · exact fun k a b s w hm hA => hmeasure a b hA hm
  · exact fun k a b s v w t hm ih hA => (hmeasure a b hA hm).trans (ih hA)

theorem moved_goOn {s : State} (he : okE .sampleReady) (k : CalAt) (v : Nat) (hA : Allows s.cfg okQ) :
    Moved s.cfg (Allowed okQ okE) s.world (goOn k v s).world := by
  rw [goOn_eq]
  exact moved_askRun (s := { s with toc := (calNext s.cfg k v s.toc).1 }) he _ hA

theorem moved_resumeCal {s : State} (he : okE .sampleReady) (k : CalAt) (hA : Allows s.cfg okQ) :
    Moved s.cfg (Allowed okQ okE) s.world (resumeCal k s).world := by
  have hwait : Moved s.cfg (Allowed okQ okE) s.world (measureWait s.cfg s.world).2 := moved_measureWait he s.world
  rw [resumeCal_eq]
  split
  case h_1 h => rw [h] at hwait; exact hwait
  case h_2 h => rw [h] at hwait; exact hwait
  case h_3 v w h =>
    rw [h] at hwait
    exact hwait.trans (moved_goOn (s := { s with world := w }) he k v hA)

/-- Every operation makes allowed moves only. -/
theorem moved_opOf (i : Instr) (s : State) (hA : Allows s.cfg okQ) (htxn : i.isTxn = true → okQ (quadOfWord (encode i)))
    (hE : ∀ e, clearsFlag i e = true → okE e) : Moved s.cfg (Allowed okQ okE) s.world (opOf i s).world := by
  refine instr_kinds (P := fun i run => (i.isTxn = true → okQ (quadOfWord (encode i))) →
    (∀ e, clearsFlag i e = true → okE e) → Moved s.cfg (Allowed okQ okE) s.world (run s).world)
    ?read ?write ?verify ?txnRead ?txnWrite ?brd ?bwr ?evclr ?evwait ?resNew ?resFail ?reply ?decRead ?decTag ?retune ?calBrute ?calGrad i htxn hE
  case read => exact fun spc a _ _ => moved_opRead spc a hA
  case write => exact fun spc a v _ _ => moved_opWrite spc a v hA
  case verify => exact fun spc a v _ _ => moved_opWriteV spc a v hA
  case txnRead =>
    intro spc a hq _
    have hquad : quadOfWord (encode (txnReadInstr spc a)) = rdQ spc a := by cases spc <;> exact quadOfWord_wordOfQuad _
    exact moved_xfer (hquad ▸ hq (isTxn_txnReadInstr spc a)) s.world
  case txnWrite =>
    intro spc a v hq _
    have hquad : quadOfWord (encode (txnWriteInstr spc a v)) = wrQ spc a v := by
      cases spc <;> exact quadOfWord_wordOfQuad _
    exact moved_xfer (hquad ▸ hq (isTxn_txnWriteInstr spc a v)) s.world
  case brd => exact fun sa _ _ => moved_opBridge false sa 0 hA
  case bwr => exact fun sa v _ _ => moved_opBridge true sa v hA
  case evclr => exact fun e _ he => moved_clearFlag (he e (by simp [clearsFlag])) s.world
  case evwait => exact fun e _ he => moved_opEvwait (he e (by simp [clearsFlag])) s
  case resNew => exact fun _ _ => .refl _
  case resFail =>
    intro ch _ _
    rw [opResFail, State.finish_world, State.putRes_world]
    exact .refl _
  case reply =>
    intro i r hr _ _
    refine moved_opReply ?_ hA
    rcases hr with ⟨-, rfl⟩ | ⟨-, rfl⟩ | ⟨-, rfl⟩ <;> rfl
  case decRead =>
    intro n _ _
    unfold opDecRead
    split
    case isTrue => exact .refl _
    case isFalse hn => exact moved_opReply (by simpa [Reply.legal] using hn) hA
  case decTag => exact fun ch f _ _ => moved_opDecTag ch f hA
  case retune => exact fun i hi _ _ => moved_retunes hi hA
  case calBrute =>
    intro _ he
    rw [opCalBrute_eq]
    exact moved_askRun (s := { s with toc := Toc.unwritten }) (he _ (by simp [clearsFlag, calibrates])) _ hA
  case calGrad =>
    intro _ he
    rw [opCalGrad_eq]
    exact moved_askRun (s := { s with toc := s.toc.startAt s.cfg.calStart }) (he _ (by simp [clearsFlag, calibrates])) _ hA

end ops

-- ---------------------------------------------------------------- the rest of any operation

/-- Any move at all. -/
abbrev AnyMove : Move → Prop := fun _ => True

theorem Moved.any {c : Cfg} {ok : Move → Prop} {w w' : World} (h : Moved c ok w w') : Moved c AnyMove w w' :=
  h.mono fun _ _ => trivial

/-- A stretch of moves, and the rest of the operation behind it. -/
theorem moved_runCode_behind {c : Cfg} {okE : Event → Prop} {w : World} {code : List Micro}
    (ih : ∀ (x : Locals) (s : State), Moved s.cfg AnyMove s.world (runCode code x s).world) (x : Locals) {s : State}
    (h : Moved c (Allowed (fun _ => True) okE) w s.world) (hc : s.cfg = c) : Moved c AnyMove w (runCode code x s).world :=
  h.any.trans (hc ▸ ih x s)

/-- What is left of an operation makes moves only, whatever its micro-steps are. -/
theorem moved_runCode (code : List Micro) (x : Locals) (s : State) :
    Moved s.cfg AnyMove s.world (runCode code x s).world := by
  induction code generalizing x s with
  | nil => exact .refl _
  | cons m code ih =>
    have hverify : ∀ spc addr v mask n, Moved s.cfg (Allowed (fun _ => True) fun _ => True) s.world
        (verifyLoop s.cfg spc addr v mask n s.world).2 := fun _ _ _ mask n => moved_verifyLoop mask trivial trivial n s.world
    have hpoll : ∀ n, Moved s.cfg (Allowed (fun _ => True) fun _ => True) s.world (pollLoop s.cfg n s.world).2 :=
      fun n => moved_pollLoop trivial n s.world
    have hfree : Moved s.cfg (Allowed (fun _ => True) fun _ => True) s.world s.world := .refl _
    cases m with
    | xfer spc write addr v =>
      exact moved_runCode_behind (okE := fun _ => True) ih _ (s := { s with world := _ }) (moved_xfer trivial s.world) rfl
    | attempts spc addr v mask n =>
      simp only [runCode]
      split
      · exact moved_runCode_behind ih _ (hverify spc addr v mask n) rfl
      · exact (hverify spc addr v mask n).any
    | compare spc addr v mask n =>
      simp only [runCode]
      split
      · exact ih _ _
      · split
        · exact moved_runCode_behind ih _ (hverify spc addr v mask n) rfl
        · exact (hverify spc addr v mask n).any
    | polls n =>
      simp only [runCode]
      split
      · exact moved_runCode_behind ih _ (hpoll n) rfl
      · exact (hpoll n).any
    | pollTest n =>
      simp only [runCode]
      split
      · exact ih _ _
      · split
        · exact moved_runCode_behind ih _ (hpoll n) rfl
        · exact (hpoll n).any
    | bytes a n =>
      exact moved_runCode_behind (okE := fun _ => True) ih _ (s := { s with world := _ })
        (moved_readBytes n a (fun _ _ _ => trivial) s.world) rfl
    | clear e =>
      exact moved_runCode_behind (okE := fun _ => True) ih _ (s := { s with world := _ }) (moved_clearFlag trivial s.world) rfl
    | hold e => exact (moved_opEvwait (okQ := fun _ => True) (okE := fun _ => True) trivial s).any
    | pulse =>
      have hpulse : Moved s.cfg AnyMove s.world (pulseAdc s.cfg s.world) :=
        (moved_turn s.cfg (fun _ => True) (fun _ => True) s.world).any.tail (.pulse true) trivial
      exact hpulse.trans (ih x { s with world := pulseAdc s.cfg s.world })
    | await k => exact (moved_resumeCal (okE := fun _ => True) trivial k (allows_all _)).any
    | draw =>
      exact moved_runCode_behind (okE := fun _ => True) ih _ (s := { s with world := _ })
        ((moved_turn _ _ _ s.world).tail .sample trivial) rfl
    | take k => exact (moved_goOn (okE := fun _ => True) trivial k _ (allows_all _)).any
    | tagStatus ch =>
      simp only [runCode]
      split
      · rw [State.finish_world, State.putRes_world]
        exact .refl _
      · exact moved_runCode_behind ih _ (by rw [State.putRes_world]; exact hfree) (State.putRes_cfg _ _ _)
    | tagPart ch p => exact moved_runCode_behind ih _ (by rw [State.putRes_world]; exact hfree) (State.putRes_cfg _ _ _)
    | failed ch => exact moved_runCode_behind ih _ (by rw [State.putRes_world]; exact hfree) (State.putRes_cfg _ _ _)
    | calDone | reply | retByte | ret => exact .refl _
    | span | keep | setToc | countRun | advance | untune | tuned | hopped | skipped | fresh =>
      simp only [runCode]
      exact moved_runCode_behind ih _ hfree rfl

end Sys2Proof.Machine
end

section
/-! What a step can be, and what every step keeps of the world: the memories in canonical form, only legal transactions, flags
raised by the environment alone. -/

namespace Sys2Proof.Machine

-- ---------------------------------------------------------------- what a step is

theorem isTxn_of_decodeCommand {w : Word} {i : Instr} (h : decodeCommand w = .ok i) : i.isTxn = false := by
  unfold decodeCommand at h
  split at h
  case h_30 => cases h
  all_goals exact (fitted_eq_ok h).2 ▸ rfl

/-- A step is the idle turn, an operation taken, a word rejected, four bytes on the wire, or the rest of an operation. -/
inductive StepOf (s t : State) : Prop where
  | turn (hready : Ready s) (ht : idleTurn s = t)
  | taken (i : Instr) (w : Word) (rest : List Input) (hready : Ready s) (hclient : s.client = .command w :: rest)
      (hcmd : i.isTxn = false) (ht : opOf i { s with client := rest } = t)
  | rejected (r : RejectCode) (rest : List Input) (hready : Ready s) (ht : { s with client := rest }.reject r = t)
  | wire (w : Word) (rest : List Input) (hready : Ready s) (hclient : s.client = .wire w :: rest)
      (ht : opXfer (quadOfWord w) { s with client := rest } = t)
  | resumed (hseq : s.seq ≠ .idle) (ht : resume s = t)

theorem stepOf_of_step {s t : State} (h : step s = .next t) : StepOf s t := by
  by_cases hready : s.seq = .idle
  case neg =>
    refine .resumed hready ?_
    cases hs : s.seq with
    | idle => exact absurd hs hready
    | run code x =>
      simp only [step, hs, Seq.waitsFor, Host.Outcome.next.injEq] at h
      exact h
    | evWait | brute | grad =>
      simp only [step, hs, Seq.waitsFor] at h
      split at h
      · cases h
      · exact Host.Outcome.next.inj h
  case pos =>
    cases hc : s.client with
    | nil => exact .turn hready (Host.Outcome.next.inj ((step_idle hready hc).symm.trans h))
    | cons inp rest =>
      cases inp with
      | wire w =>
        refine .wire w rest hready hc ?_
        rw [step_of_ready_wire hready hc, runWire_of_ready (s := { s with client := rest }) hready] at h
        exact Host.Outcome.next.inj h
      | command w =>
        rw [step_of_ready_input hready hc] at h
        change runCommand w _ = _ at h
        cases hd : decodeCommand w with
        | error e =>
          rw [runCommand_of_error hd] at h
          exact .rejected _ rest hready (Host.Outcome.next.inj h)
        | ok i =>
          simp only [runCommand, hd] at h
          exact .taken i w rest hready hc (isTxn_of_decodeCommand hd) (exec_eq_next h)

/-- Every step makes moves only. -/
theorem moved_step {s t : State} (h : step s = .next t) : Moved s.cfg AnyMove s.world t.world := by
  have hany : ∀ {w w' : World}, Moved s.cfg (Allowed (fun _ => True) fun _ => True) w w' → Moved s.cfg AnyMove w w' :=
    fun h => h.any
  cases stepOf_of_step h with
  | turn _ ht => subst ht; exact hany (moved_turn _ _ _ _)
  | taken i w rest _ _ _ ht =>
    subst ht
    exact hany (moved_opOf i { s with client := rest } (allows_all _) (fun _ => trivial) fun _ _ => trivial)
  | rejected r rest _ ht => subst ht; exact .refl _
  | wire w rest _ _ ht => subst ht; exact hany (moved_xfer trivial s.world)
  | resumed _ ht =>
    subst ht
    unfold resume
    split
    case h_1 => exact .refl _
    case h_2 code x _ => exact moved_runCode code x s
    case h_3 e _ => exact hany (moved_opEvwait trivial s)
    case h_4 a b _ => exact hany (moved_resumeCal trivial (.brute a b) (allows_all _))
    case h_5 g _ => exact hany (moved_resumeCal trivial (.grad g) (allows_all _))

-- ---------------------------------------------------------------- the registers of the units

/-- Nothing but the registers of one unit, the sequencing state, `ret` and the world differs. -/
abbrev RtxFrame (s t : State) : Prop := t = { s with seq := t.seq, ret := t.ret, world := t.world }
abbrev FacFrame (s t : State) : Prop := t = { s with seq := t.seq, ret := t.ret, world := t.world, fac := t.fac }
abbrev TocFrame (s t : State) : Prop := t = { s with seq := t.seq, ret := t.ret, world := t.world, toc := t.toc }

theorem rtxFrame_opRead (spc : Space) (addr : Addr) (s : State) : RtxFrame s (opRead spc addr s) := by
  unfold opRead
  split <;> rfl

theorem rtxFrame_conclude (s : State) (w : World) (f : Option FaultCode) (v : Value) :
    RtxFrame s ({ s with world := w }.conclude f v) := by
  cases f <;> rfl

theorem rtxFrame_opWriteV (spc : Space) (addr : Addr) (v : Byte) (s : State) : RtxFrame s (opWriteV spc addr v s) := by
  unfold opWriteV
  split
  case isFalse => rfl
  case isTrue =>
    split
    case h_1 => rfl
    case h_2 mask _ =>
      split
      case isTrue => rfl
      case isFalse => exact rtxFrame_conclude s _ _ _

/-- A plain write: no register of the block, or one run counted below the limit (40_rtx_transactions.md R124, R127). -/
theorem opWrite_cases (spc : Space) (addr : Addr) (v : Byte) (s : State) :
    RtxFrame s (opWrite spc addr v s)
    ∨ (spc = .us ∧ addr = 0 ∧ goBit s.cfg.userMap v = true ∧ s.fac.runsOnChannel < s.cfg.dwellMaxRuns
      ∧ opWrite spc addr v s = { s with
          seq := .idle
          ret := some (.ok .unit)
          world := (opWrite spc addr v s).world
          fac := { s.fac with runsOnChannel := s.fac.runsOnChannel + 1 } }) := by
  unfold opWrite
  split
  case isFalse => exact .inl rfl
  case isTrue =>
    split
    case isFalse => exact .inl rfl
    case isTrue hstart =>
      obtain ⟨hspc, haddr, hgo⟩ := (startsRun_eq_true_iff _ _ _ _).mp hstart
      split
      case isTrue => exact .inl rfl
      case isFalse hruns => exact .inr ⟨hspc, haddr, hgo, Nat.lt_of_not_le hruns, rfl⟩

theorem rtxFrame_opBridge (wnr : Bool) (sa v : Byte) (s : State) : RtxFrame s (opBridge wnr sa v s) := by
  unfold opBridge
  split
  case isTrue => rfl
  case isFalse =>
    simp only
    split <;> rfl

theorem rtxFrame_opEvwait (e : Event) (s : State) : RtxFrame s (opEvwait e s) := by
  unfold opEvwait
  split <;> rfl

theorem tocFrame_askRun (ask : CalAsk) (s : State) : TocFrame s (askRun ask s) := by
  refine askRun_induct (P := fun _ s t => TocFrame s t) ?_ ?_ ?_ ?_ ask s
  · intro exit s
    simp only [calFinish]
    split <;> rfl
  · exact fun k a b s f w _ => rfl
  · exact fun k a b s w _ => rfl
  · exact fun k a b s v w t _ ih => ih

theorem tocFrame_resumeCal (k : CalAt) (s : State) : TocFrame s (resumeCal k s) := by
  rw [resumeCal_eq]
  split
  case h_1 => rfl
  case h_2 => rfl
  case h_3 v w _ =>
    rw [goOn_eq]
    exact tocFrame_askRun _ { s with world := w, toc := _ }

theorem facFrame_retunes {i : Instr} (hi : retunes i = true) (s : State) : FacFrame s (opOf i s) := by
  rcases retuneEnds_opOf hi s with ⟨r, h⟩ | ⟨code, w, h⟩ | ⟨v, w, f, h, -⟩
  · rw [h]; rfl
  · rw [h]
  · rw [h]

/-- The parts of a result record that `DEC.TAG` fills with these flags, and its pass flag (42_rxd_decoder.md R169). -/
def TagFilled (c : Cfg) (f : TagFlags) (t r : TagRead) : Prop :=
  ∃ pass parts w, (∀ p ∈ parts, p ∈ tagParts f) ∧ r = (readParts c parts { t with pass := pass } w).1

/-- What the parts keep, `DEC.TAG` keeps. -/
theorem readParts_keeps {c : Cfg} {P : TagRead → Prop} {parts : List TagPart}
    (h : ∀ p ∈ parts, ∀ m t, P t → P (p.fill c m t)) {t : TagRead} (w : World) (ht : P t) : P (readParts c parts t w).1 := by
  induction parts generalizing t w with
  | nil => exact ht
  | cons p ps ih =>
    exact ih (fun q hq => h q (List.mem_cons_of_mem _ hq)) _ (h p (List.mem_cons_self ..) _ _ ht)

/-- The registers of at most one unit differ after an operation: the unit's own operations apart. -/
inductive Writes (i : Instr) (s t : State) : Prop where
  | none (h : RtxFrame s t)
  | run (v : Byte) (hi : i = .wrUs 0 v) (hgo : goBit s.cfg.userMap v = true)
      (hruns : s.fac.runsOnChannel < s.cfg.dwellMaxRuns)
      (h : t = { s with
        seq := t.seq
        ret := t.ret
        world := t.world
        fac := { s.fac with runsOnChannel := s.fac.runsOnChannel + 1 } })
  | fac (hi : retunes i = true) (h : FacFrame s t)
  | toc (hi : calibrates i = true) (h : TocFrame s t)
  | dec (r : Reply) (m : Buf) (hi : IsReply i r ∨ ∃ n, i = .decRead n ∧ r = .read n) (hr : r.legal = true)
      (h : t = { s with seq := t.seq, ret := t.ret, world := t.world, dec := r.fill s.cfg.rxLayout m s.dec })
  | fresh (hi : i = .resNew)
      (h : t = { s with seq := t.seq, ret := t.ret, world := t.world, resI := TagRead.fresh, resQ := TagRead.fresh })
  | failed (ch : Chan) (hi : i = .resFail ch) (h : t = (s.putRes ch { s.res ch with pass := false }).finish .unit)
  | tag (ch : Chan) (f : TagFlags) (w : World) (r : TagRead) (v : Value) (hi : i = .decTag ch f)
      (hr : TagFilled s.cfg f (s.res ch) r) (h : t = ({ s with world := w }.putRes ch r).finish v)

theorem writes_opOf (i : Instr) (s : State) : Writes i s (opOf i s) := by
  refine instr_kinds (P := fun i run => Writes i s (run s))
    ?read ?write ?verify ?txnRead ?txnWrite ?brd ?bwr ?evclr ?evwait ?resNew ?resFail ?reply ?decRead ?decTag ?retune
    ?calBrute ?calGrad i
  case read => exact fun spc a => .none (rtxFrame_opRead spc a s)
  case write =>
    intro spc a v
    rcases opWrite_cases spc a v s with h | ⟨rfl, rfl, hgo, hruns, h⟩
    · exact .none h
    · exact .run v rfl hgo hruns (by rw [h])
  case verify => exact fun spc a v => .none (rtxFrame_opWriteV spc a v s)
  case txnRead => exact fun spc a => .none rfl
  case txnWrite => exact fun spc a v => .none rfl
  case brd => exact fun sa => .none (rtxFrame_opBridge false sa 0 s)
  case bwr => exact fun sa v => .none (rtxFrame_opBridge true sa v s)
  case evclr => exact fun e => .none rfl
  case evwait => exact fun e => .none (rtxFrame_opEvwait e s)
  case resNew => exact .fresh rfl rfl
  case resFail => exact fun ch => .failed ch rfl rfl
  case reply =>
    intro i r hr
    refine .dec r _ (.inl hr) ?_ rfl
    rcases hr with ⟨-, rfl⟩ | ⟨-, rfl⟩ | ⟨-, rfl⟩ <;> rfl
  case decRead =>
    intro n
    unfold opDecRead
    split
    case isTrue => exact .none rfl
    case isFalse hn => exact .dec (.read n) _ (.inr ⟨n, rfl, rfl⟩) (by simpa [Reply.legal] using hn) rfl
  case decTag =>
    intro ch f
    simp only [opDecTag]
    split
    · exact .tag ch f _ _ _ rfl ⟨false, [], s.world, by simp, rfl⟩ rfl
    · exact .tag ch f _ _ _ rfl ⟨true, tagParts f, _, fun _ hp => hp, rfl⟩ rfl
  case retune => exact fun i hi => .fac hi (facFrame_retunes hi s)
  case calBrute =>
    refine .toc rfl ?_
    rw [opCalBrute_eq]
    exact tocFrame_askRun _ { s with toc := _ }
  case calGrad =>
    refine .toc rfl ?_
    rw [opCalGrad_eq]
    exact tocFrame_askRun _ { s with toc := _ }

-- ---------------------------------------------------------------- the configuration

theorem Writes.cfg_client {i : Instr} {s t : State} (h : Writes i s t) : t.cfg = s.cfg ∧ t.client = s.client := by
  cases h with
  | none h | run v hi hgo hruns h | fac hi h | toc hi h | dec r m hi hr h | fresh hi h =>
    exact ⟨(congrArg State.cfg h :), (congrArg State.client h :)⟩
  | failed ch hi h => rw [h]; simp
  | tag ch f w r v hi hr h => rw [h]; simp

theorem opOf_cfg (i : Instr) (s : State) : (opOf i s).cfg = s.cfg := (writes_opOf i s).cfg_client.1

theorem runCode_cfg (code : List Micro) (x : Locals) (s : State) : (runCode code x s).cfg = s.cfg := by
  induction code generalizing x s with
  | nil => rfl
  | cons m code ih =>
    cases m with
    | attempts | polls =>
      simp only [runCode]
      split
      · rw [ih]
      · rfl
    | compare | pollTest =>
      simp only [runCode]
      split
      · rw [ih]
      · split
        · rw [ih]
        · rfl
    | tagStatus ch =>
      simp only [runCode]
      split
      · simp
      · rw [ih]; simp
    | tagPart | failed => rw [runCode, ih]; simp
    | hold e => exact (congrArg State.cfg (rtxFrame_opEvwait e s) :)
    | await k => exact (congrArg State.cfg (tocFrame_resumeCal k s) :)
    | take k =>
      rw [runCode, goOn_eq]
      exact (congrArg State.cfg (tocFrame_askRun _ { s with toc := _ }) :)
    | calDone | reply | retByte | ret => rfl
    | xfer | span | bytes | keep | clear | setToc | pulse | draw | countRun | advance | untune | tuned | hopped | skipped
    | fresh => simp [runCode, ih]

theorem step_cfg {s t : State} (h : step s = .next t) : t.cfg = s.cfg := by
  cases stepOf_of_step h with
  | turn _ ht => subst ht; rfl
  | taken i w rest _ _ _ ht => rw [← ht, opOf_cfg]
  | rejected r rest _ ht => subst ht; rfl
  | wire w rest _ _ ht => subst ht; rfl
  | resumed _ ht =>
    subst ht
    unfold resume
    split
    case h_1 => rfl
    case h_2 code x _ => exact runCode_cfg code x s
    case h_3 e _ => exact (congrArg State.cfg (rtxFrame_opEvwait e s) :)
    case h_4 a b _ => exact (congrArg State.cfg (tocFrame_resumeCal (.brute a b) s) :)
    case h_5 g _ => exact (congrArg State.cfg (tocFrame_resumeCal (.grad g) s) :)

theorem microStep_cfg (m : Micro) (code : List Micro) (x : Locals) (s : State) : (microStep m code x s).cfg = s.cfg := by
  cases m with
  | attempts spc addr v mask n => cases n <;> rfl
  | polls n => cases n <;> rfl
  | bytes a n => cases n <;> rfl
  | compare | pollTest | hold | await => simp only [microStep]; split <;> rfl
  | tagStatus => simp only [microStep]; split <;> simp
  | tagPart | failed => simp [microStep]
  | _ => rfl

theorem heldTurn_cfg {e : Event} {s t : State} (h : heldTurn e s = .next t) : t.cfg = s.cfg := by
  unfold heldTurn at h
  split at h
  · cases h
  · cases h; rfl

theorem heldCal_cfg {k : CalAt} {s t : State} (h : heldCal k s = .next t) : t.cfg = s.cfg := by
  simp only [heldCal] at h
  split at h
  · cases h; rfl
  · exact (heldTurn_cfg h :)

theorem beginOp_cfg {i : Instr} {s t : State} (h : beginOp i s = .next t) : t.cfg = s.cfg := by
  unfold beginOp at h
  split at h
  · rw [← exec_eq_next h, opOf_cfg]
  · rw [← State.command_eq_next h]; rfl
  · rw [← State.command_eq_next h]; rfl

theorem tick_cfg {s t : State} (h : tick s = .next t) : t.cfg = s.cfg := by
  unfold tick at h
  split at h
  case h_1 hs =>
    split at h
    case h_1 => cases h; rfl
    case h_2 inp rest _ =>
      cases inp with
      | command w =>
        simp only [beginInput] at h
        split at h
        · exact (beginOp_cfg h :)
        · cases h; rfl
      | wire w =>
        change runWire w { s with client := rest } = _ at h
        rw [runWire_of_ready (s := { s with client := rest }) hs] at h
        cases h
        rfl
  case h_2 => cases h; rfl
  case h_3 m code x _ => cases h; exact microStep_cfg m code x s
  case h_4 e _ =>
    split at h
    · cases h; rfl
    · exact heldTurn_cfg h
  case h_5 a b _ => exact heldCal_cfg h
  case h_6 g _ => exact heldCal_cfg h

-- ---------------------------------------------------------------- memories stay canonical

/-- One micro-step keeps what the shared operations keep. -/
theorem KeptPort.microStep {P : World → Prop} {s : State} (k : KeptPort s.cfg (fun _ => True) P) (m : Micro)
    (code : List Micro) (x : Locals) (h : P s.world) : P (Machine.microStep m code x s).world := by
  cases m with
  | xfer spc write addr v => exact k.xfer trivial h
  | attempts spc addr v mask n => cases n <;> exact h
  | compare spc addr v mask n => simp only [Machine.microStep]; split <;> exact h
  | polls n => cases n <;> exact h
  | pollTest n => simp only [Machine.microStep]; split <;> exact h
  | bytes a n => cases n <;> exact h
  | clear e => exact k.clearFlag e h
  | hold e => simp only [Machine.microStep]; split <;> exact h
  | pulse => exact k.pulseAdc h
  | await kk => simp only [Machine.microStep]; split <;> exact k.settle _ h
  | draw => exact k.drawSample h
  | tagStatus ch => simp only [Machine.microStep]; split <;> simpa using h
  | tagPart ch p => simpa [Machine.microStep] using h
  | failed ch => simpa [Machine.microStep] using h
  | span | keep | setToc | take | calDone | countRun | advance | untune | tuned | hopped | skipped | reply | fresh
  | retByte | ret => exact h

theorem heldTurn_world {P : World → Prop} {e : Event} {s t : State} (k : KeptPort s.cfg (fun _ => True) P)
    (h : heldTurn e s = .next t) (hp : P s.world) : P t.world := by
  unfold heldTurn at h
  split at h
  · cases h
  · cases h; exact k.envTurn hp

theorem heldCal_world {P : World → Prop} {kk : CalAt} {s t : State} (k : KeptPort s.cfg (fun _ => True) P)
    (h : heldCal kk s = .next t) (hp : P s.world) : P t.world := by
  have hsettled := k.settle _ hp
  simp only [heldCal] at h
  split at h
  · cases h; exact hsettled
  · exact heldTurn_world (s := { s with world := { s.world with adcTrigger := false } }) k h hsettled

theorem beginOp_world {P : World → Prop} {i : Instr} {s t : State} (k : KeptPort s.cfg (fun _ => True) P)
    (h : beginOp i s = .next t) (hp : P s.world) : P t.world := by
  unfold beginOp at h
  split at h
  · rw [← exec_eq_next h]
    refine k.moved (moved_opOf (okQ := fun _ => True) (okE := fun _ => True) i s (allows_all _) (fun _ => trivial)
      fun _ _ => trivial) (fun _ _ => trivial) hp
  · rw [← State.command_eq_next h]; exact hp
  · rw [← State.command_eq_next h]; exact hp

/-- One micro-step of the machine keeps what the shared operations keep. -/
theorem KeptPort.tick {P : World → Prop} {s t : State} (k : KeptPort s.cfg (fun _ => True) P) (h : Machine.tick s = .next t)
    (hp : P s.world) : P t.world := by
  unfold Machine.tick at h
  split at h
  case h_1 hs =>
    split at h
    case h_1 => cases h; exact k.envTurn hp
    case h_2 inp rest hc =>
      cases inp with
      | command w =>
        simp only [beginInput] at h
        split at h
        · exact beginOp_world (s := { s with client := rest }) k h hp
        · cases h; exact hp
      | wire w =>
        have hr : Ready { s with client := rest } := hs
        change runWire w { s with client := rest } = _ at h
        rw [runWire_of_ready hr] at h
        cases h
        exact k.xfer trivial hp
  case h_2 => cases h; exact hp
  case h_3 m code x _ => cases h; exact k.microStep m code x hp
  case h_4 e _ =>
    split at h
    · cases h; exact hp
    · exact heldTurn_world k h hp
  case h_5 a b _ => exact heldCal_world k h hp
  case h_6 g _ => exact heldCal_world k h hp

/-- Settles O57: a step makes moves, a micro-step uses the shared operations, and both keep the canonical form. -/
theorem stepKeepsMemoryCanonical : Obligations.StepKeepsMemoryCanonical := by
  intro s t huser hmem hnext
  have hkept := memoryOk_kept huser
  change t.world.memoryOk t.cfg = true
  rcases hnext with hstep | htick
  · rw [step_cfg hstep]
    exact hkept.moved (moved_step hstep) (fun _ _ => trivial) hmem
  · rw [tick_cfg htick]
    exact hkept.tick htick hmem

end Sys2Proof.Machine
end

section
/-! How operations end, and what every step keeps: legal transactions, registers in their ranges, registers written by their
owners alone. -/

namespace Sys2Proof.Machine

-- ---------------------------------------------------------------- how operations end

/-- The block is idle and has an outcome. -/
def Ended (t : State) : Prop := t.seq = .idle ∧ t.ret ≠ none

theorem ended_finish (s : State) (v : Value) : Ended (s.finish v) := ⟨rfl, nofun⟩
theorem ended_raise (s : State) (f : FaultCode) : Ended (s.raise f) := ⟨rfl, nofun⟩
theorem ended_conclude (s : State) (f : Option FaultCode) (v : Value) : Ended (s.conclude f v) := by
  cases f with
  | none => exact ended_finish s v
  | some f => exact ended_raise s f
theorem ended_reject {s : State} (h : Ready s) (r : RejectCode) : Ended (s.reject r) := ⟨h, nofun⟩

theorem ended_opRead (spc : Space) (addr : Addr) {s : State} (h : Ready s) : Ended (opRead spc addr s) := by
  unfold opRead
  split
  · exact ended_finish _ _
  · exact ended_reject h _

theorem ended_opWrite (spc : Space) (addr : Addr) (v : Byte) {s : State} (h : Ready s) : Ended (opWrite spc addr v s) := by
  unfold opWrite
  split
  · split
    · split
      · exact ended_reject h _
      · exact ended_finish _ _
    · exact ended_finish _ _
  · exact ended_reject h _

theorem ended_opWriteV (spc : Space) (addr : Addr) (v : Byte) {s : State} (h : Ready s) : Ended (opWriteV spc addr v s) := by
  unfold opWriteV
  split
  · split
    · exact ended_reject h _
    · split
      · exact ended_reject h _
      · exact ended_conclude _ _ _
  · exact ended_reject h _

theorem ended_opBridge (wnr : Bool) (sa v : Byte) {s : State} (h : Ready s) : Ended (opBridge wnr sa v s) := by
  unfold opBridge
  split
  · exact ended_reject h _
  · simp only
    split
    · exact ended_raise _ _
    · exact ended_finish _ _

theorem ended_opDecTag (ch : Chan) (f : TagFlags) (s : State) : Ended (opDecTag ch f s) := by
  simp only [opDecTag]
  split
  · exact ended_finish _ _
  · exact ended_finish _ _

theorem ended_retunes {i : Instr} (hi : retunes i = true) {s : State} (h : Ready s) : Ended (opOf i s) := by
  rcases retuneEnds_opOf hi s with ⟨r, ht⟩ | ⟨code, w, ht⟩ | ⟨v, w, f, ht, -⟩
  · rw [ht]; exact ended_reject h r
  · rw [ht]; exact ⟨rfl, nofun⟩
  · rw [ht]; exact ⟨rfl, nofun⟩

theorem opEvwait_ends (e : Event) (s : State) : Ended (opEvwait e s) ∨ (opEvwait e s).seq = .evWait e := by
  unfold opEvwait
  split
  · exact .inr rfl
  · exact .inl (ended_finish _ _)

theorem askRun_ends (ask : CalAsk) (s : State) : Ended (askRun ask s) ∨ ∃ k : CalAt, (askRun ask s).seq = k.held := by
  refine askRun_induct (P := fun _ _ t => Ended t ∨ ∃ k : CalAt, t.seq = k.held) ?_ ?_ ?_ ?_ ask s
  · intro exit s
    simp only [calFinish]
    split
    · exact .inl (ended_raise _ _)
    · exact .inl (ended_finish _ _)
  · exact fun k a b s f w _ => .inl (ended_raise _ _)
  · exact fun k a b s w _ => .inr ⟨k, rfl⟩
  · exact fun k a b s v w t _ ih => ih

theorem resumeCal_ends (k : CalAt) (s : State) :
    Ended (resumeCal k s) ∨ ∃ k' : CalAt, (resumeCal k s).seq = k'.held := by
  refine resumeCal_cases (P := fun t => Ended t ∨ ∃ k : CalAt, t.seq = k.held) k s ?_ ?_ ?_
  · exact fun f w _ => .inl (ended_raise _ _)
  · exact fun w _ => .inr ⟨k, rfl⟩
  · exact fun v w _ => askRun_ends _ _

/-- How an operation taken by the idle block ends: idle, a command with an outcome; or held, a wait or a calibration. -/
inductive Ends (i : Instr) (t : State) : Prop where
  | ended (h : Ended t)
  | wire (htxn : i.isTxn = true) (h : t.seq = .idle)
  | waits (e : Event) (hi : i = .evwait e) (h : t.seq = .evWait e)
  | held (k : CalAt) (hi : calibrates i = true) (h : t.seq = k.held)

theorem ends_opOf (i : Instr) {s : State} (hready : Ready s) : Ends i (opOf i s) := by
  refine instr_kinds (P := fun i run => Ends i (run s))
    ?read ?write ?verify ?txnRead ?txnWrite ?brd ?bwr ?evclr ?evwait ?resNew ?resFail ?reply ?decRead ?decTag ?retune
    ?calBrute ?calGrad i
  case read => exact fun spc a => .ended (ended_opRead spc a hready)
  case write => exact fun spc a v => .ended (ended_opWrite spc a v hready)
  case verify => exact fun spc a v => .ended (ended_opWriteV spc a v hready)
  case txnRead => exact fun spc a => .wire (isTxn_txnReadInstr spc a) hready
  case txnWrite => exact fun spc a v => .wire (isTxn_txnWriteInstr spc a v) hready
  case brd => exact fun sa => .ended (ended_opBridge false sa 0 hready)
  case bwr => exact fun sa v => .ended (ended_opBridge true sa v hready)
  case evclr => exact fun e => .ended (ended_finish _ _)
  case evwait =>
    intro e
    rcases opEvwait_ends e s with h | h
    · exact .ended h
    · exact .waits e rfl h
  case resNew => exact .ended (ended_finish _ _)
  case resFail => exact fun ch => .ended (ended_finish _ _)
  case reply => exact fun i r _ => .ended (ended_finish _ _)
  case decRead =>
    intro n
    unfold opDecRead
    split
    · exact .ended (ended_reject hready _)
    · exact .ended (ended_finish _ _)
  case decTag => exact fun ch f => .ended (ended_opDecTag ch f s)
  case retune => exact fun i hi => .ended (ended_retunes hi hready)
  case calBrute =>
    rw [opCalBrute_eq]
    rcases askRun_ends (.point (.brute 0 0) 0 0) { s with toc := Toc.unwritten } with h | ⟨k, h⟩
    · exact .ended h
    · exact .held k rfl h
  case calGrad =>
    rw [opCalGrad_eq]
    rcases askRun_ends (.point (.grad .start) s.cfg.calStart.1 s.cfg.calStart.2)
      { s with toc := s.toc.startAt s.cfg.calStart } with h | ⟨k, h⟩
    · exact .ended h
    · exact .held k rfl h

/-- Settles O53, by the ways an operation ends. -/
theorem operationsComplete : Obligations.OperationsComplete := by
  intro i s
  refine ⟨fun hready => ⟨opOf i s, ?_, ?_⟩, fun hbusy => ?_⟩
  · rw [exec_opOf, State.command_of_ready hready]
  · cases ends_opOf i hready with
    | ended h => exact ⟨.inl h.1, fun _ _ => h.2⟩
    | wire htxn h => exact ⟨.inl h, fun hcmd => absurd (htxn.symm.trans hcmd) nofun⟩
    | waits e hi h => exact ⟨.inr (.inl ⟨e, hi⟩), fun _ hidle => absurd (h.symm.trans hidle) nofun⟩
    | held k hi h =>
      refine ⟨.inr (.inr hi), fun _ hidle => absurd (h.symm.trans hidle) ?_⟩
      cases k <;> nofun
  · rw [exec_opOf, State.command]
    cases hs : s.seq with
    | idle => exact absurd hs hbusy
    | _ => rfl

-- ---------------------------------------------------------------- legal transactions

theorem legalXfer_encodeTxn (c : Cfg) (spc : Space) (write : Bool) (addr : Addr) (v : Byte) :
    legalXfer c (encodeTxn ⟨spc, write, addr⟩ v) = (c.addrOk spc addr && (write || v = 0)) := by
  simp only [legalXfer, decodeHeader_encodeTxn, encodeTxn_b3]
  rfl

theorem addrOk_rx {c : Cfg} (hsize : c.rxramSize ≤ 65536) {j : Nat} (hj : j < c.rxramSize) :
    c.addrOk .rx (BitVec.ofNat 16 j) = true := by
  have hmod : j % 65536 = j := Nat.mod_eq_of_lt (Nat.lt_of_lt_of_le hj hsize)
  simp [Cfg.addrOk, Cfg.size, hmod, hj]

theorem spanLast_lt {n : Nat} (hn : 0 < n) {fs : List BitField} (h : ∀ f ∈ fs, f.lastByte < n) : spanLast fs < n := by
  induction fs with
  | nil => exact hn
  | cons f fs ih =>
    have hf := h f (List.mem_cons_self ..)
    have hfs := ih fun g hg => h g (List.mem_cons_of_mem _ hg)
    exact Nat.max_lt.mpr ⟨hf, hfs⟩

theorem fieldFits_lastByte {c : Cfg} {width : Nat} {f : BitField} (h : c.fieldFits width f = true) :
    f.lastByte < c.rxramSize := by
  simp only [Cfg.fieldFits, Bool.and_eq_true, decide_eq_true_eq] at h
  exact h.2

/-- The parts of a well-formed configuration that the block's transactions rest on. -/
structure PortsFit (c : Cfg) : Prop where
  user : 8 ≤ c.userSize
  rxMin : 0x36 ≤ c.rxramSize
  rxMax : c.rxramSize ≤ 65536
  reply : ∀ r : Reply, r.legal = true → ∀ f ∈ r.fields c.rxLayout, f.lastByte < c.rxramSize
  part : ∀ p : TagPart, ∀ f ∈ p.fields c, f.lastByte < c.rxramSize

theorem portsFit_of_wf {c : Cfg} (h : c.wf = true) : PortsFit c := by
  simp only [Cfg.wf, Bool.and_eq_true, decide_eq_true_eq] at h
  obtain ⟨⟨⟨⟨⟨⟨⟨⟨⟨⟨⟨⟨-, hrx⟩, hrx'⟩, -⟩, -⟩, huser⟩, -⟩, -⟩, hlayout⟩, -⟩, -⟩, -⟩, -⟩ := h
  simp only [Cfg.layoutFits, Bool.and_eq_true, List.all_cons, List.all_nil, and_true, List.all_eq_true, List.mem_range] at hlayout
  obtain ⟨⟨⟨⟨⟨⟨⟨⟨⟨hshort, hflags⟩, hread⟩, hpc⟩, hepc⟩, -⟩, hcrc⟩, hmain⟩, halt⟩, hlna⟩ := hlayout
  refine ⟨huser, hrx, hrx', fun r hr f hf => ?_, fun p f hf => ?_⟩
  · obtain ⟨hrn16, hhandle, hcrc', hwrn, hwcrc⟩ := hshort
    obtain ⟨hwhdr, hrhdr⟩ := hflags
    cases r with
    | rn16 =>
      obtain rfl := List.mem_singleton.mp hf
      exact fieldFits_lastByte hrn16
    | handle =>
      simp only [Reply.fields, handleFields, List.mem_cons, List.not_mem_nil, or_false] at hf
      rcases hf with rfl | rfl
      exacts [fieldFits_lastByte hhandle, fieldFits_lastByte hcrc']
    | wrack =>
      simp only [Reply.fields, wrackFields, List.mem_cons, List.not_mem_nil, or_false] at hf
      rcases hf with rfl | rfl | rfl
      exacts [fieldFits_lastByte hwhdr, fieldFits_lastByte hwrn, fieldFits_lastByte hwcrc]
    | read n =>
      have hn : n ≠ 0 ∧ n.toNat ≤ 12 := by simpa [Reply.legal, badLength] using hr
      obtain ⟨k, hk⟩ : ∃ k, n.toNat = k + 1 := Nat.exists_eq_succ_of_ne_zero fun h0 => hn.1 (BitVec.eq_of_toNat_eq h0)
      obtain ⟨⟨⟨hdata, -⟩, hrn⟩, hrcrc⟩ := hread k (by omega)
      simp only [Reply.fields, readFields, List.mem_cons, List.not_mem_nil, or_false, hk] at hf
      rcases hf with rfl | rfl | rfl | rfl
      exacts [fieldFits_lastByte hrhdr, fieldFits_lastByte hdata, fieldFits_lastByte hrn, fieldFits_lastByte hrcrc]
  · cases p with
    | epc =>
      simp only [TagPart.fields, tagFields, List.mem_cons, List.not_mem_nil, or_false] at hf
      rcases hf with rfl | rfl | rfl
      exacts [fieldFits_lastByte hpc, fieldFits_lastByte hepc, fieldFits_lastByte hcrc]
    | mag =>
      simp only [TagPart.fields, magFields, List.mem_cons, List.not_mem_nil, or_false] at hf
      rcases hf with rfl | rfl
      exacts [fieldFits_lastByte hmain, fieldFits_lastByte halt]
    | lna =>
      obtain rfl := List.mem_singleton.mp hf
      exact fieldFits_lastByte hlna

/-- The block's own transactions are legal. -/
theorem PortsFit.allows {c : Cfg} (h : PortsFit c) : Allows c fun q => legalXfer c q = true where
  user addr haddr := by
    have hin := addrOk_user h.user haddr
    exact ⟨by simp [legalXfer_encodeTxn, hin], fun v => by simp [legalXfer_encodeTxn, hin]⟩
  inside spc addr hin := ⟨by simp [legalXfer_encodeTxn, hin], fun v => by simp [legalXfer_encodeTxn, hin]⟩
  reply r hr j _ hj := by
    have hlast := spanLast_lt (Nat.lt_of_lt_of_le (by decide) h.rxMin) (h.reply r hr)
    simp [legalXfer_encodeTxn, addrOk_rx h.rxMax (Nat.lt_of_le_of_lt hj hlast)]
  part p j _ hj := by
    have hlast := spanLast_lt (Nat.lt_of_lt_of_le (by decide) h.rxMin) (h.part p)
    simp [legalXfer_encodeTxn, addrOk_rx h.rxMax (Nat.lt_of_le_of_lt hj hlast)]

/-- Moves that send allowed bytes only leave a history of allowed bytes. -/
theorem Moved.sent {c : Cfg} {okQ : Quad → Prop} {okE : Event → Prop} {w w' : World} (h : Moved c (Allowed okQ okE) w w') :
    ∃ new, w'.trace = new ++ w.trace ∧ ∀ q ∈ sentOf new, okQ q := by
  refine h.keeps (P := fun v => ∃ new, v.trace = new ++ w.trace ∧ ∀ q ∈ sentOf new, okQ q) ?_ ⟨[], rfl, by simp [sentOf, xfersOf]⟩
  rintro m v hm ⟨new, hnew, hok⟩
  cases m with
  | turn => exact ⟨new, by rw [Move.act, World.envTurn_trace, hnew], hok⟩
  | clear e => exact ⟨new, hnew, hok⟩
  | settle => exact ⟨new, hnew, hok⟩
  | pulse high => exact ⟨.adcPulse :: new, by rw [Move.act, hnew]; rfl, hok⟩
  | sample => exact ⟨.sample v.adcValue :: new, by rw [Move.act, hnew]; rfl, hok⟩
  | exchange q =>
    refine ⟨.xfer q (exchange c q v).1 :: new, by rw [Move.act, exchange_trace, hnew]; rfl, fun q' hq' => ?_⟩
    have hmem : q' ∈ sentOf new ∨ q' = q := by simpa [sentOf, xfersOf] using hq'
    rcases hmem with hmem | rfl
    · exact hok q' hmem
    · exact hm

theorem CalAt.held_midway (k : CalAt) : k.held.midway = false := by cases k <;> rfl

theorem Ended.midway {t : State} (h : Ended t) : t.seq.midway = false := by rw [h.1]; rfl

/-- Settles O56: a step makes allowed moves only, and ends idle or held. -/
theorem blockEmitsOnlyLegalTransactions : Obligations.BlockEmitsOnlyLegalTransactions := by
  intro s t hwf hmid hstep
  have hA := (portsFit_of_wf hwf).allows
  have hidle : ∀ {u : State}, u.seq = .idle → u.seq.midway = false := fun h => by rw [h]; rfl
  have hsent : ∀ {w : World}, Moved s.cfg (Allowed (fun q => legalXfer s.cfg q = true) fun _ => True) s.world w →
      ∃ new, w.trace = new ++ s.world.trace ∧ ∀ q ∈ sentOf new, legalXfer s.cfg q = true := fun h => h.sent
  cases stepOf_of_step hstep with
  | turn hready ht => subst ht; exact ⟨hidle hready, fun _ => hsent (moved_turn _ _ _ _)⟩
  | taken i w rest hready hclient hcmd ht =>
    subst ht
    refine ⟨?_, fun _ => hsent (moved_opOf i { s with client := rest } hA (fun htxn => ?_) fun _ _ => trivial)⟩
    · cases ends_opOf i (s := { s with client := rest }) hready with
      | ended h => exact h.midway
      | wire htxn h => exact hidle h
      | waits e hi h => rw [h]; rfl
      | held k hi h => rw [h]; exact k.held_midway
    · exact absurd (htxn.symm.trans hcmd) nofun
  | rejected r rest hready ht => subst ht; exact ⟨hidle hready, fun _ => hsent (.refl _)⟩
  | wire w rest hready hclient ht =>
    subst ht
    refine ⟨hidle hready, fun hfree => ?_⟩
    rcases hfree with hbusy | hnone
    · exact absurd hready hbusy
    · exact absurd hclient (hnone w rest)
  | resumed hseq ht =>
    subst ht
    have hcal : ∀ k : CalAt, (resumeCal k s).seq.midway = false := fun k => by
      rcases resumeCal_ends k s with h | ⟨k', h⟩
      · exact h.midway
      · rw [h]; exact k'.held_midway
    unfold resume
    split
    case h_1 h => exact absurd h hseq
    case h_2 h => rw [h] at hmid; cases hmid
    case h_3 e _ =>
      refine ⟨?_, fun _ => hsent (moved_opEvwait trivial s)⟩
      rcases opEvwait_ends e s with h | h
      · exact h.midway
      · rw [h]; rfl
    case h_4 a b _ => exact ⟨hcal (.brute a b), fun _ => hsent (moved_resumeCal trivial (.brute a b) hA)⟩
    case h_5 g _ => exact ⟨hcal (.grad g), fun _ => hsent (moved_resumeCal trivial (.grad g) hA)⟩

end Sys2Proof.Machine
end

section
/-! Which operation writes which register, which clears which flag, and the ranges every register keeps. -/

namespace Sys2Proof.Machine

-- ---------------------------------------------------------------- flags

/-- The environment clears no flag. -/
theorem act_get_true {c : Cfg} {w : World} {e : Event} (st : EnvStep) (h : w.ev.get e = true) :
    (EnvStep.act c w st).ev.get e = true := by
  cases st with
  | evSet e' =>
    by_cases he : e = e'
    · subst he; exact EventFlags.get_put_same _ _ _
    · exact (EventFlags.get_put_other _ _ he).trans h
  | poke | pokeSdr => simp only [EnvStep.act]; split <;> exact h
  | bridgeDone =>
    simp only [EnvStep.act]
    split
    · rwa [bridgeEnd_ev]
    · exact h
  | adc | latch | bridgeSlow => exact h

theorem envTurn_get_true {c : Cfg} {w : World} {e : Event} (h : w.ev.get e = true) : (w.envTurn c).ev.get e = true := by
  unfold World.envTurn
  split
  case h_1 => exact h
  case h_2 batch rest _ =>
    exact foldl_act_keeps (P := fun w => w.ev.get e = true) (fun w st hw => act_get_true st hw) batch _ h

/-- A flag that moves clear not stays set. -/
theorem Moved.flag_stays {c : Cfg} {okQ : Quad → Prop} {okE : Event → Prop} {w w' : World}
    (h : Moved c (Allowed okQ okE) w w') {e : Event} (he : ¬ okE e) (hset : w.ev.get e = true) : w'.ev.get e = true := by
  refine h.keeps (P := fun w => w.ev.get e = true) ?_ hset
  intro m w hm hw
  cases m with
  | turn => exact envTurn_get_true hw
  | clear e' =>
    have hne : e ≠ e' := fun h => he (h ▸ hm)
    exact (EventFlags.get_put_other _ _ hne).trans hw
  | exchange q => exact (congrArg (EventFlags.get · e) (exchange_ev c q w)).trans hw
  | pulse | settle | sample => exact hw

/-- An environment step sets no flag but the one it is for. -/
theorem get_of_act {c : Cfg} {w : World} {e : Event} {st : EnvStep} (h : (EnvStep.act c w st).ev.get e = true) :
    w.ev.get e = true ∨ st = .evSet e := by
  cases st with
  | evSet e' =>
    by_cases he : e = e'
    · exact .inr (by rw [he])
    · exact .inl ((EventFlags.get_put_other _ _ he).symm.trans h)
  | poke | pokeSdr => simp only [EnvStep.act] at h; split at h <;> exact .inl h
  | bridgeDone =>
    simp only [EnvStep.act] at h
    split at h
    · exact .inl (by rwa [bridgeEnd_ev] at h)
    · exact .inl h
  | adc | latch | bridgeSlow => exact .inl h

theorem get_of_batch {c : Cfg} {e : Event} (batch : List EnvStep) {w : World}
    (h : (batch.foldl (EnvStep.act c) w).ev.get e = true) : w.ev.get e = true ∨ EnvStep.evSet e ∈ batch := by
  induction batch generalizing w with
  | nil => exact .inl h
  | cons st batch ih =>
    rcases ih h with h | h
    · rcases get_of_act h with h | h
      · exact .inl h
      · exact .inr (h ▸ List.mem_cons_self ..)
    · exact .inr (List.mem_cons_of_mem _ h)

/-- No move but the environment's turn raises a flag, and that one only as the script says. -/
theorem Moved.flags_from_script {c : Cfg} {ok : Move → Prop} {w w' : World} (h : Moved c ok w w') {e : Event}
    (hset : w'.ev.get e = true) : w.ev.get e = true ∨ ∃ batch ∈ w.script, EnvStep.evSet e ∈ batch := by
  refine (h.keeps (P := fun v => (v.ev.get e = true → w.ev.get e = true ∨ ∃ batch ∈ w.script, EnvStep.evSet e ∈ batch)
    ∧ ∀ batch ∈ v.script, batch ∈ w.script) ?_ ⟨.inl, fun _ hb => hb⟩).1 hset
  rintro m v - ⟨hflag, hscript⟩
  cases m with
  | turn =>
    refine ⟨fun hv => ?_, fun b hb => hscript b (List.mem_of_mem_tail (World.envTurn_script c v ▸ hb))⟩
    simp only [Move.act, World.envTurn] at hv
    split at hv
    case h_1 => exact hflag hv
    case h_2 batch rest hs =>
      rcases get_of_batch batch hv with hv | hv
      · exact hflag hv
      · exact .inr ⟨batch, hscript batch (by rw [hs]; exact List.mem_cons_self ..), hv⟩
  | clear e' =>
    refine ⟨fun hv => ?_, hscript⟩
    by_cases he : e = e'
    · subst he
      exact absurd ((EventFlags.get_put_same v.ev e false).symm.trans hv) nofun
    · exact hflag ((EventFlags.get_put_other _ _ he).symm.trans hv)
  | exchange q =>
    refine ⟨fun hv => hflag ?_, fun b hb => hscript b (exchange_script c q v ▸ hb)⟩
    exact (congrArg (EventFlags.get · e) (exchange_ev c q v)).symm.trans hv
  | pulse | settle | sample => exact ⟨hflag, hscript⟩

-- ---------------------------------------------------------------- the sweep keeps the registers of the descent

/-- The asks of `CAL.BRUTE`. -/
def CalAsk.isBrute : CalAsk → Prop
  | .point (.grad _) _ _ => False
  | .point (.brute _ _) _ _ | .done _ => True

theorem isBrute_bruteAsk (l : List (Offset × Offset)) : (bruteAsk l).isBrute := by cases l <;> trivial

theorem bruteTake_frame (a b : Offset) (v : Nat) (t : Toc) :
    (bruteTake a b v t).calDir = t.calDir ∧ (bruteTake a b v t).calIter = t.calIter := by
  unfold bruteTake
  split <;> exact ⟨rfl, rfl⟩

/-- `CAL.BRUTE` leaves `cal_dir` and `cal_iter` at `none` (10_state.md R23). -/
theorem askRun_brute_frame (ask : CalAsk) (s : State) (hask : ask.isBrute) (hdir : s.toc.calDir = none)
    (hiter : s.toc.calIter = none) : (askRun ask s).toc.calDir = none ∧ (askRun ask s).toc.calIter = none := by
  refine askRun_induct (P := fun ask s t => ask.isBrute → s.toc.calDir = none → s.toc.calIter = none →
    t.toc.calDir = none ∧ t.toc.calIter = none) ?_ ?_ ?_ ?_ ask s hask hdir hiter
  · intro exit s _ hdir hiter
    simp only [calFinish]
    split
    · exact ⟨hdir, hiter⟩
    · exact ⟨rfl, rfl⟩
  · exact fun k a b s f w _ _ hdir hiter => ⟨hdir, hiter⟩
  · exact fun k a b s w _ _ hdir hiter => ⟨hdir, hiter⟩
  · intro k a b s v w t _ ih hask hdir hiter
    cases k with
    | grad g => exact hask.elim
    | brute a' b' =>
      obtain ⟨hd, hi⟩ := bruteTake_frame a' b' v s.toc
      exact ih (isBrute_bruteAsk _) (hd.trans hdir) (hi.trans hiter)

-- ---------------------------------------------------------------- parts of a result record

theorem TagFilled.part {c : Cfg} {f : TagFlags} {t r : TagRead} (h : TagFilled c f t r) :
    (.epc ∉ tagParts f → r.pc = t.pc ∧ r.epc = t.epc ∧ r.crc = t.crc)
    ∧ (.mag ∉ tagParts f → r.magMain = t.magMain ∧ r.magAlt = t.magAlt) ∧ (.lna ∉ tagParts f → r.lna = t.lna) := by
  obtain ⟨pass, parts, w, hparts, rfl⟩ := h
  refine ⟨fun hno => ?_, fun hno => ?_, fun hno => ?_⟩
  · refine readParts_keeps (P := fun r => r.pc = t.pc ∧ r.epc = t.epc ∧ r.crc = t.crc) ?_ w ⟨rfl, rfl, rfl⟩
    intro p hp m u hu
    cases p with
    | epc => exact absurd (hparts _ hp) hno
    | mag | lna => exact hu
  · refine readParts_keeps (P := fun r => r.magMain = t.magMain ∧ r.magAlt = t.magAlt) ?_ w ⟨rfl, rfl⟩
    intro p hp m u hu
    cases p with
    | mag => exact absurd (hparts _ hp) hno
    | epc | lna => exact hu
  · refine readParts_keeps (P := fun r => r.lna = t.lna) ?_ w rfl
    intro p hp m u hu
    cases p with
    | lna => exact absurd (hparts _ hp) hno
    | epc | mag => exact hu

theorem TagFilled.length_epc {c : Cfg} {f : TagFlags} {t r : TagRead} (h : TagFilled c f t r) (ht : t.epc.length = 12) :
    r.epc.length = 12 := by
  obtain ⟨pass, parts, w, -, rfl⟩ := h
  refine readParts_keeps (P := fun r => r.epc.length = 12) ?_ w ht
  intro p _ m u hu
  cases p with
  | epc => simp [TagPart.fill, Buf.byteList]
  | mag | lna => exact hu

-- ---------------------------------------------------------------- owners, unit by unit

theorem fac_owners (i : Instr) (s : State) :
    (writesHop i = false ∨ (i = .alt ∧ s.fac.altPhase ≠ 0) →
      (opOf i s).fac.hopChannel = s.fac.hopChannel ∧ (opOf i s).fac.nonce = s.fac.nonce)
    ∧ (i ≠ .alt → (opOf i s).fac.altPhase = s.fac.altPhase ∧ (opOf i s).fac.nonce = s.fac.nonce)
    ∧ (retunes i = false → (opOf i s).fac.tunedChannel = s.fac.tunedChannel)
    ∧ (retunes i = false → (∀ v, i = .wrUs 0 v → goBit s.cfg.userMap v = false) →
      (opOf i s).fac.runsOnChannel = s.fac.runsOnChannel) := by
  have hfac := writes_opOf i s
  generalize ht : opOf i s = t at hfac ⊢
  have hsame : t.fac = s.fac → (writesHop i = false ∨ (i = .alt ∧ s.fac.altPhase ≠ 0) →
      t.fac.hopChannel = s.fac.hopChannel ∧ t.fac.nonce = s.fac.nonce)
    ∧ (i ≠ .alt → t.fac.altPhase = s.fac.altPhase ∧ t.fac.nonce = s.fac.nonce)
    ∧ (retunes i = false → t.fac.tunedChannel = s.fac.tunedChannel)
    ∧ (retunes i = false → (∀ v, i = .wrUs 0 v → goBit s.cfg.userMap v = false) →
      t.fac.runsOnChannel = s.fac.runsOnChannel) := by
    intro h
    rw [h]
    exact ⟨fun _ => ⟨rfl, rfl⟩, fun _ => ⟨rfl, rfl⟩, fun _ => rfl, fun _ _ => rfl⟩
  cases hfac with
  | none h | toc hi h | dec r m hi hr h | fresh hi h => exact hsame (congrArg State.fac h :)
  | failed ch hi h => exact hsame (by rw [h]; simp)
  | tag ch f w r v hi hr h => exact hsame (by rw [h]; simp)
  | run v hi hgo hruns h =>
    have hf : t.fac = { s.fac with runsOnChannel := s.fac.runsOnChannel + 1 } := (congrArg State.fac h :)
    rw [hf]
    exact ⟨fun _ => ⟨rfl, rfl⟩, fun _ => ⟨rfl, rfl⟩, fun _ => rfl, fun _ hno => absurd (hgo.symm.trans (hno v hi)) nofun⟩
  | fac hi h =>
    have hadv : writesHop i = false ∨ (i = .alt ∧ s.fac.altPhase ≠ 0) →
        (facAdvanced i s.cfg s.fac).hopChannel = s.fac.hopChannel := by
      intro hor
      refine if_neg fun hhop => ?_
      rcases hor with hw | ⟨rfl, hphase⟩
      · rcases hhop with rfl | ⟨rfl, -⟩ <;> cases hw
      · rcases hhop with hne | ⟨-, h0⟩
        · cases hne
        · exact hphase h0
    rcases ht ▸ retuneEnds_opOf hi s with ⟨r, hr⟩ | ⟨code, w, hr⟩ | ⟨v, w, f, hr, hf⟩
    · exact hsame (by rw [hr]; rfl)
    · rw [hr]
      exact ⟨fun hor => ⟨hadv hor, rfl⟩, fun _ => ⟨rfl, rfl⟩, fun hno => absurd (hi.symm.trans hno) nofun,
        fun hno => absurd (hi.symm.trans hno) nofun⟩
    · rw [hr]
      refine ⟨fun hor => ⟨hf.hop.trans (hadv hor), ?_⟩, hf.alt, fun hno => absurd (hi.symm.trans hno) nofun,
        fun hno => absurd (hi.symm.trans hno) nofun⟩
      rcases hf.nonce with hn | ⟨rfl, h0, -⟩
      · exact hn
      · rcases hor with hw | ⟨-, hphase⟩
        · cases hw
        · exact absurd h0 hphase

theorem toc_owners (i : Instr) (s : State) :
    (calibrates i = false → (opOf i s).toc = s.toc)
    ∧ (i = .calBrute → (opOf i s).toc.calDir = none ∧ (opOf i s).toc.calIter = none) := by
  refine ⟨fun hno => ?_, ?_⟩
  · cases writes_opOf i s with
    | none h | run v hi hgo hruns h | fac hi h | dec r m hi hr h | fresh hi h => exact (congrArg State.toc h :)
    | toc hi h => exact absurd (hi.symm.trans hno) nofun
    | failed ch hi h => rw [h]; simp
    | tag ch f w r v hi hr h => rw [h]; simp
  · rintro rfl
    change (opCalBrute s).toc.calDir = none ∧ (opCalBrute s).toc.calIter = none
    rw [opCalBrute_eq]
    exact askRun_brute_frame _ { s with toc := Toc.unwritten } trivial rfl rfl

theorem dec_owners (i : Instr) (s : State) :
    (i ≠ .decRn16 → (opOf i s).dec.rn16 = s.dec.rn16)
    ∧ (writesHandle i = false → (opOf i s).dec.handle = s.dec.handle ∧ (opOf i s).dec.crc = s.dec.crc)
    ∧ (writesHdr i = false → (opOf i s).dec.hdr = s.dec.hdr)
    ∧ (writesData i = false → (opOf i s).dec.len = s.dec.len ∧ (opOf i s).dec.data = s.dec.data) := by
  have hdec := writes_opOf i s
  generalize opOf i s = t at hdec ⊢
  have hsame : t.dec = s.dec → (i ≠ .decRn16 → t.dec.rn16 = s.dec.rn16)
      ∧ (writesHandle i = false → t.dec.handle = s.dec.handle ∧ t.dec.crc = s.dec.crc)
      ∧ (writesHdr i = false → t.dec.hdr = s.dec.hdr)
      ∧ (writesData i = false → t.dec.len = s.dec.len ∧ t.dec.data = s.dec.data) := by
    intro h
    rw [h]
    exact ⟨fun _ => rfl, fun _ => ⟨rfl, rfl⟩, fun _ => rfl, fun _ => ⟨rfl, rfl⟩⟩
  cases hdec with
  | none h | run v hi hgo hruns h | fac hi h | toc hi h | fresh hi h => exact hsame (congrArg State.dec h :)
  | failed ch hi h => exact hsame (by rw [h]; simp)
  | tag ch f w r v hi hr h => exact hsame (by rw [h]; simp)
  | dec r m hi hr h =>
    have hd : t.dec = r.fill s.cfg.rxLayout m s.dec := (congrArg State.dec h :)
    rw [hd]
    rcases hi with (⟨rfl, rfl⟩ | ⟨rfl, rfl⟩ | ⟨rfl, rfl⟩) | ⟨n, rfl, rfl⟩
    · exact ⟨fun hne => absurd rfl hne, fun _ => ⟨rfl, rfl⟩, fun _ => rfl, fun _ => ⟨rfl, rfl⟩⟩
    · exact ⟨fun _ => rfl, nofun, fun _ => rfl, fun _ => ⟨rfl, rfl⟩⟩
    · exact ⟨fun _ => rfl, nofun, nofun, fun _ => ⟨rfl, rfl⟩⟩
    · exact ⟨fun _ => rfl, nofun, nofun, nofun⟩

theorem res_owners (i : Instr) (s : State) (ch : Chan) :
    (writesPass i ch = false → ((opOf i s).res ch).pass = (s.res ch).pass)
    ∧ (writesPart i ch .epc = false → ((opOf i s).res ch).pc = (s.res ch).pc ∧ ((opOf i s).res ch).epc = (s.res ch).epc
      ∧ ((opOf i s).res ch).crc = (s.res ch).crc)
    ∧ (writesPart i ch .mag = false → ((opOf i s).res ch).magMain = (s.res ch).magMain
      ∧ ((opOf i s).res ch).magAlt = (s.res ch).magAlt)
    ∧ (writesPart i ch .lna = false → ((opOf i s).res ch).lna = (s.res ch).lna) := by
  have hres := writes_opOf i s
  generalize opOf i s = t at hres ⊢
  have hsame : t.res ch = s.res ch → (writesPass i ch = false → (t.res ch).pass = (s.res ch).pass)
      ∧ (writesPart i ch .epc = false → (t.res ch).pc = (s.res ch).pc ∧ (t.res ch).epc = (s.res ch).epc
        ∧ (t.res ch).crc = (s.res ch).crc)
      ∧ (writesPart i ch .mag = false → (t.res ch).magMain = (s.res ch).magMain
        ∧ (t.res ch).magAlt = (s.res ch).magAlt)
      ∧ (writesPart i ch .lna = false → (t.res ch).lna = (s.res ch).lna) := by
    intro h
    rw [h]
    exact ⟨fun _ => rfl, fun _ => ⟨rfl, rfl, rfl⟩, fun _ => ⟨rfl, rfl⟩, fun _ => rfl⟩
  cases hres with
  | none h | run v hi hgo hruns h | fac hi h | toc hi h | dec r m hi hr h =>
    exact hsame (congrArg (State.res · ch) h :)
  | fresh hi h => subst hi; exact ⟨nofun, nofun, nofun, nofun⟩
  | failed ch' hi h =>
    subst hi
    by_cases hch : ch = ch'
    · subst hch
      have hr : t.res ch = { s.res ch with pass := false } := by rw [h]; exact State.res_putRes s ch _
      rw [hr]
      exact ⟨by simp [writesPass], fun _ => ⟨rfl, rfl, rfl⟩, fun _ => ⟨rfl, rfl⟩, fun _ => rfl⟩
    · exact hsame (by rw [h]; exact State.res_putRes_other s _ hch)
  | tag ch' f w r v hi hr h =>
    subst hi
    by_cases hch : ch = ch'
    · subst hch
      have hput : t.res ch = r := by rw [h]; exact State.res_putRes { s with world := w } ch r
      obtain ⟨hepc, hmag, hlna⟩ := hr.part
      rw [hput]
      exact ⟨by simp [writesPass], fun hno => hepc (by simpa [writesPart] using hno),
        fun hno => hmag (by simpa [writesPart] using hno), fun hno => hlna (by simpa [writesPart] using hno)⟩
    · exact hsame (by rw [h]; exact State.res_putRes_other { s with world := w } _ hch)

theorem opOf_txn {i : Instr} (h : i.isTxn = true) {s t : State} (hexec : exec i s = .next t) :
    t.ret = s.ret ∧ t.seq = s.seq := by
  rw [exec_txn h] at hexec
  rw [← State.command_eq_next hexec]
  exact ⟨rfl, rfl⟩

/-- Settles O54, unit by unit; the flags by the moves an operation makes. -/
theorem onlyTheirOwnersWriteRegisters : Obligations.OnlyTheirOwnersWriteRegisters := by
  refine ⟨fun i s t hexec => ?_, fun s t hstep e hset => (moved_step hstep).flags_from_script hset⟩
  have ht := exec_eq_next hexec
  have htxn : i.isTxn = true → t.ret = s.ret ∧ t.seq = s.seq := fun h => opOf_txn h hexec
  subst ht
  obtain ⟨hcfg, hclient⟩ := (writes_opOf i s).cfg_client
  obtain ⟨hhop, halt, htuned, hruns⟩ := fac_owners i s
  obtain ⟨htoc, hbrute⟩ := toc_owners i s
  obtain ⟨hrn16, hhandle, hhdr, hdata⟩ := dec_owners i s
  have hmoved : Moved s.cfg (Allowed (fun _ => True) fun e => clearsFlag i e = true) s.world (opOf i s).world :=
    moved_opOf i s (allows_all _) (fun _ => trivial) fun _ he => he
  refine ⟨hcfg, hclient, hhop, halt, htuned, hruns, htoc, hbrute, hrn16, hhandle, hhdr, hdata,
    fun ch => (res_owners i s ch).1, fun ch => (res_owners i s ch).2.1, fun ch => (res_owners i s ch).2.2.1,
    fun ch => (res_owners i s ch).2.2.2, fun e hset hclear => ?_, fun e hset => hmoved.flags_from_script hset, htxn⟩
  by_contra hno
  exact absurd ((hmoved.flag_stays hno hset).symm.trans hclear) nofun

end Sys2Proof.Machine
end

section
/-! The ranges of the registers, kept by every step. -/

namespace Sys2Proof.Machine

-- ---------------------------------------------------------------- the calibration registers

/-- The calibration registers are in their ranges (10_state.md R23). -/
structure TocRange (c : Cfg) (t : Toc) : Prop where
  best : ∀ v, t.calBest = some v → sampleOk c v = true
  iter : ∀ k, t.calIter = some k → k ≤ c.calMaxIter

/-- The registers a measurement of `CAL.GRAD` rests on are set (10_state.md R24, log 27). -/
def GradSet (c : Cfg) (t : Toc) : GradAt → Prop
  | .start => t.calA.isSome = true ∧ t.calB.isSome = true
  | .along _ _ _ => (t.calA.isSome = true ∧ t.calB.isSome = true) ∧ t.calBest.isSome = true ∧ t.calIter.isSome = true
  | .probe _ _ _ _ cand => (t.calA.isSome = true ∧ t.calB.isSome = true)
      ∧ (t.calBest.isSome = true ∧ t.calIter.isSome = true) ∧ ∀ x, cand = some x → sampleOk c x.sample = true

/-- The registers a calibration rests on are set. -/
def CalSet (c : Cfg) (t : Toc) : CalAt → Prop
  | .brute _ _ => True
  | .grad g => GradSet c t g

def AskSet (c : Cfg) (t : Toc) : CalAsk → Prop
  | .point k _ _ => CalSet c t k
  | .done _ => True

theorem tocOk_eq (s : State) :
    tocOk s = (s.toc.calBest.all (sampleOk s.cfg) && s.toc.calIter.all (fun k => decide (k ≤ s.cfg.calMaxIter))
      && sampleOk s.cfg s.world.adcValue && !s.world.adcTrigger && seqOk s) := by
  unfold tocOk
  cases s.toc.calBest <;> cases s.toc.calIter <;> rfl

theorem tocOk_iff (s : State) :
    tocOk s = true ↔ TocRange s.cfg s.toc ∧ sampleOk s.cfg s.world.adcValue = true ∧ s.world.adcTrigger = false
      ∧ seqOk s = true := by
  simp only [tocOk_eq, Bool.and_eq_true, Bool.not_eq_true', Option.all_eq_true, decide_eq_true_eq]
  constructor
  · rintro ⟨⟨⟨⟨hbest, hiter⟩, hadc⟩, htrig⟩, hseq⟩
    exact ⟨⟨hbest, hiter⟩, hadc, htrig, hseq⟩
  · rintro ⟨⟨hbest, hiter⟩, hadc, htrig, hseq⟩
    exact ⟨⟨⟨⟨hbest, hiter⟩, hadc⟩, htrig⟩, hseq⟩

theorem seqOk_held {s : State} (k : CalAt) (hseq : s.seq = k.held) : seqOk s = true ↔ CalSet s.cfg s.toc k := by
  cases k with
  | brute a b => simp [seqOk, hseq, CalAt.held, CalSet]
  | grad g =>
    cases g with
    | start => simp [seqOk, hseq, CalAt.held, CalSet, GradSet]
    | along d a b => simp [seqOk, hseq, CalAt.held, CalSet, GradSet]
    | probe d a b rest cand => cases cand <;> simp [seqOk, hseq, CalAt.held, CalSet, GradSet, and_assoc]

theorem seqOk_of_free {s : State} (h : s.seq = .idle ∨ ∃ e, s.seq = .evWait e) : seqOk s = true := by
  rcases h with h | ⟨e, h⟩ <;> simp [seqOk, h]

-- ---------------------------------------------------------------- one sample keeps the ranges

section take

variable {c : Cfg} {t : Toc}

theorem TocRange.moveTo (h : TocRange c t) (a b : Offset) {v : Nat} (hv : sampleOk c v = true) : TocRange c (t.moveTo a b v) :=
  ⟨fun _ hx => Option.some.inj hx ▸ hv, h.iter⟩

theorem calSet_nextProbe {cand : Option Cand} {l : List Dir} {ask : Ask} (h : nextProbe t cand l = some ask)
    (hab : t.calA.isSome = true ∧ t.calB.isSome = true) (hbi : t.calBest.isSome = true ∧ t.calIter.isSome = true)
    (hcand : ∀ x, cand = some x → sampleOk c x.sample = true) : AskSet c t ask.cal := by
  obtain ⟨d, rest, a, b, rfl, -, -⟩ := nextProbe_eq_some h
  exact ⟨hab, hbi, hcand⟩

theorem range_probeAsk (h : TocRange c t) (hab : t.calA.isSome = true ∧ t.calB.isSome = true)
    (hbi : t.calBest.isSome = true ∧ t.calIter.isSome = true) :
    TocRange c (probeAsk t).1 ∧ AskSet c (probeAsk t).1 (probeAsk t).2.cal := by
  refine ⟨⟨h.best, h.iter⟩, ?_⟩
  simp only [probeAsk]
  cases hn : nextProbe { t with calDir := none } none probeOrder with
  | none => trivial
  | some ask => exact calSet_nextProbe hn hab hbi nofun

theorem range_loopAsk (h : TocRange c t) (hab : t.calA.isSome = true ∧ t.calB.isSome = true)
    (hbest : t.calBest.isSome = true) :
    TocRange c (loopAsk c t).1 ∧ AskSet c (loopAsk c t).1 (loopAsk c t).2.cal := by
  simp only [loopAsk]
  split
  case isTrue => exact ⟨h, trivial⟩
  case isFalse hcap =>
    have hcount : TocRange c { t with calIter := some (t.calIter.getD 0 + 1) } :=
      ⟨h.best, fun k hk => Option.some.inj hk ▸ Nat.succ_le_of_lt (Nat.lt_of_not_le hcap)⟩
    split
    case h_1 => exact range_probeAsk hcount hab ⟨hbest, rfl⟩
    case h_2 =>
      split
      case h_1 => exact range_probeAsk hcount hab ⟨hbest, rfl⟩
      case h_2 => exact ⟨hcount, hab, hbest, rfl⟩

theorem betterCand_cases (t : Toc) (d : Dir) (a b : Offset) (v : Nat) (cand : Option Cand) :
    betterCand t d a b v cand = some ⟨d, a, b, v⟩ ∨ betterCand t d a b v cand = cand := by
  cases cand <;> exact ite_eq_or_eq _ _ _

theorem sampleOk_betterCand {d : Dir} {a b : Offset} {v : Nat} {cand : Option Cand} (hv : sampleOk c v = true)
    (hcand : ∀ x, cand = some x → sampleOk c x.sample = true) :
    ∀ x, betterCand t d a b v cand = some x → sampleOk c x.sample = true := by
  intro x hx
  rcases betterCand_cases t d a b v cand with h | h
  · rw [h] at hx; cases hx; exact hv
  · exact hcand x (h ▸ hx)

/-- A sample taken into account keeps the registers in their ranges, and sets those the next measurement rests on. -/
theorem range_calNext {v : Nat} (k : CalAt) (h : TocRange c t) (hk : CalSet c t k) (hv : sampleOk c v = true) :
    TocRange c (calNext c k v t).1 ∧ AskSet c (calNext c k v t).1 (calNext c k v t).2 := by
  cases k with
  | brute a b =>
    refine ⟨?_, ?_⟩
    · simp only [calNext, bruteTake]
      split
      · exact h.moveTo a b hv
      · exact h
    · cases hl : sweepAfter a b <;> simp [calNext, hl, bruteAsk, AskSet, CalSet]
  | grad g =>
    simp only [calNext]
    cases g with
    | start =>
      exact range_loopAsk ⟨fun _ hx => Option.some.inj hx ▸ hv, fun _ hx => Option.some.inj hx ▸ Nat.zero_le _⟩ hk rfl
    | along d a b =>
      obtain ⟨hab, hbi⟩ := hk
      simp only [gradNext]
      split
      · exact range_loopAsk (h.moveTo a b hv) ⟨rfl, rfl⟩ rfl
      · exact range_probeAsk h hab hbi
    | probe d a b rest cand =>
      obtain ⟨hab, hbi, hcand⟩ := hk
      have hbetter := sampleOk_betterCand (t := t) (d := d) (a := a) (b := b) hv hcand
      simp only [gradNext]
      cases hn : nextProbe t (betterCand t d a b v cand) rest with
      | some ask => exact ⟨h, calSet_nextProbe hn hab hbi hbetter⟩
      | none =>
        cases hc : betterCand t d a b v cand with
        | none => exact ⟨h, trivial⟩
        | some x =>
          have hmoved := h.moveTo x.a x.b (hbetter x hc)
          exact range_loopAsk ⟨hmoved.best, hmoved.iter⟩ ⟨rfl, rfl⟩ rfl

end take

-- ---------------------------------------------------------------- the world a calibration sees

theorem Moved.adcTrigger {c : Cfg} {okQ : Quad → Prop} {okE : Event → Prop} {w w' : World}
    (h : Moved c (Allowed okQ okE) w w') (hw : w.adcTrigger = false) : w'.adcTrigger = false := by
  refine h.keeps (P := fun w => w.adcTrigger = false) ?_ hw
  intro m w hm hw
  cases m with
  | turn => simpa [Move.act] using hw
  | exchange q => simpa [Move.act] using hw
  | pulse high => exact hm
  | settle => rfl
  | clear | sample => exact hw

theorem Moved.sampleOk {c : Cfg} {ok : Move → Prop} {w w' : World} (h : Moved c ok w w')
    (hw : sampleOk c w.adcValue = true) : Machine.sampleOk c w'.adcValue = true :=
  (sampleOk_kept c).moved h (fun _ _ => trivial) hw

theorem measureWait_sample {c : Cfg} {w w' : World} {v : Nat} (h : measureWait c w = (.sample v, w')) : w'.adcValue = v := by
  obtain ⟨-, ⟨hheld, -, -⟩ | ⟨u, hu, hval, -⟩⟩ := measureWait_cases c w
  · rw [h] at hheld; cases hheld
  · rw [h] at hu hval
    cases hu
    exact hval

theorem measure_sample {c : Cfg} {a b : Offset} {w w' : World} {v : Nat} (h : measure c a b w = (.sample v, w')) :
    w'.adcValue = v := by
  unfold measure at h
  split at h
  · cases h
  · exact measureWait_sample h

/-- The ranges of a state whose sequencing state is not midway. -/
theorem tocOk_askRun (ask : CalAsk) (s : State) (hrange : TocRange s.cfg s.toc) (hask : AskSet s.cfg s.toc ask)
    (hadc : sampleOk s.cfg s.world.adcValue = true) :
    TocRange s.cfg (askRun ask s).toc ∧ seqOk (askRun ask s) = true := by
  refine askRun_induct (P := fun ask s t => TocRange s.cfg s.toc → AskSet s.cfg s.toc ask →
    sampleOk s.cfg s.world.adcValue = true → TocRange s.cfg t.toc ∧ seqOk t = true) ?_ ?_ ?_ ?_ ask s hrange hask hadc
  · intro exit s hrange _ _
    simp only [calFinish]
    split
    · exact ⟨hrange, seqOk_of_free (.inl rfl)⟩
    · exact ⟨⟨nofun, nofun⟩, seqOk_of_free (.inl rfl)⟩
  · exact fun k a b s f w _ hrange _ _ => ⟨hrange, seqOk_of_free (.inl rfl)⟩
  · exact fun k a b s w _ hrange hask _ => ⟨hrange, (seqOk_held k rfl).mpr hask⟩
  · intro k a b s v w t hm ih hrange hask hadc
    have hmoved : Moved s.cfg (Allowed (fun _ => True) fun _ => True) s.world (measure s.cfg a b s.world).2 :=
      moved_measure (allows_all s.cfg).user trivial a b s.world
    rw [hm] at hmoved
    have hadc' := hmoved.sampleOk hadc
    have hv : sampleOk s.cfg v = true := measure_sample hm ▸ hadc'
    obtain ⟨hrange', hask'⟩ := range_calNext k hrange hask hv
    exact ih hrange' hask' hadc'

theorem tocOk_resumeCal (k : CalAt) (s : State) (hrange : TocRange s.cfg s.toc) (hk : CalSet s.cfg s.toc k)
    (hadc : sampleOk s.cfg s.world.adcValue = true) :
    TocRange s.cfg (resumeCal k s).toc ∧ seqOk (resumeCal k s) = true := by
  refine resumeCal_cases (P := fun t => TocRange s.cfg t.toc ∧ seqOk t = true) k s ?_ ?_ ?_
  · exact fun f w _ => ⟨hrange, seqOk_of_free (.inl rfl)⟩
  · exact fun w _ => ⟨hrange, (seqOk_held k rfl).mpr hk⟩
  · intro v w hm
    have hmoved : Moved s.cfg (Allowed (fun _ => True) fun _ => True) s.world (measureWait s.cfg s.world).2 :=
      moved_measureWait trivial s.world
    rw [hm] at hmoved
    have hadc' := hmoved.sampleOk hadc
    obtain ⟨hrange', hask'⟩ := range_calNext k hrange hk (measureWait_sample hm ▸ hadc')
    exact tocOk_askRun _ { s with world := w, toc := (calNext s.cfg k v s.toc).1 } hrange' hask' hadc'

-- ---------------------------------------------------------------- the other units

/-- The FAC registers in their ranges (60_exceptions.md R247). -/
def FacRange (c : Cfg) (f : Fac) : Prop := f.runsOnChannel ≤ c.dwellMaxRuns ∧ f.nonce < 2 ^ c.nonceBits

theorem facOk_iff (s : State) : facOk s = true ↔ FacRange s.cfg s.fac := by simp [facOk, FacRange]

theorem facRange_opOf (i : Instr) {s : State} (h : FacRange s.cfg s.fac) : FacRange s.cfg (opOf i s).fac := by
  have hw := writes_opOf i s
  generalize ht : opOf i s = t at hw ⊢
  have hsame : t.fac = s.fac → FacRange s.cfg t.fac := fun hf => hf ▸ h
  obtain ⟨hruns, hnonce⟩ := h
  cases hw with
  | none h | toc hi h | dec r m hi hr h | fresh hi h => exact hsame (congrArg State.fac h :)
  | failed ch hi h => exact hsame (by rw [h]; simp)
  | tag ch f w r v hi hr h => exact hsame (by rw [h]; simp)
  | run v hi hgo hlt h =>
    have hf : t.fac = { s.fac with runsOnChannel := s.fac.runsOnChannel + 1 } := (congrArg State.fac h :)
    rw [hf]
    exact ⟨hlt, hnonce⟩
  | fac hi h =>
    rcases ht ▸ retuneEnds_opOf hi s with ⟨r, hr⟩ | ⟨code, w, hr⟩ | ⟨v, w, f, hr, hf⟩
    · exact hsame (by rw [hr]; rfl)
    · rw [hr]; exact ⟨hruns, hnonce⟩
    · rw [hr]
      refine ⟨?_, ?_⟩
      · rcases hf.runs with hn | hn
        · exact hn ▸ hruns
        · exact hn ▸ Nat.zero_le _
      · rcases hf.nonce with hn | ⟨-, -, hn⟩
        · exact hn ▸ hnonce
        · exact hn

/-- The decoder outputs in their shape (10_state.md R28, R29). -/
structure DecRange (d : Decoded) : Prop where
  len : d.len ≤ 12
  data : d.data.length = 12
  filled : ∀ k < 12, (d.data.getD k none).isSome = decide (k < d.len)

theorem decOk_iff (s : State) :
    decOk s = true ↔ DecRange s.dec ∧ s.resI.epc.length = 12 ∧ s.resQ.epc.length = 12 := by
  simp only [decOk, Bool.and_eq_true, beq_iff_eq, decide_eq_true_eq, List.all_eq_true, List.mem_range]
  constructor
  · rintro ⟨⟨⟨⟨hlen, hdata⟩, hfilled⟩, hI⟩, hQ⟩
    exact ⟨⟨hlen, hdata, hfilled⟩, hI, hQ⟩
  · rintro ⟨⟨hlen, hdata, hfilled⟩, hI, hQ⟩
    exact ⟨⟨⟨⟨hlen, hdata⟩, hfilled⟩, hI⟩, hQ⟩

theorem decRange_fill {l : RxLayout} {m : Buf} {d : Decoded} {r : Reply} (hr : r.legal = true) (h : DecRange d) :
    DecRange (r.fill l m d) := by
  cases r with
  | rn16 | handle | wrack => exact ⟨h.len, h.data, h.filled⟩
  | read n =>
    have hn : n ≠ 0 ∧ n.toNat ≤ 12 := by simpa [Reply.legal, badLength] using hr
    refine ⟨hn.2, by simp [Reply.fill, Buf.byteList], fun k hk => ?_⟩
    simp only [Reply.fill, Buf.byteList, List.getD_eq_getElem?_getD, List.getElem?_map, List.getElem?_range hk,
      Option.map_some, Option.getD_some]
    by_cases hkn : k < n.toNat <;> simp [hkn]

theorem decOk_opOf (i : Instr) {s : State} (h : decOk s = true) : decOk (opOf i s) = true := by
  have hw := writes_opOf i s
  generalize opOf i s = t at hw ⊢
  rw [decOk_iff] at h ⊢
  obtain ⟨hdec, hI, hQ⟩ := h
  cases hw with
  | none h | run v hi hgo hruns h | fac hi h | toc hi h => rw [h]; exact ⟨hdec, hI, hQ⟩
  | dec r m hi hr h => rw [h]; exact ⟨decRange_fill hr hdec, hI, hQ⟩
  | fresh hi h => rw [h]; exact ⟨hdec, rfl, rfl⟩
  | failed ch hi h => rw [h]; cases ch <;> exact ⟨hdec, hI, hQ⟩
  | tag ch f w r v hi hr h =>
    rw [h]
    cases ch with
    | I => exact ⟨hdec, hr.length_epc hI, hQ⟩
    | Q => exact ⟨hdec, hI, hr.length_epc hQ⟩

-- ---------------------------------------------------------------- every step

theorem tocOk_opOf (i : Instr) {s : State} (hready : Ready s) (h : tocOk s = true) : tocOk (opOf i s) = true := by
  rw [tocOk_iff] at h ⊢
  obtain ⟨hrange, hadc, htrig, -⟩ := h
  have hmoved : Moved s.cfg (Allowed (fun _ => True) fun _ => True) s.world (opOf i s).world :=
    moved_opOf i s (allows_all _) (fun _ => trivial) fun _ _ => trivial
  rw [opOf_cfg]
  suffices hend : TocRange s.cfg (opOf i s).toc ∧ seqOk (opOf i s) = true from
    ⟨hend.1, hmoved.sampleOk hadc, hmoved.adcTrigger htrig, hend.2⟩
  cases hcal : calibrates i with
  | false =>
    rw [(toc_owners i s).1 hcal]
    refine ⟨hrange, seqOk_of_free ?_⟩
    cases ends_opOf i hready with
    | ended h => exact .inl h.1
    | wire htxn h => exact .inl h
    | waits e hi h => exact .inr ⟨e, h⟩
    | held k hi h => exact absurd (hi.symm.trans hcal) nofun
  | true =>
    have hi : i = .calBrute ∨ i = .calGrad := by simpa [calibrates] using hcal
    rcases hi with rfl | rfl
    · change TocRange s.cfg (opCalBrute s).toc ∧ seqOk (opCalBrute s) = true
      rw [opCalBrute_eq]
      exact tocOk_askRun _ { s with toc := Toc.unwritten } ⟨nofun, nofun⟩ trivial hadc
    · exact tocOk_askRun (.point (.grad .start) _ _) { s with toc := s.toc.startAt s.cfg.calStart }
        ⟨hrange.best, hrange.iter⟩ ⟨rfl, rfl⟩ hadc

/-- Settles O58, by the ways a step can be; a calibration keeps its registers in their ranges sample by sample. -/
theorem stepKeepsRegisterRanges : Obligations.StepKeepsRegisterRanges := by
  intro s t hfac htoc hdec hstep
  suffices hok : facOk t = true ∧ tocOk t = true ∧ decOk t = true from ⟨hok.1, hok.2.1, hok.2.2, step_cfg hstep⟩
  have htoc' := (tocOk_iff s).mp htoc
  obtain ⟨hrange, hadc, htrig, hseq⟩ := htoc'
  have hfree : ∀ {u : State}, u.cfg = s.cfg → u.fac = s.fac → u.dec = s.dec → u.resI = s.resI → u.resQ = s.resQ →
      Moved s.cfg (Allowed (fun _ => True) fun _ => True) s.world u.world → TocRange s.cfg u.toc → seqOk u = true →
      facOk u = true ∧ tocOk u = true ∧ decOk u = true := by
    intro u hc hf hd hI hQ hm hr hs
    rw [facOk_iff, tocOk_iff, decOk_iff, hc, hf, hd, hI, hQ]
    exact ⟨(facOk_iff s).mp hfac, ⟨hr, hm.sampleOk hadc, hm.adcTrigger htrig, hs⟩, (decOk_iff s).mp hdec⟩
  cases stepOf_of_step hstep with
  | turn hready ht =>
    subst ht
    exact hfree rfl rfl rfl rfl rfl (moved_turn _ _ _ _) hrange (seqOk_of_free (.inl hready))
  | taken i w rest hready hclient hcmd ht =>
    subst ht
    exact ⟨(facOk_iff _).mpr (by rw [opOf_cfg]; exact facRange_opOf i ((facOk_iff s).mp hfac)),
      tocOk_opOf i (s := { s with client := rest }) hready htoc, decOk_opOf i (s := { s with client := rest }) hdec⟩
  | rejected r rest hready ht =>
    subst ht
    exact hfree rfl rfl rfl rfl rfl (.refl _) hrange (seqOk_of_free (.inl hready))
  | wire w rest hready hclient ht =>
    subst ht
    exact hfree rfl rfl rfl rfl rfl (moved_xfer trivial s.world) hrange (seqOk_of_free (.inl hready))
  | resumed hbusy ht =>
    subst ht
    have hcal : ∀ k : CalAt, s.seq = k.held →
        facOk (resumeCal k s) = true ∧ tocOk (resumeCal k s) = true ∧ decOk (resumeCal k s) = true := by
      intro k hk
      have hframe := tocFrame_resumeCal k s
      obtain ⟨hr, hs⟩ := tocOk_resumeCal k s hrange ((seqOk_held k hk).mp hseq) hadc
      exact hfree (congrArg State.cfg hframe :) (congrArg State.fac hframe :) (congrArg State.dec hframe :)
        (congrArg State.resI hframe :) (congrArg State.resQ hframe :) (moved_resumeCal trivial k (allows_all _)) hr hs
    unfold resume
    split
    case h_1 h => exact absurd h hbusy
    case h_2 h => simp [seqOk, h] at hseq
    case h_3 e _ =>
      have hframe := rtxFrame_opEvwait e s
      have hs : seqOk (opEvwait e s) = true := by
        rcases opEvwait_ends e s with h | h
        · exact seqOk_of_free (.inl h.1)
        · exact seqOk_of_free (.inr ⟨e, h⟩)
      have htoc : (opEvwait e s).toc = s.toc := (congrArg State.toc hframe :)
      exact hfree (congrArg State.cfg hframe :) (congrArg State.fac hframe :) (congrArg State.dec hframe :)
        (congrArg State.resI hframe :) (congrArg State.resQ hframe :) (moved_opEvwait trivial s) (htoc ▸ hrange) hs
    case h_4 a b h => exact hcal (.brute a b) h
    case h_5 g h => exact hcal (.grad g) h

end Sys2Proof.Machine
end

section
/-! A calibration as a whole: the samples it draws, each at its own point, the registers they make, and how it ends
(44_toc_calibrator.md R212 to R215, R218). -/

namespace Sys2Proof.Machine

-- ---------------------------------------------------------------- the history of one measurement

/-- A stretch of the history that draws nothing and leaves `TXOFS` last written with a byte. -/
def OfsWritten (x : Byte) (new : List PortEvent) : Prop :=
  samplesOf new = [] ∧ pulsesOf new = 0 ∧ ∀ y l, pairSamples y (new.reverse ++ l) = pairSamples x l

theorem OfsWritten.append {x y : Byte} {new new' : List PortEvent} (h : OfsWritten x new) (h' : OfsWritten y new') :
    OfsWritten y (new' ++ new) := by
  obtain ⟨hs, hp, hpair⟩ := h
  obtain ⟨hs', hp', hpair'⟩ := h'
  refine ⟨by rw [samplesOf_append, hs, hs', List.append_nil], by rw [pulsesOf_append, hp, hp'], fun z l => ?_⟩
  rw [List.reverse_append, List.append_assoc, hpair, hpair']

theorem ofsWritten_attempt (c : Cfg) (x : Byte) (written pre inn : Quad) :
    OfsWritten x (readOf c .us 7 pre inn ++ [.xfer (wrQ .us 7 x) written]) := by
  have hread : ¬ rdQ .us 7#16 = wrQ .us 7#16 0#8 := by decide
  cases hr : c.readReturn <;> simp [OfsWritten, readOf, hr, samplesOf, pulsesOf, pairSamples, hread]

theorem ofsWritten_verifyLoop (c : Cfg) (x mask : Byte) (n : Nat) (w : World) :
    Grown w (verifyLoop c .us 7 x mask (n + 1) w).2 (OfsWritten x) := by
  induction n generalizing w with
  | zero =>
    obtain ⟨pre, inn, -, htrace⟩ := readByte_readOf c .us 7 (writeByte c .us 7 x w)
    rw [writeByte_trace] at htrace
    refine ⟨_, ?_, ofsWritten_attempt c x (xfer c (wrQ .us 7 x) w).1 pre inn⟩
    simp only [verifyLoop]
    split <;> rw [htrace, List.append_assoc, List.singleton_append]
  | succ n ih =>
    obtain ⟨pre, inn, -, htrace⟩ := readByte_readOf c .us 7 (writeByte c .us 7 x w)
    rw [writeByte_trace] at htrace
    obtain ⟨new, hnew, hofs⟩ := ih (readByte c .us 7 (writeByte c .us 7 x w)).2
    have hattempt := ofsWritten_attempt c x (xfer c (wrQ .us 7 x) w).1 pre inn
    rw [verifyLoop]
    split
    · exact ⟨_, by rw [htrace, List.append_assoc, List.singleton_append], hattempt⟩
    · exact ⟨_, by rw [hnew, htrace, List.append_assoc, List.append_assoc, List.singleton_append], hattempt.append hofs⟩

theorem ofsWritten_writeV (c : Cfg) (x mask : Byte) (w : World) : Grown w (writeV c .us 7 x mask w).2 (OfsWritten x) :=
  ofsWritten_verifyLoop c x mask 2 w

theorem writeV_fault {c : Cfg} {spc : Space} {addr : Addr} {v mask : Byte} {w w' : World} {f : FaultCode}
    (h : writeV c spc addr v mask w = (some f, w')) : f = .writeVerifyFail := by
  simp only [writeV, Prod.mk.injEq] at h
  obtain ⟨h, -⟩ := h
  split at h
  · cases h
  · exact (Option.some.inj h).symm

/-- The history of a measurement that faulted. -/
theorem measure_fault {c : Cfg} {a b : Offset} {w w' : World} {f : FaultCode} (h : measure c a b w = (.fault f, w')) :
    f = .writeVerifyFail ∧ Grown w w' (OfsWritten (txofsByte c.userMap a b)) := by
  have hofs := ofsWritten_writeV c (txofsByte c.userMap a b) 0xFF w
  unfold measure at h
  split at h
  case h_1 hf => cases h; rw [hf] at hofs; exact ⟨writeV_fault hf, hofs⟩
  case h_2 w1 _ =>
    obtain ⟨-, ⟨hheld, -⟩ | ⟨v, hv, -⟩⟩ := measureWait_cases c (pulseAdc c (clearFlag c .sampleReady w1))
    · rw [h] at hheld; cases hheld
    · rw [h] at hv; cases hv

/-- The history of a measurement that did not: a pulse, and the sample unless it is held. -/
theorem measure_answered {c : Cfg} {a b : Offset} {w w' : World} {m : Meas} (h : measure c a b w = (m, w'))
    (hm : ∀ f, m ≠ .fault f) :
    ∃ new, OfsWritten (txofsByte c.userMap a b) new
      ∧ ((m = .held ∧ w'.trace = .adcPulse :: new ++ w.trace)
        ∨ ∃ v, m = .sample v ∧ w'.trace = .sample v :: .adcPulse :: new ++ w.trace) := by
  obtain ⟨new, hnew, hofs⟩ := ofsWritten_writeV c (txofsByte c.userMap a b) 0xFF w
  refine ⟨new, hofs, ?_⟩
  unfold measure at h
  split at h
  case h_1 => cases h; exact absurd rfl (hm _)
  case h_2 w1 hf =>
    rw [hf] at hnew
    have hpulse : (pulseAdc c (clearFlag c .sampleReady w1)).trace = .adcPulse :: new ++ w.trace := by
      simp only [pulseAdc, World.envTurn_trace, clearFlag_trace]
      exact congrArg _ hnew
    obtain ⟨-, ⟨hheld, htrace, -⟩ | ⟨v, hv, -, htrace⟩⟩ := measureWait_cases c (pulseAdc c (clearFlag c .sampleReady w1))
    · rw [h] at hheld htrace
      exact .inl ⟨hheld, htrace.trans hpulse⟩
    · rw [h] at hv htrace
      exact .inr ⟨v, hv, by rw [htrace, hpulse]; rfl⟩

-- ---------------------------------------------------------------- the search gone through

/-- A calibration gone through with given samples, from what it asks for on: the points measured, the registers then, and what
it asks for next; `none` if it ends before the last sample. Both calibrations; `searched` is the one of `CAL.GRAD`. -/
def calThrough (c : Cfg) : CalAsk → Toc → List Nat → Option (List (Offset × Offset) × Toc × CalAsk)
  | ask, t, [] => some ([], t, ask)
  | .done _, _, _ :: _ => none
  | .point k a b, t, v :: vs => (calThrough c (calNext c k v t).2 (calNext c k v t).1 vs).map fun r => ((a, b) :: r.1, r.2)

/-- How a calibration has ended, or is held: its outcome, and the registers. -/
inductive CalEnd (t : State) (u : Toc) (ask : CalAsk) : Prop where
  | fault (hseq : t.seq = .idle) (hret : t.ret = some (.fault .writeVerifyFail)) (htoc : t.toc = u)
  | held (k : CalAt) (hseq : t.seq = k.held)
  | done (exit : CalExit) (hask : ask = .done exit) (hseq : t.seq = .idle)
      (hret : t.ret = some (.ok (.cal (u.calA.getD 0) (u.calB.getD 0) (u.calBest.getD 0) exit))) (htoc : t.toc = Toc.unwritten)

/-- The `TXOFS` byte of a point. -/
abbrev ofsByte (c : Cfg) (p : Offset × Offset) : Byte := txofsByte c.userMap p.1 p.2

/-- What a run of a calibration adds to the history, and how it ends. -/
structure CalRun (c : Cfg) (ask : CalAsk) (s t : State) (new : List PortEvent) (pts : List (Offset × Offset)) (u : Toc)
    (ask' : CalAsk) : Prop where
  added : Added s t new
  through : calThrough c ask s.toc (samplesOf new) = some (pts, u, ask')
  measured : ∀ x, measuresFrom x new = (pts.map (ofsByte c)).zip (samplesOf new)
  pulsed : (samplesOf new).length ≤ pulsesOf new
  bounded : pulsesOf new ≤ calRank c s.toc ask
  ends : CalEnd t u ask'

/-- The samples of a stretch, with or without their `TXOFS` bytes. -/
theorem pairSamples_samples (x : Byte) (l : List PortEvent) : (pairSamples x l).map (·.2) = samplesOf l.reverse := by
  induction l generalizing x with
  | nil => rfl
  | cons e l ih => cases e <;> simp [pairSamples, samplesOf, ih]

/-- A stretch that draws nothing: the calibration is where it was. -/
theorem calRun_undrawn {c : Cfg} {ask : CalAsk} {s t : State} {new : List PortEvent} (hadd : Added s t new)
    (hs : samplesOf new = []) (hp : pulsesOf new ≤ calRank c s.toc ask) (hend : CalEnd t s.toc ask) :
    CalRun c ask s t new [] s.toc ask where
  added := hadd
  through := by rw [hs]; cases ask <;> rfl
  measured x := by
    have hnone := pairSamples_samples x new.reverse
    rw [List.reverse_reverse, hs] at hnone
    exact List.map_eq_nil_iff.mp hnone
  pulsed := by rw [hs]; exact Nat.zero_le _
  bounded := hp
  ends := hend

/-- One sample drawn at its point, and the rest of the calibration behind it. -/
theorem CalRun.sample {c : Cfg} {k : CalAt} {a b : Offset} {v : Nat} {s s' t : State} {new ofs : List PortEvent}
    {pts : List (Offset × Offset)} {u : Toc} {ask' : CalAsk} (h : CalRun c (calNext c k v s.toc).2 s' t new pts u ask')
    (htoc : s'.toc = (calNext c k v s.toc).1) (hadd : Added s s' (.sample v :: .adcPulse :: ofs))
    (hofs : OfsWritten (ofsByte c (a, b)) ofs) :
    CalRun c (.point k a b) s t (new ++ .sample v :: .adcPulse :: ofs) ((a, b) :: pts) u ask' := by
  obtain ⟨hs, hp, hpair⟩ := hofs
  have hsamples : samplesOf (new ++ .sample v :: .adcPulse :: ofs) = v :: samplesOf new := by
    simp [samplesOf, hs]
  have hpulses : pulsesOf (new ++ .sample v :: .adcPulse :: ofs) = pulsesOf new + 1 := by
    rw [pulsesOf_append]
    exact congrArg (pulsesOf new + ·) (by simpa [pulsesOf] using hp)
  refine ⟨?_, ?_, fun x => ?_, ?_, ?_, h.ends⟩
  · have hnew := h.added
    change s'.world.trace = _ at hadd
    change t.world.trace = _ at hnew ⊢
    rw [hnew, hadd, List.append_assoc]
  · rw [hsamples, calThrough, ← htoc, h.through]
    rfl
  · have hrest := h.measured (ofsByte c (a, b))
    rw [hsamples, List.map_cons, List.zip_cons_cons, ← hrest]
    simp only [measuresFrom, List.reverse_append, List.reverse_cons, List.append_assoc, hpair]
    rfl
  · rw [hsamples, hpulses, List.length_cons]
    exact Nat.succ_le_succ h.pulsed
  · rw [hpulses]
    have hrank := calRank_calNext c s.toc k a b v
    rw [← htoc] at hrank
    exact Nat.le_trans (Nat.succ_le_succ h.bounded) hrank

/-- Every run of a calibration, from what it asks for on. -/
theorem calRun_askRun (ask : CalAsk) (s : State) :
    ∃ new pts u ask', CalRun s.cfg ask s (askRun ask s) new pts u ask' := by
  refine askRun_induct (P := fun ask s t => ∃ new pts u ask', CalRun s.cfg ask s t new pts u ask') ?_ ?_ ?_ ?_ ask s
  · intro exit s
    obtain ⟨new, hnew, hs, hp, -⟩ :=
      ofsWritten_writeV s.cfg (txofsByte s.cfg.userMap (s.toc.calA.getD 0) (s.toc.calB.getD 0)) 0xFF s.world
    simp only [calFinish]
    split
    case h_1 f hf =>
      obtain rfl : f = .writeVerifyFail := writeV_fault (Prod.ext hf rfl)
      exact ⟨new, _, _, _, calRun_undrawn hnew hs (by simp [hp]) (.fault rfl rfl rfl)⟩
    case h_2 => exact ⟨new, _, _, _, calRun_undrawn hnew hs (by simp [hp]) (.done exit rfl rfl rfl rfl)⟩
  · intro k a b s f w hm
    obtain ⟨rfl, new, hnew, hs, hp, -⟩ := measure_fault hm
    exact ⟨new, _, _, _, calRun_undrawn hnew hs (by simp [hp]) (.fault rfl rfl rfl)⟩
  · intro k a b s w hm
    obtain ⟨new, ⟨hs, hp, -⟩, ⟨-, hnew⟩ | ⟨v, hv, -⟩⟩ := measure_answered hm nofun
    · have hpulse : pulsesOf (.adcPulse :: new) = 1 := by simpa [pulsesOf] using hp
      refine ⟨.adcPulse :: new, _, _, _, calRun_undrawn hnew hs ?_ (.held k rfl)⟩
      rw [hpulse]
      cases k <;> exact Nat.succ_le_succ (Nat.zero_le _)
    · cases hv
  · intro k a b s v w t hm ih
    obtain ⟨ofs, hofs, ⟨hheld, -⟩ | ⟨v', hv, hnew⟩⟩ := measure_answered hm nofun
    · cases hheld
    · cases hv
      obtain ⟨new, pts, u, ask', hrun⟩ := ih
      exact ⟨_, _, _, _, hrun.sample rfl hnew hofs⟩

end Sys2Proof.Machine
end

section
/-! The two searches gone through: the first minimum of the sweep, the descent to a local minimum, and what a calibration
reports of them. -/

namespace Sys2Proof.Machine

-- ---------------------------------------------------------------- the search, per calibration

/-- `CAL.GRAD` goes through `searched`. -/
theorem calThrough_grad (c : Cfg) (g : GradAt) (p : Offset × Offset) (t : Toc) (vs : List Nat) :
    calThrough c (.point (.grad g) p.1 p.2) t vs = (searched c g p t vs).map fun r => (r.1, r.2.1, r.2.2.cal) := by
  induction vs generalizing g p t with
  | nil => rfl
  | cons v vs ih =>
    simp only [calThrough, searched, calNext]
    rcases gradNext c g v t with ⟨t', ask⟩
    cases ask with
    | done exit => cases vs <;> rfl
    | point g' a b =>
      have hrest := ih g' (a, b) t'
      simp only [Ask.cal] at hrest ⊢
      rw [hrest]
      cases searched c g' (a, b) t' vs <;> rfl

/-- `CAL.BRUTE` goes through the sweep. -/
theorem calThrough_brute {c : Cfg} {k : Nat} {t u : Toc} {vs : List Nat} {pts : List (Offset × Offset)} {ask : CalAsk}
    (h : calThrough c (bruteAsk (sweep.drop k)) t vs = some (pts, u, ask)) :
    pts = (sweep.drop k).take vs.length ∧ vs.length ≤ (sweep.drop k).length ∧ u = swept (sweep.drop k) vs t
      ∧ ask = bruteAsk ((sweep.drop k).drop vs.length) := by
  induction vs generalizing k t pts with
  | nil => cases h; exact ⟨rfl, Nat.zero_le _, by simp [swept], rfl⟩
  | cons v vs ih =>
    cases hl : sweep.drop k with
    | nil => rw [hl] at h; cases h
    | cons p rest =>
      obtain ⟨hafter, -⟩ := drop_sweep hl
      have hrest : rest = sweep.drop (k + 1) := by rw [← List.tail_drop, hl, List.tail_cons]
      simp only [hl, bruteAsk, calThrough, calNext, ← hafter, Option.map_eq_some_iff] at h
      obtain ⟨r, hr, hpts⟩ := h
      obtain ⟨pts', u', ask'⟩ := r
      cases hpts
      rw [hrest] at hr ⊢
      obtain ⟨hp, hlen, hu, hask⟩ := ih hr
      exact ⟨by rw [hp]; rfl, Nat.succ_le_succ hlen, hu, hask⟩

theorem zip_take_of_le {α β : Type} (l : List α) (m : List β) {n : Nat} (h : m.length ≤ n) : (l.take n).zip m = l.zip m := by
  induction l generalizing m n with
  | nil => simp
  | cons a l ih =>
    cases m with
    | nil => simp
    | cons b m =>
      obtain ⟨n, rfl⟩ : ∃ k, n = k + 1 := Nat.exists_eq_succ_of_ne_zero (Nat.ne_of_gt (Nat.lt_of_lt_of_le (Nat.succ_pos _) h))
      simpa using ih m (Nat.le_of_succ_le_succ h)

-- ---------------------------------------------------------------- a run from the idle block, a run from a hold

theorem exec_calibrates {i : Instr} {s t : State} (hi : calibrates i = true) (h : exec i s = .next t) :
    (i = .calBrute ∧ askRun (.point (.brute 0 0) 0 0) { s with toc := Toc.unwritten } = t)
    ∨ (i = .calGrad ∧ askRun (.point (.grad .start) s.cfg.calStart.1 s.cfg.calStart.2)
        { s with toc := s.toc.startAt s.cfg.calStart } = t) := by
  have hor : i = .calBrute ∨ i = .calGrad := by simpa [calibrates] using hi
  rcases hor with rfl | rfl
  · exact .inl ⟨rfl, (opCalBrute_eq s).symm.trans (exec_eq_next h)⟩
  · exact .inr ⟨rfl, exec_eq_next h⟩

theorem calRank_brute (c : Cfg) (t : Toc) : calRank c t (.point (.brute 0 0) 0 0) = 256 := by
  simp [calRank, sweepAfter]

/-- What a run of the sweep from the idle block has gone through. -/
theorem bruteRun {c : Cfg} {s t : State} {new : List PortEvent} {pts : List (Offset × Offset)} {u : Toc} {ask : CalAsk}
    (h : CalRun c (.point (.brute 0 0) 0 0) s t new pts u ask) :
    (samplesOf new).length ≤ 256 ∧ u = swept sweep (samplesOf new) s.toc
      ∧ ask = bruteAsk (sweep.drop (samplesOf new).length)
      ∧ ∀ x, measuresFrom x new = (sweep.map (ofsByte c)).zip (samplesOf new) := by
  obtain ⟨rfl, hlen, hu, hask⟩ := calThrough_brute (k := 0) h.through
  refine ⟨by simpa using hlen, hu, hask, fun x => ?_⟩
  rw [h.measured x, List.drop_zero, List.map_take, zip_take_of_le _ _ (Nat.le_refl _)]

/-- What a run of the descent has gone through. -/
theorem gradRun {c : Cfg} {g : GradAt} {p : Offset × Offset} {t u : Toc} {vs : List Nat} {pts : List (Offset × Offset)}
    {ask : CalAsk} (h : calThrough c (.point (.grad g) p.1 p.2) t vs = some (pts, u, ask)) :
    ∃ ask', searched c g p t vs = some (pts, u, ask') ∧ ask = ask'.cal := by
  rw [calThrough_grad, Option.map_eq_some_iff] at h
  obtain ⟨⟨pts', u', ask'⟩, hs, heq⟩ := h
  cases heq
  exact ⟨ask', hs, rfl⟩

/-- Settles O49, from one run of each calibration. -/
theorem calibrationBoundsAndFrame : Obligations.CalibrationBoundsAndFrame := by
  intro i s t hi hexec
  rcases exec_calibrates hi hexec with ⟨rfl, rfl⟩ | ⟨rfl, rfl⟩
  · refine ⟨tocFrame_askRun _ { s with toc := Toc.unwritten }, ?_⟩
    obtain ⟨new, pts, u, ask, hrun⟩ := calRun_askRun (.point (.brute 0 0) 0 0) { s with toc := Toc.unwritten }
    obtain ⟨-, hu, -, hmeasured⟩ := bruteRun hrun
    refine ⟨new, hrun.added, hrun.pulsed, ?_, fun hidle hfault => ⟨fun _ => ?_, nofun⟩⟩
    · rw [if_pos rfl]
      exact hrun.bounded.trans_eq (calRank_brute _ _)
    · cases hrun.ends with
      | fault hseq hret htoc => exact ⟨htoc.trans hu, hmeasured⟩
      | held k hseq => exact absurd (hseq.symm.trans hidle) (by cases k <;> nofun)
      | done exit hask hseq hret htoc => exact absurd (hret.symm.trans hfault) nofun
  · refine ⟨tocFrame_askRun _ { s with toc := s.toc.startAt s.cfg.calStart }, ?_⟩
    obtain ⟨new, pts, u, ask, hrun⟩ := calRun_askRun (.point (.grad .start) s.cfg.calStart.1 s.cfg.calStart.2)
      { s with toc := s.toc.startAt s.cfg.calStart }
    obtain ⟨ask', hsearched, -⟩ := gradRun hrun.through
    refine ⟨new, hrun.added, hrun.pulsed, ?_, fun hidle hfault => ⟨nofun, fun _ => ⟨pts, ask', ?_, hrun.measured⟩⟩⟩
    · rw [if_neg nofun, Nat.add_comm]
      exact hrun.bounded
    · cases hrun.ends with
      | fault hseq hret htoc => rw [htoc]; exact hsearched
      | held k hseq => exact absurd (hseq.symm.trans hidle) (by cases k <;> nofun)
      | done exit hask hseq hret htoc => exact absurd (hret.symm.trans hfault) nofun

-- ---------------------------------------------------------------- the first minimum of the sweep

/-- The running best after one sample: no larger than the sample, and than the best before. -/
theorem bruteTake_best (a b : Offset) (v : Nat) (t : Toc) :
    ∃ m, (bruteTake a b v t).calBest = some m ∧ m ≤ v ∧ ∀ x, t.calBest = some x → m ≤ x := by
  unfold bruteTake Toc.improves
  cases hb : t.calBest with
  | none => exact ⟨v, rfl, Nat.le_refl v, nofun⟩
  | some best =>
    by_cases hlt : v < best
    · rw [if_pos (decide_eq_true hlt)]
      exact ⟨v, rfl, Nat.le_refl v, fun x hx => Option.some.inj hx ▸ Nat.le_of_lt hlt⟩
    · rw [if_neg (by simpa using hlt)]
      exact ⟨best, hb, Nat.le_of_not_lt hlt, fun x hx => Nat.le_of_eq (Option.some.inj hx)⟩

/-- The running registers after samples of these pairs. -/
def sweptFrom (t : Toc) (l : List ((Offset × Offset) × Nat)) : Toc := l.foldl (fun u p => bruteTake p.1.1 p.1.2 p.2 u) t

theorem swept_eq (pts : List (Offset × Offset)) (vs : List Nat) (t : Toc) : swept pts vs t = sweptFrom t (pts.zip vs) := rfl

/-- The running best is no larger than any sample, and than the best of before. -/
theorem sweptFrom_best (l : List ((Offset × Offset) × Nat)) (t : Toc) :
    (∀ x, t.calBest = some x → ∃ m, (sweptFrom t l).calBest = some m ∧ m ≤ x)
    ∧ ∀ p ∈ l, ∃ m, (sweptFrom t l).calBest = some m ∧ m ≤ p.2 := by
  induction l generalizing t with
  | nil => exact ⟨fun x hx => ⟨x, hx, Nat.le_refl x⟩, nofun⟩
  | cons p l ih =>
    obtain ⟨m, hm, hmv, hmx⟩ := bruteTake_best p.1.1 p.1.2 p.2 t
    obtain ⟨hbefore, hlater⟩ := ih (bruteTake p.1.1 p.1.2 p.2 t)
    obtain ⟨n, hn, hnm⟩ := hbefore m hm
    refine ⟨fun x hx => ⟨n, hn, Nat.le_trans hnm (hmx x hx)⟩, fun q hq => ?_⟩
    rcases List.mem_cons.mp hq with rfl | hq
    · exact ⟨n, hn, Nat.le_trans hnm hmv⟩
    · exact hlater q hq

/-- The registers hold the first of the smallest samples and its pair. -/
def FirstMinimum (l : List ((Offset × Offset) × Nat)) (u : Toc) : Prop :=
  ∃ (i : Nat) (p : (Offset × Offset) × Nat), l[i]? = some p ∧ u.calA = some p.1.1 ∧ u.calB = some p.1.2 ∧ u.calBest = some p.2
    ∧ ∀ (k : Nat) (q : (Offset × Offset) × Nat), k < i → l[k]? = some q → p.2 < q.2

/-- From registers that hold no sample, the sweep finds the first minimum (44_toc_calibrator.md R213, R220). -/
theorem firstMinimum_sweptFrom {t : Toc} (ht : t.calBest = none) {l : List ((Offset × Offset) × Nat)} (hl : l ≠ []) :
    FirstMinimum l (sweptFrom t l) := by
  induction l using List.reverseRecOn with
  | nil => exact absurd rfl hl
  | append_singleton l p ih =>
    have hlast : sweptFrom t (l ++ [p]) = bruteTake p.1.1 p.1.2 p.2 (sweptFrom t l) := by simp [sweptFrom]
    have hat : (l ++ [p])[l.length]? = some p := by simp
    have hlt : ∀ {k q}, k < l.length → (l ++ [p])[k]? = some q → l[k]? = some q := fun hk h => by
      rwa [List.getElem?_append_left hk] at h
    rw [hlast, bruteTake]
    split
    case isTrue himp =>
      refine ⟨l.length, p, hat, rfl, rfl, rfl, fun k q hk hq => ?_⟩
      obtain ⟨m, hm, hle⟩ := (sweptFrom_best l t).2 q (List.mem_of_getElem? (hlt hk hq))
      simp only [Toc.improves, hm, decide_eq_true_eq] at himp
      exact Nat.lt_of_lt_of_le himp hle
    case isFalse himp =>
      by_cases hempty : l = []
      · subst hempty
        exact absurd (by simp [sweptFrom, Toc.improves, ht]) himp
      · obtain ⟨i, q, hq, ha, hb, hbest, hfirst⟩ := ih hempty
        have hi : i < l.length := (List.getElem?_eq_some_iff.mp hq).1
        exact ⟨i, q, by rw [List.getElem?_append_left hi, hq], ha, hb, hbest,
          fun k r hk hr => hfirst k r hk (hlt (Nat.lt_trans hk hi) hr)⟩

theorem getElem?_sweep_zip {vs : List Nat} (hlen : vs.length = 256) {k : Nat} {v : Nat} (hv : vs[k]? = some v) :
    (sweep.zip vs)[k]? = some ((BitVec.ofNat 4 (k / 16), BitVec.ofNat 4 (k % 16)), v) := by
  have hk : k < 256 := hlen ▸ (List.getElem?_eq_some_iff.mp hv).1
  have hs : sweep[k]? = some (BitVec.ofNat 4 (k / 16), BitVec.ofNat 4 (k % 16)) := by
    rw [List.getElem?_eq_getElem (by simpa using hk), getElem_sweep k hk]
  rw [List.getElem?_zip_eq_some]
  exact ⟨hs, hv⟩

theorem map_ofsByte_sweep (c : Cfg) :
    sweep.map (ofsByte c) = (List.range 256).map fun k => txofsByte c.userMap (BitVec.ofNat 4 (k / 16)) (BitVec.ofNat 4 (k % 16)) := by
  simp [sweep, Function.comp_def]

/-- Settles O45: an `Ok` outcome means that the sweep is over, and the registers then hold its first minimum. -/
theorem bruteFindsFirstMinimum : Obligations.BruteFindsFirstMinimum := by
  intro s t a b best exit hexec hidle hret
  rcases exec_calibrates rfl hexec with ⟨-, rfl⟩ | ⟨h, -⟩
  case inr => cases h
  obtain ⟨new, pts, u, ask, hrun⟩ := calRun_askRun (.point (.brute 0 0) 0 0) { s with toc := Toc.unwritten }
  obtain ⟨hle, hu, hask, hmeasured⟩ := bruteRun hrun
  cases hrun.ends with
  | fault hseq hfault htoc => exact absurd (hfault.symm.trans hret) nofun
  | held k hseq => exact absurd (hseq.symm.trans hidle) (by cases k <;> nofun)
  | done exit' hdone hseq hok htoc =>
    obtain ⟨rfl, rfl, rfl, rfl⟩ : u.calA.getD 0 = a ∧ u.calB.getD 0 = b ∧ u.calBest.getD 0 = best ∧ exit' = exit := by
      simpa using hok.symm.trans hret
    have hend : sweep.drop (samplesOf new).length = [] ∧ exit' = .swept := by
      rw [hask] at hdone
      cases hd : sweep.drop (samplesOf new).length with
      | nil => rw [hd] at hdone; cases hdone; exact ⟨rfl, rfl⟩
      | cons p rest => rw [hd] at hdone; cases hdone
    have hlen : (samplesOf new).length = 256 :=
      Nat.le_antisymm hle (by simpa using List.drop_eq_nil_iff.mp hend.1)
    have hzip : sweep.zip (samplesOf new) ≠ [] := fun h => by
      have := congrArg List.length h
      simp [hlen] at this
    have hall := (sweptFrom_best (sweep.zip (samplesOf new)) Toc.unwritten).2
    obtain ⟨i, ⟨p, best⟩, hp, ha, hb, hbest, hfirst⟩ := firstMinimum_sweptFrom (t := Toc.unwritten) rfl hzip
    rw [← swept_eq] at hall ha hb hbest
    rw [← hu] at hall ha hb hbest
    obtain ⟨-, hv⟩ := List.getElem?_zip_eq_some.mp hp
    have hi : i < 256 := hlen ▸ (List.getElem?_eq_some_iff.mp hv).1
    obtain rfl : p = (BitVec.ofNat 4 (i / 16), BitVec.ofNat 4 (i % 16)) :=
      congrArg Prod.fst (Option.some.inj (hp.symm.trans (getElem?_sweep_zip hlen hv)))
    rw [ha, hb, hbest]
    simp only [Option.getD_some, sweep_position i hi]
    refine ⟨hend.2, htoc, new, hrun.added, hlen, fun x => ?_, hv, fun v hvmem => ?_, fun k v hk hvk => ?_⟩
    · rw [hmeasured x, map_ofsByte_sweep]
    · obtain ⟨k, hk⟩ := List.mem_iff_getElem?.mp hvmem
      obtain ⟨m, hm, hmle⟩ := hall _ (List.mem_of_getElem? (getElem?_sweep_zip hlen hk))
      obtain rfl : best = m := Option.some.inj (hbest.symm.trans hm)
      exact hmle
    · exact hfirst k _ hk (getElem?_sweep_zip hlen hvk)

-- ---------------------------------------------------------------- the descent

/-- The points of a history of measurements are those around the pair that the registers hold, probed with these directions
still to come: in range, in the probe order, none of the samples smaller than the best unless a candidate holds one
(44_toc_calibrator.md R214, R219). -/
def Probed (h : List ((Offset × Offset) × Nat)) (a b : Offset) (best : Nat) (next : List (Offset × Offset))
    (cand : Option Cand) : Prop :=
  ∃ before around, h = before ++ around ∧ around.map (·.1) ++ next = probeOrder.filterMap (neighbour a b)
    ∧ (cand = none → ∀ p ∈ around, best ≤ p.2) ∧ ∀ x, cand = some x → ((x.a, x.b), x.sample) ∈ h ∧ x.sample < best

/-- What a search asks for next fits the measurements it has made: the registers hold one of them, no larger than the first, and
the probe is where it is. -/
inductive Follows (h : List ((Offset × Offset) × Nat)) (t : Toc) : Ask → Prop where
  | start (a b : Offset) (hempty : h = []) (ha : t.calA = some a) (hb : t.calB = some b) : Follows h t (.point .start a b)
  | along (d : Dir) (a b a' b' : Offset) (best : Nat) (ha : t.calA = some a) (hb : t.calB = some b)
      (hbest : t.calBest = some best) (hmem : ((a, b), best) ∈ h) (hfirst : ∀ p, h.head? = some p → best ≤ p.2) :
      Follows h t (.point (.along d a' b') a' b')
  | probe (d : Dir) (rest : List Dir) (cand : Option Cand) (a b a' b' : Offset) (best : Nat) (ha : t.calA = some a)
      (hb : t.calB = some b) (hbest : t.calBest = some best) (hmem : ((a, b), best) ∈ h)
      (hfirst : ∀ p, h.head? = some p → best ≤ p.2)
      (hprobed : Probed h a b best ((a', b') :: rest.filterMap (neighbour a b)) cand) :
      Follows h t (.point (.probe d a' b' rest cand) a' b')
  | done (exit : CalExit) (a b : Offset) (best : Nat) (hexit : exit ≠ .swept) (ha : t.calA = some a) (hb : t.calB = some b)
      (hbest : t.calBest = some best) (hmem : ((a, b), best) ∈ h) (hfirst : ∀ p, h.head? = some p → best ≤ p.2)
      (hmin : exit = .localMin → Probed h a b best [] none) : Follows h t (.done exit)

section descent

variable {c : Cfg} {h : List ((Offset × Offset) × Nat)} {t : Toc} {a b : Offset} {best : Nat}

/-- The first in-range neighbour still to be probed is the first of the in-range neighbours. -/
theorem nextProbe_filterMap (ha : t.calA = some a) (hb : t.calB = some b) (cand : Option Cand) (l : List Dir) :
    (nextProbe t cand l = none ∧ l.filterMap (neighbour a b) = [])
    ∨ ∃ d rest a' b', nextProbe t cand l = some (.point (.probe d a' b' rest cand) a' b')
      ∧ l.filterMap (neighbour a b) = (a', b') :: rest.filterMap (neighbour a b) := by
  induction l with
  | nil => exact .inl ⟨rfl, rfl⟩
  | cons d l ih =>
    simp only [nextProbe, ha, hb, Option.getD_some, List.filterMap_cons] at ih ⊢
    cases hn : neighbour a b d with
    | none => exact ih
    | some p => exact .inr ⟨d, l, p.1, p.2, rfl, rfl⟩

theorem follows_probeAsk (ha : t.calA = some a) (hb : t.calB = some b) (hbest : t.calBest = some best)
    (hmem : ((a, b), best) ∈ h) (hfirst : ∀ p, h.head? = some p → best ≤ p.2) :
    Follows h (probeAsk t).1 (probeAsk t).2 := by
  simp only [probeAsk]
  rcases nextProbe_filterMap (t := { t with calDir := none }) ha hb none probeOrder with
    ⟨hn, hl⟩ | ⟨d, rest, a', b', hn, hl⟩
  · rw [hn]
    refine .done .localMin a b best nofun ha hb hbest hmem hfirst fun _ => ⟨h, [], by simp, ?_, fun _ => nofun, nofun⟩
    exact hl.symm
  · rw [hn]
    refine .probe d rest none a b a' b' best ha hb hbest hmem hfirst ⟨h, [], by simp, ?_, fun _ => nofun, nofun⟩
    exact hl.symm

theorem follows_loopAsk (ha : t.calA = some a) (hb : t.calB = some b) (hbest : t.calBest = some best)
    (hmem : ((a, b), best) ∈ h) (hfirst : ∀ p, h.head? = some p → best ≤ p.2) :
    Follows h (loopAsk c t).1 (loopAsk c t).2 := by
  simp only [loopAsk]
  split
  case isTrue => exact .done .iterCap a b best nofun ha hb hbest hmem hfirst nofun
  case isFalse =>
    have hprobe : Follows h (probeAsk { t with calIter := some (t.calIter.getD 0 + 1) }).1
        (probeAsk { t with calIter := some (t.calIter.getD 0 + 1) }).2 := follows_probeAsk ha hb hbest hmem hfirst
    split
    case h_1 => exact hprobe
    case h_2 d _ =>
      split
      case h_1 => exact hprobe
      case h_2 a' b' _ => exact .along d a b a' b' best ha hb hbest hmem hfirst

theorem mem_snoc (p q : (Offset × Offset) × Nat) (hp : p ∈ h) : p ∈ h ++ [q] := List.mem_append_left _ hp

/-- A first sample that is no smaller than the best stays the first. -/
theorem head?_snoc {q : (Offset × Offset) × Nat} {p : (Offset × Offset) × Nat} (hmem : p ∈ h) {n : Nat}
    (hfirst : ∀ r, h.head? = some r → n ≤ r.2) : ∀ r, (h ++ [q]).head? = some r → n ≤ r.2 := by
  cases h with
  | nil => cases hmem
  | cons x h => exact hfirst

theorem improves_iff {v : Nat} (hbest : t.calBest = some best) : t.improves v = true ↔ v < best := by
  simp [Toc.improves, hbest]

/-- The candidate after one more neighbour: the neighbour's sample if it is smaller than the best and than the candidate's. -/
theorem probed_betterCand {d : Dir} {a' b' : Offset} {v : Nat} {cand : Option Cand} {next : List (Offset × Offset)}
    (hbest : t.calBest = some best) (hprobed : Probed h a b best ((a', b') :: next) cand) :
    Probed (h ++ [((a', b'), v)]) a b best next (betterCand t d a' b' v cand) := by
  obtain ⟨before, around, rfl, hpts, hnone, hsome⟩ := hprobed
  refine ⟨before, around ++ [((a', b'), v)], by simp, by simpa using hpts, fun hc => ?_, fun x hx => ?_⟩
  · have hold : cand = none ∧ ¬ v < best := by
      rw [← improves_iff hbest]
      cases cand with
      | none =>
        refine ⟨rfl, fun himp => ?_⟩
        simp [betterCand, himp] at hc
      | some y =>
        rcases betterCand_cases t d a' b' v (some y) with h | h <;> rw [h] at hc <;> cases hc
    intro p hp
    rcases List.mem_append.mp hp with hp | hp
    · exact hnone hold.1 p hp
    · obtain rfl := List.mem_singleton.mp hp
      exact Nat.le_of_not_lt hold.2
  · by_cases himp : v < best
    · rcases betterCand_cases t d a' b' v cand with h | h
      · rw [h] at hx
        cases hx
        exact ⟨by simp, himp⟩
      · obtain ⟨hm, hlt⟩ := hsome x (h ▸ hx)
        exact ⟨mem_snoc _ _ hm, hlt⟩
    · have hno : t.improves v = false := by
        rw [← Bool.not_eq_true, improves_iff hbest]
        exact himp
      simp only [betterCand, hno, Bool.false_and] at hx
      obtain ⟨hm, hlt⟩ := hsome x hx
      exact ⟨mem_snoc _ _ hm, hlt⟩

/-- One sample taken into account: what the search asks for next fits. -/
theorem follows_gradNext {g : GradAt} {p : Offset × Offset} {v : Nat} (hf : Follows h t (.point g p.1 p.2)) :
    Follows (h ++ [(p, v)]) (gradNext c g v t).1 (gradNext c g v t).2 := by
  have hself : (p, v) ∈ h ++ [(p, v)] := by simp
  generalize hask : Ask.point g p.1 p.2 = ask at hf
  cases hf with
  | start a b hempty ha hb =>
    cases hask
    subst hempty
    exact follows_loopAsk ha hb rfl hself fun r hr => Option.some.inj hr ▸ Nat.le_refl _
  | along d a b a' b' best ha hb hbest hmem hfirst =>
    cases hask
    have hfirst' := head?_snoc (q := (p, v)) hmem hfirst
    simp only [gradNext]
    split
    case isTrue himp =>
      rw [improves_iff hbest] at himp
      exact follows_loopAsk rfl rfl rfl hself fun r hr => Nat.le_trans (Nat.le_of_lt himp) (hfirst' r hr)
    case isFalse => exact follows_probeAsk ha hb hbest (mem_snoc _ _ hmem) hfirst'
  | probe d rest cand a b a' b' best ha hb hbest hmem hfirst hprobed =>
    cases hask
    have hfirst' := head?_snoc (q := (p, v)) hmem hfirst
    have hprobed' := probed_betterCand (d := d) (v := v) hbest hprobed
    simp only [gradNext]
    rcases nextProbe_filterMap ha hb (betterCand t d p.1 p.2 v cand) rest with ⟨hn, hl⟩ | ⟨d', rest', a'', b'', hn, hl⟩
    · rw [hn]
      rw [hl] at hprobed'
      cases hc : betterCand t d p.1 p.2 v cand with
      | none =>
        exact .done .localMin a b best nofun ha hb hbest (mem_snoc _ _ hmem) hfirst' fun _ => hc ▸ hprobed'
      | some x =>
        obtain ⟨-, -, -, -, -, hsome⟩ := hprobed'
        obtain ⟨hx, hlt⟩ := hsome x hc
        exact follows_loopAsk rfl rfl rfl hx fun r hr => Nat.le_trans (Nat.le_of_lt hlt) (hfirst' r hr)
    · rw [hn]
      rw [hl] at hprobed'
      exact .probe d' rest' _ a b a'' b'' best ha hb hbest (mem_snoc _ _ hmem) hfirst' hprobed'
  | done exit => cases hask

/-- The whole search: what it asks for last fits all its measurements. -/
theorem follows_searched {g : GradAt} {p : Offset × Offset} {vs : List Nat} {pts : List (Offset × Offset)} {u : Toc}
    {ask : Ask} (hs : searched c g p t vs = some (pts, u, ask)) (hf : Follows h t (.point g p.1 p.2)) :
    Follows (h ++ pts.zip vs) u ask := by
  induction vs generalizing g p t h pts with
  | nil =>
    cases hs
    simpa using hf
  | cons v vs ih =>
    have hnext := follows_gradNext (c := c) (v := v) hf
    simp only [searched] at hs
    generalize gradNext c g v t = r at hs hnext
    obtain ⟨t', ask'⟩ := r
    cases ask' with
    | done exit =>
      change (if vs = [] then some ([p], t', Ask.done exit) else none) = _ at hs
      split at hs
      case isTrue hnil => cases hs; simpa [hnil] using hnext
      case isFalse => cases hs
    | point g' a' b' =>
      obtain ⟨⟨pts', u', ask''⟩, hr, heq⟩ := Option.map_eq_some_iff.mp hs
      cases heq
      have hrest := ih hr hnext
      rwa [List.append_assoc, List.singleton_append] at hrest

end descent

/-- Settles O47: an `Ok` outcome means that the search asked for its end, and what it then asks for fits its measurements. -/
theorem gradientEndsAtLocalMinimum : Obligations.GradientEndsAtLocalMinimum := by
  intro s t a b best exit hexec hidle hret
  rcases exec_calibrates rfl hexec with ⟨h, -⟩ | ⟨-, rfl⟩
  case inl => cases h
  obtain ⟨new, pts, u, ask, hrun⟩ := calRun_askRun (.point (.grad .start) s.cfg.calStart.1 s.cfg.calStart.2)
    { s with toc := s.toc.startAt s.cfg.calStart }
  obtain ⟨ask', hsearched, rfl⟩ := gradRun hrun.through
  have hfollows : Follows ([] ++ pts.zip (samplesOf new)) u ask' := follows_searched hsearched (.start _ _ rfl rfl rfl)
  rw [List.nil_append] at hfollows
  cases hrun.ends with
  | fault hseq hfault htoc => exact absurd (hfault.symm.trans hret) nofun
  | held k hseq => exact absurd (hseq.symm.trans hidle) (by cases k <;> nofun)
  | done exit' hdone hseq hok htoc =>
    obtain ⟨rfl, rfl, rfl, rfl⟩ : u.calA.getD 0 = a ∧ u.calB.getD 0 = b ∧ u.calBest.getD 0 = best ∧ exit' = exit := by
      simpa using hok.symm.trans hret
    obtain rfl : ask' = .done exit' := by
      cases ask' with
      | done e => cases hdone; rfl
      | point => cases hdone
    cases hfollows with
    | done _ a b best hexit ha hb hbest hmem hfirst hmin =>
      rw [ha, hb, hbest]
      refine ⟨hexit, htoc, new, pts, u, hrun.added, hsearched, ha, hb, hbest, hrun.measured, hmem, fun v hv => ?_, fun h => ?_⟩
      · cases hpts : pts.zip (samplesOf new) with
        | nil => rw [hpts] at hmem; cases hmem
        | cons p rest =>
          obtain ⟨vs, hvs⟩ : ∃ vs, samplesOf new = v :: vs := List.head?_eq_some_iff.mp hv
          have hp : p.2 = v := by
            rw [hvs] at hpts
            cases pts with
            | nil => cases hpts
            | cons q pts => cases hpts; rfl
          exact hp ▸ hfirst p (by rw [hpts]; rfl)
      · obtain ⟨before, around, hsplit, hpts, hnone, -⟩ := hmin h
        exact ⟨before, around, hsplit, by simpa using hpts, hnone rfl⟩

-- ---------------------------------------------------------------- going on after a hold

/-- A held calibration going on: its sample, and the rest of the calibration behind it (44_toc_calibrator.md R212). -/
theorem resumeCal_run (k : CalAt) (p : Offset × Offset) (s : State) :
    ∃ new pts u ask, Added s (resumeCal k s) new ∧ calThrough s.cfg (.point k p.1 p.2) s.toc (samplesOf new) = some (pts, u, ask)
      ∧ measuresFrom (ofsByte s.cfg p) new = (pts.map (ofsByte s.cfg)).zip (samplesOf new) ∧ CalEnd (resumeCal k s) u ask := by
  obtain ⟨-, hcases⟩ := measureWait_cases s.cfg s.world
  refine resumeCal_cases (P := fun t => ∃ new pts u ask, Added s t new
    ∧ calThrough s.cfg (.point k p.1 p.2) s.toc (samplesOf new) = some (pts, u, ask)
    ∧ measuresFrom (ofsByte s.cfg p) new = (pts.map (ofsByte s.cfg)).zip (samplesOf new) ∧ CalEnd t u ask) k s ?_ ?_ ?_
  · intro f w hm
    rcases hcases with ⟨h, -⟩ | ⟨v, h, -⟩ <;> rw [hm] at h <;> cases h
  · intro w hm
    rcases hcases with ⟨-, htrace, -⟩ | ⟨v, h, -⟩
    · rw [hm] at htrace
      exact ⟨[], [], s.toc, .point k p.1 p.2, htrace, rfl, rfl, .held k rfl⟩
    · rw [hm] at h; cases h
  · intro v w hm
    rcases hcases with ⟨h, -⟩ | ⟨v', h, -, htrace⟩
    · rw [hm] at h; cases h
    · rw [hm] at h htrace
      cases h
      obtain ⟨new, pts, u, ask, hrun⟩ :=
        calRun_askRun (calNext s.cfg k v s.toc).2 { s with world := w, toc := (calNext s.cfg k v s.toc).1 }
      have hsamples : samplesOf (new ++ [.sample v]) = v :: samplesOf new := by simp [samplesOf]
      refine ⟨new ++ [.sample v], p :: pts, u, ask, ?_, ?_, ?_, hrun.ends⟩
      · have hadd := hrun.added
        change (askRun _ _).world.trace = _ at hadd ⊢
        rw [hadd, List.append_assoc]
        exact congrArg _ htrace
      · have hthrough := hrun.through
        rw [hsamples, calThrough]
        exact congrArg (Option.map _) hthrough
      · have hrest := hrun.measured (ofsByte s.cfg p)
        rw [hsamples, List.map_cons, List.zip_cons_cons, ← hrest]
        simp [measuresFrom, pairSamples]

theorem length_drop_sweep_pos (a b : Offset) : 0 < (sweep.drop (16 * a.toNat + b.toNat)).length := by
  have ha := a.isLt
  have hb := b.isLt
  simp only [List.length_drop, length_sweep]
  omega

theorem drop_sweep_eq_cons (a b : Offset) : sweep.drop (16 * a.toNat + b.toNat) = (a, b) :: sweepAfter a b := by
  have hlt : 16 * a.toNat + b.toNat < 256 := by simpa using length_drop_sweep_pos a b
  cases hl : sweep.drop (16 * a.toNat + b.toNat) with
  | nil => exact absurd (length_drop_sweep_pos a b) (by simp [hl])
  | cons p rest =>
    obtain ⟨hrest, hpos⟩ := drop_sweep hl
    have hp := p.2.isLt
    have hb := b.isLt
    have hpair : p = (a, b) := Prod.ext (BitVec.eq_of_toNat_eq (by dsimp only; omega))
      (BitVec.eq_of_toNat_eq (by dsimp only; omega))
    rw [hrest, hpair]

/-- Settles O38, from the run of a held calibration. -/
theorem calibrationGoesOnAfterHold : Obligations.CalibrationGoesOnAfterHold := by
  intro s t hstep hidle
  have hresume : ∀ k : CalAt, s.seq = k.held → t = resumeCal k s := by
    intro k hk
    cases stepOf_of_step hstep with
    | resumed _ ht => rw [← ht, resume, hk]; cases k <;> rfl
    | turn hready | taken i w rest hready | rejected r rest hready | wire w rest hready =>
      exact absurd (hk.symm.trans hready) (by cases k <;> nofun)
  refine ⟨fun a0 b0 hseq => ?_, fun g hseq => ?_⟩
  · obtain ⟨new, pts, u, ask, hadd, hthrough, hmeasured, hend⟩ := resumeCal_run (.brute a0 b0) (a0, b0) s
    rw [← hresume (.brute a0 b0) hseq] at hadd hend
    have hask : bruteAsk (sweep.drop (16 * a0.toNat + b0.toNat)) = .point (.brute a0 b0) a0 b0 := by
      rw [drop_sweep_eq_cons]; rfl
    rw [← hask] at hthrough
    obtain ⟨rfl, hlen, rfl, hlast⟩ := calThrough_brute hthrough
    refine ⟨new, hadd, ?_, ?_⟩
    · rw [hmeasured, List.map_take, zip_take_of_le _ _ (Nat.le_refl _)]
    · cases hend with
      | fault hseq' hret htoc => exact .inl ⟨hret, htoc⟩
      | held k hseq' => exact absurd (hseq'.symm.trans hidle) (by cases k <;> nofun)
      | done exit hdone hseq' hret htoc =>
        rw [hdone] at hlast
        cases hd : (sweep.drop (16 * a0.toNat + b0.toNat)).drop (samplesOf new).length with
        | cons p rest => rw [hd] at hlast; cases hlast
        | nil =>
          rw [hd] at hlast
          cases hlast
          have hall : (samplesOf new).length = (sweep.drop (16 * a0.toNat + b0.toNat)).length :=
            Nat.le_antisymm hlen (List.drop_eq_nil_iff.mp hd)
          have hbest := sweptFrom_best ((sweep.drop (16 * a0.toNat + b0.toNat)).zip (samplesOf new)) s.toc
          rw [← swept_eq] at hbest
          obtain ⟨hbefore, hsmallest⟩ := hbest
          have hmem : ∀ v ∈ samplesOf new, ∃ p, (p, v) ∈ (sweep.drop (16 * a0.toNat + b0.toNat)).zip (samplesOf new) := by
            intro v hv
            obtain ⟨i, hi⟩ := List.mem_iff_getElem?.mp hv
            have hlt : i < (sweep.drop (16 * a0.toNat + b0.toNat)).length :=
              hall ▸ (List.getElem?_eq_some_iff.mp hi).1
            exact ⟨_, List.mem_of_getElem? (List.getElem?_zip_eq_some.mpr ⟨List.getElem?_eq_getElem hlt, hi⟩)⟩
          obtain ⟨v0, hv0⟩ := List.exists_mem_of_length_pos (hall ▸ length_drop_sweep_pos a0 b0)
          obtain ⟨p0, hp0⟩ := hmem v0 hv0
          obtain ⟨best, hb, -⟩ := hsmallest _ hp0
          have hle : ∀ {x : Nat}, (∃ m, (swept (sweep.drop (16 * a0.toNat + b0.toNat)) (samplesOf new) s.toc).calBest = some m
              ∧ m ≤ x) → best ≤ x := by
            rintro x ⟨m, hm, hmx⟩
            obtain rfl : best = m := Option.some.inj (hb.symm.trans hm)
            exact hmx
          refine .inr ⟨_, _, best, by rw [hret, hb]; rfl, htoc, hall, fun v hv => ?_, fun v hv => hle (hbefore v hv), hb,
            rfl, rfl⟩
          obtain ⟨p, hp⟩ := hmem v hv
          exact hle (hsmallest _ hp)
  · obtain ⟨new, pts, u, ask, hadd, hthrough, hmeasured, hend⟩ := resumeCal_run (.grad g) (g.point s.toc) s
    rw [← hresume (.grad g) hseq] at hadd hend
    obtain ⟨ask', hsearched, rfl⟩ := gradRun hthrough
    refine ⟨new, pts, u, ask', hadd, hsearched, hmeasured, ?_⟩
    cases hend with
    | fault hseq' hret htoc => exact .inl ⟨hret, htoc⟩
    | held k hseq' => exact absurd (hseq'.symm.trans hidle) (by cases k <;> nofun)
    | done exit hdone hseq' hret htoc =>
      refine .inr ⟨exit, ?_, htoc, hret⟩
      cases ask' with
      | done e => cases hdone; rfl
      | point => cases hdone

end Sys2Proof.Machine
end

section
/-! The calibrations with a sampler that answers every trigger, or none, and a peripheral that is otherwise quiet
(44_toc_calibrator.md R212, R216). -/

namespace Sys2Proof.Machine

-- ---------------------------------------------------------------- one measurement in a calm environment

theorem clearFlag_calm {c : Cfg} {e : Event} {w : World} (hc : Calm 1 w) :
    clearFlag c e w = { w with script := w.script.tail, ev := w.ev.put e false } := by
  simp only [clearFlag, envTurn_calm c hc]

theorem pulseAdc_calm {c : Cfg} {w : World} (hc : Calm 1 w) :
    pulseAdc c w = { w with script := w.script.tail, adcTrigger := true, trace := .adcPulse :: w.trace } := by
  simp only [pulseAdc, envTurn_calm c hc]

/-- The transactions that program one point. -/
def ofsQs (c : Cfg) (x : Byte) : List Quad := wrQ .us 7 x :: rdQs c .us 7

@[simp] theorem length_ofsQs (c : Cfg) (x : Byte) : (ofsQs c x).length = 1 + readCost c := by
  simp [ofsQs, Nat.add_comm]

/-- One point programmed in a calm environment. -/
theorem writeOfs_calm {c : Cfg} (x : Byte) {w : World} (hc : Calm (1 + readCost c) w) (huser : 8 ≤ c.userSize)
    (hwf : (w.spaces.get .us).wf = true) :
    (writeV c .us txofsAddr x 0xFF w).1 = none
    ∧ Calmly (1 + readCost c) (ofsQs c x) w (writeV c .us txofsAddr x 0xFF w).2
    ∧ (writeV c .us txofsAddr x 0xFF w).2.spaces = (w.poke .us 7 x).spaces := by
  obtain ⟨hok, hcalm, hsp, -⟩ := writeV_calm (v := x) 0xFF hc (addrOk_user huser (addr := txofsAddr) (by decide))
    (readsBack_plain c x (by decide)) hwf
  exact ⟨hok, hcalm, hsp⟩

/-- A point measured up to the wait, in a calm environment: the pulse is out, the flag is 0. -/
structure Triggered (c : Cfg) (x : Byte) (w w' : World) : Prop where
  ev : w'.ev = w.ev.put .sampleReady false
  script : w'.script = w.script.drop (3 + readCost c)
  spaces : w'.spaces = (w.poke .us 7 x).spaces
  ports : Ports w w' (ofsQs c x) 1 []

theorem Triggered.flag {c : Cfg} {x : Byte} {w w' : World} (h : Triggered c x w w') :
    w'.ev.get .sampleReady = false := by
  rw [h.ev, EventFlags.get_put_same]

theorem measure_calm {c : Cfg} (a b : Offset) {w : World} (hc : Calm (3 + readCost c) w) (huser : 8 ≤ c.userSize)
    (hwf : (w.spaces.get .us).wf = true) :
    ∃ w', measure c a b w = measureWait c w' ∧ Triggered c (txofsByte c.userMap a b) w w' := by
  obtain ⟨hok, hcalm, hsp⟩ := writeOfs_calm (txofsByte c.userMap a b) (hc.mono (by omega)) huser hwf
  have hcalm2 : Calm 2 (writeV c .us txofsAddr (txofsByte c.userMap a b) 0xFF w).2 :=
    hcalm.calm (hc.mono (by omega))
  refine ⟨pulseAdc c (clearFlag c .sampleReady (writeV c .us txofsAddr (txofsByte c.userMap a b) 0xFF w).2), ?_, ?_⟩
  · unfold measure
    split
    case h_1 h => rw [h] at hok; cases hok
    case h_2 h => rw [h]
  · rw [clearFlag_calm (hcalm2.mono (by decide)), pulseAdc_calm (hcalm2.drop (m := 1) (List.drop_one).symm)]
    refine ⟨?_, ?_, hsp, ?_⟩
    · simp only [hcalm.ev]
    · simp only [hcalm.script, List.tail_drop]
      congr 1
      omega
    · obtain ⟨new, htrace, hsent, hpulse, hsamples⟩ := hcalm.ports
      refine ⟨.adcPulse :: new, congrArg _ htrace, hsent, ?_, hsamples⟩
      simpa [pulsesOf] using hpulse

-- ---------------------------------------------------------------- a sampler that never answers

theorem measureWait_quiet {c : Cfg} {w : World} (hflag : w.ev.get .sampleReady = false) (hq : w.script = []) :
    measureWait c w = (.held, { w with adcTrigger := false }) := by
  simp only [measureWait, waitFlag_held (w := { w with adcTrigger := false }) hflag hq]

/-- The first measurement of a calibration without a sampler. -/
theorem askRun_held (k : CalAt) (a b : Offset) (s : State) (hq : Quiet s) (huser : 8 ≤ s.cfg.userSize)
    (hmem : memoryOk s = true) :
    ∃ new, (askRun (.point k a b) s).seq = k.held ∧ (askRun (.point k a b) s).ret = s.ret
      ∧ Added s (askRun (.point k a b) s) new ∧ (sentOf new).length = 1 + readCost s.cfg ∧ pulsesOf new = 1
      ∧ step (askRun (.point k a b) s) = .fault (.held .sampleReady) := by
  obtain ⟨w, hm, ht⟩ := measure_calm a b (calm_of_quiet hq _) huser (spaces_wf hmem .us)
  have hscript : w.script = [] := by rw [ht.script, hq, List.drop_nil]
  rw [measureWait_quiet ht.flag hscript] at hm
  obtain ⟨new, htrace, hsent, hpulse, -⟩ := ht.ports
  have hrun : askRun (.point k a b) s = { s with world := { w with adcTrigger := false }, seq := k.held } := by
    simp only [askRun, hm]
  rw [hrun]
  refine ⟨new, rfl, rfl, htrace, by rw [hsent, length_ofsQs], hpulse, step_held ?_ ht.flag hscript⟩
  cases k <;> rfl

/-- Settles O50: neither calibration gets past its first wait. -/
theorem calibrationHeldWithoutSampler : Obligations.CalibrationHeldWithoutSampler := by
  intro s hready hq huser hmem
  refine ⟨?_, ?_⟩
  · obtain ⟨new, h⟩ := askRun_held (.brute 0 0) 0 0 { s with toc := Toc.unwritten } hq huser hmem
    rw [← opCalBrute_eq] at h
    exact ⟨_, new, State.command_of_ready hready opCalBrute, h⟩
  · obtain ⟨new, h⟩ := askRun_held (.grad .start) s.cfg.calStart.1 s.cfg.calStart.2
      { s with toc := s.toc.startAt s.cfg.calStart } hq huser hmem
    rw [← opCalGrad_eq] at h
    exact ⟨_, new, State.command_of_ready hready opCalGrad, h⟩

-- ---------------------------------------------------------------- a sampler that answers

/-- The wait and the draw of a measurement whose trigger is answered by a value. -/
theorem measureWait_answered {c : Cfg} {w : World} {v : Nat} {rest : List (List EnvStep)}
    (hflag : w.ev.get .sampleReady = false) (hs : w.script = [[.adc v, .evSet .sampleReady], [], []] ++ rest) :
    measureWait c w = (.sample (v % 2 ^ c.sampleBits), { w with
      ev := w.ev.put .sampleReady false
      adcTrigger := false
      adcValue := v % 2 ^ c.sampleBits
      script := rest
      trace := .sample (v % 2 ^ c.sampleBits) :: w.trace }) := by
  have hwait : waitFlag c .sampleReady { w with adcTrigger := false } = (true, { w with
      ev := w.ev.put .sampleReady true
      adcTrigger := false
      adcValue := v % 2 ^ c.sampleBits
      script := [] :: [] :: rest }) := by
    simp [waitFlag, hs, waitLoop, hflag, EnvStep.act]
  simp [measureWait, hwait, clearFlag, drawSample, World.envTurn]

/-- A measurement whose trigger is answered: its sample, and the world behind it. -/
structure Sampled (c : Cfg) (x : Byte) (v : Nat) (rest : List (List EnvStep)) (w w' : World) : Prop where
  ev : w'.ev = w.ev.put .sampleReady false
  script : w'.script = rest
  spaces : w'.spaces = (w.poke .us 7 x).spaces
  ports : Ports w w' (ofsQs c x) 1 [v]

theorem calm_append {n : Nat} {w : World} {rest : List (List EnvStep)} (h : w.script = List.replicate n [] ++ rest) :
    Calm n w := by
  intro batch hb
  rw [h, List.take_left' (List.length_replicate ..)] at hb
  exact List.eq_of_mem_replicate hb

theorem measure_answers {c : Cfg} (a b : Offset) {w : World} {v : Nat} {rest : List (List EnvStep)}
    (hs : w.script = measureTurns c v ++ rest) (huser : 8 ≤ c.userSize) (hwf : (w.spaces.get .us).wf = true) :
    ∃ w', measure c a b w = (.sample (v % 2 ^ c.sampleBits), w')
      ∧ Sampled c (txofsByte c.userMap a b) (v % 2 ^ c.sampleBits) rest w w' := by
  rw [measureTurns, List.append_assoc] at hs
  obtain ⟨w1, hm, ht⟩ := measure_calm a b (calm_append hs) huser hwf
  have hscript : w1.script = [[.adc v, .evSet .sampleReady], [], []] ++ rest := by
    rw [ht.script, hs, List.drop_left' (List.length_replicate ..)]
  rw [measureWait_answered ht.flag hscript] at hm
  refine ⟨_, hm, ?_, rfl, ht.spaces, ?_⟩
  · simp only [ht.ev, EventFlags.put_put]
  · obtain ⟨new, htrace, hsent, hpulse, hsamples⟩ := ht.ports
    refine ⟨.sample (v % 2 ^ c.sampleBits) :: new, congrArg _ htrace, hsent, ?_, by simp [samplesOf, hsamples]⟩
    simpa [pulsesOf] using hpulse

/-- A calibration that has ended: its outcome, the transactions, pulses and samples of its points, only `TXOFS` and the sampler's
flag touched. -/
structure Calibrated (s t : State) (pts : List (Offset × Offset)) (u : Toc) (exit : CalExit) (vs : List Nat) : Prop where
  state : t = { s with
    seq := .idle
    ret := some (.ok (.cal (u.calA.getD 0) (u.calB.getD 0) (u.calBest.getD 0) exit))
    toc := Toc.unwritten
    world := t.world }
  ports : Ports s.world t.world
    (pts.flatMap (fun p => ofsQs s.cfg (ofsByte s.cfg p))
      ++ ofsQs s.cfg (txofsByte s.cfg.userMap (u.calA.getD 0) (u.calB.getD 0))) pts.length vs
  ofs : t.world.peek .us 7 = txofsByte s.cfg.userMap (u.calA.getD 0) (u.calB.getD 0)
  bytes : ∀ spc a, (spc, a) ∉ [(Space.us, 7)] → t.world.peek spc a = s.world.peek spc a
  sdr : ∀ a, a ∉ ([] : List Nat) → t.world.peekSdr a = s.world.peekSdr a
  flags : if pts = [] then t.world.ev = s.world.ev else t.world.ev = s.world.ev.put .sampleReady false

theorem memoryOk_of_spaces {c : Cfg} {w w' : World} (h : w'.spaces = w.spaces) (hm : w.memoryOk c = true) :
    w'.memoryOk c = true := by
  simpa only [World.memoryOk, h] using hm

/-- The environment's turns before the next answer do nothing. -/
theorem calm_answers {c : Cfg} {w : World} {samples : List Nat} (h : w.script = samples.flatMap (measureTurns c)) :
    Calm (3 + readCost c) w := by
  cases samples with
  | nil => exact calm_of_quiet h _
  | cons v vs =>
    rw [List.flatMap_cons, measureTurns, List.append_assoc] at h
    exact calm_append h

theorem one_le_calRank (c : Cfg) (t : Toc) (k : CalAt) (a b : Offset) : 1 ≤ calRank c t (.point k a b) := by
  cases k <;> exact Nat.succ_le_succ (Nat.zero_le _)

/-- The end of a calibration in a calm environment: the reported pair programmed. -/
theorem calFinish_calm (exit : CalExit) {s : State} (hc : Calm (1 + readCost s.cfg) s.world) (huser : 8 ≤ s.cfg.userSize)
    (hmem : memoryOk s = true) : Calibrated s (calFinish exit s) [] s.toc exit [] := by
  obtain ⟨hok, hcalm, hsp⟩ :=
    writeOfs_calm (txofsByte s.cfg.userMap (s.toc.calA.getD 0) (s.toc.calB.getD 0)) hc huser (spaces_wf hmem .us)
  have hfin : calFinish exit s = { s with
      world := (writeV s.cfg .us txofsAddr (txofsByte s.cfg.userMap (s.toc.calA.getD 0) (s.toc.calB.getD 0)) 0xFF s.world).2
      toc := Toc.unwritten }.finish (.cal (s.toc.calA.getD 0) (s.toc.calB.getD 0) (s.toc.calBest.getD 0) exit) := by
    simp only [calFinish]
    split
    case h_1 h => rw [h] at hok; cases hok
    case h_2 => rfl
  rw [hfin]
  obtain ⟨hofs, hbytes, hsdr⟩ := peek_of_poke (spaces_wf hmem .us) hsp
  exact ⟨rfl, hcalm.ports, hofs, hbytes, hsdr, hcalm.ev⟩

/-- One more answer before the rest of a calibration. -/
theorem Calibrated.after {s s' t : State} {pts : List (Offset × Offset)} {u : Toc} {exit : CalExit} {vs : List Nat}
    {k : CalAt} {a b : Offset} {v : Nat} {rest : List (List EnvStep)} (h : Calibrated s' t pts u exit vs)
    (hs' : s' = { s with world := s'.world, toc := (calNext s.cfg k v s.toc).1 })
    (hsampled : Sampled s.cfg (ofsByte s.cfg (a, b)) v rest s.world s'.world) (hmem : memoryOk s = true) :
    Calibrated s t ((a, b) :: pts) u exit (v :: vs) := by
  have hcfg : s'.cfg = s.cfg := (congrArg State.cfg hs' :)
  obtain ⟨hstate, hports, hofs, hbytes, hsdr, hflags⟩ := h
  rw [hcfg] at hports hofs
  obtain ⟨-, hbytes', hsdr'⟩ := peek_of_poke (spaces_wf hmem .us) hsampled.spaces
  refine ⟨?_, ?_, hofs, fun spc x hx => (hbytes spc x hx).trans (hbytes' spc x hx),
    fun x hx => (hsdr x hx).trans (hsdr' x hx), ?_⟩
  · rw [hs'] at hstate
    exact hstate
  · have hall := hsampled.ports.trans hports
    rwa [Nat.add_comm, ← List.append_assoc] at hall
  · rw [if_neg (List.cons_ne_nil _ _)]
    split at hflags
    · rw [hflags, hsampled.ev]
    · rw [hflags, hsampled.ev, EventFlags.put_put]

/-- A calibration with as many answers ready as it can ask for ends. -/
theorem askRun_answered (ask : CalAsk) (s : State) (samples : List Nat) (huser : 8 ≤ s.cfg.userSize)
    (hmem : memoryOk s = true) (hrank : calRank s.cfg s.toc ask ≤ samples.length)
    (hscript : s.world.script = samples.flatMap (measureTurns s.cfg)) :
    ∃ n pts u exit, calThrough s.cfg ask s.toc ((samples.take n).map (· % 2 ^ s.cfg.sampleBits)) = some (pts, u, .done exit)
      ∧ pts.length = n ∧ Calibrated s (askRun ask s) pts u exit ((samples.take n).map (· % 2 ^ s.cfg.sampleBits)) := by
  have hnext : ∀ {s : State} {samples : List Nat} {m : Meas} {w : World} (k : CalAt) (a b : Offset),
      8 ≤ s.cfg.userSize → memoryOk s = true → calRank s.cfg s.toc (.point k a b) ≤ samples.length →
      s.world.script = samples.flatMap (measureTurns s.cfg) → measure s.cfg a b s.world = (m, w) →
      ∃ v vs, samples = v :: vs ∧ m = .sample (v % 2 ^ s.cfg.sampleBits)
        ∧ Sampled s.cfg (ofsByte s.cfg (a, b)) (v % 2 ^ s.cfg.sampleBits) (vs.flatMap (measureTurns s.cfg)) s.world w := by
    intro s samples m w k a b huser hmem hrank hscript hm
    obtain ⟨v, vs, rfl⟩ : ∃ v vs, samples = v :: vs :=
      List.exists_cons_of_length_pos (Nat.le_trans (one_le_calRank s.cfg s.toc k a b) hrank)
    obtain ⟨w', hw', hsampled⟩ := measure_answers a b hscript huser (spaces_wf hmem .us)
    cases hm.symm.trans hw'
    exact ⟨v, vs, rfl, rfl, hsampled⟩
  refine askRun_induct (P := fun ask s t => ∀ samples : List Nat, 8 ≤ s.cfg.userSize → memoryOk s = true →
    calRank s.cfg s.toc ask ≤ samples.length → s.world.script = samples.flatMap (measureTurns s.cfg) →
    ∃ n pts u exit, calThrough s.cfg ask s.toc ((samples.take n).map (· % 2 ^ s.cfg.sampleBits)) = some (pts, u, .done exit)
      ∧ pts.length = n ∧ Calibrated s t pts u exit ((samples.take n).map (· % 2 ^ s.cfg.sampleBits)))
    ?_ ?_ ?_ ?_ ask s samples huser hmem hrank hscript
  · intro exit s samples huser hmem _ hscript
    exact ⟨0, [], s.toc, exit, rfl, rfl, calFinish_calm exit ((calm_answers hscript).mono (by omega)) huser hmem⟩
  · intro k a b s f w hm samples huser hmem hrank hscript
    obtain ⟨v, vs, -, h, -⟩ := hnext k a b huser hmem hrank hscript hm
    cases h
  · intro k a b s w hm samples huser hmem hrank hscript
    obtain ⟨v, vs, -, h, -⟩ := hnext k a b huser hmem hrank hscript hm
    cases h
  · intro k a b s v w t hm ih samples huser hmem hrank hscript
    obtain ⟨v0, vs, rfl, h, hsampled⟩ := hnext k a b huser hmem hrank hscript hm
    cases h
    have hmem' : w.memoryOk s.cfg = true := memoryOk_of_spaces hsampled.spaces
      (World.memoryOk_poke (a := 7) (spc := .us) _ hmem (Nat.lt_of_lt_of_le (by decide) huser))
    have hrank' : calRank s.cfg (calNext s.cfg k (v0 % 2 ^ s.cfg.sampleBits) s.toc).1
        (calNext s.cfg k (v0 % 2 ^ s.cfg.sampleBits) s.toc).2 ≤ vs.length :=
      Nat.le_of_succ_le_succ (Nat.le_trans (calRank_calNext s.cfg s.toc k a b _) hrank)
    obtain ⟨n, pts, u, exit, hthrough, hlen, hcal⟩ := ih vs huser hmem' hrank' hsampled.script
    refine ⟨n + 1, (a, b) :: pts, u, exit, ?_, by simp [hlen], ?_⟩
    · rw [List.take_succ_cons, List.map_cons, calThrough]
      exact congrArg (Option.map _) hthrough
    · rw [List.take_succ_cons, List.map_cons]
      exact hcal.after rfl hsampled hmem

theorem Calibrated.length_sent {s t : State} {pts : List (Offset × Offset)} {u : Toc} {exit : CalExit} {vs : List Nat}
    (h : Calibrated s t pts u exit vs) :
    ∃ new, Added s t new ∧ samplesOf new = vs ∧ pulsesOf new = pts.length
      ∧ sentOf new = pts.flatMap (fun p => ofsQs s.cfg (ofsByte s.cfg p))
        ++ ofsQs s.cfg (txofsByte s.cfg.userMap (u.calA.getD 0) (u.calB.getD 0)) := by
  obtain ⟨new, htrace, hsent, hpulse, hsamples⟩ := h.ports
  exact ⟨new, htrace, hsamples, hpulse, hsent⟩

theorem sweep_eq_finRange :
    sweep = (List.finRange 256).map fun k => (BitVec.ofNat 4 (k.val / 16), BitVec.ofNat 4 (k.val % 16)) := by
  rw [sweep, ← List.map_coe_finRange_eq_range, List.map_map]
  rfl

/-- Settles O46: with 256 answers ready the sweep ends, its points the pairs in order. -/
theorem bruteCompletes : Obligations.BruteCompletes := by
  intro s samples hready huser hmem hlen hscript
  obtain ⟨n, pts, u, exit, hthrough, hn, hcal⟩ := askRun_answered (.point (.brute 0 0) 0 0) { s with toc := Toc.unwritten }
    samples huser hmem (by rw [calRank_brute, hlen]) hscript
  obtain ⟨hpts, hle, -, hask⟩ := calThrough_brute (k := 0) hthrough
  simp only [List.length_map, List.length_take, List.drop_zero, length_sweep] at hpts hle hask
  have hend : 256 ≤ min n samples.length ∧ exit = .swept := by
    cases hd : sweep.drop (min n samples.length) with
    | nil =>
      rw [hd] at hask
      cases hask
      exact ⟨by simpa using List.drop_eq_nil_iff.mp hd, rfl⟩
    | cons p rest => rw [hd] at hask; cases hask
  obtain ⟨hfull, rfl⟩ := hend
  obtain rfl : pts = sweep := by rw [hpts, List.take_of_length_le (by simpa using hfull)]
  obtain rfl : n = 256 := by rw [← hn, length_sweep]
  obtain ⟨new, hadd, hsamples, hpulses, hsent⟩ := hcal.length_sent
  have hexec : exec .calBrute s = .next (askRun (.point (.brute 0 0) 0 0) { s with toc := Toc.unwritten }) := by
    rw [← opCalBrute_eq]
    exact State.command_of_ready hready opCalBrute
  have hstate := hcal.state
  have htoc : (askRun (.point (.brute 0 0) 0 0) { s with toc := Toc.unwritten }).toc = Toc.unwritten :=
    (congrArg State.toc hstate :)
  refine ⟨_, new, u.calA.getD 0, u.calB.getD 0, u.calBest.getD 0, hexec, ?_, htoc, hadd, by rw [hpulses, length_sweep], ?_,
    ?_, hcal.ofs, hcal.bytes, hcal.sdr, hcal.flags⟩
  · rw [htoc]
    exact hstate.trans (by rw [show s.seq = .idle from hready])
  · rw [hsent, sweep_eq_finRange, List.flatMap_map]
    rfl
  · rw [hsamples, List.take_of_length_le (by rw [hlen])]

/-- Settles O48: with the largest number of measurements ready the descent ends, and its end fits the search. -/
theorem gradientCompletes : Obligations.GradientCompletes := by
  intro s samples hready huser hmem hlen hscript
  obtain ⟨n, pts, u, exit, hthrough, hn, hcal⟩ := askRun_answered (.point (.grad .start) s.cfg.calStart.1 s.cfg.calStart.2)
    { s with toc := s.toc.startAt s.cfg.calStart } samples huser hmem (by rw [Nat.add_comm] at hlen; exact hlen) hscript
  obtain ⟨ask, hsearched, hask⟩ := gradRun hthrough
  obtain rfl : ask = .done exit := by
    cases ask with
    | done e => cases hask; rfl
    | point => cases hask
  have hfollows := follows_searched hsearched (.start (h := []) _ _ rfl rfl rfl)
  obtain ⟨new, hadd, hsamples, hpulses, hsent⟩ := hcal.length_sent
  have hexec : exec .calGrad s = .next (askRun (.point (.grad .start) s.cfg.calStart.1 s.cfg.calStart.2)
      { s with toc := s.toc.startAt s.cfg.calStart }) := State.command_of_ready hready opCalGrad
  have hstate := hcal.state
  have htoc := (congrArg State.toc hstate :)
  have hflags := hcal.flags
  cases hfollows with
  | done _ a b best hexit ha hb hbest hmem' hfirst hmin =>
    rw [List.nil_append] at hmem' hfirst
    obtain ⟨p, pts, rfl⟩ : ∃ p rest, pts = p :: rest := by
      cases pts with
      | nil => cases hmem'
      | cons p rest => exact ⟨p, rest, rfl⟩
    rw [if_neg (List.cons_ne_nil _ _)] at hflags
    refine ⟨_, new, u.calA.getD 0, u.calB.getD 0, u.calBest.getD 0, exit, hexec, ?_, htoc, hexit, hadd,
      ⟨n, hsamples, hpulses.trans hn, ?_⟩, ?_, hcal.ofs, hcal.bytes, hcal.sdr, hflags⟩
    · rw [htoc]
      exact hstate.trans (by rw [show s.seq = .idle from hready])
    · rw [hsent, ← hn]
      simp only [List.length_append, List.length_flatMap, length_ofsQs, List.map_const', List.sum_replicate, smul_eq_mul,
        Nat.succ_mul]
    · intro v hv
      rw [hsamples] at hv
      obtain ⟨vs, hvs⟩ := List.head?_eq_some_iff.mp hv
      rw [hbest]
      exact hfirst (p, v) (by rw [hvs]; rfl)

end Sys2Proof.Machine
end

section
/-! The bridge with the default user map in an environment that does nothing but finish a transfer: the transfer in flight,
its end, the polls between them. The statements about `BRD`, `BWR` and the retunes follow (20_memory.md R67,
40_rtx_transactions.md R129 to R131). -/

namespace Sys2Proof.Machine

-- ---------------------------------------------------------------- the bytes of the default map

/-- What a bridge operation writes to `BR_ADDR`. -/
def addrSent (wnr : Bool) (sa : Byte) : Byte := if wnr then sa ||| 0x80 else sa

theorem brAddrByte_default (wnr : Bool) {sa : Byte} (h : sa.toNat ≤ 127) :
    brAddrByte UserMap.default wnr sa = addrSent wnr sa := by
  have hsa : (sa.setWidth 7).setWidth 8 = sa := BitVec.eq_of_toNat_eq (by simp; omega)
  have hshift : sa <<< UserMap.default.brA = sa := BitVec.shiftLeft_zero sa
  rw [brAddrByte, hsa, hshift]
  cases wnr with
  | false => exact BitVec.or_zero
  | true => rfl

theorem brAOf_addrSent (wnr : Bool) (sa : Byte) : brAOf UserMap.default (addrSent wnr sa) = sa.setWidth 7 := by
  have hlow : brAOf UserMap.default (addrSent wnr sa) = (addrSent wnr sa).setWidth 7 :=
    (BitVec.setWidth_eq_extractLsb' (by decide)).symm
  rw [hlow]
  cases wnr with
  | false => rfl
  | true => exact (BitVec.setWidth_or ..).trans BitVec.or_zero

theorem brWnrOf_addrSent (wnr : Bool) {sa : Byte} (h : sa.toNat ≤ 127) :
    brWnrOf UserMap.default (addrSent wnr sa) = wnr := by
  have hbit : sa.getLsbD 7 = false := Nat.testBit_lt_two_pow (Nat.lt_succ_of_le h)
  cases wnr with
  | false => exact hbit
  | true => simp [brWnrOf_default, addrSent]

-- ---------------------------------------------------------------- a transfer, from before the operation to its end

/-- The bridge registers are set for a transfer: `w` before the operation, `w'` with `BR_ADDR` and `BR_WDATA` written. -/
structure Prepared (c : Cfg) (wnr : Bool) (sa v : Byte) (w w' : World) : Prop where
  addr : w'.peek .us 2 = addrSent wnr sa
  data : w'.peek .us 3 = if wnr then v else w.peek .us 3
  bytes : ∀ spc a, (spc, a) ∉ [(Space.us, 2), (Space.us, 3)] → w'.peek spc a = w.peek spc a
  sdr : ∀ a, w'.peekSdr a = w.peekSdr a
  memory : w'.memoryOk c = true

/-- The transfer of the operation is in flight. -/
structure InFlight (c : Cfg) (wnr : Bool) (sa v : Byte) (w w' : World) : Prop where
  flight : w'.periph.flight = some ⟨wnr, sa.setWidth 7, if wnr then v else w.peek .us 3⟩
  ctrl : w'.peek .us 5 = 0
  addr : w'.peek .us 2 = addrSent wnr sa
  data : w'.peek .us 3 = if wnr then v else w.peek .us 3
  bytes : ∀ spc a, (spc, a) ∉ [(Space.us, 2), (Space.us, 3), (Space.us, 5)] → w'.peek spc a = w.peek spc a
  sdr : ∀ a, w'.peekSdr a = w.peekSdr a
  memory : w'.memoryOk c = true

/-- The transfer of the operation has finished: its byte is moved. -/
structure Transferred (c : Cfg) (wnr : Bool) (sa v : Byte) (w w' : World) : Prop where
  flight : w'.periph.flight = none
  ctrl : w'.peek .us 5 = 0x02
  addr : w'.peek .us 2 = addrSent wnr sa
  data : w'.peek .us 3 = if wnr then v else w.peek .us 3
  rdata : w'.peek .us 4 = if wnr then w.peek .us 4 else w.peekSdr sa.toNat
  bytes : ∀ spc a, (spc, a) ∉ [(Space.us, 2), (Space.us, 3), (Space.us, 4), (Space.us, 5)] → w'.peek spc a = w.peek spc a
  sdrAt : w'.peekSdr sa.toNat = if wnr then v else w.peekSdr sa.toNat
  sdr : ∀ a, a ≠ sa.toNat → w'.peekSdr a = w.peekSdr a
  memory : w'.memoryOk c = true

section
variable {c : Cfg} {wnr : Bool} {sa v : Byte} {w w' w2 : World}

theorem InFlight.congr (h : InFlight c wnr sa v w w') (hsp : w2.spaces = w'.spaces) (hpe : w2.periph = w'.periph) :
    InFlight c wnr sa v w w2 where
  flight := by rw [hpe, h.flight]
  ctrl := by rw [World.peek_of_spaces_eq hsp, h.ctrl]
  addr := by rw [World.peek_of_spaces_eq hsp, h.addr]
  data := by rw [World.peek_of_spaces_eq hsp, h.data]
  bytes spc a ha := by rw [World.peek_of_spaces_eq hsp, h.bytes spc a ha]
  sdr a := by rw [World.peekSdr_of_spaces_eq hsp, h.sdr a]
  memory := memoryOk_of_spaces hsp h.memory

theorem Transferred.congr (h : Transferred c wnr sa v w w') (hsp : w2.spaces = w'.spaces) (hpe : w2.periph = w'.periph) :
    Transferred c wnr sa v w w2 where
  flight := by rw [hpe, h.flight]
  ctrl := by rw [World.peek_of_spaces_eq hsp, h.ctrl]
  addr := by rw [World.peek_of_spaces_eq hsp, h.addr]
  data := by rw [World.peek_of_spaces_eq hsp, h.data]
  rdata := by rw [World.peek_of_spaces_eq hsp, h.rdata]
  bytes spc a ha := by rw [World.peek_of_spaces_eq hsp, h.bytes spc a ha]
  sdrAt := by rw [World.peekSdr_of_spaces_eq hsp, h.sdrAt]
  sdr a ha := by rw [World.peekSdr_of_spaces_eq hsp, h.sdr a ha]
  memory := memoryOk_of_spaces hsp h.memory

/-- A transfer to the SDR chip leaves `BR_RDATA`. -/
theorem Transferred.bytes_of_write (h : Transferred c true sa v w w') (spc : Space) (a : Nat)
    (ha : (spc, a) ∉ [(Space.us, 2), (Space.us, 3), (Space.us, 5)]) : w'.peek spc a = w.peek spc a := by
  by_cases h4 : (spc, a) = (Space.us, 4)
  · obtain ⟨rfl, rfl⟩ := Prod.mk.inj h4
    exact h.rdata
  · simp only [List.mem_cons, List.not_mem_nil, or_false, not_or] at ha
    exact h.bytes spc a (by simp [ha, h4])

/-- A transfer from the SDR chip leaves `BR_WDATA`. -/
theorem Transferred.bytes_of_read (h : Transferred c false sa v w w') (spc : Space) (a : Nat)
    (ha : (spc, a) ∉ [(Space.us, 2), (Space.us, 4), (Space.us, 5)]) : w'.peek spc a = w.peek spc a := by
  by_cases h3 : (spc, a) = (Space.us, 3)
  · obtain ⟨rfl, rfl⟩ := Prod.mk.inj h3
    exact h.data
  · simp only [List.mem_cons, List.not_mem_nil, or_false, not_or] at ha
    exact h.bytes spc a (by simp [ha, h3])

theorem Transferred.sdr_of_read (h : Transferred c false sa v w w') (a : Nat) : w'.peekSdr a = w.peekSdr a := by
  by_cases ha : a = sa.toNat
  · exact ha ▸ h.sdrAt
  · exact h.sdr a ha

theorem InFlight.bytes_of_read (h : InFlight c false sa v w w') (spc : Space) (a : Nat)
    (ha : (spc, a) ∉ [(Space.us, 2), (Space.us, 5)]) : w'.peek spc a = w.peek spc a := by
  by_cases h3 : (spc, a) = (Space.us, 3)
  · obtain ⟨rfl, rfl⟩ := Prod.mk.inj h3
    exact h.data
  · simp only [List.mem_cons, List.not_mem_nil, or_false, not_or] at ha
    exact h.bytes spc a (by simp [ha, h3])

variable (hm : c.userMap = UserMap.default) (husize : 8 ≤ c.userSize) (hsa : sa.toNat ≤ 127)
include hm husize hsa

/-- The start of the transfer. -/
theorem Prepared.begin (h : Prepared c wnr sa v w w') : InFlight c wnr sa v w (bridgeBegin c w') := by
  have hwf : (w'.spaces.get .us).wf = true := (((World.memoryOk_iff _ _).mp h.memory).1 .us).1
  have hkeep : ∀ spc a, (spc, a) ≠ (Space.us, 5) → (bridgeBegin c w').peek spc a = w'.peek spc a :=
    fun spc a ha => World.peek_poke_other _ _ ha
  constructor
  case flight => simp only [bridgeBegin, h.addr, h.data, hm, brAOf_addrSent, brWnrOf_addrSent wnr hsa]
  case ctrl => exact World.peek_poke_same _ _ _ _ hwf
  case addr => rw [hkeep _ _ (by decide), h.addr]
  case data => rw [hkeep _ _ (by decide), h.data]
  case bytes =>
    intro spc a ha
    simp only [List.mem_cons, List.not_mem_nil, or_false, not_or] at ha
    rw [hkeep spc a ha.2.2, h.bytes spc a (by simp [ha.1, ha.2.1])]
  case sdr => exact fun a => (World.peekSdr_poke _ _ _ _ _).trans (h.sdr a)
  case memory => exact memoryOk_bridgeBegin husize h.memory

/-- The end of the transfer. -/
theorem InFlight.finish (h : InFlight c wnr sa v w w') : Transferred c wnr sa v w (bridgeEnd c w') := by
  obtain ⟨hspaces, hsdr, -⟩ := (World.memoryOk_iff _ _).mp h.memory
  have hwf := (hspaces .us).1
  have hsp := bridgeEnd_spaces c h.flight
  have hat : (sa.setWidth 7).toNat = sa.toNat := by simp; omega
  have hdone : brDoneByte c.userMap = 0x02 := by rw [hm]; rfl
  have hmem := memoryOk_bridgeEnd husize h.memory
  have hflight : (bridgeEnd c w').periph.flight = none := by simp
  simp only [hat, hdone] at hsp
  cases wnr with
  | true =>
    obtain ⟨h5, hto, hbytes, hsdrs⟩ := peek_of_toSdr hwf hsdr hsp
    refine ⟨hflight, h5, ?_, ?_, ?_, fun spc a ha => ?_, hto, fun a ha => ?_, hmem⟩
    · rw [hbytes _ _ (by decide), h.addr]
    · rw [hbytes _ _ (by decide), h.data]
    · rw [hbytes _ _ (by decide), h.bytes _ _ (by decide)]; rfl
    · simp only [List.mem_cons, List.not_mem_nil, or_false, not_or] at ha
      rw [hbytes spc a (by simp [ha]), h.bytes spc a (by simp [ha])]
    · rw [hsdrs a (by simpa using ha), h.sdr]
  | false =>
    obtain ⟨h5, hfrom, hbytes, hsdrs⟩ := peek_of_fromSdr hwf hsp
    refine ⟨hflight, h5, ?_, ?_, ?_, fun spc a ha => ?_, ?_, fun a _ => ?_, hmem⟩
    · rw [hbytes _ _ (by decide), h.addr]
    · rw [hbytes _ _ (by decide), h.data]
    · rw [hfrom, h.sdr]; rfl
    · simp only [List.mem_cons, List.not_mem_nil, or_false, not_or] at ha
      rw [hbytes spc a (by simp [ha]), h.bytes spc a (by simp [ha])]
    · rw [hsdrs _ List.not_mem_nil, h.sdr]; rfl
    · rw [hsdrs _ List.not_mem_nil, h.sdr]

end

-- ---------------------------------------------------------------- up to the start

/-- `BR_START` on a bridge that is not slow: the transfer begins and ends. -/
theorem peripheralWrite_start_quick {c : Cfg} {v : Byte} {w : World} (hslow : ¬ w.periph.slow = true)
    (hstart : brStartOf c.userMap v = true) :
    peripheralWrite c ⟨.us, true, brCtrlAddr⟩ v w = bridgeEnd c (bridgeBegin c w) := by
  simp [peripheralWrite, hstart, hslow]

/-- The transactions of a bridge operation up to the start of its transfer. -/
def bridgeHead (c : Cfg) (wnr : Bool) (sa v : Byte) : List Quad :=
  wrQ .us 2 (addrSent wnr sa) :: rdQs c .us 2 ++ (if wnr then wrQ .us 3 v :: rdQs c .us 3 else []) ++ [wrQ .us 5 0x01]

/-- The turns of the environment up to the start of the transfer. -/
def headTurns (c : Cfg) (wnr : Bool) : Nat := (if wnr then 2 else 1) * (1 + readCost c) + 1

/-- A bridge operation from the start of its transfer on. -/
def bridgePolled (c : Cfg) (wnr : Bool) (w : World) : Except FaultCode Byte × World :=
  let p := pollLoop c c.bridgePollMax w
  if p.1 then
    if wnr then (.ok 0, p.2) else (.ok (readByte c .us brRdataAddr p.2).1, (readByte c .us brRdataAddr p.2).2)
  else (.error .bridgeTimeout, p.2)

/-- Behind the start there are the polls, and for a read the byte of `BR_RDATA`. -/
theorem bridge_of_started {c : Cfg} {wnr : Bool} {sa v : Byte} {w w1 w2 : World}
    (haddr : writeV c .us brAddrAddr (brAddrByte c.userMap wnr sa) 0xFF w = (none, w1))
    (hdata : (if wnr then writeV c .us brWdataAddr v 0xFF w1 else (none, w1)) = (none, w2)) :
    bridge c wnr sa v w = bridgePolled c wnr (writeByte c .us brCtrlAddr (brStartByte c.userMap) w2) := by
  simp only [bridge, haddr, hdata, bridgePolled]
  rcases pollLoop c c.bridgePollMax (writeByte c .us brCtrlAddr (brStartByte c.userMap) w2) with ⟨_ | _, w3⟩ <;> rfl

section
variable {c : Cfg} {wnr : Bool} {sa v : Byte} {w : World}
variable (hm : c.userMap = UserMap.default) (husize : 8 ≤ c.userSize) (hsa : sa.toNat ≤ 127) (hmem : w.memoryOk c = true)
include hm husize hsa hmem

/-- In a calm environment the bridge registers are written at the first attempts. -/
theorem bridge_prepared (hc : Calm (headTurns c wnr) w) :
    ∃ w1, bridge c wnr sa v w = bridgePolled c wnr (writeByte c .us 5 0x01 w1) ∧ Prepared c wnr sa v w w1
      ∧ Calmly ((if wnr then 2 else 1) * (1 + readCost c))
        (wrQ .us 2 (addrSent wnr sa) :: rdQs c .us 2 ++ if wnr then wrQ .us 3 v :: rdQs c .us 3 else []) w w1
      ∧ w1.periph = w.periph := by
  have hstart : brStartByte c.userMap = 0x01 := by rw [hm]; rfl
  have haddr : brAddrByte c.userMap wnr sa = addrSent wnr sa := by rw [hm, brAddrByte_default wnr hsa]
  have hwf := (((World.memoryOk_iff _ _).mp hmem).1 .us).1
  have hsize : ∀ {a : Nat}, a < 8 → a < c.size .us := fun h => Nat.lt_of_lt_of_le h husize
  have hplain : ∀ {addr : Addr} (x : Byte), addr ≠ 0 ∧ addr ≠ 1 ∧ addr ≠ 4 ∧ addr ≠ 5 → ReadsBack c .us addr x :=
    fun x h => readsBack_plain c x fun _ => h
  have hle : 1 + readCost c ≤ headTurns c wnr := by
    unfold headTurns
    cases wnr with
    | false => simp
    | true => simp; omega
  obtain ⟨hok1, hcalm1, hsp1, hpe1⟩ := writeV_calm (v := addrSent wnr sa) 0xFF (hc.mono hle)
    (addrOk_user (addr := 2) husize (by decide)) (hplain _ (by decide)) hwf
  have hmem1 : (writeV c .us 2 (addrSent wnr sa) 0xFF w).2.memoryOk c = true :=
    memoryOk_of_spaces hsp1 (World.memoryOk_poke _ hmem (hsize (by decide)))
  obtain ⟨h2, hbytes1, hsdr1⟩ := peek_of_poke hwf hsp1
  cases hdir : wnr with
  | false =>
    subst hdir
    refine ⟨_, ?_, ⟨h2, hbytes1 _ _ (by decide), fun spc a ha => hbytes1 spc a ?_, fun a => hsdr1 a List.not_mem_nil, hmem1⟩,
      by simpa using hcalm1, hpe1⟩
    · rw [← hstart]
      exact bridge_of_started (Prod.ext_iff.mpr ⟨haddr ▸ hok1, haddr ▸ rfl⟩) rfl
    · simp only [List.mem_cons, List.not_mem_nil, or_false, not_or] at ha ⊢
      exact ha.1
  | true =>
    subst hdir
    have hc1 : Calm (1 + readCost c) (writeV c .us 2 (addrSent true sa) 0xFF w).2 :=
      (hcalm1.calm (hc.mono (by simp only [headTurns, if_true]; omega)))
    obtain ⟨hok2, hcalm2, hsp2, hpe2⟩ := writeV_calm (v := v) 0xFF hc1
      (addrOk_user (addr := 3) husize (by decide)) (hplain _ (by decide)) (((World.memoryOk_iff _ _).mp hmem1).1 .us).1
    obtain ⟨h3, hbytes2, hsdr2⟩ := peek_of_poke (((World.memoryOk_iff _ _).mp hmem1).1 .us).1 hsp2
    refine ⟨_, ?_, ⟨(hbytes2 _ _ (by decide)).trans h2, h3, fun spc a ha => ?_,
      fun a => (hsdr2 a List.not_mem_nil).trans (hsdr1 a List.not_mem_nil),
      memoryOk_of_spaces hsp2 (World.memoryOk_poke _ hmem1 (hsize (by decide)))⟩, ?_, hpe2.trans hpe1⟩
    · rw [← hstart]
      exact bridge_of_started (Prod.ext_iff.mpr ⟨haddr ▸ hok1, haddr ▸ rfl⟩) (Prod.ext_iff.mpr ⟨hok2, rfl⟩)
    · simp only [List.mem_cons, List.not_mem_nil, or_false, not_or] at ha
      rw [hbytes2 spc a (by simpa using ha.2), hbytes1 spc a (by simpa using ha.1)]
    · simpa [Nat.two_mul] using hcalm1.trans hcalm2

/-- Up to its start: the transfer is then in flight, or has finished already, as the bridge is slow or not. -/
theorem bridge_started (hc : Calm (headTurns c wnr) w) :
    ∃ w2, bridge c wnr sa v w = bridgePolled c wnr w2 ∧ Calmly (headTurns c wnr) (bridgeHead c wnr sa v) w w2
      ∧ if w.periph.slow = true then InFlight c wnr sa v w w2 else Transferred c wnr sa v w w2 := by
  obtain ⟨w1, hbridge, hprep, hcalm, hpe⟩ := bridge_prepared (v := v) hm husize hsa hmem hc
  have hstart : brStartOf c.userMap 0x01 = true := by rw [hm]; rfl
  obtain ⟨hw, hwsp, hwpe⟩ := writeByte_calm 0x01 (hcalm.calm hc) (addrOk_user (addr := 5) husize (by decide))
  refine ⟨_, hbridge, hcalm.trans hw, ?_⟩
  split
  case isTrue hslow =>
    rw [peripheralWrite_start_slow (hpe ▸ hslow) hstart] at hwsp hwpe
    exact (hprep.begin hm husize hsa).congr hwsp hwpe
  case isFalse hslow =>
    rw [peripheralWrite_start_quick (hpe ▸ hslow) hstart] at hwsp hwpe
    exact ((hprep.begin hm husize hsa).finish hm husize hsa).congr hwsp hwpe

end

-- ---------------------------------------------------------------- the polls

/-- The transactions of `n` polls. -/
def pollQs (c : Cfg) (n : Nat) : List Quad := (List.replicate n (rdQs c .us 5)).flatten

theorem pollQs_succ (c : Cfg) (n : Nat) : pollQs c (n + 1) = rdQs c .us 5 ++ pollQs c n := by
  simp [pollQs, List.replicate_succ]

theorem Calmly.refl (w : World) : Calmly 0 [] w w := ⟨rfl, rfl, rfl, rfl, rfl, .refl w⟩

section
variable {c : Cfg} {wnr : Bool} {sa v : Byte} {w0 w : World}
variable (hm : c.userMap = UserMap.default) (husize : 8 ≤ c.userSize)
include hm husize

/-- The poll that finds the transfer finished. -/
theorem poll_transferred (h : Transferred c wnr sa v w0 w) (hc : Calm (readCost c) w) :
    brDoneOf c.userMap (readByte c .us 5 w).1 = true ∧ Calmly (readCost c) (rdQs c .us 5) w (readByte c .us 5 w).2
      ∧ Transferred c wnr sa v w0 (readByte c .us 5 w).2 := by
  obtain ⟨hb, hcalm, hsp, hpe⟩ := readByte_calm hc (addrOk_user (addr := 5) husize (by decide))
  refine ⟨?_, hcalm, h.congr hsp hpe⟩
  rw [hb, hm]
  exact congrArg (brDoneOf UserMap.default) h.ctrl

/-- A poll that finds it in flight. -/
theorem poll_inFlight (h : InFlight c wnr sa v w0 w) (hc : Calm (readCost c) w) :
    brDoneOf c.userMap (readByte c .us 5 w).1 = false ∧ Calmly (readCost c) (rdQs c .us 5) w (readByte c .us 5 w).2
      ∧ InFlight c wnr sa v w0 (readByte c .us 5 w).2 := by
  obtain ⟨hb, hcalm, hsp, hpe⟩ := readByte_calm hc (addrOk_user (addr := 5) husize (by decide))
  refine ⟨?_, hcalm, h.congr hsp hpe⟩
  rw [hb, hm]
  exact congrArg (brDoneOf UserMap.default) h.ctrl

/-- The poll before which the environment finishes the transfer. -/
theorem poll_finishing (hsa : sa.toNat ≤ 127) (h : InFlight c wnr sa v w0 w) (hscript : w.script = [[.bridgeDone]]) :
    brDoneOf c.userMap (readByte c .us 5 w).1 = true ∧ Calmly (readCost c) (rdQs c .us 5) w (readByte c .us 5 w).2
      ∧ Transferred c wnr sa v w0 (readByte c .us 5 w).2 := by
  have hturn : w.envTurn c = bridgeEnd c { w with script := [] } := by
    rw [World.envTurn_batch hscript]
    simp [EnvStep.act, husize]
  have hdone : Transferred c wnr sa v w0 { w.envTurn c with script := [] :: (w.envTurn c).script } := by
    rw [hturn]
    exact ((h.congr (w2 := { w with script := [] }) rfl rfl).finish hm husize hsa).congr rfl rfl
  rw [readByte_envTurn]
  obtain ⟨hbit, hcalm, hread⟩ := poll_transferred hm husize hdone (by
    intro b hb
    rw [hturn, bridgeEnd_script] at hb
    exact List.mem_singleton.mp (List.mem_of_mem_take hb))
  refine ⟨hbit, ⟨?_, ?_, ?_, ?_, ?_, ?_⟩, hread⟩
  · rw [hcalm.ev, hturn]; simp
  · rw [hcalm.script, hturn, hscript]
    obtain ⟨n, hn⟩ := Nat.exists_eq_add_of_le (one_le_readCost c)
    simp [hn, Nat.add_comm 1]
  · rw [hcalm.periph, hturn]; simp
  · rw [hcalm.adcTrigger, hturn]; simp
  · rw [hcalm.adcValue, hturn]; simp
  · exact hcalm.ports.of_trace_eq (by rw [hturn]; simp) rfl

/-- The polls, with an environment that finishes the transfer behind the first `k`. -/
theorem pollLoop_slow (hsa : sa.toNat ≤ 127) (m : Nat) : ∀ (k : Nat) (w : World), InFlight c wnr sa v w0 w →
    w.script = List.replicate (k * readCost c) [] ++ [[.bridgeDone]] →
    if k < m then
      (pollLoop c m w).1 = true ∧ Calmly ((k + 1) * readCost c) (pollQs c (k + 1)) w (pollLoop c m w).2
      ∧ Transferred c wnr sa v w0 (pollLoop c m w).2
    else
      (pollLoop c m w).1 = false ∧ Calmly (m * readCost c) (pollQs c m) w (pollLoop c m w).2
      ∧ InFlight c wnr sa v w0 (pollLoop c m w).2 := by
  induction m with
  | zero =>
    intro k w h _
    rw [if_neg (Nat.not_lt_zero k), Nat.zero_mul]
    exact ⟨rfl, .refl w, h⟩
  | succ m ih =>
    intro k w h hscript
    cases k with
    | zero =>
      rw [if_pos (Nat.succ_pos m), Nat.zero_add, Nat.one_mul, pollQs_succ]
      obtain ⟨hbit, hcalm, hdone⟩ := poll_finishing hm husize hsa h (by simpa using hscript)
      simp only [pollLoop, hbit, if_true]
      exact ⟨trivial, by simpa [pollQs] using hcalm, hdone⟩
    | succ k =>
      have hcalm0 : Calm (readCost c) w := by
        intro b hb
        rw [hscript, Nat.succ_mul, Nat.add_comm, List.replicate_add, List.append_assoc, List.take_left' (by simp)] at hb
        exact List.eq_of_mem_replicate hb
      obtain ⟨hbit, hcalm, hfl⟩ := poll_inFlight hm husize h hcalm0
      have hnext := ih k (readByte c .us 5 w).2 hfl (by
        rw [hcalm.script, hscript, Nat.succ_mul, Nat.add_comm, List.replicate_add, List.append_assoc,
          List.drop_left' (by simp)])
      simp only [pollLoop, hbit, Bool.false_eq_true, if_false, Nat.add_lt_add_iff_right]
      split at hnext
      case isTrue hk =>
        obtain ⟨hok, hpolls, hdone⟩ := hnext
        rw [if_pos hk, Nat.succ_mul, Nat.add_comm, pollQs_succ]
        exact ⟨hok, hcalm.trans hpolls, hdone⟩
      case isFalse hk =>
        obtain ⟨hok, hpolls, hdone⟩ := hnext
        rw [if_neg hk, Nat.succ_mul, Nat.add_comm, pollQs_succ]
        exact ⟨hok, hcalm.trans hpolls, hdone⟩

omit hm in
/-- Behind the last poll nothing is left to wait for. -/
theorem bridgePolled_done {w3 : World} (hpoll : pollLoop c c.bridgePollMax w = (true, w3))
    (h : Transferred c wnr sa v w0 w3) (hquiet : w3.script = []) :
    ∃ w4, bridgePolled c wnr w = (.ok (if wnr then 0 else w0.peekSdr sa.toNat), w4) ∧ Transferred c wnr sa v w0 w4
      ∧ Calmly (if wnr then 0 else readCost c) (if wnr then [] else rdQs c .us 4) w3 w4 := by
  cases wnr with
  | true => exact ⟨w3, by simp [bridgePolled, hpoll], h, .refl w3⟩
  | false =>
    obtain ⟨hb, hcalm, hsp, hpe⟩ := readByte_calm (calm_of_quiet hquiet _) (addrOk_user (addr := 4) husize (by decide))
    refine ⟨_, ?_, h.congr hsp hpe, hcalm⟩
    simp only [bridgePolled, hpoll, if_true, Bool.false_eq_true, if_false, hb]
    exact congrArg (fun b => (Except.ok b, _)) h.rdata

end

-- ---------------------------------------------------------------- whole operations

section
variable {c : Cfg} (wnr : Bool) {sa : Byte} (v : Byte) {w : World}
variable (hm : c.userMap = UserMap.default) (husize : 8 ≤ c.userSize) (hsa : sa.toNat ≤ 127) (hmem : w.memoryOk c = true)
include hm husize hsa hmem

/-- A bridge operation in a quiet environment with a bridge that finishes at once. -/
theorem bridge_quick (hslow : w.periph.slow = false) (hquiet : w.script = []) (hmax : 1 ≤ c.bridgePollMax) :
    ∃ w4, bridge c wnr sa v w = (.ok (if wnr then 0 else w.peekSdr sa.toNat), w4) ∧ Transferred c wnr sa v w w4
      ∧ ∃ n, Calmly n (bridgeHead c wnr sa v ++ rdQs c .us 5 ++ if wnr then [] else rdQs c .us 4) w w4 := by
  obtain ⟨w2, hbridge, hhead, hdone⟩ := bridge_started (v := v) hm husize hsa hmem (calm_of_quiet hquiet (headTurns c wnr))
  rw [hslow, if_neg (by decide)] at hdone
  have hquiet2 : w2.script = [] := by rw [hhead.script, hquiet, List.drop_nil]
  obtain ⟨hbit, hpoll, hread⟩ := poll_transferred hm husize hdone (calm_of_quiet hquiet2 _)
  obtain ⟨m, hm'⟩ := Nat.exists_eq_add_of_le hmax
  have hloop : pollLoop c c.bridgePollMax w2 = (true, (readByte c .us 5 w2).2) := by
    rw [hm', Nat.add_comm]
    simp only [pollLoop, hbit, if_true]
  obtain ⟨w4, hend, htrans, hlast⟩ := bridgePolled_done husize hloop hread
    (by rw [hpoll.script, hquiet2, List.drop_nil])
  exact ⟨w4, hbridge.trans hend, htrans, _, (hhead.trans hpoll).trans hlast⟩

/-- A bridge operation with a slow bridge whose transfer the environment finishes behind `k` polls. -/
theorem bridge_slow {k : Nat} (hslow : w.periph.slow = true)
    (hscript : w.script = bridgeTurns c (if wnr then 2 else 1) k) :
    if k < c.bridgePollMax then
      ∃ w4, bridge c wnr sa v w = (.ok (if wnr then 0 else w.peekSdr sa.toNat), w4) ∧ Transferred c wnr sa v w w4
        ∧ ∃ n, Calmly n (bridgeHead c wnr sa v ++ pollQs c (k + 1) ++ if wnr then [] else rdQs c .us 4) w w4
    else
      ∃ w4, bridge c wnr sa v w = (.error .bridgeTimeout, w4) ∧ InFlight c wnr sa v w w4
        ∧ ∃ n, Calmly n (bridgeHead c wnr sa v ++ pollQs c c.bridgePollMax) w w4 := by
  have hturns : w.script = List.replicate (headTurns c wnr) [] ++ (List.replicate (k * readCost c) [] ++ [[.bridgeDone]]) := by
    rw [hscript, bridgeTurns, List.replicate_add, List.append_assoc]
    rfl
  have hcalm : Calm (headTurns c wnr) w := by
    intro b hb
    rw [hturns, List.take_left' (by simp)] at hb
    exact List.eq_of_mem_replicate hb
  obtain ⟨w2, hbridge, hhead, hfl⟩ := bridge_started (v := v) hm husize hsa hmem hcalm
  rw [if_pos hslow] at hfl
  have hpolls := pollLoop_slow hm husize hsa c.bridgePollMax k w2 hfl
    (by rw [hhead.script, hturns, List.drop_left' (by simp)])
  split
  case isTrue hk =>
    rw [if_pos hk] at hpolls
    obtain ⟨hok, hpolled, hdone⟩ := hpolls
    have hquiet : (pollLoop c c.bridgePollMax w2).2.script = [] := by
      rw [hpolled.script, hhead.script, hturns, List.drop_left' (by simp)]
      obtain ⟨r, hr⟩ := Nat.exists_eq_add_of_le (one_le_readCost c)
      refine List.drop_eq_nil_of_le ?_
      simp only [List.length_append, List.length_replicate, List.length_singleton, Nat.succ_mul]
      omega
    obtain ⟨w4, hend, htrans, hlast⟩ := bridgePolled_done husize (Prod.ext_iff.mpr ⟨hok, rfl⟩) hdone hquiet
    exact ⟨w4, hbridge.trans hend, htrans, _, (hhead.trans hpolled).trans hlast⟩
  case isFalse hk =>
    rw [if_neg hk] at hpolls
    obtain ⟨hok, hpolled, hdone⟩ := hpolls
    refine ⟨_, hbridge.trans ?_, hdone, _, hhead.trans hpolled⟩
    simp only [bridgePolled, hok, Bool.false_eq_true, if_false]

end

-- ---------------------------------------------------------------- the operations

theorem opBridge_ok {wnr : Bool} {sa v b : Byte} {s : State} {w : World} (hsa : sa.toNat ≤ 127)
    (h : bridge s.cfg wnr sa v s.world = (.ok b, w)) :
    opBridge wnr sa v s = { s with world := w }.finish (if wnr then .unit else .byte b) := by
  simp only [opBridge, Nat.not_lt.mpr hsa, if_false, h]

theorem opBridge_error {wnr : Bool} {sa v : Byte} {f : FaultCode} {s : State} {w : World} (hsa : sa.toNat ≤ 127)
    (h : bridge s.cfg wnr sa v s.world = (.error f, w)) : opBridge wnr sa v s = { s with world := w }.raise f := by
  simp only [opBridge, Nat.not_lt.mpr hsa, if_false, h]

theorem onlyRetWorld_raise {s : State} (hready : Ready s) (w : World) (f : FaultCode) :
    OnlyRetWorld s ({ s with world := w }.raise f) :=
  onlyRetWorld_conclude hready w (some f) .unit

/-- Settles O25. -/
theorem quietBridgeRead : Obligations.QuietBridgeRead := by
  rintro sa s ⟨hready, hquiet, hslow, hmap, husize⟩ hmem hmax hsa
  obtain ⟨w, hbridge, htrans, n, hcalm⟩ := bridge_quick false 0 hmap husize hsa hmem hslow hquiet hmax
  obtain ⟨new, htrace, hsent, -⟩ := hcalm.ports
  have hexec : exec (.brd sa) s = .next ({ s with world := w }.finish (.byte (s.world.peekSdr sa.toNat))) := by
    rw [exec_brd, State.command_of_ready hready, opBridge_ok hsa hbridge]
    rfl
  refine ⟨_, new, hexec, onlyRetWorld_finish hready _ _, rfl, htrace, hsent.trans ?_, htrans.addr, htrans.rdata, htrans.ctrl,
    htrans.bytes_of_read, fun a _ => htrans.sdr_of_read a, hcalm.ev⟩
  simp [bridgeHead, addrSent]

theorem bwrSent_eq (c : Cfg) (sa v : Byte) : bwrSent c sa v = bridgeHead c true sa v ++ rdQs c .us 5 := by
  simp [bridgeHead, addrSent, bwrSent]

/-- Settles O26. -/
theorem quietBridgeWrite : Obligations.QuietBridgeWrite := by
  rintro sa v s ⟨hready, hquiet, hslow, hmap, husize⟩ hmem hmax hsa
  obtain ⟨w, hbridge, htrans, n, hcalm⟩ := bridge_quick true v hmap husize hsa hmem hslow hquiet hmax
  obtain ⟨new, htrace, hsent, -⟩ := hcalm.ports
  have hexec : exec (.bwr sa v) s = .next ({ s with world := w }.finish .unit) := by
    rw [exec_bwr, State.command_of_ready hready, opBridge_ok hsa hbridge]
    rfl
  refine ⟨_, new, hexec, onlyRetWorld_finish hready _ _, rfl, htrace, hsent.trans ?_, htrans.addr, htrans.data, htrans.ctrl,
    htrans.sdrAt, htrans.bytes_of_write, fun a ha => htrans.sdr a (by simpa using ha), hcalm.ev⟩
  simp [bwrSent_eq]

/-- Settles O35: a poll behind the end of the transfer finds it, the polls before do not. -/
theorem slowBridgeIsPolled : Obligations.SlowBridgeIsPolled := by
  rintro sa v k s ⟨hready, hslow, hmap, husize, hmem⟩ hsa
  refine ⟨fun hscript => ?brd, fun hscript => ?bwr⟩
  case brd =>
    have hrun := bridge_slow (k := k) false 0 hmap husize hsa hmem hslow hscript
    split at hrun
    case isTrue hk =>
      obtain ⟨w, hbridge, htrans, n, hcalm⟩ := hrun
      obtain ⟨new, htrace, hsent, -⟩ := hcalm.ports
      have hexec : exec (.brd sa) s = .next ({ s with world := w }.finish (.byte (s.world.peekSdr sa.toNat))) := by
        rw [exec_brd, State.command_of_ready hready, opBridge_ok hsa hbridge]
        rfl
      refine ⟨_, new, hexec, onlyRetWorld_finish hready _ _, htrace, fun a _ => htrans.sdr_of_read a, hcalm.ev, ?_⟩
      rw [if_pos hk]
      refine ⟨rfl, htrans.flight, hsent.trans ?_, htrans.bytes_of_read⟩
      simp [bridgeHead, addrSent, pollQs]
    case isFalse hk =>
      obtain ⟨w, hbridge, hfl, n, hcalm⟩ := hrun
      obtain ⟨new, htrace, hsent, -⟩ := hcalm.ports
      have hexec : exec (.brd sa) s = .next ({ s with world := w }.raise .bridgeTimeout) := by
        rw [exec_brd, State.command_of_ready hready, opBridge_error hsa hbridge]
      refine ⟨_, new, hexec, onlyRetWorld_raise hready _ _, htrace, fun a _ => hfl.sdr a, hcalm.ev, ?_⟩
      rw [if_neg hk]
      refine ⟨rfl, hfl.flight, hsent.trans ?_, hfl.bytes_of_read⟩
      simp [bridgeHead, addrSent, pollQs]
  case bwr =>
    have hrun := bridge_slow (k := k) true v hmap husize hsa hmem hslow hscript
    split at hrun
    case isTrue hk =>
      obtain ⟨w, hbridge, htrans, n, hcalm⟩ := hrun
      obtain ⟨new, htrace, hsent, -⟩ := hcalm.ports
      have hexec : exec (.bwr sa v) s = .next ({ s with world := w }.finish .unit) := by
        rw [exec_bwr, State.command_of_ready hready, opBridge_ok hsa hbridge]
        rfl
      refine ⟨_, new, hexec, onlyRetWorld_finish hready _ _, htrace, htrans.bytes_of_write, hcalm.ev, ?_⟩
      rw [if_pos hk]
      refine ⟨rfl, htrans.flight, htrans.sdrAt, fun a ha => htrans.sdr a (by simpa using ha), hsent.trans ?_⟩
      simp [bridgeHead, addrSent, pollQs]
    case isFalse hk =>
      obtain ⟨w, hbridge, hfl, n, hcalm⟩ := hrun
      obtain ⟨new, htrace, hsent, -⟩ := hcalm.ports
      have hexec : exec (.bwr sa v) s = .next ({ s with world := w }.raise .bridgeTimeout) := by
        rw [exec_bwr, State.command_of_ready hready, opBridge_error hsa hbridge]
      refine ⟨_, new, hexec, onlyRetWorld_raise hready _ _, htrace, hfl.bytes, hcalm.ev, ?_⟩
      rw [if_neg hk]
      refine ⟨rfl, hfl.flight, fun a _ => hfl.sdr a, hsent.trans ?_⟩
      simp [bridgeHead, addrSent, pollQs]

end Sys2Proof.Machine
end

section
/-! The retunes with a quiet peripheral: six bridge writes, one after another (43_fac_frequency.md R191). -/

namespace Sys2Proof.Machine

/-- SDR writes at different addresses, in a quiet environment with a bridge that finishes at once: each is stored. -/
theorem sdrWrites_quick {c : Cfg} (hm : c.userMap = UserMap.default) (husize : 8 ≤ c.userSize) (hmax : 1 ≤ c.bridgePollMax)
    (l : List (Byte × Byte)) : ∀ w : World, w.memoryOk c = true → w.periph.slow = false → w.script = [] →
      (∀ p ∈ l, p.1.toNat ≤ 127) → (l.map (·.1.toNat)).Nodup →
    ∃ w', sdrWrites c l w = (none, w') ∧ (∃ n, Calmly n (l.flatMap fun p => bwrSent c p.1 p.2) w w')
      ∧ (∀ p ∈ l, w'.peekSdr p.1.toNat = p.2)
      ∧ (∀ a, a ∉ l.map (·.1.toNat) → w'.peekSdr a = w.peekSdr a)
      ∧ ∀ spc a, (spc, a) ∉ [(Space.us, 2), (Space.us, 3), (Space.us, 5)] → w'.peek spc a = w.peek spc a := by
  induction l with
  | nil => exact fun w _ _ _ _ _ => ⟨w, rfl, ⟨0, .refl w⟩, nofun, fun _ _ => rfl, fun _ _ _ => rfl⟩
  | cons p rest ih =>
    obtain ⟨sa, v⟩ := p
    intro w hmem hslow hquiet hle hnd
    obtain ⟨hnew, hnd'⟩ := List.nodup_cons.mp hnd
    obtain ⟨w1, hbridge, htrans, n1, hcalm1⟩ :=
      bridge_quick true v hm husize (hle _ List.mem_cons_self) hmem hslow hquiet hmax
    obtain ⟨w2, hrest, ⟨n2, hcalm2⟩, hstored, hsdr, hbytes⟩ := ih w1 htrans.memory (hcalm1.slow.trans hslow)
      (by rw [hcalm1.script, hquiet, List.drop_nil]) (fun p hp => hle p (List.mem_cons_of_mem _ hp)) hnd'
    refine ⟨w2, ?_, ⟨n1 + n2, ?_⟩, fun p hp => ?_, fun a ha => ?_, fun spc a ha => ?_⟩
    · simp only [sdrWrites, sdrWrite, hbridge]
      exact hrest
    · rw [List.flatMap_cons, bwrSent_eq]
      simpa using hcalm1.trans hcalm2
    · rcases List.mem_cons.mp hp with rfl | hp
      · exact (hsdr _ hnew).trans htrans.sdrAt
      · exact hstored p hp
    · obtain ⟨hhead, htail⟩ := not_or.mp (List.mem_cons.not.mp ha)
      exact (hsdr a htail).trans (htrans.sdr a hhead)
    · exact (hbytes spc a ha).trans (htrans.bytes_of_write spc a ha)

/-- The SDR writes of a code of 3 bytes to the receive registers from 1 on and the transmit registers from 4 on. -/
def codeWrites (hi mid lo : Byte) : List (Byte × Byte) := [(1, hi), (2, mid), (3, lo), (4, hi), (5, mid), (6, lo)]

theorem tuneWrites_eq_codeWrites {c : Cfg} (hbytes : c.freqCodeBytes = 3) (hrx : c.sdrFrfRxAddr = 1)
    (htx : c.sdrFrfTxAddr = 4) (ch : Channel) :
    tuneWrites c ch = codeWrites (BitVec.ofNat 8 (c.freqCode.getD ch.val 0 / 65536))
      (BitVec.ofNat 8 (c.freqCode.getD ch.val 0 / 256)) (BitVec.ofNat 8 (c.freqCode.getD ch.val 0)) := by
  simp only [tuneWrites, freqBytes, hbytes, hrx, htx, freqCodeOf, Nat.shiftRight_eq_div_pow]
  simp [List.range_succ, codeWrites]

theorem read_of_codeWrites {hi mid lo : Byte} {f : Nat → Byte} (h : ∀ p ∈ codeWrites hi mid lo, f p.1.toNat = p.2)
    (base : Nat) (hbase : base = 1 ∨ base = 4) : f base = hi ∧ f (base + 1) = mid ∧ f (base + 2) = lo := by
  simp only [codeWrites, List.forall_mem_cons] at h
  obtain ⟨h1, h2, h3, h4, h5, h6, -⟩ := h
  rcases hbase with rfl | rfl
  · exact ⟨h1, h2, h3⟩
  · exact ⟨h4, h5, h6⟩

/-- The tuning of a channel whose SDR writes complete. -/
theorem tune_of_sdrWrites {ch : Channel} {s : State} {w : World}
    (h : sdrWrites s.cfg (tuneWrites s.cfg ch) s.world = (none, w)) :
    tune ch s = (none, { s with world := w, fac := s.fac.tuned s.fac.tunedChannel ch }) := by
  simp only [tune, h]
  rfl

theorem retune_fit {s : State} (h : tuneFits s.cfg = true) (run : State → State) : retune run s = run s := by
  simp only [retune, h, if_true]

/-- Settles O40: each retune is its registers' change behind the six writes of `sdrWrites_quick`. -/
theorem quietRetunesComplete : Obligations.QuietRetunesComplete := by
  rintro s ⟨⟨hready, hquiet, hslow, hmap, husize⟩, hcode, hrx, htx, hmax⟩ hmem done
  have hfits : tuneFits s.cfg = true := by simp [tuneFits, hcode, hrx, htx, Config.sdrSize]
  have hdone : ∀ i ch f v, (∀ w, sdrWrites s.cfg (tuneWrites s.cfg ch) s.world = (none, w) →
      opOf i s = { s with seq := .idle, world := w, fac := f, ret := some (.ok v) }) → done i ch f v := by
    intro i ch f v hop
    have hwrites := tuneWrites_eq_codeWrites hcode hrx htx ch
    obtain ⟨w, hrun, ⟨n, hcalm⟩, hstored, hsdr, hbytes⟩ := sdrWrites_quick hmap husize hmax (tuneWrites s.cfg ch) s.world hmem
      hslow hquiet (by rw [hwrites, codeWrites]; simp) (by rw [hwrites, codeWrites]; simp)
    obtain ⟨new, htrace, hsent, -⟩ := hcalm.ports
    rw [hwrites] at hsent hstored hsdr
    have hexec : exec i s = .next { s with world := w, fac := f, ret := some (.ok v) } := by
      rw [exec_opOf, State.command_of_ready hready, hop w hrun, ← show s.seq = .idle from hready]
    refine ⟨_, new, hexec, rfl, htrace, hsent.trans ?_, read_of_codeWrites hstored,
      fun a ha => hsdr a (by simpa [codeWrites] using ha), hbytes, hcalm.ev⟩
    simp only [codeWrites, List.flatMap_cons, List.flatMap_nil, List.append_nil, List.append_assoc]
    rfl
  intro tunedTo next sk nonce
  refine ⟨hdone _ _ _ _ fun w hrun => ?hop, fun ch hch => hdone _ _ _ _ fun w hrun => ?set,
    hdone _ _ _ _ fun w hrun => ?skip, fun hphase => hdone _ _ _ _ fun w hrun => ?altHop,
    fun hphase => hdone _ _ _ _ fun w hrun => ?altSkip⟩
  case hop =>
    change retune opHop s = _
    have htune := tune_of_sdrWrites (s := s.advanceHop) hrun
    rw [retune_fit hfits]
    simp only [opHop, State.advanceHop] at htune ⊢
    rw [htune]
    rfl
  case set =>
    change opSet ch s = _
    have hle : ¬ 24 < ch.toNat := by omega
    have hfin : (Fin.ofNat nChannels ch.toNat : Channel) = ⟨ch.toNat, hch⟩ := Fin.ext (Nat.mod_eq_of_lt hch)
    rw [opSet, if_neg hle, retune_fit hfits, hfin]
    simp only [opTune, tune_of_sdrWrites hrun]
    rfl
  case skip =>
    change retune opSkip s = _
    have htune : tune (skipCh s.cfg s.fac.hopChannel) s = _ := tune_of_sdrWrites hrun
    rw [retune_fit hfits]
    simp only [opSkip, opTune, htune]
    rfl
  case altHop =>
    change retune opAlt s = _
    have htune := tune_of_sdrWrites (s := s.advanceHop) hrun
    rw [retune_fit hfits, opAlt, if_pos hphase]
    simp only [opAltHop, State.advanceHop] at htune ⊢
    rw [htune]
    rfl
  case altSkip =>
    change retune opAlt s = _
    have htune : tune (skipCh s.cfg s.fac.hopChannel) s = _ := tune_of_sdrWrites hrun
    rw [retune_fit hfits, opAlt, if_neg (by simp [hphase])]
    simp only [opAltSkip, htune]
    rfl

end Sys2Proof.Machine
end

section
/-! How many transactions a bridge operation sends, whatever is answered (40_rtx_transactions.md R131, R144). -/

namespace Sys2Proof.Machine

-- ---------------------------------------------------------------- counting

/-- The history has grown by `n` transactions. -/
def SentN (n : Nat) (w w' : World) : Prop := Grown w w' fun new => (sentOf new).length = n

theorem SentN.trans {m n : Nat} {w w1 w2 : World} (h : SentN m w w1) (h' : SentN n w1 w2) : SentN (m + n) w w2 := by
  obtain ⟨l, hl, rfl⟩ := h
  obtain ⟨l', hl', rfl⟩ := h'
  exact ⟨l' ++ l, by rw [hl', hl, List.append_assoc], by simp⟩

theorem Ports.sentN {w w' : World} {qs : List Quad} {n : Nat} {vs : List Nat} (h : Ports w w' qs n vs) :
    SentN qs.length w w' := by
  obtain ⟨new, htrace, rfl, -⟩ := h
  exact ⟨new, htrace, rfl⟩

@[simp] theorem length_sentOf_readOf (c : Cfg) (spc : Space) (addr : Addr) (pre inn : Quad) :
    (sentOf (readOf c spc addr pre inn)).length = readCost c := by
  cases hr : c.readReturn with
  | same => rw [readCost_same hr, readOf_eq, if_pos hr]; rfl
  | previous => rw [readCost_previous hr, readOf_eq, if_neg (by rw [hr]; decide)]; rfl

@[simp] theorem length_sentOf_attemptsOf (c : Cfg) (spc : Space) (addr : Addr) (v : Byte) (l : List Attempt) :
    (sentOf (attemptsOf c spc addr v l)).length = l.length * (1 + readCost c) := by
  induction l with
  | nil => simp [attemptsOf, sentOf, xfersOf]
  | cons p l ih =>
    have hone : sentOf [PortEvent.xfer (wrQ spc addr v) p.written] = [wrQ spc addr v] := rfl
    have hcons : attemptsOf c spc addr v (p :: l) =
        attemptsOf c spc addr v l ++ (readOf c spc addr p.pre p.back ++ [.xfer (wrQ spc addr v) p.written]) := by
      simp [attemptsOf]
    rw [hcons, sentOf_append, sentOf_append, hone]
    simp only [List.length_append, length_sentOf_readOf, ih, List.length_cons, List.length_nil]
    ring

@[simp] theorem length_sentOf_pollsOf (c : Cfg) (l : List (Quad × Quad)) :
    (sentOf (pollsOf c l)).length = l.length * readCost c := by
  induction l with
  | nil => simp [pollsOf, sentOf, xfersOf]
  | cons p l ih =>
    have hcons : pollsOf c (p :: l) = pollsOf c l ++ readOf c .us 5 p.1 p.2 := by simp [pollsOf]
    rw [hcons, sentOf_append, List.length_append, length_sentOf_readOf, ih, List.length_cons]
    ring

-- ---------------------------------------------------------------- the parts

/-- A verified write makes one to three attempts, three when it fails. -/
theorem writeV_sentN (c : Cfg) (spc : Space) (addr : Addr) (v mask : Byte) (w : World) :
    (∃ a w', writeV c spc addr v mask w = (none, w') ∧ 1 ≤ a ∧ a ≤ 3 ∧ SentN (a * (1 + readCost c)) w w')
    ∨ ∃ w', writeV c spc addr v mask w = (some .writeVerifyFail, w') ∧ SentN (3 * (1 + readCost c)) w w' := by
  obtain ⟨l, htrace, -, ⟨hok, hle, p, hlast, -⟩ | ⟨hfail, hlen, -⟩⟩ := verifyLoop_attempts c spc addr v mask 3 w
  · have hpos : 1 ≤ l.length := List.length_pos_of_mem (List.mem_of_getLast? hlast)
    exact .inl ⟨l.length, _, congrArg (fun b => (b, _)) (if_pos hok), hpos, hle, _, htrace, by simp⟩
  · exact .inr ⟨_, congrArg (fun b => (b, _)) (if_neg (by simpa using hfail)), _, htrace, by simp [hlen]⟩

/-- From the start of the transfer on: the start, the polls, and the read of `BR_RDATA`. -/
theorem bridgePolled_sentN (c : Cfg) (wnr : Bool) (w : World) :
    (∃ p b w', bridgePolled c wnr w = (.ok b, w') ∧ 1 ≤ p ∧ p ≤ c.bridgePollMax
      ∧ SentN (p * readCost c + if wnr then 0 else readCost c) w w')
    ∨ ∃ polls w', bridgePolled c wnr w = (.error .bridgeTimeout, w') ∧ w'.trace = pollsOf c polls ++ w.trace
      ∧ polls.length = c.bridgePollMax ∧ ∀ p ∈ polls, brDoneOf c.userMap p.2.b3 = false := by
  obtain ⟨l, htrace, ⟨hok, hpos, hle⟩ | ⟨hfail, hlen, hpolls⟩⟩ := pollLoop_polls c c.bridgePollMax w
  · have hpolled : SentN (l.length * readCost c) w (pollLoop c c.bridgePollMax w).2 := ⟨_, htrace, by simp⟩
    cases wnr with
    | true => exact .inl ⟨l.length, _, _, by simp only [bridgePolled, hok]; rfl, hpos, hle, hpolled⟩
    | false =>
      refine .inl ⟨l.length, _, _, by simp only [bridgePolled, hok]; rfl, hpos, hle, hpolled.trans ?_⟩
      simpa using (ports_readByte c .us brRdataAddr _).sentN
  · exact .inr ⟨l, _, by simp only [bridgePolled, hfail]; rfl, htrace, hlen, hpolls⟩

-- ---------------------------------------------------------------- the whole operation

/-- What a bridge operation comes to, with the number `a` of attempts of its verified writes: they fail; or the polls
find the transfer finished, or they do not. -/
inductive BridgeRun (c : Cfg) (wnr : Bool) (w : World) : Except FaultCode Byte × World → Prop
  | unwritten (a : Nat) (w' : World) (ha : 3 ≤ a) (ha' : a ≤ if wnr then 6 else 3) (hsent : SentN (a * (1 + readCost c)) w w') :
    BridgeRun c wnr w (.error .writeVerifyFail, w')
  | moved (a p : Nat) (b : Byte) (w' : World) (ha : (if wnr then 2 else 1) ≤ a) (ha' : a ≤ if wnr then 6 else 3) (hp : 1 ≤ p)
    (hp' : p ≤ c.bridgePollMax)
    (hsent : SentN (a * (1 + readCost c) + 1 + (p * readCost c + if wnr then 0 else readCost c)) w w') :
    BridgeRun c wnr w (.ok b, w')
  | timedOut (a : Nat) (polls : List (Quad × Quad)) (w1 w' : World) (ha : (if wnr then 2 else 1) ≤ a)
    (ha' : a ≤ if wnr then 6 else 3) (hsent : SentN (a * (1 + readCost c) + 1) w w1)
    (htrace : w'.trace = pollsOf c polls ++ w1.trace) (hlen : polls.length = c.bridgePollMax)
    (hpolls : ∀ p ∈ polls, brDoneOf c.userMap p.2.b3 = false) : BridgeRun c wnr w (.error .bridgeTimeout, w')

/-- Behind the verified writes: the start, then the polls. -/
theorem bridgeRun_of_written {c : Cfg} {wnr : Bool} {a : Nat} {x : Byte} {w w2 : World}
    (ha : (if wnr then 2 else 1) ≤ a) (ha' : a ≤ if wnr then 6 else 3) (hsent : SentN (a * (1 + readCost c)) w w2) :
    BridgeRun c wnr w (bridgePolled c wnr (writeByte c .us brCtrlAddr x w2)) := by
  have hstart := hsent.trans (ports_writeByte c .us brCtrlAddr x w2).sentN
  rcases bridgePolled_sentN c wnr (writeByte c .us brCtrlAddr x w2) with
    ⟨p, b, w', hrun, hp, hp', hpolled⟩ | ⟨polls, w', hrun, htrace, hlen, hpolls⟩
  · rw [hrun]
    exact .moved a p b w' ha ha' hp hp' (hstart.trans hpolled)
  · rw [hrun]
    exact .timedOut a polls _ w' ha ha' hstart htrace hlen hpolls

theorem bridgeRun_bridge (c : Cfg) (wnr : Bool) (sa v : Byte) (w : World) : BridgeRun c wnr w (bridge c wnr sa v w) := by
  rcases writeV_sentN c .us brAddrAddr (brAddrByte c.userMap wnr sa) 0xFF w with
    ⟨a, w1, haddr, ha, ha', hsent⟩ | ⟨w1, haddr, hsent⟩
  case inr =>
    have hrun : bridge c wnr sa v w = (.error .writeVerifyFail, w1) := by simp only [bridge, haddr]
    rw [hrun]
    exact .unwritten 3 w1 (Nat.le_refl 3) (by split <;> decide) hsent
  case inl =>
    cases wnr with
    | false =>
      rw [bridge_of_started haddr rfl]
      exact bridgeRun_of_written ha ha' hsent
    | true =>
      rcases writeV_sentN c .us brWdataAddr v 0xFF w1 with ⟨a2, w2, hdata, hb, hb', hsent2⟩ | ⟨w2, hdata, hsent2⟩
      · rw [bridge_of_started haddr hdata]
        refine bridgeRun_of_written (a := a + a2) (by simp; omega) (by simp; omega) ?_
        rw [Nat.add_mul]
        exact hsent.trans hsent2
      · have hrun : bridge c true sa v w = (.error .writeVerifyFail, w2) := by simp only [bridge, haddr, if_true, hdata]
        rw [hrun]
        refine .unwritten (a + 3) w2 (Nat.le_add_left 3 a) (by simp; omega) ?_
        rw [Nat.add_mul]
        exact hsent.trans hsent2

/-- The counts of each kind of run, with `r` transactions a read and `polled` polls at most (R144). -/
theorem BridgeRun.counts {c : Cfg} {wnr : Bool} {w w' : World} {res : Except FaultCode Byte} (h : BridgeRun c wnr w (res, w'))
    (hmax : 3 ≤ c.bridgePollMax) :
    ∃ new, w'.trace = new ++ w.trace
      ∧ (if wnr then 3 else 2) + 3 * readCost c ≤ (sentOf new).length
      ∧ (sentOf new).length ≤
        (if wnr then 7 + (6 + c.bridgePollMax) * readCost c else 4 + (4 + c.bridgePollMax) * readCost c)
      ∧ ((∃ b, res = .ok b) ∨ res = .error .writeVerifyFail
        ∨ (res = .error .bridgeTimeout
          ∧ (sentOf new).length ≤ (if wnr then 7 else 4) + ((if wnr then 6 else 3) + c.bridgePollMax) * readCost c
          ∧ ∃ polls before, new = pollsOf c polls ++ before ∧ polls.length = c.bridgePollMax
            ∧ ∀ p ∈ polls, brDoneOf c.userMap p.2.b3 = false)) := by
  have hpolled := Nat.mul_le_mul_right (readCost c) hmax
  cases h with
  | unwritten a w ha ha' hsent =>
    obtain ⟨new, htrace, hnew⟩ := hsent
    have hlo := Nat.mul_le_mul_right (1 + readCost c) ha
    have hhi := Nat.mul_le_mul_right (1 + readCost c) ha'
    refine ⟨new, htrace, ?_, ?_, .inr (.inl rfl)⟩
    all_goals cases wnr <;> simp only [if_true, if_false, Bool.false_eq_true, hnew] at * <;> linarith
  | moved a p b w ha ha' hp hp' hsent =>
    obtain ⟨new, htrace, hnew⟩ := hsent
    have hlo := Nat.mul_le_mul_right (1 + readCost c) ha
    have hhi := Nat.mul_le_mul_right (1 + readCost c) ha'
    have hlop := Nat.mul_le_mul_right (readCost c) hp
    have hhip := Nat.mul_le_mul_right (readCost c) hp'
    refine ⟨new, htrace, ?_, ?_, .inl ⟨b, rfl⟩⟩
    all_goals cases wnr <;> simp only [if_true, if_false, Bool.false_eq_true, hnew] at * <;> linarith
  | timedOut a polls w1 w ha ha' hsent htrace hlen hpolls =>
    obtain ⟨before, htrace1, hbefore⟩ := hsent
    have hnew : (sentOf (pollsOf c polls ++ before)).length = a * (1 + readCost c) + 1 + c.bridgePollMax * readCost c := by
      rw [sentOf_append, List.length_append, hbefore, length_sentOf_pollsOf, hlen]
    have hlo := Nat.mul_le_mul_right (1 + readCost c) ha
    have hhi := Nat.mul_le_mul_right (1 + readCost c) ha'
    refine ⟨pollsOf c polls ++ before, htrace.trans (by rw [htrace1, List.append_assoc]), ?_, ?_,
      .inr (.inr ⟨rfl, ?_, polls, before, rfl, hlen, hpolls⟩)⟩
    all_goals cases wnr <;> simp only [if_true, if_false, Bool.false_eq_true, hnew] at * <;> linarith

/-- Settles O27: the counts of `BridgeRun.counts`, outcome by outcome. -/
theorem bridgeOutcomesAndCounts : Obligations.BridgeOutcomesAndCounts := by
  intro sa v s hready hsa hmax r polled timedOut
  refine ⟨?brd, ?bwr⟩
  case brd =>
    have hexec : exec (.brd sa) s = .next (opBridge false sa 0 s) := State.command_of_ready hready _
    obtain ⟨new, htrace, hlo, hhi, hres⟩ := (bridgeRun_bridge s.cfg false sa 0 s.world).counts hmax
    obtain ⟨b, hb⟩ | hb | ⟨hb, hle, htimed⟩ := hres
    · rw [opBridge_ok hsa (Prod.ext_iff.mpr ⟨hb, rfl⟩)] at hexec
      exact ⟨_, new, hexec, onlyRetWorld_finish hready _ _, htrace, hlo, hhi, .inl ⟨b, rfl⟩⟩
    · rw [opBridge_error hsa (Prod.ext_iff.mpr ⟨hb, rfl⟩)] at hexec
      exact ⟨_, new, hexec, onlyRetWorld_raise hready _ _, htrace, hlo, hhi, .inr (.inl rfl)⟩
    · rw [opBridge_error hsa (Prod.ext_iff.mpr ⟨hb, rfl⟩)] at hexec
      exact ⟨_, new, hexec, onlyRetWorld_raise hready _ _, htrace, hlo, hhi, .inr (.inr ⟨rfl, hle, htimed⟩)⟩
  case bwr =>
    have hexec : exec (.bwr sa v) s = .next (opBridge true sa v s) := State.command_of_ready hready _
    obtain ⟨new, htrace, hlo, hhi, hres⟩ := (bridgeRun_bridge s.cfg true sa v s.world).counts hmax
    obtain ⟨b, hb⟩ | hb | ⟨hb, -, htimed⟩ := hres
    · rw [opBridge_ok hsa (Prod.ext_iff.mpr ⟨hb, rfl⟩)] at hexec
      exact ⟨_, new, hexec, onlyRetWorld_finish hready _ _, htrace, hlo, hhi, .inl rfl⟩
    · rw [opBridge_error hsa (Prod.ext_iff.mpr ⟨hb, rfl⟩)] at hexec
      exact ⟨_, new, hexec, onlyRetWorld_raise hready _ _, htrace, hlo, hhi, .inr (.inl rfl)⟩
    · rw [opBridge_error hsa (Prod.ext_iff.mpr ⟨hb, rfl⟩)] at hexec
      exact ⟨_, new, hexec, onlyRetWorld_raise hready _ _, htrace, hlo, hhi, .inr (.inr ⟨rfl, htimed⟩)⟩

end Sys2Proof.Machine
end

section
/-! Bit strings of a buffer (00_scope.md R8): a field is a stretch of the bits of the bytes it touches, and its bytes are put
together from two bytes of the buffer each (42_rxd_decoder.md R171). -/

namespace Sys2Proof.Machine

-- ---------------------------------------------------------------- the bits of a field

/-- Bit `g` of a bit string is its most significant one. -/
theorem Buf.testBit_bits (m : Buf) (g : Nat) : ∀ n i, (m.bits g n).testBit i = (decide (i < n) && m.bit (g + n - 1 - i)) := by
  intro n
  induction n with
  | zero => intro i; simp [Buf.bits]
  | succ n ih =>
    intro i
    cases i with
    | zero => cases hb : m.bit (g + n) <;> simp [Buf.bits, Nat.testBit_zero, hb, Nat.add_mod]
    | succ i =>
      have hhalf : m.bits g (n + 1) / 2 = m.bits g n := by
        cases hb : m.bit (g + n) <;> simp [Buf.bits, hb]
        omega
      have hat : g + (n + 1) - 1 - (i + 1) = g + n - 1 - i := by omega
      rw [Nat.testBit_succ, hhalf, ih, hat]
      simp

theorem Buf.bits_lt (m : Buf) (g n : Nat) : m.bits g n < 2 ^ n :=
  Nat.lt_pow_two_of_testBit _ fun i hi => by simp [Buf.testBit_bits, Nat.not_lt.mpr hi]

/-- The vector holds the bits of the buffer from `g` on, the first one most significant. -/
def Spells (m : Buf) (g : Nat) {n : Nat} (x : BitVec n) : Prop := ∀ i < n, x.getLsbD i = m.bit (g + n - 1 - i)

theorem spells_byte (m : Buf) (a : Nat) : Spells m (8 * a) (m.byte a) := by
  intro i hi
  have hdiv : (8 * a + 8 - 1 - i) / 8 = a := by omega
  have hmod : 7 - (8 * a + 8 - 1 - i) % 8 = i := by omega
  rw [Buf.bit, hdiv, hmod]

theorem Spells.append {m : Buf} {g k n : Nat} {x : BitVec k} {y : BitVec n} (hx : Spells m g x) (hy : Spells m (g + k) y) :
    Spells m g (x ++ y) := by
  intro i hi
  rw [BitVec.getLsbD_append]
  by_cases h : i < n
  · rw [if_pos h, hy i h, Nat.add_assoc]
  · rw [if_neg h, hx (i - n) (by omega)]
    exact congrArg m.bit (by omega)

/-- A field inside bytes that are spelled out. -/
theorem Spells.extract {m : Buf} {g k : Nat} {x : BitVec k} (h : Spells m g x) {r n : Nat} (hle : r + n ≤ k) :
    BitVec.ofNat n (m.bits (g + r) n) = x.extractLsb' (k - r - n) n := by
  apply BitVec.eq_of_getLsbD_eq
  intro i hi
  rw [BitVec.getLsbD_ofNat, BitVec.getLsbD_extractLsb', Buf.testBit_bits, h _ (by omega)]
  simp only [hi, decide_true, Bool.true_and]
  exact congrArg m.bit (by omega)

theorem Spells.whole {m : Buf} {g n : Nat} {x : BitVec n} (h : Spells m g x) : BitVec.ofNat n (m.bits g n) = x := by
  apply BitVec.eq_of_getLsbD_eq
  intro i hi
  rw [BitVec.getLsbD_ofNat, Buf.testBit_bits, h i hi]
  simp [hi]

/-- A signed register filled from a field of its width. -/
theorem sextN_bits (m : Buf) (g : Nat) : sextN 32 (m.bits g 32) = (BitVec.ofNat 32 (m.bits g 32)).toInt := by
  have hlt := m.bits_lt g 32
  rw [BitVec.toInt_eq_toNat_cond, BitVec.toNat_ofNat, Nat.mod_eq_of_lt hlt, sextN]
  split <;> split <;> omega

theorem Buf.flag_of_byte (m : Buf) (a : Nat) : m.flag ⟨8 * a, 1⟩ = (m.byte a).getLsbD 7 := by
  have hbit : m.bit (8 * a) = (m.byte a).getLsbD 7 := by
    rw [Buf.bit, Nat.mul_div_cancel_left a (by decide), Nat.mul_mod_right]
  rw [← hbit]
  cases hb : m.bit (8 * a) <;> simp [Buf.flag, Buf.field, Buf.bits, hb]

-- ---------------------------------------------------------------- the bytes of a field

theorem Buf.getLsbD_byteAt (m : Buf) (g k i : Nat) :
    (m.byteAt g k).getLsbD i = (decide (i < 8) && m.bit (g + 8 * k + 7 - i)) := by
  rw [Buf.byteAt, BitVec.getLsbD_ofNat, Buf.testBit_bits]
  simp

/-- A byte of a field lies in two bytes of the buffer, in one when the field is byte-aligned. -/
theorem Buf.byteAt_eq (m : Buf) (g k : Nat) :
    m.byteAt g k =
      if g % 8 = 0 then m.byte (g / 8 + k)
      else (m.byte (g / 8 + k) <<< (g % 8)) ||| (m.byte (g / 8 + k + 1) >>> (8 - g % 8)) := by
  apply BitVec.eq_of_getLsbD_eq
  intro i hi
  rw [Buf.getLsbD_byteAt, Buf.bit]
  split
  case isTrue h =>
    have hdiv : (g + 8 * k + 7 - i) / 8 = g / 8 + k := by omega
    have hmod : 7 - (g + 8 * k + 7 - i) % 8 = i := by omega
    simp [hi, hdiv, hmod]
  case isFalse h =>
    rw [BitVec.getLsbD_or, BitVec.getLsbD_shiftLeft, BitVec.getLsbD_ushiftRight]
    by_cases hlow : i < g % 8
    · have hdiv : (g + 8 * k + 7 - i) / 8 = g / 8 + k + 1 := by omega
      have hmod : 7 - (g + 8 * k + 7 - i) % 8 = 8 - g % 8 + i := by omega
      simp [hi, hlow, hdiv, hmod]
    · have hdiv : (g + 8 * k + 7 - i) / 8 = g / 8 + k := by omega
      have hmod : 7 - (g + 8 * k + 7 - i) % 8 = i - g % 8 := by omega
      have hout : (m.byte (g / 8 + k + 1)).getLsbD (8 - g % 8 + i) = false := BitVec.getLsbD_of_ge _ _ (by omega)
      simp [hi, hlow, hdiv, hmod, hout]

/-- Settles O39. -/
theorem bitPackedBytes : Obligations.BitPackedBytes := by
  refine ⟨Buf.byteAt_eq, fun m k => ?shifted, fun m o j => ?nibbles, fun g n hn => ?count⟩
  case shifted =>
    rw [m.byteAt_eq, Nat.add_right_comm]
    rfl
  case nibbles =>
    have hnibble : ∀ x : Byte, (x &&& 0x0F) <<< 4 = x <<< 4 := by decide
    have hdiv : (8 * o + 4) / 8 = o := by omega
    have hmod : (8 * o + 4) % 8 = 4 := by omega
    rw [m.byteAt_eq, hdiv, hmod, hnibble]
    rfl
  case count =>
    simp only [BitField.lastByte, BitField.firstByte]
    split <;> omega

end Sys2Proof.Machine
end

section
/-! The bytes a decode reads, one read operation each (42_rxd_decoder.md R162), and the fields of the default layout taken
from them. -/

namespace Sys2Proof.Machine

-- ---------------------------------------------------------------- spans

/-- The history (newest first) of reads of RX RAM from an address on, first read first: the inbound bytes of each. -/
def spanOf (c : Cfg) : Nat → List (Quad × Quad) → List PortEvent
  | _, [] => []
  | a, p :: l => spanOf c (a + 1) l ++ readOf c .rx (BitVec.ofNat 16 a) p.1 p.2

/-- The transactions of reads of RX RAM. -/
def spanQs (c : Cfg) (a n : Nat) : List Quad := (List.range n).flatMap fun k => rdQs c .rx (BitVec.ofNat 16 (a + k))

theorem spanQs_succ (c : Cfg) (a n : Nat) :
    spanQs c a (n + 1) = rdQs c .rx (BitVec.ofNat 16 a) ++ spanQs c (a + 1) n := by
  simp only [spanQs, List.range_succ_eq_map, List.flatMap_cons, List.flatMap_map, Nat.add_zero, Nat.add_assoc,
    Nat.add_comm 1]

/-- Whatever is answered: one read a byte, and the bytes are those of the answers. -/
theorem readBytes_spanOf (c : Cfg) (n : Nat) : ∀ (a : Nat) (w : World), ∃ l : List (Quad × Quad),
    l.length = n ∧ (readBytes c a n w).1 = l.map (·.2.b3) ∧ (readBytes c a n w).2.trace = spanOf c a l ++ w.trace := by
  induction n with
  | zero => exact fun a w => ⟨[], rfl, rfl, rfl⟩
  | succ n ih =>
    intro a w
    obtain ⟨pre, inn, hbyte, htrace⟩ := readByte_readOf c .rx (BitVec.ofNat 16 a) w
    obtain ⟨l, hlen, hbytes, hrest⟩ := ih (a + 1) (readByte c .rx (BitVec.ofNat 16 a) w).2
    refine ⟨(pre, inn) :: l, by simp [hlen], ?_, ?_⟩
    · simp only [readBytes, hbyte, hbytes, List.map_cons]
    · simp only [readBytes, hrest, htrace, spanOf, List.append_assoc]

theorem addrOk_rx_of_lt {c : Cfg} {j : Nat} (hj : j < c.rxramSize) (hmax : j < 65536) :
    c.addrOk .rx (BitVec.ofNat 16 j) = true := by
  simp [Cfg.addrOk, Cfg.size, Nat.mod_eq_of_lt hmax, hj]

/-- A quiet peripheral answers with RX RAM. -/
theorem readBytes_quiet {c : Cfg} (n : Nat) : ∀ (a : Nat) (w : World), w.script = [] → a + n ≤ c.rxramSize → a + n ≤ 65536 →
    (readBytes c a n w).1 = (List.range n).map (fun k => w.peek .rx (a + k))
    ∧ (∃ m, Calmly m (spanQs c a n) w (readBytes c a n w).2) ∧ (readBytes c a n w).2.spaces = w.spaces := by
  induction n with
  | zero => exact fun a w _ _ _ => ⟨rfl, ⟨0, .refl w⟩, rfl⟩
  | succ n ih =>
    intro a w hquiet hsize hmax
    have hat : (BitVec.ofNat 16 a).toNat = a := Nat.mod_eq_of_lt (by omega)
    obtain ⟨hbyte, hcalm, hsp, -⟩ := readByte_calm (calm_of_quiet hquiet _)
      (addrOk_rx_of_lt (c := c) (j := a) (by omega) (by omega))
    obtain ⟨hbytes, ⟨m, hrest⟩, hspaces⟩ := ih (a + 1) (readByte c .rx (BitVec.ofNat 16 a) w).2
      (by rw [hcalm.script, hquiet, List.drop_nil]) (by omega) (by omega)
    refine ⟨?_, ⟨_, spanQs_succ c a n ▸ hcalm.trans hrest⟩, hspaces.trans hsp⟩
    simp only [readBytes, hbyte, hbytes, World.peek_of_spaces_eq hsp, hat, List.range_succ_eq_map, List.map_cons, List.map_map,
      Nat.add_zero, Nat.add_assoc, Nat.add_comm 1]
    rfl

/-- A span by its first address and its number of bytes. -/
theorem readSpan_eq {c : Cfg} {fs : List BitField} {a n : Nat} (hfirst : spanFirst fs = a) (hcount : spanLast fs + 1 - a = n)
    (w : World) : readSpan c fs w = (⟨a, (readBytes c a n w).1⟩, (readBytes c a n w).2) := by
  simp only [readSpan, hfirst, hcount]

-- ---------------------------------------------------------------- fields

theorem Buf.word16_aligned (m : Buf) (a : Nat) : m.word16 ⟨8 * a, 16⟩ = m.byte a ++ m.byte (a + 1) :=
  ((spells_byte m a).append (spells_byte m (a + 1))).whole

theorem Buf.word16_shifted (m : Buf) (a : Nat) :
    m.word16 ⟨8 * a + 1, 16⟩ = (m.byte a ++ m.byte (a + 1) ++ m.byte (a + 2)).extractLsb' 7 16 :=
  (((spells_byte m a).append (spells_byte m (a + 1))).append (spells_byte m (a + 2))).extract (r := 1) (n := 16) (by decide)

theorem Buf.signed_nibble (m : Buf) (a : Nat) :
    m.signed ⟨8 * a + 4, 32⟩ =
      ((m.byte a ++ m.byte (a + 1) ++ m.byte (a + 2) ++ m.byte (a + 3) ++ m.byte (a + 4)).extractLsb' 4 32).toInt := by
  have hspells := ((((spells_byte m a).append (spells_byte m (a + 1))).append (spells_byte m (a + 2))).append
    (spells_byte m (a + 3))).append (spells_byte m (a + 4))
  rw [Buf.signed, Buf.field, sextN_bits]
  exact congrArg BitVec.toInt (hspells.extract (r := 4) (n := 32) (by decide))

/-- The bytes of a buffer filled by a quiet peripheral. -/
theorem Buf.byte_of_range {a n k : Nat} (f : Nat → Byte) (hlo : a ≤ k) (hhi : k < a + n) :
    (Buf.mk a ((List.range n).map fun j => f (a + j))).byte k = f k := by
  have hk : k - a < n := by omega
  have hat : a + (k - a) = k := by omega
  simp [Buf.byte, hk, hat]

-- ---------------------------------------------------------------- reply decodes

/-- A reply decode: the bytes of its span, one read each, and the registers filled from them. -/
theorem opReply_reads (r : Reply) (s : State) {a n : Nat} (hfirst : spanFirst (r.fields s.cfg.rxLayout) = a)
    (hcount : spanLast (r.fields s.cfg.rxLayout) + 1 - a = n) :
    ∃ (l : List (Quad × Quad)) (w : World), l.length = n
      ∧ opReply r s = { s with
          seq := .idle
          world := w
          dec := r.fill s.cfg.rxLayout ⟨a, l.map (·.2.b3)⟩ s.dec
          ret := some (.ok (r.value s.cfg.rxLayout ⟨a, l.map (·.2.b3)⟩)) }
      ∧ w.trace = spanOf s.cfg a l ++ s.world.trace
      ∧ (Quiet s → a + n ≤ s.cfg.rxramSize → a + n ≤ 65536 →
          l.map (·.2.b3) = (List.range n).map (fun k => s.world.peek .rx (a + k))
          ∧ (∃ m, Calmly m (spanQs s.cfg a n) s.world w) ∧ w.spaces = s.world.spaces) := by
  obtain ⟨l, hlen, hbytes, htrace⟩ := readBytes_spanOf s.cfg n a s.world
  refine ⟨l, _, hlen, ?_, htrace, fun hquiet hsize hmax => ?_⟩
  · simp only [opReply, readSpan_eq hfirst hcount, hbytes]
    rfl
  · rw [← hbytes]
    exact readBytes_quiet n a s.world hquiet hsize hmax

theorem exists_four {α : Type} {l : List α} (h : l.length = 4) : ∃ a b c d, l = [a, b, c, d] := by
  obtain ⟨a, l, rfl⟩ := List.exists_cons_of_length_eq_add_one h
  obtain ⟨b, c, d, rfl⟩ := List.length_eq_three.mp (Nat.succ_injective h)
  exact ⟨a, b, c, d, rfl⟩

/-- Settles O32. -/
theorem decodeRn16AndHandle : Obligations.DecodeRn16AndHandle := by
  intro s hready hlayout hsize
  refine ⟨?rn16, ?handle⟩
  case rn16 =>
    obtain ⟨l, w, hlen, hop, htrace, hquiet⟩ := opReply_reads .rn16 s (a := 0) (n := 2) (by rw [hlayout]; rfl)
      (by rw [hlayout]; rfl)
    obtain ⟨p, q, rfl⟩ := List.length_eq_two.mp hlen
    have hexec : exec .decRn16 s = .next (opReply .rn16 s) := State.command_of_ready hready _
    rw [hop, hlayout] at hexec
    refine ⟨_, p.2, q.2, p.1, q.1, hexec, htrace, ?_, fun hq => ?_⟩
    · have hword : Buf.word16 ⟨0, [p.2.b3, q.2.b3]⟩ ⟨0, 16⟩ = p.2.b3 ++ q.2.b3 := Buf.word16_aligned _ 0
      rw [← hword, show s.seq = .idle from hready]
      rfl
    · obtain ⟨hbytes, ⟨m, hcalm⟩, hsp⟩ := hquiet hq (by omega) (by omega)
      obtain ⟨h0, h1⟩ : p.2.b3 = s.world.peek .rx 0 ∧ q.2.b3 = s.world.peek .rx 1 := by simpa [List.range_succ] using hbytes
      exact ⟨h0, h1, sameBytes_of_spaces_eq hsp, hcalm.ev⟩
  case handle =>
    obtain ⟨l, w, hlen, hop, htrace, hquiet⟩ := opReply_reads .handle s (a := 2) (n := 4) (by rw [hlayout]; rfl)
      (by rw [hlayout]; rfl)
    obtain ⟨p, q, u, v, rfl⟩ := exists_four hlen
    have hexec : exec .decHandle s = .next (opReply .handle s) := State.command_of_ready hready _
    rw [hop, hlayout] at hexec
    refine ⟨_, p.2, q.2, u.2, v.2, p.1, q.1, u.1, v.1, hexec, htrace.trans (by simp [spanOf]), ?_, fun hq => ?_⟩
    · have hhandle : Buf.word16 ⟨2, [p.2.b3, q.2.b3, u.2.b3, v.2.b3]⟩ ⟨16, 16⟩ = p.2.b3 ++ q.2.b3 := Buf.word16_aligned _ 2
      have hcrc : Buf.word16 ⟨2, [p.2.b3, q.2.b3, u.2.b3, v.2.b3]⟩ ⟨32, 16⟩ = u.2.b3 ++ v.2.b3 := Buf.word16_aligned _ 4
      rw [← hhandle, ← hcrc, show s.seq = .idle from hready]
      rfl
    · obtain ⟨hbytes, ⟨m, hcalm⟩, hsp⟩ := hquiet hq (by omega) (by omega)
      obtain ⟨h0, h1, h2, h3⟩ : p.2.b3 = s.world.peek .rx 2 ∧ q.2.b3 = s.world.peek .rx 3 ∧ u.2.b3 = s.world.peek .rx 4
          ∧ v.2.b3 = s.world.peek .rx 5 := by simpa [List.range_succ] using hbytes
      exact ⟨h0, h1, h2, h3, sameBytes_of_spaces_eq hsp, hcalm.ev⟩

/-- Settles O33. -/
theorem decodeWriteAck : Obligations.DecodeWriteAck := by
  intro s hready hlayout hsize
  obtain ⟨l, w, hlen, hop, htrace, hquiet⟩ := opReply_reads .wrack s (a := 6) (n := 5) (by rw [hlayout]; rfl)
    (by rw [hlayout]; rfl)
  obtain ⟨a, rest, rfl⟩ := List.exists_cons_of_length_eq_add_one hlen
  obtain ⟨b, c, d, e, rfl⟩ := exists_four (Nat.succ_injective hlen)
  have hexec : exec .decWrack s = .next (opReply .wrack s) := State.command_of_ready hready _
  rw [hop, hlayout] at hexec
  refine ⟨_, a.2, b.2, c.2, d.2, e.2, a.1, b.1, c.1, d.1, e.1, hexec, htrace.trans (by simp [spanOf]), ?_, fun hq => ?_⟩
  · have hhdr : Buf.flag ⟨6, [a.2.b3, b.2.b3, c.2.b3, d.2.b3, e.2.b3]⟩ ⟨48, 1⟩ = a.2.b3.getLsbD 7 := Buf.flag_of_byte _ 6
    have hhandle : Buf.word16 ⟨6, [a.2.b3, b.2.b3, c.2.b3, d.2.b3, e.2.b3]⟩ ⟨49, 16⟩
      = (a.2.b3 ++ b.2.b3 ++ c.2.b3).extractLsb' 7 16 := Buf.word16_shifted _ 6
    have hcrc : Buf.word16 ⟨6, [a.2.b3, b.2.b3, c.2.b3, d.2.b3, e.2.b3]⟩ ⟨65, 16⟩
      = (c.2.b3 ++ d.2.b3 ++ e.2.b3).extractLsb' 7 16 := Buf.word16_shifted _ 8
    rw [← hhdr, ← hhandle, ← hcrc, show s.seq = .idle from hready]
    rfl
  · obtain ⟨hbytes, ⟨m, hcalm⟩, hsp⟩ := hquiet hq (by omega) (by omega)
    obtain ⟨h0, h1, h2, h3, h4⟩ : a.2.b3 = s.world.peek .rx 6 ∧ b.2.b3 = s.world.peek .rx 7 ∧ c.2.b3 = s.world.peek .rx 8
        ∧ d.2.b3 = s.world.peek .rx 9 ∧ e.2.b3 = s.world.peek .rx 10 := by simpa [List.range_succ] using hbytes
    exact ⟨h0, h1, h2, h3, h4, sameBytes_of_spaces_eq hsp, hcalm.ev⟩

/-- Settles O34. -/
theorem quietDecodeRead : Obligations.QuietDecodeRead := by
  rintro n s ⟨⟨hready, hquiet, -, -, -⟩, hlayout, hlo, hhi⟩ hpos hle
  have hok : badLength n = false := by
    have hne : n ≠ 0#4 := fun h => by rw [h] at hpos; exact absurd hpos (by decide)
    simp [badLength, hne, hle]
  have hfirst : spanFirst ((Reply.read n).fields s.cfg.rxLayout) = 11 := by
    rw [hlayout]
    simp [Reply.fields, readFields, spanFirst, FieldDesc.at, RxLayout.default, BitField.firstByte]
    omega
  have hcount : spanLast ((Reply.read n).fields s.cfg.rxLayout) + 1 - 11 = n.toNat + 5 := by
    rw [hlayout]
    simp [Reply.fields, readFields, spanLast, FieldDesc.at, RxLayout.default, BitField.lastByte]
    omega
  obtain ⟨l, w, hlen, hop, -, hread⟩ := opReply_reads (.read n) s hfirst hcount
  obtain ⟨hbytes, ⟨m, hcalm⟩, hsp⟩ := hread hquiet (by omega) (by omega)
  obtain ⟨new, htrace, hsent, -⟩ := hcalm.ports
  have hexec : exec (.decRead n) s = .next (opDecRead n s) := State.command_of_ready hready _
  have hbyte : ∀ k, 11 ≤ k → k < 11 + (n.toNat + 5) → Buf.byte ⟨11, l.map (·.2.b3)⟩ k = s.world.peek .rx k := by
    intro k h1 h2
    rw [hbytes]
    exact Buf.byte_of_range (fun j => s.world.peek .rx j) h1 h2
  have hflag := (Buf.flag_of_byte ⟨11, l.map (·.2.b3)⟩ 11).trans (congrArg (·.getLsbD 7) (hbyte 11 (by omega) (by omega)))
  rw [opDecRead, hok, if_neg (by decide), hop] at hexec
  refine ⟨_, new, hexec, htrace, hsent, ?_, ?_, ?_, rfl, rfl, ?_, ?_, ?_, ?_, ?_, sameBytes_of_spaces_eq hsp, hcalm.ev⟩
  · rw [show s.seq = .idle from hready]
  · rw [hlayout]
    exact congrArg some hflag
  · rw [hlayout]
    exact congrArg (fun b => some (OpOutcome.ok (Value.bit b))) hflag
  · simp [Reply.fill, Buf.byteList]
  · intro k hk
    have hdata : Buf.byteAt ⟨11, l.map (·.2.b3)⟩ 89 k
        = (s.world.peek .rx (0x0B + k) <<< 1) ||| (s.world.peek .rx (0x0C + k) >>> 7) := by
      rw [Buf.byteAt_eq, Nat.add_right_comm, ← hbyte (0x0B + k) (by omega) (by omega), ← hbyte (0x0C + k) (by omega) (by omega)]
      rfl
    rw [← hdata, hlayout]
    simp [Reply.fill, Buf.byteList, RxLayout.default, FieldDesc.at, hk, Nat.lt_of_lt_of_le hk hle]
  · intro k hk hk'
    simp [Reply.fill, Buf.byteList, hk', Nat.not_lt.mpr hk]
  · rw [← hbyte _ (by omega) (by omega), ← hbyte _ (by omega) (by omega), ← hbyte _ (by omega) (by omega), hlayout]
    have hat : RxLayout.default.readRn.at n.toNat = ⟨8 * (11 + n.toNat) + 1, 16⟩ := by
      simp [RxLayout.default, FieldDesc.at]
      omega
    simp only [Reply.fill, hat, Buf.word16_shifted, Nat.add_right_comm 11]
  · rw [← hbyte _ (by omega) (by omega), ← hbyte _ (by omega) (by omega), ← hbyte _ (by omega) (by omega), hlayout]
    have hat : RxLayout.default.readCrc.at n.toNat = ⟨8 * (13 + n.toNat) + 1, 16⟩ := by
      simp [RxLayout.default, FieldDesc.at]
      omega
    simp only [Reply.fill, hat, Buf.word16_shifted, Nat.add_right_comm 13]

end Sys2Proof.Machine
end

section
/-! `DEC.TAG` (42_rxd_decoder.md R169, R170): `STATUS` first, then the parts its flags name. -/

namespace Sys2Proof.Machine

-- ---------------------------------------------------------------- the exit code

theorem readParts_trace (c : Cfg) (parts : List TagPart) : ∀ (t : TagRead) (w : World),
    ∃ new, (readParts c parts t w).2.trace = new ++ w.trace := by
  induction parts with
  | nil => exact fun t w => ⟨[], rfl⟩
  | cons p ps ih =>
    intro t w
    obtain ⟨l, -, -, htrace⟩ :=
      readBytes_spanOf c (spanLast (p.fields c) + 1 - spanFirst (p.fields c)) (spanFirst (p.fields c)) w
    obtain ⟨new, hnew⟩ := ih (p.fill c (readSpan c (p.fields c) w).1 t) (readSpan c (p.fields c) w).2
    refine ⟨new ++ spanOf c (spanFirst (p.fields c)) l, ?_⟩
    rw [List.append_assoc, ← htrace]
    exact hnew

/-- A channel's result record with its pass flag set. -/
def recorded (s : State) (ch : Chan) (pass : Bool) : TagRead := { s.res ch with pass := pass }

/-- What `DEC.TAG` does behind the read of `STATUS`. -/
theorem opDecTag_eq (ch : Chan) (f : TagFlags) (s : State) :
    let st := readByte s.cfg .us statusAddr s.world
    let read := readParts s.cfg (tagParts f) (recorded s ch true) st.2
    opDecTag ch f s =
      if exitCodeOf s.cfg.userMap st.1 = 0 then ({ s with world := read.2 }.putRes ch read.1).finish (.exitCode 0)
      else ({ s with world := st.2 }.putRes ch (recorded s ch false)).finish
        (.exitCode (exitCodeOf s.cfg.userMap st.1)) := by
  simp only [opDecTag, ne_eq, ite_not, recorded]

/-- Writing a result record leaves every other register. -/
theorem putRes_finish_frame {s : State} (hready : Ready s) (w : World) (ch : Chan) (r : TagRead) (v : Value) :
    let t := ({ s with world := w }.putRes ch r).finish v
    t = { s with world := t.world, resI := t.resI, resQ := t.resQ, ret := t.ret } ∧ t.world = w ∧ t.res ch = r
      ∧ t.ret = some (.ok v) ∧ ∀ ch', ch' ≠ ch → t.res ch' = s.res ch' := by
  refine ⟨?_, ?_, State.res_putRes _ ch r, rfl, fun ch' h => State.res_putRes_other _ r h⟩
  · cases ch <;> simp [State.putRes, State.finish, show s.seq = .idle from hready]
  · cases ch <;> rfl

/-- Settles O36. -/
theorem decodeTagExitCode : Obligations.DecodeTagExitCode := by
  intro ch f s hready hmap
  obtain ⟨pre, inn, hbyte, hread⟩ := readByte_readOf s.cfg .us statusAddr s.world
  have hexec : exec (.decTag ch f) s = .next (opDecTag ch f s) := State.command_of_ready hready _
  have hexit : exitCodeOf s.cfg.userMap (readByte s.cfg .us statusAddr s.world).1 = inn.b3.extractLsb' 0 4 := by
    rw [hbyte, hmap]
    rfl
  rw [opDecTag_eq, hexit] at hexec
  split at hexec
  case isTrue hzero =>
    obtain ⟨new, hnew⟩ := readParts_trace s.cfg (tagParts f) (recorded s ch true)
      (readByte s.cfg .us statusAddr s.world).2
    have hpass : (readParts s.cfg (tagParts f) (recorded s ch true) (readByte s.cfg .us statusAddr s.world).2).1.pass
        = true := readParts_keeps (P := fun r => r.pass = true) (fun p _ m t ht => by cases p <;> exact ht) _ rfl
    obtain ⟨hframe, hworld, hres, hret, hother⟩ := putRes_finish_frame hready _ ch _ (.exitCode 0)
    refine ⟨_, new, pre, inn, hexec, (congrArg World.trace hworld).trans ?_, by rw [hzero]; exact hret, hother, hframe, ?_,
      fun h => absurd hzero h⟩
    · rw [hnew, hread, List.append_assoc]
    · rw [hres, hpass, hzero]
      rfl
  case isFalse hnonzero =>
    obtain ⟨hframe, hworld, hres, hret, hother⟩ := putRes_finish_frame hready _ ch _ _
    refine ⟨_, [], pre, inn, hexec, (congrArg World.trace hworld).trans hread, hret, hother, hframe, ?_, fun _ => ⟨rfl, hres⟩⟩
    rw [hres, decide_eq_false hnonzero]
    rfl

-- ---------------------------------------------------------------- the parts with a quiet peripheral

/-- The bytes of RX RAM from an address on, as a buffer. -/
def rxBuf (w : World) (a n : Nat) : Buf := ⟨a, (List.range n).map fun k => w.peek .rx (a + k)⟩

theorem rxBuf_byte (w : World) {a n k : Nat} (hlo : a ≤ k) (hhi : k < a + n) : (rxBuf w a n).byte k = w.peek .rx k :=
  Buf.byte_of_range (fun j => w.peek .rx j) hlo hhi

theorem rxBuf_of_spaces_eq {w w' : World} (h : w'.spaces = w.spaces) (a n : Nat) : rxBuf w' a n = rxBuf w a n := by
  simp only [rxBuf, World.peek_of_spaces_eq h]

/-- Where a part of `DEC.TAG` begins in the default layout. -/
def partFirst : TagPart → Nat
  | .epc => 0x1C
  | .mag => 0x2C
  | .lna => 0x35

/-- The bytes of a part. -/
def partCount (c : Cfg) : TagPart → Nat
  | .epc => c.epcLen + 4
  | .mag => 9
  | .lna => 1

theorem spanFirst_part {c : Cfg} (hl : c.rxLayout = RxLayout.default) (p : TagPart) :
    spanFirst (p.fields c) = partFirst p := by
  cases p with
  | epc =>
    simp [TagPart.fields, tagFields, spanFirst, FieldDesc.at, BitField.firstByte, hl, RxLayout.default, partFirst]
    omega
  | mag | lna => rw [TagPart.fields, hl]; rfl

theorem spanCount_part {c : Cfg} (hl : c.rxLayout = RxLayout.default) (p : TagPart) :
    spanLast (p.fields c) + 1 - partFirst p = partCount c p := by
  cases p with
  | epc =>
    simp [TagPart.fields, tagFields, spanLast, FieldDesc.at, BitField.lastByte, hl, RxLayout.default, partFirst, partCount]
    omega
  | mag | lna => rw [TagPart.fields, hl]; rfl

/-- The parts read from a quiet peripheral: filled from RX RAM one after the other. -/
theorem readParts_quiet {c : Cfg} (hl : c.rxLayout = RxLayout.default) (hlo : 0x36 ≤ c.rxramSize) (hhi : c.rxramSize ≤ 65536)
    (hel : c.epcLen ≤ 12) (parts : List TagPart) : ∀ (t : TagRead) (w : World), w.script = [] →
      (readParts c parts t w).1 = parts.foldl (fun t p => p.fill c (rxBuf w (partFirst p) (partCount c p)) t) t
      ∧ (∃ m, Calmly m (parts.flatMap fun p => spanQs c (partFirst p) (partCount c p)) w (readParts c parts t w).2)
      ∧ (readParts c parts t w).2.spaces = w.spaces := by
  induction parts with
  | nil => exact fun t w _ => ⟨rfl, ⟨0, .refl w⟩, rfl⟩
  | cons p ps ih =>
    intro t w hquiet
    have hend : partFirst p + partCount c p ≤ 0x36 := by
      cases p <;> simp only [partFirst, partCount] <;> omega
    obtain ⟨hbytes, ⟨m, hcalm⟩, hsp⟩ := readBytes_quiet (c := c) (partCount c p) (partFirst p) w hquiet (by omega) (by omega)
    have hspan := readSpan_eq (c := c) (spanFirst_part hl p) (spanCount_part hl p) w
    rw [hbytes] at hspan
    obtain ⟨hread, ⟨m', hrest⟩, hspaces⟩ := ih (p.fill c (rxBuf w (partFirst p) (partCount c p)) t)
      (readBytes c (partFirst p) (partCount c p) w).2 (by rw [hcalm.script, hquiet, List.drop_nil])
    simp only [rxBuf_of_spaces_eq hsp] at hread
    simp only [readParts, hspan]
    exact ⟨hread, ⟨_, hcalm.trans hrest⟩, hspaces.trans hsp⟩

-- ---------------------------------------------------------------- what the parts fill

section
variable {c : Cfg} (hl : c.rxLayout = RxLayout.default) (w : World) (t : TagRead)
include hl

theorem fill_epc (hel : c.epcLen ≤ 12) :
    TagPart.epc.fill c (rxBuf w (partFirst .epc) (partCount c .epc)) t =
      { t with
        pc := some (w.peek .rx 0x1C ++ w.peek .rx 0x1D)
        epc := (List.range 12).map fun k => if k < c.epcLen then some (w.peek .rx (0x1E + k)) else none
        crc := some (w.peek .rx (0x1E + c.epcLen) ++ w.peek .rx (0x1F + c.epcLen)) } := by
  have hbyte : ∀ k, 0x1C ≤ k → k < 0x1C + (c.epcLen + 4) →
      (rxBuf w (partFirst .epc) (partCount c .epc)).byte k = w.peek .rx k := fun k => rxBuf_byte w
  have hpc : c.rxLayout.tagPc.at c.epcLen = ⟨8 * 0x1C, 16⟩ := by simp [hl, RxLayout.default, FieldDesc.at]
  have hepc : (c.rxLayout.tagEpc.at c.epcLen).g = 8 * 0x1E := by simp [hl, RxLayout.default, FieldDesc.at]
  have hcrc : c.rxLayout.tagCrc.at c.epcLen = ⟨8 * (0x1E + c.epcLen), 16⟩ := by
    simp [hl, RxLayout.default, FieldDesc.at]
    omega
  have hlist : (rxBuf w (partFirst .epc) (partCount c .epc)).byteList (8 * 0x1E) c.epcLen
      = (List.range 12).map fun k => if k < c.epcLen then some (w.peek .rx (0x1E + k)) else none := by
    refine List.map_congr_left fun k _ => ?_
    split
    case isTrue hk =>
      rw [Buf.byteAt_eq]
      exact congrArg some (hbyte (0x1E + k) (by omega) (by omega))
    case isFalse => rfl
  have hlast : 0x1E + c.epcLen + 1 = 0x1F + c.epcLen := by omega
  simp only [TagPart.fill, hpc, hepc, hcrc, hlist, Buf.word16_aligned, hlast]
  rw [hbyte _ (by omega) (by omega), hbyte _ (by omega) (by omega), hbyte _ (by omega) (by omega), hbyte _ (by omega) (by omega)]

theorem fill_mag :
    TagPart.mag.fill c (rxBuf w (partFirst .mag) (partCount c .mag)) t =
      { t with
        magMain := some ((w.peek .rx 0x2C ++ w.peek .rx 0x2D ++ w.peek .rx 0x2E ++ w.peek .rx 0x2F
          ++ w.peek .rx 0x30).extractLsb' 4 32).toInt
        magAlt := some ((w.peek .rx 0x30 ++ w.peek .rx 0x31 ++ w.peek .rx 0x32 ++ w.peek .rx 0x33
          ++ w.peek .rx 0x34).extractLsb' 4 32).toInt } := by
  have hmain : c.rxLayout.magMain.at 0 = ⟨8 * 0x2C + 4, 32⟩ := by rw [hl]; rfl
  have halt : c.rxLayout.magAlt.at 0 = ⟨8 * 0x30 + 4, 32⟩ := by rw [hl]; rfl
  rw [TagPart.fill, hmain, halt, Buf.signed_nibble, Buf.signed_nibble]
  rfl

theorem fill_lna :
    TagPart.lna.fill c (rxBuf w (partFirst .lna) (partCount c .lna)) t = { t with lna := some (w.peek .rx 0x35) } := by
  have hlna : c.rxLayout.lna.at 0 = ⟨8 * 0x35, 8⟩ := by rw [hl]; rfl
  rw [TagPart.fill, hlna, Buf.field, (spells_byte _ 0x35).whole]
  rfl

end

/-- Settles O37. -/
theorem quietDecodeTagFields : Obligations.QuietDecodeTagFields := by
  rintro ch f s ⟨⟨hready, hquiet, -, hmap, husize⟩, hlayout, hlo, hhi⟩ - hel hzero el reads
  obtain ⟨hbyte, hstatus, hsp, -⟩ := readByte_calm (calm_of_quiet hquiet _) (addrOk_user (addr := 1) husize (by decide))
  have hexit : exitCodeOf s.cfg.userMap (readByte s.cfg .us statusAddr s.world).1 = 0 := by
    rw [hbyte, hmap]
    exact hzero
  have hexec : exec (.decTag ch f) s = .next (opDecTag ch f s) := State.command_of_ready hready _
  rw [opDecTag_eq, if_pos hexit] at hexec
  obtain ⟨hfill, ⟨m, hcalm⟩, hspaces⟩ := readParts_quiet hlayout hlo hhi hel (tagParts f) (recorded s ch true)
    (readByte s.cfg .us statusAddr s.world).2 (by rw [hstatus.script, hquiet, List.drop_nil])
  have hall := hstatus.trans hcalm
  obtain ⟨new, htrace, hsent, -⟩ := hall.ports
  obtain ⟨-, hworld, hres, -, -⟩ := putRes_finish_frame hready
    (readParts s.cfg (tagParts f) (recorded s ch true) (readByte s.cfg .us statusAddr s.world).2).2 ch
    (readParts s.cfg (tagParts f) (recorded s ch true) (readByte s.cfg .us statusAddr s.world).2).1 (.exitCode 0)
  refine ⟨_, new, hexec, (congrArg World.trace hworld).trans htrace, hsent.trans ?_,
    sameBytes_of_spaces_eq ((congrArg World.spaces hworld).trans (hspaces.trans hsp)),
    (congrArg World.ev hworld).trans hall.ev, hres.trans ?_⟩
  · have hif : ∀ (b : Bool) (p : TagPart),
        (if b then [p] else []).flatMap (fun p => spanQs s.cfg (partFirst p) (partCount s.cfg p))
          = if b then spanQs s.cfg (partFirst p) (partCount s.cfg p) else [] := by
      intro b p
      cases b <;> simp
    rw [tagParts, List.flatMap_append, List.flatMap_append, hif, hif, hif, ← List.append_assoc, ← List.append_assoc]
    rfl
  · rw [hfill]
    simp only [rxBuf_of_spaces_eq hsp, tagParts, List.foldl_append]
    rcases f with ⟨_ | _, _ | _, _ | _⟩ <;>
      simp [fill_epc hlayout _ _ hel, fill_mag hlayout, fill_lna hlayout, recorded, el]

end Sys2Proof.Machine
end

section
/-! One micro-step at a time (00_scope.md R11): where a number of micro-steps comes to, procedure by procedure, and the same
for a whole list of micro-steps: it comes to what running the list comes to (log 8). -/

namespace Sys2Proof.Machine

-- ---------------------------------------------------------------- some number of micro-steps

/-- Some number of micro-steps leads from one state to the other. -/
def Reaches (s t : State) : Prop := ∃ n, ticks n s = .next t

theorem Reaches.refl (s : State) : Reaches s s := ⟨0, rfl⟩

theorem Reaches.of_eq {s t : State} (h : s = t) : Reaches s t := h ▸ .refl s

theorem Reaches.head {s s1 t : State} (h : tick s = .next s1) (h' : Reaches s1 t) : Reaches s t := by
  obtain ⟨n, hn⟩ := h'
  exact ⟨n + 1, by simp only [ticks, h, hn]⟩

theorem ticks_add (m n : Nat) {s u : State} (h : ticks m s = .next u) : ticks (m + n) s = ticks n u := by
  induction m generalizing s with
  | zero => cases h; rw [Nat.zero_add]
  | succ m ih =>
    rw [Nat.succ_add]
    simp only [ticks] at h ⊢
    split at h
    case h_1 t ht => exact ih h
    case h_2 => cases h
    case h_3 => cases h

theorem Reaches.trans {s u t : State} (h : Reaches s u) (h' : Reaches u t) : Reaches s t := by
  obtain ⟨m, hm⟩ := h
  obtain ⟨n, hn⟩ := h'
  exact ⟨m + n, (ticks_add m n hm).trans hn⟩

/-- A micro-step does not see the sequencing state it is taken from. -/
theorem microStep_at (m : Micro) (code code' : List Micro) (x x' : Locals) (s : State) :
    microStep m code x (s.at code' x') = microStep m code x s := by
  cases m with
  | attempts spc addr v mask n => cases n <;> rfl
  | polls n => cases n <;> rfl
  | bytes a n => cases n <;> rfl
  | tagStatus ch | tagPart ch | failed ch => cases ch <;> rfl
  | _ => rfl

theorem reaches_micro {m : Micro} {code : List Micro} {x : Locals} {s t : State} (h : Reaches (microStep m code x s) t) :
    Reaches (s.at (m :: code) x) t :=
  .head (by rw [← microStep_at m code (m :: code) x x]; rfl) h

/-- One micro-step, written out. -/
theorem reaches_of_microStep {m : Micro} {code : List Micro} {x : Locals} {s t : State} (h : microStep m code x s = t) :
    Reaches (s.at (m :: code) x) t :=
  reaches_micro (.of_eq h)

-- ---------------------------------------------------------------- the procedures

theorem reaches_xfer (spc : Space) (write : Bool) (addr : Addr) (v : Byte) (code : List Micro) (x : Locals) (s : State) :
    Reaches (s.at (.xfer spc write addr v :: code) x)
      ({ s with world := (xfer s.cfg (encodeTxn ⟨spc, write, addr⟩ v) s.world).2 }.at code
        { x with got := (xfer s.cfg (encodeTxn ⟨spc, write, addr⟩ v) s.world).1.b3 }) :=
  reaches_of_microStep rfl

theorem reaches_readCode (spc : Space) (addr : Addr) (code : List Micro) (x : Locals) (s : State) :
    Reaches (s.at (readCode s.cfg spc addr ++ code) x)
      ({ s with world := (readByte s.cfg spc addr s.world).2 }.at code
        { x with got := (readByte s.cfg spc addr s.world).1 }) := by
  cases hr : s.cfg.readReturn with
  | same =>
    rw [readCode, hr, readByte_same _ _ _ hr]
    exact reaches_xfer spc false addr 0 code x s
  | previous =>
    rw [readCode, hr, readByte_previous _ _ _ hr]
    exact (reaches_xfer spc false addr 0 _ x s).trans (reaches_xfer spc false addr 0 _ _ _)

/-- A verified write: the rest with its world, or its fault. -/
theorem reaches_attempts (spc : Space) (addr : Addr) (v mask : Byte) (n : Nat) (code : List Micro) : ∀ (x : Locals) (s : State),
    let r := verifyLoop s.cfg spc addr v mask n s.world
    Reaches (s.at (.attempts spc addr v mask n :: code) x)
      (if r.1 then { s with world := r.2 }.at code { x with got := 0 } else { s with world := r.2 }.raise .writeVerifyFail) := by
  induction n with
  | zero => exact fun x s => reaches_of_microStep rfl
  | succ n ih =>
    intro x s
    refine reaches_micro (((reaches_xfer spc true addr v _ x s).trans (reaches_readCode spc addr _ _ _)).trans ?_)
    by_cases hmatch : (readByte s.cfg spc addr (writeByte s.cfg spc addr v s.world)).1 &&& mask = v &&& mask
    · refine reaches_of_microStep ?_
      simp only [verifyLoop, hmatch, if_true]
      exact if_pos hmatch
    · refine reaches_micro ?_
      simp only [verifyLoop, hmatch, if_false]
      exact Reaches.trans (.of_eq (if_neg hmatch)) (ih _ _)

/-- A verified write that succeeds. -/
theorem reaches_writeV {spc : Space} {addr : Addr} {v mask : Byte} {s : State} {w : World}
    (h : writeV s.cfg spc addr v mask s.world = (none, w)) (code : List Micro) (x : Locals) :
    Reaches (s.at (writeVCode spc addr v mask ++ code) x) ({ s with world := w }.at code { x with got := 0 }) := by
  have hrun := reaches_attempts spc addr v mask Config.writeVerifyAttempts code x s
  obtain ⟨hok, rfl⟩ := Prod.mk.inj h
  exact hrun.trans (.of_eq (if_pos (by simpa using hok)))

/-- A verified write that faults. -/
theorem reaches_writeV_fault {spc : Space} {addr : Addr} {v mask : Byte} {s : State} {w : World} {f : FaultCode}
    (h : writeV s.cfg spc addr v mask s.world = (some f, w)) (code : List Micro) (x : Locals) :
    Reaches (s.at (writeVCode spc addr v mask ++ code) x) ({ s with world := w }.raise f) := by
  have hrun := reaches_attempts spc addr v mask Config.writeVerifyAttempts code x s
  obtain ⟨hfail, rfl⟩ := Prod.mk.inj h
  split at hfail
  case isTrue => cases hfail
  case isFalse hno =>
    cases hfail
    exact hrun.trans (.of_eq (if_neg hno))

theorem reaches_compare (spc : Space) (addr : Addr) (v mask : Byte) (n : Nat) (code : List Micro) (x : Locals) (s : State) :
    let r := verifyLoop s.cfg spc addr v mask n s.world
    Reaches (s.at (.compare spc addr v mask n :: code) x)
      (if x.got &&& mask = v &&& mask then s.at code { x with got := 0 }
      else if r.1 then { s with world := r.2 }.at code { x with got := 0 }
      else { s with world := r.2 }.raise .writeVerifyFail) := by
  refine reaches_micro ?_
  by_cases hmatch : x.got &&& mask = v &&& mask
  · simp only [microStep, hmatch, if_true]
    exact .refl _
  · simp only [microStep, hmatch, if_false]
    exact reaches_attempts spc addr v mask n code x s

/-- The polls of the bridge: the rest with their world, or the timeout. -/
theorem reaches_polls (n : Nat) (code : List Micro) : ∀ (x : Locals) (s : State),
    let r := pollLoop s.cfg n s.world
    Reaches (s.at (.polls n :: code) x)
      (if r.1 then { s with world := r.2 }.at code { x with got := 0 } else { s with world := r.2 }.raise .bridgeTimeout) := by
  induction n with
  | zero => exact fun x s => reaches_of_microStep rfl
  | succ n ih =>
    intro x s
    refine reaches_micro ((reaches_readCode .us brCtrlAddr _ x s).trans ?_)
    by_cases hdone : brDoneOf s.cfg.userMap (readByte s.cfg .us brCtrlAddr s.world).1 = true
    · refine reaches_of_microStep ?_
      simp only [pollLoop, hdone, if_true]
      exact if_pos hdone
    · refine reaches_micro ?_
      simp only [pollLoop, hdone]
      exact Reaches.trans (.of_eq (if_neg hdone)) (ih _ _)

theorem reaches_pollTest (n : Nat) (code : List Micro) (x : Locals) (s : State) :
    let r := pollLoop s.cfg n s.world
    Reaches (s.at (.pollTest n :: code) x)
      (if brDoneOf s.cfg.userMap x.got then s.at code { x with got := 0 }
      else if r.1 then { s with world := r.2 }.at code { x with got := 0 }
      else { s with world := r.2 }.raise .bridgeTimeout) := by
  refine reaches_micro ?_
  by_cases hdone : brDoneOf s.cfg.userMap x.got = true
  · simp only [microStep, hdone, if_true]
    exact .refl _
  · simp only [microStep, hdone]
    exact reaches_polls n code x s

theorem reaches_bytes (n : Nat) (code : List Micro) : ∀ (a : Nat) (x : Locals) (s : State),
    Reaches (s.at (.bytes a n :: code) x)
      ({ s with world := (readBytes s.cfg a n s.world).2 }.at code
        { x with got := 0, buf := ⟨x.buf.first, x.buf.bytes ++ (readBytes s.cfg a n s.world).1⟩ }) := by
  induction n with
  | zero =>
    intro a x s
    refine reaches_of_microStep ?_
    simp only [readBytes, List.append_nil]
    rfl
  | succ n ih =>
    intro a x s
    refine reaches_micro (((reaches_readCode .rx _ _ x s).trans (reaches_micro ((ih (a + 1) _ _).trans (.of_eq ?_)))))
    simp only [readBytes, List.append_assoc]
    rfl

-- ---------------------------------------------------------------- waits

theorem measureWait_congr {c : Cfg} {w w' : World}
    (h : waitFlag c .sampleReady { w with adcTrigger := false } = waitFlag c .sampleReady { w' with adcTrigger := false }) :
    measureWait c w = measureWait c w' := by
  simp only [measureWait, h]

/-- A turn of the environment during a wait. -/
theorem waitFlag_turn {c : Cfg} {e : Event} {w : World} (hflag : w.ev.get e = false) (hs : w.script ≠ []) :
    waitFlag c e (w.envTurn c) = waitFlag c e w := by
  obtain ⟨batch, rest, hs⟩ := List.exists_cons_of_ne_nil hs
  have hrest : (w.envTurn c).script = rest := by rw [World.envTurn_script, hs]; rfl
  rw [waitFlag, waitFlag, hrest, hs, waitLoop, hflag, ← World.envTurn_batch hs]
  rfl

theorem opEvwait_turn {e : Event} {s : State} (hflag : s.world.ev.get e = false) (hs : s.world.script ≠ []) :
    opEvwait e { s with world := s.world.envTurn s.cfg } = opEvwait e s := by
  simp only [opEvwait, waitFlag_turn hflag hs]

/-- A turn while the block is held. -/
theorem heldTurn_next {e : Event} {s : State} (h : s.world.script ≠ []) :
    heldTurn e s = .next { s with world := s.world.envTurn s.cfg } := if_neg h

theorem tick_evWait {e : Event} {s : State} (h : s.seq = .evWait e) :
    tick s = if s.world.ev.get e then .next (s.at [.clear e, .ret .unit] Locals.start) else heldTurn e s := by
  rw [tick, h]

theorem tick_cal {k : CalAt} {s : State} (h : s.seq = k.held) : tick s = heldCal k s := by
  cases k with
  | brute a b => rw [tick, h]; rfl
  | grad g => rw [tick, h]; rfl

/-- A held `EVWAIT` going on. -/
theorem reaches_evWait (e : Event) (s : State) (hseq : s.seq = .evWait e) : Reaches s (opEvwait e s) := by
  generalize hl : s.world.script = l
  induction l generalizing s with
  | nil =>
    cases hflag : s.world.ev.get e with
    | true =>
      rw [opEvwait_set hflag]
      exact .head ((tick_evWait hseq).trans (if_pos hflag)) (reaches_micro (reaches_of_microStep rfl))
    | false =>
      refine .of_eq ?_
      simp only [opEvwait, waitFlag_held hflag hl, ← hseq]
  | cons batch rest ih =>
    cases hflag : s.world.ev.get e with
    | true =>
      rw [opEvwait_set hflag]
      exact .head ((tick_evWait hseq).trans (if_pos hflag)) (reaches_micro (reaches_of_microStep rfl))
    | false =>
      have hne : s.world.script ≠ [] := by rw [hl]; exact List.cons_ne_nil _ _
      have htick : tick s = .next { s with world := s.world.envTurn s.cfg } := by
        rw [tick_evWait hseq, hflag, if_neg (by decide), heldTurn_next hne]
      rw [← opEvwait_turn hflag hne]
      exact .head htick (ih { s with world := s.world.envTurn s.cfg } hseq (by rw [World.envTurn_script, hl]; rfl))

-- ---------------------------------------------------------------- the wait of a measurement

/-- Where a calibration stands when a measurement has ended: at the sample it has drawn, held, or at its fault. -/
def measured (k : CalAt) (r : Meas × World) (s : State) (x : Locals) : State :=
  match r.1 with
  | .sample v => { s with world := r.2 }.at [.take k] { x with sample := v }
  | .held => { s with world := r.2, seq := k.held }
  | .fault f => { s with world := r.2 }.raise f

/-- Where it stands behind the wait of a measurement. -/
def waited (k : CalAt) (s : State) (x : Locals) : State := measured k (measureWait s.cfg s.world) s x

/-- The trigger is over when the wait begins. -/
def State.settled (s : State) : State := { s with world := { s.world with adcTrigger := false } }

/-- The state after a turn of the environment during the wait of a measurement. -/
def State.turned (s : State) : State := { s.settled with world := s.settled.world.envTurn s.cfg }

theorem reaches_awaited {k : CalAt} {s : State} (hflag : s.world.ev.get .sampleReady = true) (x : Locals) :
    Reaches (s.settled.at (awaited k) x) (waited k s x) := by
  have hwait : waitFlag s.cfg .sampleReady { s.world with adcTrigger := false } = (true, { s.world with adcTrigger := false }) :=
    waitFlag_set hflag
  refine reaches_micro (reaches_of_microStep ?_)
  simp only [waited, measured, measureWait, hwait]
  rfl

theorem waited_turned {k : CalAt} {s : State} (hflag : s.world.ev.get .sampleReady = false) (hs : s.world.script ≠ [])
    (x : Locals) : waited k s.turned x = waited k s x := by
  have hturn : waitFlag s.cfg .sampleReady ({ s.world with adcTrigger := false }.envTurn s.cfg)
      = waitFlag s.cfg .sampleReady { s.world with adcTrigger := false } := waitFlag_turn hflag hs
  have hlow : { s.turned.world with adcTrigger := false } = s.settled.world.envTurn s.cfg := by
    have htrig : (s.settled.world.envTurn s.cfg).adcTrigger = false := by simp [State.settled]
    rw [← htrig]
    rfl
  have hwait : measureWait s.turned.cfg s.turned.world = measureWait s.cfg s.world :=
    measureWait_congr ((congrArg (waitFlag s.cfg .sampleReady) hlow).trans hturn)
  rw [waited, hwait]
  rfl

theorem tick_turned {k : CalAt} {s : State} (hseq : s.seq = k.held) (hflag : s.world.ev.get .sampleReady = false)
    (hs : s.world.script ≠ []) : tick s = .next s.turned := by
  rw [tick_cal hseq, heldCal, hflag, if_neg (by decide)]
  exact heldTurn_next (s := s.settled) hs

theorem tick_answered {k : CalAt} {s : State} (hseq : s.seq = k.held) (hflag : s.world.ev.get .sampleReady = true) :
    tick s = .next (s.settled.at (awaited k) Locals.start) := by
  rw [tick_cal hseq, heldCal, hflag]
  rfl

/-- A held measurement going on, its trigger over. -/
theorem reaches_waited {k : CalAt} (s : State) (hseq : s.seq = k.held) (htrig : s.world.adcTrigger = false) :
    ∃ x, Reaches s (waited k s x) := by
  generalize hl : s.world.script = l
  induction l generalizing s with
  | nil =>
    cases hflag : s.world.ev.get .sampleReady with
    | true => exact ⟨Locals.start, .head (tick_answered hseq hflag) (reaches_awaited hflag _)⟩
    | false =>
      refine ⟨Locals.start, .of_eq ?_⟩
      simp only [waited, measured, measureWait_quiet hflag hl, ← hseq, ← htrig]
  | cons batch rest ih =>
    cases hflag : s.world.ev.get .sampleReady with
    | true => exact ⟨Locals.start, .head (tick_answered hseq hflag) (reaches_awaited hflag _)⟩
    | false =>
      have hne : s.world.script ≠ [] := by rw [hl]; exact List.cons_ne_nil _ _
      obtain ⟨x, hx⟩ := ih s.turned hseq (by simp [State.turned, State.settled])
        (by simp [State.turned, State.settled, hl])
      rw [waited_turned hflag hne] at hx
      exact ⟨x, .head (tick_turned hseq hflag hne) hx⟩

/-- A held measurement going on, with something left to wait for. -/
theorem reaches_waited_of_live {k : CalAt} {s : State} (hseq : s.seq = k.held)
    (hlive : ¬(s.world.ev.get .sampleReady = false ∧ s.world.script = [])) : ∃ x, Reaches s (waited k s x) := by
  cases hflag : s.world.ev.get .sampleReady with
  | true => exact ⟨Locals.start, .head (tick_answered hseq hflag) (reaches_awaited hflag _)⟩
  | false =>
    have hne : s.world.script ≠ [] := fun h => hlive ⟨hflag, h⟩
    obtain ⟨x, hx⟩ := reaches_waited (k := k) s.turned hseq (by simp [State.turned, State.settled])
    rw [waited_turned hflag hne] at hx
    exact ⟨x, .head (tick_turned hseq hflag hne) hx⟩

theorem reaches_await (k : CalAt) (code : List Micro) (x : Locals) (s : State) :
    ∃ x', Reaches (s.at (.await k :: code) x) (waited k s x') := by
  cases hflag : s.world.ev.get .sampleReady with
  | true => exact ⟨x, reaches_micro (Reaches.trans (.of_eq (if_pos hflag)) (reaches_awaited hflag x))⟩
  | false =>
    obtain ⟨x', hx⟩ := reaches_waited (k := k) { s.settled with seq := k.held } rfl rfl
    exact ⟨x', reaches_micro (Reaches.trans (.of_eq (if_neg (by rw [hflag]; decide))) hx)⟩

-- ---------------------------------------------------------------- the calibrations

/-- The micro-steps of what a calibration asks for. -/
def askCode (c : Cfg) (t : Toc) : CalAsk → List Micro
  | .point k a b => measureCode c a b k
  | .done exit => finishCode c t exit

/-- The micro-steps behind a sample are those of what the calibration asks for then. -/
theorem takeSample_eq (c : Cfg) (v : Nat) (t : Toc) (k : CalAt) :
    takeSample c v t k = ((calNext c k v t).1, askCode c (calNext c k v t).1 (calNext c k v t).2) := by
  cases k with
  | brute a b =>
    simp only [takeSample, calNext]
    cases sweepAfter a b <;> rfl
  | grad g =>
    simp only [takeSample, calNext]
    rcases gradNext c g v t with ⟨t', ask⟩
    cases ask <;> rfl

theorem reaches_take_code (k : CalAt) (code : List Micro) (x : Locals) (s : State) :
    let next := calNext s.cfg k x.sample s.toc
    Reaches (s.at (.take k :: code) x) ({ s with toc := next.1 }.at (askCode s.cfg next.1 next.2) x) := by
  refine reaches_of_microStep ?_
  simp only [microStep, takeSample_eq]

/-- A measurement: its verified write, then its wait. -/
theorem reaches_measureCode (k : CalAt) (a b : Offset) (x : Locals) (s : State) :
    ∃ x', Reaches (s.at (measureCode s.cfg a b k) x) (measured k (measure s.cfg a b s.world) s x') := by
  rcases hwrite : writeV s.cfg .us txofsAddr (txofsByte s.cfg.userMap a b) 0xFF s.world with ⟨_ | f, w⟩
  case none =>
    have hmeasure : measure s.cfg a b s.world = measureWait s.cfg (pulseAdc s.cfg (clearFlag s.cfg .sampleReady w)) := by
      simp only [measure, hwrite]
    obtain ⟨x', hwait⟩ := reaches_await k [] { x with got := 0 }
      { s with world := pulseAdc s.cfg (clearFlag s.cfg .sampleReady w) }
    rw [hmeasure]
    exact ⟨x', (reaches_writeV hwrite _ x).trans (reaches_micro (reaches_micro hwait))⟩
  case some =>
    have hmeasure : measure s.cfg a b s.world = (.fault f, w) := by simp only [measure, hwrite]
    rw [hmeasure]
    exact ⟨x, reaches_writeV_fault hwrite _ x⟩

/-- The end of a calibration. -/
theorem reaches_finishCode (exit : CalExit) (x : Locals) (s : State) :
    Reaches (s.at (finishCode s.cfg s.toc exit) x) (calFinish exit s) := by
  rcases hwrite : writeV s.cfg .us txofsAddr (txofsByte s.cfg.userMap (s.toc.calA.getD 0) (s.toc.calB.getD 0)) 0xFF s.world
    with ⟨_ | f, w⟩
  case none =>
    refine (reaches_writeV hwrite _ x).trans (reaches_of_microStep ?_)
    simp only [calFinish, hwrite]
    rfl
  case some =>
    refine (reaches_writeV_fault hwrite _ x).trans (.of_eq ?_)
    simp only [calFinish, hwrite]

/-- A calibration comes to its end, its fault or its hold, measurement by measurement. -/
theorem reaches_askRun (ask : CalAsk) (s : State) : ∀ x, Reaches (s.at (askCode s.cfg s.toc ask) x) (askRun ask s) := by
  refine askRun_induct (P := fun ask s t => ∀ x, Reaches (s.at (askCode s.cfg s.toc ask) x) t) ?done ?fault ?held ?sample ask s
  case done => exact fun exit s x => reaches_finishCode exit x s
  case fault =>
    intro k a b s f w hm x
    obtain ⟨x', hx⟩ := reaches_measureCode k a b x s
    rw [hm] at hx
    exact hx
  case held =>
    intro k a b s w hm x
    obtain ⟨x', hx⟩ := reaches_measureCode k a b x s
    rw [hm] at hx
    exact hx
  case sample =>
    intro k a b s v w t hm ih x
    obtain ⟨x', hx⟩ := reaches_measureCode k a b x s
    rw [hm] at hx
    exact hx.trans ((reaches_take_code k [] { x' with sample := v } { s with world := w }).trans (ih _))

/-- A sample taken into account, and the calibration going on. -/
theorem reaches_take (k : CalAt) (code : List Micro) (x : Locals) (s : State) :
    Reaches (s.at (.take k :: code) x) (goOn k x.sample s) := by
  rw [goOn_eq]
  exact (reaches_take_code k code x s).trans (reaches_askRun _ { s with toc := (calNext s.cfg k x.sample s.toc).1 } x)

/-- Behind its wait a held calibration goes on. -/
theorem reaches_resumeCal (k : CalAt) (s : State) (x : Locals) : Reaches (waited k s x) (resumeCal k s) := by
  rw [resumeCal_eq, waited]
  rcases measureWait s.cfg s.world with ⟨_ | _ | _, w⟩
  case sample v => exact reaches_take k [] { x with sample := v } { s with world := w }
  case fault => exact .refl _
  case held => exact .refl _

-- ---------------------------------------------------------------- a list of micro-steps

/-- The micro-steps of a list come to what running it comes to. -/
theorem reaches_runCode (code : List Micro) : ∀ (x : Locals) (s : State), Reaches (s.at code x) (runCode code x s) := by
  induction code with
  | nil => exact fun x s => .head (s1 := { s with seq := .idle }) rfl (.refl _)
  | cons m code ih =>
    intro x s
    cases m with
    | attempts spc addr v mask n =>
      refine (reaches_attempts spc addr v mask n code x s).trans ?_
      simp only [runCode]
      split
      case isTrue => exact ih _ _
      case isFalse => exact .refl _
    | compare spc addr v mask n =>
      refine (reaches_compare spc addr v mask n code x s).trans ?_
      simp only [runCode]
      split
      case isTrue => exact ih _ _
      case isFalse =>
        split
        case isTrue => exact ih _ _
        case isFalse => exact .refl _
    | polls n =>
      refine (reaches_polls n code x s).trans ?_
      simp only [runCode]
      split
      case isTrue => exact ih _ _
      case isFalse => exact .refl _
    | pollTest n =>
      refine (reaches_pollTest n code x s).trans ?_
      simp only [runCode]
      split
      case isTrue => exact ih _ _
      case isFalse =>
        split
        case isTrue => exact ih _ _
        case isFalse => exact .refl _
    | bytes a n => exact (reaches_bytes n code a x s).trans (ih _ _)
    | hold e =>
      cases hflag : s.world.ev.get e with
      | true =>
        refine reaches_micro (Reaches.trans (.of_eq (if_pos hflag)) (reaches_micro (reaches_of_microStep ?_)))
        rw [runCode, opEvwait_set hflag]
        rfl
      | false =>
        have hheld : Reaches { s with seq := .evWait e } (opEvwait e s) := reaches_evWait e { s with seq := .evWait e } rfl
        exact reaches_micro (Reaches.trans (.of_eq (if_neg (by rw [hflag]; decide))) hheld)
    | await k =>
      obtain ⟨x', hx⟩ := reaches_await k code x s
      exact hx.trans (reaches_resumeCal k s x')
    | take k => exact reaches_take k code x s
    | tagStatus ch =>
      refine reaches_micro ?_
      simp only [microStep, runCode]
      split
      case isTrue => exact .refl _
      case isFalse => exact ih _ _
    | calDone | reply | retByte | ret => exact reaches_of_microStep rfl
    | _ => exact reaches_micro (ih _ _)

end Sys2Proof.Machine
end

section
/-! The micro-steps a command stands for: running them all is the command's operation. -/

namespace Sys2Proof.Machine

-- ---------------------------------------------------------------- the bridge

/-- A bridge operation up to the last of its polls: its fault, if any. -/
def bridgeMoved (c : Cfg) (wnr : Bool) (sa v : Byte) (w : World) : Option FaultCode × World :=
  match writeV c .us brAddrAddr (brAddrByte c.userMap wnr sa) 0xFF w with
  | (some f, w1) => (some f, w1)
  | (none, w1) =>
    match (if wnr then writeV c .us brWdataAddr v 0xFF w1 else (none, w1)) with
    | (some f, w2) => (some f, w2)
    | (none, w2) =>
      let p := pollLoop c c.bridgePollMax (writeByte c .us brCtrlAddr (brStartByte c.userMap) w2)
      (if p.1 then none else some .bridgeTimeout, p.2)

theorem bridge_of_moved {c : Cfg} {wnr : Bool} {sa v : Byte} {w w' : World} (h : bridgeMoved c wnr sa v w = (none, w')) :
    bridge c wnr sa v w =
      if wnr then (.ok 0, w') else (.ok (readByte c .us brRdataAddr w').1, (readByte c .us brRdataAddr w').2) := by
  unfold bridgeMoved at h
  split at h
  case h_1 => cases h
  case h_2 w1 haddr =>
    split at h
    case h_1 => cases h
    case h_2 w2 hdata =>
      rw [bridge_of_started haddr hdata, bridgePolled]
      obtain ⟨hok, rfl⟩ := Prod.mk.inj h
      exact if_pos (by simpa using hok)

theorem bridge_of_fault {c : Cfg} {wnr : Bool} {sa v : Byte} {w w' : World} {f : FaultCode}
    (h : bridgeMoved c wnr sa v w = (some f, w')) : bridge c wnr sa v w = (.error f, w') := by
  unfold bridgeMoved at h
  split at h
  case h_1 haddr => cases h; simp only [bridge, haddr]
  case h_2 w1 haddr =>
    split at h
    case h_1 hdata => cases h; simp only [bridge, haddr, hdata]
    case h_2 w2 hdata =>
      rw [bridge_of_started haddr hdata, bridgePolled]
      obtain ⟨hno, rfl⟩ := Prod.mk.inj h
      split at hno
      case isTrue => cases hno
      case isFalse hfalse => cases hno; exact if_neg hfalse

/-- A verified write in a list of micro-steps that succeeds. -/
theorem runCode_writeV_ok {spc : Space} {addr : Addr} {v mask : Byte} {s : State} {w : World}
    (h : writeV s.cfg spc addr v mask s.world = (none, w)) (code : List Micro) (x : Locals) :
    runCode (writeVCode spc addr v mask ++ code) x s = runCode code { x with got := 0 } { s with world := w } := by
  rw [runCode_writeV, h]

theorem runCode_writeV_fault {spc : Space} {addr : Addr} {v mask : Byte} {s : State} {w : World} {f : FaultCode}
    (h : writeV s.cfg spc addr v mask s.world = (some f, w)) (code : List Micro) (x : Locals) :
    runCode (writeVCode spc addr v mask ++ code) x s = { s with world := w }.raise f := by
  rw [runCode_writeV, h]

/-- The start of a transfer and its polls in a list of micro-steps. -/
theorem runCode_polled (y : Byte) (n : Nat) (code : List Micro) (x : Locals) (s : State) :
    let p := pollLoop s.cfg n (writeByte s.cfg .us brCtrlAddr y s.world)
    runCode (.xfer .us true brCtrlAddr y :: .polls n :: code) x s =
      if p.1 then runCode code { x with got := 0 } { s with world := p.2 } else { s with world := p.2 }.raise .bridgeTimeout := rfl

theorem runCode_bridgeCode {wnr : Bool} {sa v : Byte} {s : State} {w : World} {o : Option FaultCode}
    (h : bridgeMoved s.cfg wnr sa v s.world = (o, w)) (code : List Micro) (x : Locals) :
    runCode (bridgeCode s.cfg wnr sa v ++ code) x s =
      o.elim (runCode code { x with got := 0 } { s with world := w }) { s with world := w }.raise := by
  have hcode : bridgeCode s.cfg wnr sa v ++ code =
      writeVCode .us brAddrAddr (brAddrByte s.cfg.userMap wnr sa) 0xFF
        ++ ((if wnr then writeVCode .us brWdataAddr v 0xFF else [])
          ++ (.xfer .us true brCtrlAddr (brStartByte s.cfg.userMap) :: .polls s.cfg.bridgePollMax :: code)) := by
    simp [bridgeCode]
  rw [hcode]
  unfold bridgeMoved at h
  split at h
  case h_1 f w1 haddr => cases h; exact runCode_writeV_fault haddr _ _
  case h_2 w1 haddr =>
    rw [runCode_writeV_ok haddr]
    split at h
    case h_1 f w2 hdata => 
      cases wnr with
      | false => cases hdata
      | true => cases h; exact runCode_writeV_fault (s := { s with world := w1 }) hdata _ _
    case h_2 w2 hdata =>
      have hdata' : runCode ((if wnr then writeVCode .us brWdataAddr v 0xFF else [])
          ++ (.xfer .us true brCtrlAddr (brStartByte s.cfg.userMap) :: .polls s.cfg.bridgePollMax :: code)) { x with got := 0 }
            { s with world := w1 }
          = runCode (.xfer .us true brCtrlAddr (brStartByte s.cfg.userMap) :: .polls s.cfg.bridgePollMax :: code)
            { x with got := 0 } { s with world := w2 } := by
        cases wnr with
        | false => cases hdata; rfl
        | true => exact runCode_writeV_ok (s := { s with world := w1 }) hdata _ _
      rw [hdata', runCode_polled]
      obtain ⟨ho, rfl⟩ := Prod.mk.inj h
      subst ho
      dsimp only
      split <;> rfl

-- ---------------------------------------------------------------- the retunes

theorem runCode_sdrWrites {c : Cfg} (code : List Micro) (l : List (Byte × Byte)) : ∀ (x : Locals) (s : State), s.cfg = c →
    ∃ x', runCode (l.flatMap (fun p => bridgeCode c true p.1 p.2) ++ code) x s =
      (sdrWrites c l s.world).1.elim (runCode code x' { s with world := (sdrWrites c l s.world).2 })
        { s with world := (sdrWrites c l s.world).2 }.raise := by
  induction l with
  | nil => exact fun x s _ => ⟨x, rfl⟩
  | cons p rest ih =>
    intro x s hc
    subst hc
    rw [List.flatMap_cons, List.append_assoc]
    rcases hmoved : bridgeMoved s.cfg true p.1 p.2 s.world with ⟨_ | f, w⟩
    case none =>
      have hwrites : sdrWrites s.cfg (p :: rest) s.world = sdrWrites s.cfg rest w := by
        simp only [sdrWrites, sdrWrite, bridge_of_moved hmoved, if_true]
      rw [runCode_bridgeCode hmoved, hwrites]
      exact ih _ { s with world := w } rfl
    case some =>
      have hwrites : sdrWrites s.cfg (p :: rest) s.world = (some f, w) := by
        simp only [sdrWrites, sdrWrite, bridge_of_fault hmoved]
      rw [runCode_bridgeCode hmoved, hwrites]
      exact ⟨x, rfl⟩

theorem runCode_tuneCode (ch : Channel) (code : List Micro) (x : Locals) (s : State) :
    ∃ x', runCode (tuneCode s.cfg s.fac.tunedChannel ch ++ code) x s =
      (tune ch s).1.elim (runCode code x' (tune ch s).2) (tune ch s).2.raise := by
  obtain ⟨x', hx⟩ := runCode_sdrWrites (.tuned s.fac.tunedChannel ch :: code) (tuneWrites s.cfg ch) x
    { s with fac := { s.fac with tunedChannel := none } } rfl
  have hcode : runCode (tuneCode s.cfg s.fac.tunedChannel ch ++ code) x s =
      runCode ((tuneWrites s.cfg ch).flatMap (fun p => bridgeCode s.cfg true p.1 p.2) ++ (.tuned s.fac.tunedChannel ch :: code)) x
        { s with fac := { s.fac with tunedChannel := none } } := by
    rw [tuneCode, List.append_assoc, List.append_assoc]
    rfl
  refine ⟨x', hcode.trans (hx.trans ?_)⟩
  simp only [tune]
  cases (sdrWrites s.cfg (tuneWrites s.cfg ch) s.world).1 <;> rfl

-- ---------------------------------------------------------------- the decodes

theorem putRes_world_comm (s : State) (ch : Chan) (r : TagRead) (w : World) :
    { s with world := w }.putRes ch r = { s.putRes ch r with world := w } := by
  cases ch <;> rfl

theorem putRes_putRes (s : State) (ch : Chan) (r r' : TagRead) : (s.putRes ch r).putRes ch r' = s.putRes ch r' := by
  cases ch <;> rfl

theorem putRes_self (s : State) (ch : Chan) : s.putRes ch (s.res ch) = s := by
  cases ch <;> rfl

theorem res_world (s : State) (ch : Chan) (w : World) : { s with world := w }.res ch = s.res ch := by
  cases ch <;> rfl

theorem runCode_tagParts {c : Cfg} (ch : Chan) (code : List Micro) (parts : List TagPart) : ∀ (x : Locals) (s : State), s.cfg = c →
    ∃ x', runCode (parts.flatMap (fun p => spanCode (p.fields c) ++ [.tagPart ch p]) ++ code) x s =
      runCode code x' ({ s with world := (readParts c parts (s.res ch) s.world).2 }.putRes ch
        (readParts c parts (s.res ch) s.world).1) := by
  induction parts with
  | nil =>
    intro x s _
    exact ⟨x, congrArg (runCode code x) (putRes_self s ch).symm⟩
  | cons p ps ih =>
    intro x s hc
    subst hc
    have hrun : ∀ rest, runCode (spanCode (p.fields s.cfg) ++ (.tagPart ch p :: rest)) x s =
        runCode rest { x with got := 0, buf := (readSpan s.cfg (p.fields s.cfg) s.world).1 }
          ({ s with world := (readSpan s.cfg (p.fields s.cfg) s.world).2 }.putRes ch
            (p.fill s.cfg (readSpan s.cfg (p.fields s.cfg) s.world).1 (s.res ch))) := by
      intro rest
      rw [runCode_span, runCode, res_world]
    obtain ⟨x', hx⟩ := ih { x with got := 0, buf := (readSpan s.cfg (p.fields s.cfg) s.world).1 }
      ({ s with world := (readSpan s.cfg (p.fields s.cfg) s.world).2 }.putRes ch
        (p.fill s.cfg (readSpan s.cfg (p.fields s.cfg) s.world).1 (s.res ch))) (State.putRes_cfg _ _ _)
    refine ⟨x', ?_⟩
    rw [List.flatMap_cons, List.append_assoc, List.append_assoc, List.singleton_append, hrun, hx, State.res_putRes,
      State.putRes_world, ← putRes_world_comm, putRes_putRes]
    rfl

/-- A measurement in a list of micro-steps, and the calibration going on from it. -/
theorem runCode_measureCode (k : CalAt) (a b : Offset) (x : Locals) (s : State) :
    runCode (measureCode s.cfg a b k) x s = askRun (.point k a b) s := by
  rcases hwrite : writeV s.cfg .us txofsAddr (txofsByte s.cfg.userMap a b) 0xFF s.world with ⟨_ | f, w⟩
  case none =>
    have hmeasure : measure s.cfg a b s.world = measureWait s.cfg (pulseAdc s.cfg (clearFlag s.cfg .sampleReady w)) := by
      simp only [measure, hwrite]
    have hrun : runCode (measureCode s.cfg a b k) x s =
        resumeCal k { s with world := pulseAdc s.cfg (clearFlag s.cfg .sampleReady w) } := runCode_writeV_ok hwrite _ x
    rw [hrun, resumeCal_eq, askRun, hmeasure]
  case some =>
    have hmeasure : measure s.cfg a b s.world = (.fault f, w) := by simp only [measure, hwrite]
    rw [askRun, hmeasure]
    exact runCode_writeV_fault hwrite _ x

-- ---------------------------------------------------------------- every command

/-- The micro-steps of a command, run, are its operation; its rejection is the operation's. -/
def CodeRuns (o : Option (Except RejectCode (List Micro))) (run : State → State) (s : State) : Prop :=
  match o with
  | none => True
  | some (.error r) => run s = s.reject r
  | some (.ok code) => runCode code Locals.start s = run s

theorem codeRuns_read (spc : Space) (addr : Addr) (s : State) : CodeRuns (some (codeRead spc addr s)) (opRead spc addr) s := by
  unfold codeRead
  split
  case isTrue hin =>
    simp only [CodeRuns, opRead, hin, if_true]
    rw [runCode_readCode spc addr _ _ _ rfl]
    rfl
  case isFalse hout => exact if_neg hout

theorem codeRuns_write (spc : Space) (addr : Addr) (v : Byte) (s : State) :
    CodeRuns (some (codeWrite spc addr v s)) (opWrite spc addr v) s := by
  unfold codeWrite
  split
  case isTrue hin =>
    split
    case isTrue hrun =>
      split
      case isTrue hlimit => simp only [CodeRuns, opWrite, hin, hrun, hlimit, if_true]
      case isFalse hlimit =>
        simp only [CodeRuns, opWrite, hin, hrun, hlimit, if_true, if_false]
        rfl
    case isFalse hrun =>
      simp only [CodeRuns, opWrite, hin, hrun, if_true]
      rfl
  case isFalse hout => exact if_neg hout

theorem codeRuns_writeV (spc : Space) (addr : Addr) (v : Byte) (s : State) :
    CodeRuns (some (codeWriteV spc addr v s)) (opWriteV spc addr v) s := by
  unfold codeWriteV
  split
  case isTrue hin =>
    split
    case h_1 hmask => simp only [CodeRuns, opWriteV, hin, hmask, if_true]
    case h_2 mask hmask =>
      split
      case isTrue htrig => simp only [CodeRuns, opWriteV, hin, hmask, htrig, if_true]
      case isFalse htrig =>
        simp only [CodeRuns, opWriteV, hin, hmask, htrig, if_true]
        rcases hwrite : writeV s.cfg spc addr v mask s.world with ⟨_ | f, w⟩
        case none => exact runCode_writeV_ok hwrite _ _
        case some => exact runCode_writeV_fault hwrite _ _
  case isFalse hout => exact if_neg hout

theorem codeRuns_bridge (wnr : Bool) (sa v : Byte) (s : State) :
    CodeRuns (some (codeBridge wnr sa v s)) (opBridge wnr sa v) s := by
  unfold codeBridge
  split
  case isTrue hout => exact opBridge_outside wnr v s hout
  case isFalse hin =>
    have hsa : sa.toNat ≤ 127 := Nat.le_of_not_lt hin
    change runCode _ _ s = opBridge wnr sa v s
    rcases hmoved : bridgeMoved s.cfg wnr sa v s.world with ⟨_ | f, w⟩
    case some => rw [runCode_bridgeCode hmoved, opBridge_error hsa (bridge_of_fault hmoved)]; rfl
    case none =>
      have hbridge := bridge_of_moved hmoved
      rw [runCode_bridgeCode hmoved]
      cases wnr with
      | true => rw [opBridge_ok hsa hbridge]; rfl
      | false =>
        rw [opBridge_ok hsa hbridge]
        exact runCode_readCode .us brRdataAddr [.retByte] _ { s with world := w } rfl

theorem runCode_codeReply (r : Reply) (x : Locals) (s : State) : runCode (codeReply r s) x s = opReply r s := by
  rw [codeReply, runCode_span]
  rfl

theorem runCode_codeTag (ch : Chan) (f : TagFlags) (x : Locals) (s : State) : runCode (codeTag ch f s) x s = opDecTag ch f s := by
  have hcode : codeTag ch f s = readCode s.cfg .us statusAddr ++ (.tagStatus ch ::
      ((tagParts f).flatMap (fun p => spanCode (p.fields s.cfg) ++ [.tagPart ch p]) ++ [.ret (.exitCode 0)])) := by
    simp [codeTag]
  rw [hcode, runCode_readCode .us statusAddr _ _ _ rfl, runCode, opDecTag_eq, res_world]
  by_cases hexit : exitCodeOf s.cfg.userMap (readByte s.cfg .us statusAddr s.world).1 = 0
  case neg =>
    rw [if_neg hexit]
    exact if_pos hexit
  case pos =>
    obtain ⟨x', hx⟩ := runCode_tagParts (c := s.cfg) ch [.ret (.exitCode 0)] (tagParts f)
      { x with got := 0 } ({ s with world := (readByte s.cfg .us statusAddr s.world).2 }.putRes ch (recorded s ch true))
      (State.putRes_cfg _ _ _)
    rw [if_pos hexit]
    refine (if_neg (not_not.mpr hexit)).trans (hx.trans ?_)
    rw [State.res_putRes, State.putRes_world, ← putRes_world_comm, putRes_putRes]
    rfl

/-- The end of a retune in a list of micro-steps. -/
theorem elim_ret (o : Option FaultCode) (t : State) (v : Value) (x : Locals) :
    o.elim (runCode [.ret v] x t) t.raise = t.conclude o v := by
  cases o <;> rfl

theorem runCode_codeTune (ch : Channel) (x : Locals) (s : State) : runCode (codeTune ch s) x s = opTune ch s := by
  obtain ⟨x', hx⟩ := runCode_tuneCode ch [.ret (.channel ch)] x s
  exact hx.trans (elim_ret _ _ _ _)

theorem runCode_codeHop (x : Locals) (s : State) : runCode (codeHop s) x s = opHop s := by
  obtain ⟨x', hx⟩ := runCode_tuneCode (nextHop s.cfg s.fac.hopChannel) [.ret (.channel (nextHop s.cfg s.fac.hopChannel))] x
    s.advanceHop
  exact Eq.trans hx (elim_ret _ _ _ _)

theorem runCode_codeAlt (x : Locals) (s : State) : runCode (codeAlt s) x s = opAlt s := by
  unfold codeAlt opAlt
  split
  case isTrue hphase =>
    obtain ⟨x', hx⟩ := runCode_tuneCode (nextHop s.cfg s.fac.hopChannel)
      [.hopped, .ret (.alt .hop (nextHop s.cfg s.fac.hopChannel) ((s.fac.nonce + 1) % 2 ^ s.cfg.nonceBits))] x s.advanceHop
    refine Eq.trans hx ?_
    have hch : nextHop s.cfg s.fac.hopChannel = s.advanceHop.fac.hopChannel := rfl
    simp only [opAltHop, hch]
    rcases tune_eq s.advanceHop.fac.hopChannel s.advanceHop with ⟨code, w, h⟩ | ⟨w, h⟩
    · rw [h]; rfl
    · rw [h]; rfl
  case isFalse hphase =>
    obtain ⟨x', hx⟩ := runCode_tuneCode (skipCh s.cfg s.fac.hopChannel)
      [.skipped, .ret (.alt .skip (skipCh s.cfg s.fac.hopChannel) s.fac.nonce)] x s
    refine Eq.trans hx ?_
    simp only [opAltSkip]
    rcases tune_eq (skipCh s.cfg s.fac.hopChannel) s with ⟨code, w, h⟩ | ⟨w, h⟩
    · rw [h]; rfl
    · rw [h]; rfl

theorem codeRuns_retune {code : List Micro} {run : State → State} {s : State} (h : runCode code Locals.start s = run s) :
    CodeRuns (some (codeRetune code s)) (retune run) s := by
  unfold codeRetune
  split
  case isTrue hfit => exact h.trans (retune_fit hfit run).symm
  case isFalse hfit => exact retune_unfit (by simpa using hfit) run

theorem codeRuns_opCode (i : Instr) (s : State) : CodeRuns (opCode i s) (opOf i) s := by
  cases i with
  | rdWv | rdRx | rdTx | rdUs => exact codeRuns_read _ _ s
  | wrWv | wrRx | wrTx | wrUs => exact codeRuns_write _ _ _ s
  | wrvWv | wrvRx | wrvTx | wrvUs => exact codeRuns_writeV _ _ _ s
  | brd | bwr => exact codeRuns_bridge _ _ _ s
  | evclr | evwait | resNew => rfl
  | resFail ch => cases ch <;> rfl
  | decRn16 | decHandle | decWrack => exact runCode_codeReply _ _ s
  | decRead n =>
    simp only [opCode]
    split
    case isTrue h => exact if_pos h
    case isFalse h => exact (runCode_codeReply _ _ s).trans (if_neg h).symm
  | decTag => exact runCode_codeTag _ _ _ s
  | hop => exact codeRuns_retune (runCode_codeHop _ s)
  | skip => exact codeRuns_retune (runCode_codeTune _ _ s)
  | alt => exact codeRuns_retune (runCode_codeAlt _ s)
  | setCh ch =>
    simp only [opCode]
    split
    case isTrue h => exact if_pos h
    case isFalse h =>
      have hop : opOf (.setCh ch) s = retune (opTune (Fin.ofNat nChannels ch.toNat)) s := if_neg h
      have hcode := codeRuns_retune (runCode_codeTune (Fin.ofNat nChannels ch.toNat) Locals.start s)
      unfold CodeRuns at hcode ⊢
      rw [hop]
      exact hcode
  | calBrute => exact (runCode_measureCode _ _ _ _ _).trans (opCalBrute_eq s).symm
  | calGrad => exact (runCode_measureCode _ _ _ _ _).trans (opCalGrad_eq s).symm
  | txnRdWv | txnWrWv | txnRdRx | txnWrRx | txnRdTx | txnWrTx | txnRdUs | txnWrUs => trivial

-- ---------------------------------------------------------------- one micro-step at the ports

/-- At most one event at the ports and at most one turn of the environment. -/
def OneStep (w w' : World) : Prop :=
  (w'.trace = w.trace ∨ ∃ e, w'.trace = e :: w.trace) ∧ (w'.script = w.script ∨ ∃ batch, w.script = batch :: w'.script)

theorem OneStep.refl (w : World) : OneStep w w := ⟨.inl rfl, .inl rfl⟩

theorem script_tail (l : List (List EnvStep)) : l.tail = l ∨ ∃ batch, l = batch :: l.tail := by
  cases l with
  | nil => exact .inl rfl
  | cons batch rest => exact .inr ⟨batch, rfl⟩

theorem oneStep_turn (c : Cfg) (w : World) : OneStep w (w.envTurn c) :=
  ⟨.inl (World.envTurn_trace c w), by rw [World.envTurn_script]; exact script_tail _⟩

theorem oneStep_xfer (c : Cfg) (q : Quad) (w : World) : OneStep w (xfer c q w).2 :=
  ⟨.inr ⟨_, xfer_trace c q w⟩, by rw [xfer_script]; exact script_tail _⟩

theorem oneStep_clearFlag (c : Cfg) (e : Event) (w : World) : OneStep w (clearFlag c e w) := oneStep_turn c w

/-- A pulse or a sample behind a turn of the environment. -/
theorem oneStep_event {c : Cfg} {w w' : World} (e : PortEvent) (htrace : w'.trace = e :: (w.envTurn c).trace)
    (hscript : w'.script = (w.envTurn c).script) : OneStep w w' :=
  ⟨.inr ⟨e, by rw [htrace, World.envTurn_trace]⟩, by rw [hscript, World.envTurn_script]; exact script_tail _⟩

theorem oneStep_microStep (m : Micro) (code : List Micro) (x : Locals) (s : State) :
    OneStep s.world (microStep m code x s).world := by
  cases m with
  | xfer => exact oneStep_xfer _ _ _
  | clear e => exact oneStep_clearFlag _ e _
  | pulse => exact oneStep_event (c := s.cfg) _ rfl rfl
  | draw => exact oneStep_event (c := s.cfg) _ rfl rfl
  | attempts spc addr v mask n => cases n <;> exact .refl _
  | polls n => cases n <;> exact .refl _
  | bytes a n => cases n <;> exact .refl _
  | compare | pollTest | hold | await => simp only [microStep]; split <;> exact .refl _
  | tagStatus ch =>
    simp only [microStep]
    split
    case isTrue => cases ch <;> exact .refl _
    case isFalse => cases ch <;> exact .refl _
  | tagPart ch | failed ch => cases ch <;> exact .refl _
  | _ => exact .refl _

theorem oneStep_heldTurn {e : Event} {s t : State} (h : heldTurn e s = .next t) : OneStep s.world t.world := by
  unfold heldTurn at h
  split at h
  case isTrue => cases h
  case isFalse => cases h; exact oneStep_turn _ _

theorem oneStep_heldCal {k : CalAt} {s t : State} (h : heldCal k s = .next t) : OneStep s.world t.world := by
  simp only [heldCal] at h
  split at h
  case isTrue => cases h; exact .refl _
  case isFalse => exact (oneStep_heldTurn h :)

theorem isTxn_of_opCode {i : Instr} {s : State} (h : opCode i s = none) : i.isTxn = true := by
  cases i with
  | txnRdWv | txnWrWv | txnRdRx | txnWrRx | txnRdTx | txnWrTx | txnRdUs | txnWrUs => rfl
  | _ => cases h

/-- An operation that begins has sent nothing; a transaction on the wire is one exchange. -/
theorem oneStep_beginOp {i : Instr} {s t : State} (h : beginOp i s = .next t) : OneStep s.world t.world := by
  unfold beginOp at h
  split at h
  case h_1 hcode =>
    rw [exec_txn (isTxn_of_opCode hcode)] at h
    rw [← State.command_eq_next h]
    exact oneStep_xfer _ _ _
  case h_2 => rw [← State.command_eq_next h]; exact .refl _
  case h_3 => rw [← State.command_eq_next h]; exact .refl _

theorem oneStep_tick {s t : State} (h : tick s = .next t) : OneStep s.world t.world := by
  unfold tick at h
  split at h
  case h_1 hs =>
    split at h
    case h_1 => cases h; exact oneStep_turn _ _
    case h_2 inp rest _ =>
      cases inp with
      | command w =>
        simp only [beginInput] at h
        split at h
        · exact (oneStep_beginOp h :)
        · cases h; exact .refl _
      | wire w =>
        change runWire w { s with client := rest } = _ at h
        rw [runWire_of_ready (s := { s with client := rest }) hs] at h
        cases h
        exact oneStep_xfer _ _ _
  case h_2 => cases h; exact .refl _
  case h_3 m code x _ => cases h; exact oneStep_microStep m code x s
  case h_4 e _ =>
    split at h
    · cases h; exact .refl _
    · exact oneStep_heldTurn h
  case h_5 a b _ => exact oneStep_heldCal h
  case h_6 g _ => exact oneStep_heldCal h

-- ---------------------------------------------------------------- whole operations

/-- An operation begun comes to what `exec` makes of it. -/
theorem beginOp_reaches {i : Instr} {s t : State} (hready : Ready s) (h : exec i s = .next t) :
    ∃ u, beginOp i s = .next u ∧ Reaches u t := by
  have hruns := codeRuns_opCode i s
  have ht := exec_eq_next h
  unfold beginOp
  cases hcode : opCode i s with
  | none => exact ⟨t, h, .refl t⟩
  | some o =>
    rw [hcode] at hruns
    cases o with
    | error r =>
      refine ⟨s.reject r, State.command_of_ready hready _, .of_eq ?_⟩
      rw [← ht]
      exact hruns.symm
    | ok code =>
      refine ⟨s.at code Locals.start, State.command_of_ready hready _, ?_⟩
      rw [← ht, ← show runCode code Locals.start s = opOf i s from hruns]
      exact reaches_runCode code Locals.start s

/-- A held calibration with a step goes on to what its step makes. -/
theorem reaches_step_held {k : CalAt} {s t : State} (hseq : s.seq = k.held) (h : step s = .next t) :
    Reaches s (resumeCal k s) := by
  have hlive : ¬(s.world.ev.get .sampleReady = false ∧ s.world.script = []) := by
    rintro ⟨hflag, hquiet⟩
    have hwaits : s.seq.waitsFor = some .sampleReady := by rw [hseq]; cases k <;> rfl
    rw [step_held hwaits hflag hquiet] at h
    cases h
  obtain ⟨x, hx⟩ := reaches_waited_of_live hseq hlive
  exact hx.trans (reaches_resumeCal k s x)

/-- A step of an operation in progress is what some number of micro-steps comes to. -/
theorem reaches_step {s t : State} (hseq : s.seq ≠ .idle) (h : step s = .next t) : Reaches s t := by
  have hresume : resume s = t := by
    cases stepOf_of_step h with
    | resumed _ ht => exact ht
    | turn hready | taken _ _ _ hready | rejected _ _ hready | wire _ _ hready => exact absurd hready hseq
  rw [← hresume]
  unfold resume
  split
  case h_1 hs => exact absurd hs hseq
  case h_2 code x hs =>
    have hat : s = s.at code x := by rw [State.at, ← hs]
    exact Reaches.trans (.of_eq hat) (reaches_runCode code x s)
  case h_3 e hs => exact reaches_evWait e s hs
  case h_4 a b hs => exact reaches_step_held (k := .brute a b) hs h
  case h_5 g hs => exact reaches_step_held (k := .grad g) hs h

/-- Settles O9: an operation begun is a list of micro-steps, a held one a wait, and both come to what running them comes to. -/
theorem microStepsMakeTheOperation : Obligations.MicroStepsMakeTheOperation := by
  refine ⟨fun i s t hready h => ?_, fun s t hseq h => reaches_step hseq h, fun s t h => oneStep_tick h⟩
  obtain ⟨u, hu, n, hn⟩ := beginOp_reaches hready h
  exact ⟨u, n, hu, hn⟩

end Sys2Proof.Machine
end
